-- ==== Sys2Proof/Word.lean ====
section
/-!
DEFINITION. The word and byte types of the SK6144 and the one shape of its numbered storage: a list of
(number, value) pairs with strictly rising numbers, no pair holding what an unlisted number reads as.
-/
namespace Sys2Proof

/-- A 64-bit word (R4). -/
abbrev Word := BitVec 64
/-- A byte (R4). -/
abbrev Byte := BitVec 8

/-- Numbered storage: pairs of a number and a value, numbers strictly rising, no default value listed. -/
abbrev Table (α : Type) := List (Nat × α)

end Sys2Proof
end

