-- ==== Sys2Proof/Config.lean ====
section
/-!
DEFINITION. What the implementation fixes and what the spec leaves open. Every constant here without a body is a
free value: nothing in Lean can evaluate it, so no proof rests on what it is.
-/
namespace Sys2Proof.Config

/-- STEPID, the stepping and binning of this part (R351): the spec gives no value (log 4). -/
opaque stepId : BitVec 64
/-- SERIAL0 and SERIAL1, the serial number of this part (R351): the spec gives no value (log 4). -/
opaque serial0 : BitVec 64
/-- The high half of the serial number (R351, log 4). -/
opaque serial1 : BitVec 64
/-- A free 64-bit value, one for each number (log 6). -/
opaque freeWord : Nat → BitVec 64
/-- A free byte, one for each number (log 6). -/
opaque freeByte : Nat → BitVec 8
/-- A free way of a cache set, for the replacements that the spec leaves open (R88, R89, log 15). -/
opaque freeWay : Nat → Nat
/-- Cycles until a neighbour has confirmed a packet at the link level, for packets by number (R434): the spec gives no
latency (log 44). -/
opaque linkCycles : Nat
/-- Whether a fused multiply-add of zero and infinity with a quiet NaN addend raises invalid: IEEE 754 leaves it
to the implementation and R32 names no choice (log 7). -/
opaque fmaInvalidWithNan : Bool
/-- The signature of a byte string under the device key (R356): the key is not in the spec (log 8). -/
opaque sign : List (BitVec 8) → List (BitVec 8)
/-- Whether a firmware image carries a valid signature of the root key (R353): the key is not in the spec (log 8). -/
opaque firmwareOk : List (BitVec 8) → Bool
/-- Whether a configuration record's signature holds under the keys of a firmware image (R353, log 8). -/
opaque recordOk : List (BitVec 8) → List (BitVec 8) → Bool

end Sys2Proof.Config
end

