-- ==== Sys2Proof/Syntax.lean ====
section
/-!
DEFINITION. The instructions and steps of the SK6144 as syntax: one constructor for each row of
spec/opcode_table.json. The 190 instruction rows come first, in the table's order, then the 102 rows that are
steps of the graph engine, the schedulers, the memory system, the fabric, the host and the steward.
-/
namespace Sys2Proof

/-- The fields of an EX command (R165, R166): guard, three operand fields, sub-operation, sluice fields and
extension. -/
structure Ex where
  g : BitVec 4
  f1 : BitVec 6
  f2 : BitVec 6
  f3 : BitVec 6
  x : BitVec 2
  wsl : BitVec 6
  wcnt : BitVec 6
  ssl : BitVec 6
  scnt : BitVec 6
  ext : BitVec 8
  deriving DecidableEq, Repr

/-- Who writes a device register (R339 to R342): a function of a host port, or the steward. -/
inductive Master where
  | host (port : BitVec 1) (fn : BitVec 6)
  | steward
  deriving DecidableEq, Repr

/-- What a packet's receiver must know and R330's header does not say, carried beside the packet (logs 20 to 24): `note`
is the nibble of a one-nibble write or copy (1 low, 2 high), what comes back of an atomic (1 the old value, 2 that of a
CAS), or 1 for a counter add under symmetric addressing; `plain` says that a read or write is a load or store of a
control stream (R405); `synd` and `aux` are a refusal's; for a delivery, whether it copies, the local byte
that a one-nibble copy shares with another, and its chunk's bytes and first address; for the bytes of a polder page, the
flags that reading its cells raised (R32); and for an add, the frame and the size code of its page (R112). -/
structure Beside where
  note : BitVec 2 := 0
  plain : Bool := false
  synd : Word := 0
  aux : Word := 0
  copies : Bool := false
  pair : Option Nat := none
  size : Nat := 0
  first : Word := 0
  flags : BitVec 5 := 0
  page : Option (Nat × Nat) := none
  deriving DecidableEq, Repr

/-- A packet on a Nympin link (R330, R331): the header fields, the payload, in `bad` the marks of the link's side band:
the places of the payload's poisoned values (R409); and what the model carries beside it. -/
structure Packet where
  dst : BitVec 13 := 0
  src : BitVec 13 := 0
  lane : BitVec 2 := 0
  kind : BitVec 4
  ctx : BitVec 6 := 0
  len : Nat := 0
  tag : BitVec 16 := 0
  addr : Word := 0
  cntaddr : Word := 0
  attr : Word := 0
  contrib : BitVec 32 := 0
  chunkno : BitVec 32 := 0
  etype : BitVec 4 := 0
  chunk : BitVec 4 := 0
  full : BitVec 40 := 0
  routine : Word := 0
  rarg : Word := 0
  msk : Bool := false
  data : List Byte := []
  bad : List Nat := []
  beside : Beside := {}
  deriving DecidableEq, Repr

/-- An access to device registers (R6, R342, R405): a store of 8 bytes; or a host function's access of another kind: a load,
a store of some bytes, a PCIe AtomicOp. -/
inductive RegAccess where
  | store (value : Word)
  | load (len : Nat)
  | bytes (data : List Byte)
  | atomic
  deriving DecidableEq, Repr

/-- A flit that a port retries (R433); `again` says that it is the one that the port's last retry concerned. -/
structure Retry where
  port : BitVec 3
  again : Bool
  deriving DecidableEq, Repr

/-- A measurement that R449 bounds: a die's temperature and the coolant's at the inlet, in 1/16 °C; the coolant's flow, in
mL/min; the supply, in mV, and for how many microseconds it has stood there. -/
inductive Reading where
  | die (die : BitVec 2) (temp : BitVec 16)
  | inlet (temp : Nat)
  | flow (rate : Nat)
  | supply (volts micros : Nat)
  deriving DecidableEq, Repr

/-- An access through the management port (R352). -/
inductive MgmtAccess where
  | read (addr : Nat)
  | write (addr : Nat) (value : Word)
  | flashFirmware (image : List Byte)
  | flashRecord (record : List Byte)
  | moduleReset
  deriving DecidableEq, Repr

/-- Every row of the opcode table. -/
inductive Instr where
  /-- R194: Writes s[a] + s[b] modulo 2^64 to s[d]. -/
  | add (g : BitVec 4) (d a b : BitVec 6)
  /-- R194: Writes s[a] - s[b] modulo 2^64 to s[d]. -/
  | sub (g : BitVec 4) (d a b : BitVec 6)
  /-- R194: Writes the low 64 bits of s[a] x s[b] to s[d]. -/
  | mul (g : BitVec 4) (d a b : BitVec 6)
  /-- R194: Writes the high 64 bits of the signed or unsigned 128-bit product to s[d]. -/
  | mulh (g : BitVec 4) (d a b : BitVec 6) (u : BitVec 1)
  /-- R195: Writes the signed or unsigned quotient rounded toward zero, never faulting. -/
  | div (g : BitVec 4) (d a b : BitVec 6) (u : BitVec 1)
  /-- R195: Writes the signed or unsigned remainder, never faulting. -/
  | rem (g : BitVec 4) (d a b : BitVec 6) (u : BitVec 1)
  /-- R194: Writes the bitwise AND of s[a] and s[b]. -/
  | and (g : BitVec 4) (d a b : BitVec 6)
  /-- R194: Writes the bitwise OR of s[a] and s[b]. -/
  | or (g : BitVec 4) (d a b : BitVec 6)
  /-- R194: Writes the bitwise XOR of s[a] and s[b]. -/
  | xor (g : BitVec 4) (d a b : BitVec 6)
  /-- R194: Writes s[a] AND NOT s[b]. -/
  | andn (g : BitVec 4) (d a b : BitVec 6)
  /-- R194: Shifts s[a] left by s[b][5:0]. -/
  | shl (g : BitVec 4) (d a b : BitVec 6)
  /-- R194: Shifts s[a] right by s[b][5:0] with zero fill. -/
  | shr (g : BitVec 4) (d a b : BitVec 6)
  /-- R194: Shifts s[a] right by s[b][5:0] with sign fill. -/
  | sar (g : BitVec 4) (d a b : BitVec 6)
  /-- R194: Writes the lesser of s[a] and s[b], compared signed or unsigned. -/
  | min (g : BitVec 4) (d a b : BitVec 6) (u : BitVec 1)
  /-- R194: Writes the greater of s[a] and s[b], compared signed or unsigned. -/
  | max (g : BitVec 4) (d a b : BitVec 6) (u : BitVec 1)
  /-- R194: Writes the population count, leading zeros, trailing zeros or byte swap of s[a]. -/
  | bitc (g : BitVec 4) (d a : BitVec 6) (k : BitVec 2)
  /-- R196: Adds the sign-extended 8-bit immediate to s[a]. -/
  | addi (g : BitVec 4) (d a : BitVec 6) (i : BitVec 8)
  /-- R196: Adds the sign-extended 32-bit immediate of the continuation to s[a]. -/
  | addiImm32 (g : BitVec 4) (d a : BitVec 6) (i : BitVec 32)
  /-- R196: Applies AND, OR, XOR or ANDN with a sign-extended 6-bit immediate. -/
  | logi (g : BitVec 4) (d a : BitVec 6) (o : BitVec 2) (v : BitVec 6)
  /-- R196: Applies a logical operation with a sign-extended 30-bit immediate. -/
  | logiImm32 (g : BitVec 4) (d a : BitVec 6) (o : BitVec 2) (v : BitVec 30)
  /-- R196: Shifts or rotates s[a] by an immediate amount. -/
  | shi (g : BitVec 4) (d a : BitVec 6) (o : BitVec 2) (n : BitVec 6)
  /-- R196: Shifts or rotates s[a] by an amount held in the imm32 continuation. -/
  | shiImm32 (g : BitVec 4) (d a : BitVec 6) (o : BitVec 2) (n : BitVec 6)
  /-- R196: Loads the sign-extended 8-bit immediate into s[d]. -/
  | ldi (g : BitVec 4) (d : BitVec 6) (i : BitVec 8)
  /-- R196: Loads the sign-extended 32-bit immediate into s[d]. -/
  | ldiImm32 (g : BitVec 4) (d : BitVec 6) (i : BitVec 32)
  /-- R196: Writes imm32 concatenated with the low half of s[a]. -/
  | ldih (g : BitVec 4) (d a : BitVec 6) (i : BitVec 32)
  /-- R197: Sets predicate d to the EQ, LT, LTU or TST relation of s[a] and s[b]. -/
  | cmp (g : BitVec 4) (d : BitVec 4) (a b : BitVec 6) (c : BitVec 2)
  /-- R197: Sets predicate d from a comparison of s[a] with a 6-bit immediate. -/
  | cmpi (g : BitVec 4) (d : BitVec 4) (a : BitVec 6) (c : BitVec 2) (v : BitVec 6)
  /-- R197: Sets predicate d from a comparison of s[a] with a 30-bit immediate. -/
  | cmpiImm32 (g : BitVec 4) (d : BitVec 4) (a : BitVec 6) (c : BitVec 2) (v : BitVec 30)
  /-- R198: Selects s[b], s[d] or zero into s[d] under a predicate. -/
  | sel (g : BitVec 4) (d : BitVec 6) (p : BitVec 4) (b : BitVec 6) (x : BitVec 2)
  /-- R199: Combines two predicates by AND, OR, XOR or ANDN. -/
  | plog (g : BitVec 4) (d a b : BitVec 4) (o : BitVec 2)
  /-- R200: Computes s[a] + (s[b] << sh). -/
  | lea (g : BitVec 4) (d a b : BitVec 6) (h : BitVec 2)
  /-- R200: Computes s[a] + (s[b] << sh) + sext(imm32). -/
  | leaImm32 (g : BitVec 4) (d a b : BitVec 6) (h : BitVec 2) (i : BitVec 32)
  /-- R201: Transfers to a line offset when the condition predicate equals sense. -/
  | br (c : BitVec 4) (n : BitVec 1) (f : BitVec 19)
  /-- R202: Transfers to slot 1 of the line whose address is in s[a]. -/
  | jmp (g : BitVec 4) (a : BitVec 6)
  /-- R201: Transfers to a line offset when taken and writes the next line address to s31. -/
  | call (c : BitVec 4) (n : BitVec 1) (f : BitVec 19)
  /-- R202: Transfers to the line in s[a], s31 by default. -/
  | ret (g : BitVec 4) (a : BitVec 6)
  /-- R204: Counts an iteration of hardware loop K and branches back until the trip is reached. -/
  | loop (g : BitVec 4) (d a : BitVec 6) (src : BitVec 2) (k : BitVec 3) (trip : BitVec 8) (off : BitVec 19)
  /-- R207: Initialises the coil state, rotation offsets and stage predicates. -/
  | pipeStart (g : BitVec 4) (a : BitVec 6) (stages : BitVec 3) (src : BitVec 2) (k : BitVec 3) (trip : BitVec 8)
  /-- R207: Counts a coil pass, rotates registers and predicates, and branches back until the coil ends. -/
  | pipeTurn (g : BitVec 4) (off : BitVec 19)
  /-- R209: FP64 add, subtract, minimum or maximum of scalar registers. -/
  | fadd (g : BitVec 4) (d a b : BitVec 6) (x : BitVec 2)
  /-- R209: FP64 multiply or negated multiply. -/
  | fmul (g : BitVec 4) (d a b : BitVec 6) (x : BitVec 1)
  /-- R209: FP64 fused multiply-add in four sign variants with s[d] as addend. -/
  | ffma (g : BitVec 4) (d a b : BitVec 6) (x : BitVec 2)
  /-- R209: Writes an FP64 relation EQ, LT, LE or UN into a predicate. -/
  | fcmp (g : BitVec 4) (d : BitVec 4) (a b : BitVec 6) (x : BitVec 2)
  /-- R210: Converts between FP64 and a type T in scalar registers. -/
  | fcvt (g : BitVec 4) (d a : BitVec 6) (t : BitVec 4) (x : BitVec 1)
  /-- R209: FP64 correctly rounded divide or square root. -/
  | fdsq (g : BitVec 4) (d a b : BitVec 6) (x : BitVec 1)
  /-- R211: Loads 8 bytes at s[a] + offset into s[d]. -/
  | ld (g : BitVec 4) (d a : BitVec 6) (i : BitVec 5)
  /-- R211: Loads 8 bytes at s[a] + a 32-bit offset into s[d]. -/
  | ldImm32 (g : BitVec 4) (d a : BitVec 6) (i : BitVec 29)
  /-- R212: Loads 1, 2, 4 or 8 bytes at s[a] + s[b], zero-extended. -/
  | ldx (g : BitVec 4) (d a b : BitVec 6) (z : BitVec 2)
  /-- R211: Posts an 8-byte store of s[d] at s[a] + offset. -/
  | st (g : BitVec 4) (d a : BitVec 6) (i : BitVec 5)
  /-- R211: Posts an 8-byte store at s[a] + a 32-bit offset. -/
  | stImm32 (g : BitVec 4) (d a : BitVec 6) (i : BitVec 29)
  /-- R211: Loads 8 bytes and then acquires at the named scope. -/
  | lda (g : BitVec 4) (d a : BitVec 6) (i : BitVec 5) (sc : BitVec 3)
  /-- R211: Acquiring load with a 32-bit offset. -/
  | ldaImm32 (g : BitVec 4) (d a : BitVec 6) (i : BitVec 29) (sc : BitVec 3)
  /-- R211: Posts a store that is a release of the named scope. -/
  | stl (g : BitVec 4) (d a : BitVec 6) (i : BitVec 5) (sc : BitVec 3)
  /-- R211: Releasing store with a 32-bit offset. -/
  | stlImm32 (g : BitVec 4) (d a : BitVec 6) (i : BitVec 29) (sc : BitVec 3)
  /-- R215: Value-returning atomic read-modify-write at the home. -/
  | amo (g : BitVec 4) (d a b : BitVec 6) (opc : BitVec 4) (sc : BitVec 3) (ord : BitVec 2) (size : BitVec 2)
  /-- R215: Posted non-returning atomic operation at the home. -/
  | amon (g : BitVec 4) (a b : BitVec 6) (opc : BitVec 4) (sc : BitVec 3) (ord : BitVec 2) (size : BitVec 2)
  /-- R215: Compare-and-swap at the home, returning the old value. -/
  | cas (g : BitVec 4) (d a b : BitVec 6) (sc : BitVec 3) (ord : BitVec 2) (size : BitVec 2)
  /-- R216: Posted floating-point add into a polder cell or an ordinary element at the home. -/
  | cadd (g : BitVec 4) (a b : BitVec 6) (sc : BitVec 3) (ord : BitVec 2) (ft : BitVec 4)
  /-- R217: Acquire, release or full fence of the control stream at a scope. -/
  | fence (g : BitVec 4) (k : BitVec 2) (sc : BitVec 3)
  /-- R218: Blocks until a sluice wait is ready, takes it and acquires. -/
  | slwait (g : BitVec 4) (sc : BitVec 3) (l n : BitVec 6)
  /-- R218: Releases and then signals or arrives at a sluice. -/
  | slsig (g : BitVec 4) (sc : BitVec 3) (l n : BitVec 6)
  /-- R219: Blocks until a timeline counter reaches s[a], then acquires. -/
  | tlwait (g : BitVec 4) (a : BitVec 6) (id : BitVec 8) (sc : BitVec 3)
  /-- R220: Arms an action on a timeline counter threshold. -/
  | tlarm (g : BitVec 4) (a b : BitVec 6) (id : BitVec 8)
  /-- R221: Pops a queue register entry into s[d], blocking while empty. -/
  | qrd (g : BitVec 4) (d : BitVec 6) (q : BitVec 3)
  /-- R221: Pushes s[b] into a queue register, blocking while full. -/
  | qwr (g : BitVec 4) (q : BitVec 3) (b : BitVec 6)
  /-- R222: Waits for an event latch bit, returns the bits and clears the latch. -/
  | wfe (g : BitVec 4) (d : BitVec 6)
  /-- R222: Sets bit 0 of the event latch of one core, a die or the device. -/
  | sev (g : BitVec 4) (a : BitVec 6) (x : BitVec 2)
  /-- R223: Pushes a format word into the format queue at bundle completion. -/
  | fmt (g : BitVec 4) (a : BitVec 6)
  /-- R224: Records a live-map index and pre-empts if a request is pending. -/
  | safept (g : BitVec 4) (i : BitVec 8)
  /-- R224: Safe point naming a live-map index above 255. -/
  | safeptImm32 (g : BitVec 4) (i : BitVec 32)
  /-- R225: Releases at PACKAGE scope and appends a run to a queue of the context. -/
  | launch (g : BitVec 4) (a b : BitVec 6)
  /-- R226: Ends the task once its bundle has dispatched, under the draining protocol. -/
  | exit
  /-- R227: Reads a CSR into s[d] and optionally writes, sets or clears it. -/
  | csr (g : BitVec 4) (d a : BitVec 6) (x : BitVec 2) (n : BitVec 12)
  /-- R231: Does nothing. -/
  | sysNop (g : BitVec 4)
  /-- R150: Returns from a user interrupt handler to the line and slot in h0. -/
  | sysUiret (g : BitVec 4)
  /-- R231: Delays at least one cycle before the next bundle. -/
  | sysPause (g : BitVec 4)
  /-- R237: Loads a tensor tile through the layout unit into the scratchpad. -/
  | tld (e : Ex)
  /-- R237: Stores a scratchpad tile into a tensor. -/
  | tst (e : Ex)
  /-- R237: Loads DEPTH strided tiles into the scratchpad. -/
  | tldx (e : Ex)
  /-- R237: Stores DEPTH strided tiles into a tensor. -/
  | tstx (e : Ex)
  /-- R238: Die multicast load matched across gang members. -/
  | tldb (e : Ex)
  /-- R239: Loads rows chosen by indices popped from a queue register. -/
  | gath (e : Ex)
  /-- R239: Stores rows to indices popped from a queue register. -/
  | scat (e : Ex)
  /-- R240: Copies scratchpad rows between descriptors. -/
  | scopy (e : Ex)
  /-- R240: Fills scratchpad rows with an 8-byte pattern. -/
  | sfill (e : Ex)
  /-- R241: Requests a tensor tile be brought into the memory-side cache or L2. -/
  | pref (e : Ex)
  /-- R242: Adds scratchpad elements into polder cells by cellAdd. -/
  | celladd (e : Ex)
  /-- R242: Clears the polder cells of a tile. -/
  | cellclr (e : Ex)
  /-- R242: Reads polder cells converted or raw into the scratchpad. -/
  | cellrd (e : Ex)
  /-- R242: Reads and clears polder cells indivisibly. -/
  | cellxc (e : Ex)
  /-- R243: Hands one berm routine run to a controller's berm engine. -/
  | brun (e : Ex)
  /-- R168: Copy stream waits on a sluice before later commands. -/
  | aslw (g : BitVec 4) (l n : BitVec 6)
  /-- R168: Copy stream signals a sluice once earlier commands complete. -/
  | asls (g : BitVec 4) (l n : BitVec 6)
  /-- R168: Copy stream waits for a core timeline counter threshold. -/
  | atlw (g : BitVec 4) (t sr : BitVec 6)
  /-- R246: Puts a tile to possibly remote memory with a completion counter. -/
  | lput (e : Ex)
  /-- R246: Gets a tile from possibly remote memory into the scratchpad. -/
  | lget (e : Ex)
  /-- R247: Adds an increment to a completion counter as a DOMAIN release. -/
  | lsig (e : Ex)
  /-- R246: Adds scratchpad elements into possibly remote polder cells with a counter. -/
  | lcell (e : Ex)
  /-- R255: Issues a collective described by a descriptor. -/
  | coll (e : Ex)
  /-- R248: Reads a counter until it reaches a threshold, then acquires. -/
  | lwaitc (e : Ex)
  /-- R249: Adds to the barrier counter of every mesh device, then waits on its own. -/
  | lbar (e : Ex)
  /-- R250: Completes when earlier link commands and control writes are performed at its scope. -/
  | lfence (e : Ex)
  /-- R250: Sets the event latch of a core on any device. -/
  | lnotify (e : Ex)
  /-- R168: Link stream waits on a sluice. -/
  | lslw (g : BitVec 4) (l n : BitVec 6)
  /-- R168: Link stream signals a sluice after earlier commands complete. -/
  | lsls (g : BitVec 4) (l n : BitVec 6)
  /-- R168: Link stream waits for a core timeline counter threshold. -/
  | ltlw (g : BitVec 4) (t sr : BitVec 6)
  /-- R275: Loads dense weights and scales into the shadow buffer. -/
  | wld (e : Ex)
  /-- R276: Loads a sparse weight tile into the shadow buffer. -/
  | wlds (e : Ex)
  /-- R277: Exchanges the active and shadow weight buffers. -/
  | wswap (e : Ex)
  /-- R280: Streams an A tile against dense weights by warp read into an accumulator. -/
  | wmm (e : Ex)
  /-- R280: Streams an A tile against dense weights by weft read into accumulators. -/
  | wmmt (e : Ex)
  /-- R280: Warp-read product against sparse weights. -/
  | wmms (e : Ex)
  /-- R280: Weft-read product against sparse weights. -/
  | wmmst (e : Ex)
  /-- R282: Accumulates an outer product into the cell sums. -/
  | wopa (e : Ex)
  /-- R282: Accumulates an outer product into kept cell sums of a sparse buffer. -/
  | wopas (e : Ex)
  /-- R283: Copies cell sums into an accumulator and optionally clears them. -/
  | wdrain (e : Ex)
  /-- R284: Clears an accumulator or the cell sums. -/
  | waclr (e : Ex)
  /-- R285: Promotes accumulator elements to a destination format in the scratchpad. -/
  | wprom (e : Ex)
  /-- R286: Adds scratchpad elements into an accumulator. -/
  | wacc (e : Ex)
  /-- R287: Copies raw accumulator pieces into vector tiles. -/
  | wmva (e : Ex)
  /-- R278: Writes the active or shadow weight buffer to the scratchpad. -/
  | wread (e : Ex)
  /-- R168: Weave stream waits on a sluice. -/
  | wslw (g : BitVec 4) (l n : BitVec 6)
  /-- R168: Weave stream signals a sluice after earlier commands complete. -/
  | wsls (g : BitVec 4) (l n : BitVec 6)
  /-- R168: Weave stream waits for a core timeline counter threshold. -/
  | wtlw (g : BitVec 4) (t sr : BitVec 6)
  /-- R297: Sets SHAPE at dispatch, directly or from tensor bounds. -/
  | vshape (e : Ex)
  /-- R317: Loads the valid region of a vector tile from the scratchpad. -/
  | vld (e : Ex)
  /-- R317: Stores active elements of a vector tile to the scratchpad. -/
  | vst (e : Ex)
  /-- R303: Broadcasts a scalar, row 0 or column 0 over active positions. -/
  | vbcast (e : Ex)
  /-- R303: Copies a tile, or pushes element (0,0) into a queue register. -/
  | vmov (e : Ex)
  /-- R301: Elementwise floating-point add. -/
  | vadd (e : Ex)
  /-- R301: Elementwise floating-point subtract. -/
  | vsub (e : Ex)
  /-- R301: Elementwise floating-point multiply. -/
  | vmul (e : Ex)
  /-- R301: Elementwise fused a x b + d. -/
  | vfma (e : Ex)
  /-- R301: Elementwise fused a x b - d. -/
  | vfms (e : Ex)
  /-- R301: Elementwise fused -(a x b) + d. -/
  | vfnma (e : Ex)
  /-- R301: Elementwise floating-point divide. -/
  | vdiv (e : Ex)
  /-- R301: Elementwise square root. -/
  | vsqrt (e : Ex)
  /-- R301: Elementwise minimum under R44. -/
  | vmin (e : Ex)
  /-- R301: Elementwise maximum under R44. -/
  | vmax (e : Ex)
  /-- R301: Clears the sign bit of each element. -/
  | vabs (e : Ex)
  /-- R301: Inverts the sign bit of each element. -/
  | vneg (e : Ex)
  /-- R302: Writes a floating-point relation into a mask tile. -/
  | vcmp (e : Ex)
  /-- R303: Selects a or b into each valid position under a mask. -/
  | vsel (e : Ex)
  /-- R305: Converts tile elements between types, including stochastic rounding. -/
  | vcvt (e : Ex)
  /-- R301: Rounds elements to integral values. -/
  | vround (e : Ex)
  /-- R304: Correctly rounded e^x. -/
  | vexp (e : Ex)
  /-- R304: Correctly rounded 2^x. -/
  | vexp2 (e : Ex)
  /-- R304: Correctly rounded natural logarithm. -/
  | vlog (e : Ex)
  /-- R304: Correctly rounded base-2 logarithm. -/
  | vlog2 (e : Ex)
  /-- R304: Correctly rounded reciprocal. -/
  | vrcp (e : Ex)
  /-- R304: Correctly rounded reciprocal square root. -/
  | vrsq (e : Ex)
  /-- R304: Correctly rounded hyperbolic tangent. -/
  | vtanh (e : Ex)
  /-- R304: Correctly rounded logistic sigmoid. -/
  | vsigm (e : Ex)
  /-- R304: Correctly rounded sine. -/
  | vsin (e : Ex)
  /-- R304: Correctly rounded cosine. -/
  | vcos (e : Ex)
  /-- R304: Correctly rounded error function. -/
  | verf (e : Ex)
  /-- R306: Integer add, wrapping or saturating. -/
  | viadd (e : Ex)
  /-- R306: Integer subtract, wrapping or saturating. -/
  | visub (e : Ex)
  /-- R306: Low half of integer products. -/
  | vimul (e : Ex)
  /-- R306: High half of integer products. -/
  | vmulhi (e : Ex)
  /-- R306: Integer minimum. -/
  | vimin (e : Ex)
  /-- R306: Integer maximum. -/
  | vimax (e : Ex)
  /-- R306: Integer absolute value. -/
  | viabs (e : Ex)
  /-- R306: Bitwise AND of tiles. -/
  | vand (e : Ex)
  /-- R306: Bitwise OR of tiles. -/
  | vor (e : Ex)
  /-- R306: Bitwise XOR of tiles. -/
  | vxor (e : Ex)
  /-- R306: Elementwise left shift. -/
  | vshl (e : Ex)
  /-- R306: Elementwise logical right shift. -/
  | vshr (e : Ex)
  /-- R306: Elementwise arithmetic right shift. -/
  | vsar (e : Ex)
  /-- R302: Writes an integer relation into a mask tile. -/
  | vicmp (e : Ex)
  /-- R306: Counts leading zeros of elements. -/
  | vclz (e : Ex)
  /-- R306: Counts one bits of elements. -/
  | vpopc (e : Ex)
  /-- R306: Clamps elements to a q-bit range. -/
  | vsat (e : Ex)
  /-- R307: Reduces a tile by the fixed pairwise tree over all, rows or columns. -/
  | vred (e : Ex)
  /-- R308: Computes inclusive or exclusive prefixes along rows or columns. -/
  | vscan (e : Ex)
  /-- R309: Transposes the valid region of a tile. -/
  | vtrans (e : Ex)
  /-- R310: Shifts or rotates elements along rows or columns. -/
  | vshift (e : Ex)
  /-- R311: Gathers rows by 16-bit indices. -/
  | vrowg (e : Ex)
  /-- R312: Compacts active elements to flat positions. -/
  | vpack (e : Ex)
  /-- R312: Expands flat positions into active elements. -/
  | vunpk (e : Ex)
  /-- R313: Quantises to MX elements with square-block scales. -/
  | vmxq (e : Ex)
  /-- R314: Expands MX elements by their block scales. -/
  | vmxd (e : Ex)
  /-- R315: Writes mask bits by logic, validity or nonzero test. -/
  | vmask (e : Ex)
  /-- R316: Sets mask bits by floating-point class and sign. -/
  | vclass (e : Ex)
  /-- R316: Copies or XORs signs between tiles. -/
  | vcopysgn (e : Ex)
  /-- R316: Scales elements by 2^n. -/
  | vldexp (e : Ex)
  /-- R316: Returns floor(log2|a|) as an element. -/
  | vgetexp (e : Ex)
  /-- R168: Vector stream waits on a sluice. -/
  | vslw (g : BitVec 4) (l n : BitVec 6)
  /-- R168: Vector stream signals a sluice after earlier commands complete. -/
  | vsls (g : BitVec 4) (l n : BitVec 6)
  /-- R168: Vector stream waits for a core timeline counter threshold. -/
  | vtlw (g : BitVec 4) (t sr : BitVec 6)
  /-- R161: Fetches a code line and checks its header on entry. -/
  | lineFetch (core : BitVec 8)
  /-- R157: Captures an engine slot into its queue once an entry is free. -/
  | engineSlotDispatch (core : BitVec 8)
  /-- R133: An engine command's effects are done; its counter advances and it signals. -/
  | commandComplete (core : BitVec 8) (eng : BitVec 2)
  /-- R133: A home acknowledges a memory-side operation of a task. -/
  | homeAcknowledgement (core : BitVec 8) (eng : BitVec 3) (draining : Bool)
  /-- R148: Takes a pending user interrupt at a bundle boundary. -/
  | userInterruptEntry (core : BitVec 8)
  /-- R6: Write to a device or context register that has no row of its own. -/
  | registerWrite (who : Master) (addr : Nat) (acc : RegAccess)
  /-- R79: Appends a run to a queue, or drops it with notice 0x0809. -/
  | trigWrite (ctx : BitVec 6) (queue : BitVec 4) (value : Word)
  /-- R79: Starts a pending run: applies patches, numbers kernels and readies root nodes. -/
  | runStart (ctx : BitVec 6) (queue : BitVec 4)
  /-- R61: Checks a ready kernel, copies its parameter block and releases it. -/
  | kernelRelease (ctx : BitVec 6) (queue : BitVec 4) (node : Nat)
  /-- R62: A die scheduler starts the first eligible task on a free core. -/
  | taskStart (core : BitVec 8)
  /-- R65: Starts all members of a gang at once on one die. -/
  | gangPlace (die : BitVec 2)
  /-- R66: After RESV cycles a die scheduler begins reserving cores for a gang. -/
  | gangReserve (die : BitVec 2)
  /-- R63: An exiting task moves to the freed draining slot. -/
  | taskEnterDraining (core : BitVec 8)
  /-- R63: A draining task's outstanding work is acknowledged and it retires. -/
  | taskRetire (core : BitVec 8)
  /-- R379: A fault stops the task, awaits acknowledgements and writes the fault image. -/
  | taskStop (core : BitVec 8)
  /-- R82: The digest engine reads a D2 kernel's output regions and hashes them. -/
  | digestCompute (ctx : BitVec 6) (queue : BitVec 4)
  /-- R82: Chains a digest into the queue hash in sequence order. -/
  | hashChain (ctx : BitVec 6) (queue : BitVec 4)
  /-- R83: Reading HASH0 snapshots H and HSEQ. -/
  | hash0Read (ctx : BitVec 6) (queue : BitVec 4)
  /-- R77: A timeline wait node completes when its counter reaches the threshold. -/
  | timelineWaitNode (ctx : BitVec 6) (queue : BitVec 4) (node : Nat)
  /-- R77: A timeline signal node adds its increment to a counter. -/
  | timelineSignalNode (ctx : BitVec 6) (queue : BitVec 4) (node : Nat)
  /-- R73: After earlier kernels of its queue complete, writes CTXLVL. -/
  | setLevelNode (ctx : BitVec 6) (queue : BitVec 4) (node : Nat)
  /-- R346: Writes NOTE and raises the queue's MSI-X vector. -/
  | hostNotifyNode (ctx : BitVec 6) (queue : BitVec 4) (node : Nat)
  /-- R77: Runs a called graph and completes when all its nodes complete. -/
  | subgraphCallNode (ctx : BitVec 6) (queue : BitVec 4) (node : Nat)
  /-- R254: Issues the collective held in a graph node. -/
  | collectiveNode (ctx : BitVec 6) (queue : BitVec 4) (node : Nat)
  /-- R74: Writing 1 to PREEMPT requests pre-emption of the context's tasks. -/
  | preemptWrite (ctx : BitVec 6) (value : Word)
  /-- R81: A task held a core SLICE cycles while another context waits; pre-emption is requested. -/
  | sliceExpiry (core : BitVec 8)
  /-- R74: PREDL passes without a safe point and a full save begins. -/
  | preemptDeadline (core : BitVec 8)
  /-- R76: After acknowledgements the core writes the save image and frees the slot. -/
  | preemptSave (core : BitVec 8)
  /-- R81: A saved task resumes on its own core from its image. -/
  | taskResume (core : BitVec 8)
  /-- R98: Starts a TLB invalidation of a page or the context. -/
  | tlbinvWrite (ctx : BitVec 6) (value : Word)
  /-- R98: All matching entries are dropped and TLBSTAT.BUSY clears. -/
  | tlbInvalidationComplete (ctx : BitVec 6)
  /-- R108: Writing MIGSUB.H submits or refuses a frame migration. -/
  | migrationSubmit (value : Word)
  /-- R109: The engine copies the next unarrived granule and completes the migration at the end. -/
  | migrationBackgroundCopy (slot granule : Nat)
  /-- R110: Writing CHRET removes a channel from LCT and starts re-placement. -/
  | channelRetire (value : Word)
  /-- R110: Background engines move granules to their new placement until BUSY clears. -/
  | retirementFill
  /-- R111: At epoch end frames at threshold are proposed or counted as skipped. -/
  | hotPageEpochEnd
  /-- R111: Returns and removes the oldest hot-page proposal. -/
  | hppopRead
  /-- R350: The fabric manager adds an extent in state offered. -/
  | extentAdd (pt : BitVec 1) (entry : BitVec 8) (base : Word) (units : BitVec 32)
  /-- R350: EXTCTL accept brings an offered extent online. -/
  | extentAccept (pt : BitVec 1) (entry : BitVec 8)
  /-- R350: EXTCTL release moves an online extent to releasing and writes back its lines. -/
  | extentRelease (pt : BitVec 1) (entry : BitVec 8)
  /-- R414: Write-backs are accepted, the release is reported and the entry becomes free. -/
  | extentReleaseComplete (pt : BitVec 1) (entry : BitVec 8)
  /-- R350: A fabric manager release request raises PF0 vector 16. -/
  | extentReleaseRequest (pt : BitVec 1) (entry : BitVec 8)
  /-- R415: The fabric manager removes an extent by force; dirty lines are lost. -/
  | extentForcedRemoval (pt : BitVec 1) (entry : BitVec 8)
  /-- R415: A failed CXL link force-removes every extent of its port. -/
  | cxlLinkFailure (pt : BitVec 1)
  /-- R415: A release not accepted within 1 s becomes a forced removal. -/
  | extentReleaseTimeout (pt : BitVec 1) (entry : BitVec 8)
  /-- R344: Changes the bindings of virtual functions to contexts. -/
  | vfbindWrite (k : BitVec 4) (value : Word)
  /-- R344: A host read through BAR2 translates and is served at the home. -/
  | hostBar2Read (port : BitVec 1) (fn : BitVec 6) (off len : Nat)
  /-- R344: A host write through BAR2 translates and is performed at the home. -/
  | hostBar2Write (port : BitVec 1) (fn : BitVec 6) (off : Nat) (data : List Byte)
  /-- R347: A GUCMD write starts copying a node array into scheduler memory. -/
  | graphUpload (ctx : BitVec 6)
  /-- R347: An upload finishes and later runs use the new image. -/
  | graphUploadComplete (ctx : BitVec 6)
  /-- R347: A GUCMD write with DROP removes a graph once its runs complete. -/
  | graphDrop (ctx : BitVec 6)
  /-- R356: An ATTREQ write queues a signed report request. -/
  | attestationRequest (value : Word)
  /-- R356: The steward writes a signed report and sets DEVEVT bit 1. -/
  | attestationReport
  /-- R357: Sets a die's clock step. -/
  | clockStepWrite (die : BitVec 2) (value : Word)
  /-- R358: Sets or clears a cluster's gate bit. -/
  | clusterGateWrite (die : BitVec 2) (value : Word)
  /-- R358: A marked cluster is gated once its cores hold no task. -/
  | clusterGateEntry (die : BitVec 2) (cluster : BitVec 4)
  /-- R359: Each millisecond the steward raises or lowers clock steps against PCAP. -/
  | powerCapTick (measured : BitVec 16)
  /-- R448: A die above 100 C is held at step 3. -/
  | thermalThrottle (die : BitVec 2) (temp : BitVec 16)
  /-- R448: A die below 95 C is released from the thermal hold. -/
  | thermalRelease (die : BitVec 2) (temp : BitVec 16)
  /-- R449: Heat, coolant or supply limits stop clocks and remove power. -/
  | emergencyStop (reading : Reading)
  /-- R450: The steward restarts from its verified image. -/
  | stewardWatchdogExpiry
  /-- R353: Power-on or module reset runs bring-up steps 1 to 3. -/
  | bringUp (badChannels : List Nat)
  /-- R355: Once all neighbours report, writes TOPO and SCOPETAB and completes bring-up. -/
  | torusDiscovery
  /-- R447: A port not trained 10 s into step 4 is marked down. -/
  | portTrainTimeout (port : BitVec 3)
  /-- R352: An I3C or management Ethernet access to the steward. -/
  | managementPortAccess (acc : MgmtAccess)
  /-- R431: After outstanding work completes, an aborted gang is placed again. -/
  | gangRelaunch (ctx : BitVec 6) (queue : BitVec 4) (node : Nat)
  /-- R377: A held fault record is written once the queue is enabled and has room. -/
  | faultRecordWrite (ctx : BitVec 6)
  /-- R378: A FQRESUME write releases a stopped task for resumption. -/
  | fqresumeResume (ctx : BitVec 6) (fseq : BitVec 32)
  /-- R378: A FQRESUME write releases a stopped task for abort. -/
  | fqresumeAbort (ctx : BitVec 6) (fseq : BitVec 32)
  /-- R378: In FSEQ order, a released resumable task is restored onto its core. -/
  | stoppedTaskResume (ctx : BitVec 6)
  /-- R378: In FSEQ order, a released task is discarded, retired and its kernel failed. -/
  | stoppedTaskDiscard (ctx : BitVec 6)
  /-- R426: Writing 1 to HALT lets the queue's next run start. -/
  | qfailHaltClear (ctx : BitVec 6) (queue : BitVec 4) (value : Word)
  /-- R446: FRZCTL release resumes a frozen master and refuses its held request. -/
  | freezeRelease (value : Word)
  /-- R446: FRZCTL reset discards a frozen master's work and restarts it. -/
  | freezeReset (value : Word)
  /-- R445: Returns and removes the oldest frozen master id. -/
  | frzpopRead
  /-- R411: Returns a channel's error counts and clears them. -/
  | cherrRead (chan : BitVec 9)
  /-- R411: Returns a die's SRAM error counts and clears them. -/
  | sramerrRead (die : BitVec 2)
  /-- R412: Returns the last migration event and clears it. -/
  | migerrRead
  /-- R433: Returns a port's error counts and clears them. -/
  | nyerrRead (port : BitVec 3)
  /-- R333: A packet arrives at an intermediate device and leaves by a productive port or is dropped. -/
  | packetHop (port : BitVec 3) (pkt : Packet)
  /-- R331: A read request is served at its home and answered with a response. -/
  | readRequest (port : BitVec 3) (pkt : Packet)
  /-- R331: A write, possibly masked, is performed at its home and acknowledged. -/
  | writeRequest (port : BitVec 3) (pkt : Packet)
  /-- R331: A remote atomic is performed at its home and answered. -/
  | atomicRequest (port : BitVec 3) (pkt : Packet)
  /-- R331: Remote cell adds are applied by cellAdd and counted. -/
  | cellAddRequest (port : BitVec 3) (pkt : Packet)
  /-- R139: A counter increment is applied after the bytes it counts. -/
  | counterAddRequest (port : BitVec 3) (pkt : Packet)
  /-- R250: A notify sets a core's event latch if the context matches. -/
  | notifyRequest (port : BitVec 3) (pkt : Packet)
  /-- R331: Returned read data reaches the issuer. -/
  | readResponse (port : BitVec 3) (pkt : Packet)
  /-- R334: A positive acknowledgement confirms an operation performed at its home. -/
  | acknowledgement (port : BitVec 3) (pkt : Packet)
  /-- R434: A refusal with a fault code faults the issuer. -/
  | negativeAcknowledgement (port : BitVec 3) (pkt : Packet)
  /-- R335: A weir engine applies reduce terms, counts the chunk and may set its flag. -/
  | reduceTerm (port : BitVec 3) (pkt : Packet)
  /-- R335: A staged FP32 term is added once lower contributors have been added. -/
  | heldTermApply (ctx : BitVec 6) (cnt : Word)
  /-- R256: A reducer's summed chunk is merged into a member's target. -/
  | reduceForward (port : BitVec 3) (pkt : Packet)
  /-- R331: Steward traffic delivered in order on the management lane. -/
  | managementPacket (port : BitVec 3) (index : BitVec 13) (sx sy sz : BitVec 8)
  /-- R433: A packet of kind 11 to 15 is discarded and counted. -/
  | reservedKindPacket (port : BitVec 3) (pkt : Packet)
  /-- R332: A receiver tells the sender to stop a lane. -/
  | laneStop (port lane : BitVec 3)
  /-- R332: A receiver tells the sender to resume a lane. -/
  | laneGo (port lane : BitVec 3)
  /-- R433: A flit failing its check is retried on the same link. -/
  | linkRetry (flit : Retry)
  /-- R433: After 16 retries of one flit the port goes down. -/
  | portDown (port : BitVec 3)
  /-- R435: FABTO passes without an answer and the issuer faults with 0x0702. -/
  | ackTimeout (tag : BitVec 16)
  /-- R323: A berm engine starts the next accepted run: checks, reads, computes and writes. -/
  | bermRun (ctrl : BitVec 4)
  /-- R325: A run's writes are performed; TL.BERM advances and a BRUN completes. -/
  | bermRunFinish (ctrl : BitVec 4)
  /-- R449: A normal power-off removes power from the module, losing memory contents, and leaves LASTOFF cause 0 for the
  next bring-up. -/
  | powerOff
  deriving DecidableEq, Repr

end Sys2Proof
end

