-- ==== Sys2Proof/WellFormed.lean ====
section
/-!
DEFINITION. Well-formed instructions: the reserved values that R384 names, as far as an instruction's own fields
can hold them. Each defect carries its place in R384's table, so that a slot with several defects reports the
first.
-/
namespace Sys2Proof

/-- Why a slot does not decode (R384), in the order of that table. -/
inductive Reject where
  /-- Slot tags 8 to 15 (0x0101). -/
  | slotTag
  /-- A misplaced continuation (0x0102). -/
  | continuation
  /-- Header LCTL not zero (0x0103). -/
  | lctl
  /-- A reserved opcode (0x0104). -/
  | opcode
  /-- An opcode under another stream's tag (0x0105). -/
  | stream
  /-- A length the opcode does not permit (0x0106). -/
  | length
  /-- More than three control instructions or two control transfers in a bundle (0x0107). -/
  | bundle
  /-- A register field value that R169 reserves (0x0108). -/
  | regField
  /-- A reserved sluice field value (0x010A). -/
  | sluice
  /-- A reserved sub-operation, type, rounding or other coded value (0x0108). -/
  | value
  /-- A nonzero must-be-zero bit (0x0109). -/
  | mbz
  deriving DecidableEq, Repr

/-- The fault code of each rejection (R373, R384). -/
def Reject.code : Reject → Nat
  | .slotTag => 0x0101
  | .continuation => 0x0102
  | .lctl => 0x0103
  | .opcode => 0x0104
  | .stream => 0x0105
  | .length => 0x0106
  | .bundle => 0x0107
  | .regField => 0x0108
  | .sluice => 0x010A
  | .value => 0x0108
  | .mbz => 0x0109

/-- The place in R384's table. -/
def Reject.rank : Reject → Nat
  | .slotTag => 0
  | .continuation => 1
  | .lctl => 2
  | .opcode => 3
  | .stream => 4
  | .length => 5
  | .bundle => 6
  | .regField => 7
  | .sluice => 8
  | .value => 9
  | .mbz => 10

/-- The defect that R384 reports among several. -/
def firstReject : List Reject → Option Reject
  | [] => none
  | r :: rs =>
    match firstReject rs with
    | none => some r
    | some q => if r.rank ≤ q.rank then some r else some q

/-- The register classes of R169 as the fields of an engine slot use them. -/
inductive FieldClass where
  | scalar | pair | pred | vtile | mask | acc | queue | tsrc | zero | free
  deriving DecidableEq, Repr

/-- The defects of one register field under its class (R169). -/
def FieldClass.defects (c : FieldClass) (f : BitVec 6) : List Reject :=
  let bad (b : Bool) (r : Reject) : List Reject := if b then [r] else []
  match c with
  | .scalar => []
  | .free => []
  | .pair => bad (f.toNat == 63) .regField
  | .pred => bad (decide (16 ≤ f.toNat)) .regField
  | .vtile => bad (decide (32 ≤ f.toNat)) .regField
  | .mask => bad (decide (8 ≤ f.toNat)) .regField
  | .acc => bad (decide (8 ≤ f.toNat)) .regField
  | .queue => bad (decide (8 ≤ f.toNat)) .regField
  | .tsrc => bad (decide (48 ≤ f.toNat)) .regField
  | .zero => bad (f.toNat != 0) .mbz

/-- How an EX opcode classes its operand fields. -/
inductive FieldRule where
  | regs (f1 f2 f3 : FieldClass)
  /-- VSHAPE: a scalar, or a coordinate pair and a tile word (R297). -/
  | shape
  /-- VBCAST: the source is a scalar or a tile (R300). -/
  | bcast
  /-- VMOV: a copy or a push (R300). -/
  | mov
  /-- VMASK: sources by operation (R315). -/
  | maskOp
  deriving DecidableEq, Repr

/-- The values of x that an EX opcode defines: any, those below a bound, or those within a bit mask. -/
inductive XRule where
  | any
  | below (n : Nat)
  | bits (m : Nat)
  deriving DecidableEq, Repr

/-- How an EX opcode reads its extension byte. -/
inductive ExtRule where
  /-- Only these bits are defined. -/
  | bits (m : Nat)
  /-- The conversion fields of R235. -/
  | conv
  /-- An addend type in [7:4] (R242). -/
  | addend
  /-- Element type and mask (R298). -/
  | vec
  /-- An element type alone (R313, R314). -/
  | type
  /-- As `vec`, with a reduction operation in f3 (R300). -/
  | red
  /-- VCVT (R305). -/
  | cvt
  /-- VMASK (R315). -/
  | vmask
  /-- WACLR (R274). -/
  | waclr
  deriving DecidableEq, Repr

/-- The encoding rule of one EX opcode. -/
structure ExRule where
  fields : FieldRule
  x : XRule
  ext : ExtRule
  deriving DecidableEq, Repr

/-- The register classes, sub-operations and extension bits of each EX opcode (R236, R245, R274, R300). -/
def Instr.exRule : Instr → Option ExRule
  | .tld _ | .tst _ | .tldx _ | .tstx _ | .lget _
    => some ⟨(.regs .pair .pair .scalar), .any, .conv⟩
  | .tldb _
    => some ⟨(.regs .pair .pair .scalar), (.bits 2), (.bits 0x3F)⟩
  | .gath _ | .scat _
    => some ⟨(.regs .pair .queue .pair), (.bits 1), .conv⟩
  | .scopy _ | .cellxc _
    => some ⟨(.regs .pair .pair .scalar), (.bits 0), (.bits 0)⟩
  | .sfill _
    => some ⟨(.regs .pair .scalar .scalar), (.bits 0), (.bits 0)⟩
  | .pref _
    => some ⟨(.regs .zero .pair .scalar), (.bits 1), (.bits 0)⟩
  | .celladd _
    => some ⟨(.regs .pair .pair .scalar), (.bits 0), .addend⟩
  | .cellclr _
    => some ⟨(.regs .zero .pair .scalar), (.bits 0), (.bits 0)⟩
  | .cellrd _
    => some ⟨(.regs .pair .pair .scalar), (.below 2), (.bits 0)⟩
  | .brun _ | .lbar _
    => some ⟨(.regs .scalar .scalar .scalar), (.bits 0), (.bits 0)⟩
  | .lput _
    => some ⟨(.regs .pair .pair .pair), .any, .conv⟩
  | .lsig _ | .lwaitc _
    => some ⟨(.regs .scalar .scalar .zero), (.bits 0), (.bits 0)⟩
  | .lcell _
    => some ⟨(.regs .pair .pair .pair), (.bits 0), .addend⟩
  | .coll _ | .lnotify _
    => some ⟨(.regs .scalar .zero .zero), (.bits 0), (.bits 0)⟩
  | .lfence _
    => some ⟨(.regs .zero .zero .zero), (.bits 0), (.bits 7)⟩
  | .wld _
    => some ⟨(.regs .pair .scalar .zero), (.bits 0), (.bits 0)⟩
  | .wlds _
    => some ⟨(.regs .pair .pair .zero), (.bits 0), (.bits 0)⟩
  | .wswap _
    => some ⟨(.regs .zero .zero .zero), (.bits 0), (.bits 0)⟩
  | .wmm _ | .wmmt _ | .wmms _ | .wmmst _
    => some ⟨(.regs .pair .scalar .zero), (.bits 0), (.bits 0xF)⟩
  | .wopa _ | .wopas _
    => some ⟨(.regs .pair .pair .scalar), (.bits 0), (.bits 8)⟩
  | .wdrain _
    => some ⟨(.regs .zero .zero .zero), (.bits 1), (.bits 7)⟩
  | .waclr _
    => some ⟨(.regs .zero .zero .zero), (.below 2), .waclr⟩
  | .wprom _
    => some ⟨(.regs .pair .pair .zero), (.bits 0), (.bits 7)⟩
  | .wacc _
    => some ⟨(.regs .pair .scalar .zero), (.bits 0), (.bits 7)⟩
  | .wmva _
    => some ⟨(.regs .vtile .scalar .zero), (.bits 0), (.bits 7)⟩
  | .wread _
    => some ⟨(.regs .pair .zero .zero), (.bits 1), (.bits 0)⟩
  | .vshape _
    => some ⟨.shape, (.below 2), (.bits 0)⟩
  | .vld _
    => some ⟨(.regs .vtile .pair .zero), (.bits 0), .vec⟩
  | .vst _
    => some ⟨(.regs .pair .vtile .zero), (.bits 0), .vec⟩
  | .vbcast _
    => some ⟨.bcast, (.below 3), .vec⟩
  | .vmov _
    => some ⟨.mov, (.below 2), .vec⟩
  | .vadd _ | .vsub _ | .vmul _ | .vfma _ | .vfms _ | .vfnma _ | .vdiv _ | .vldexp _
    => some ⟨(.regs .vtile .tsrc .tsrc), .any, .vec⟩
  | .vsqrt _ | .vround _
    => some ⟨(.regs .vtile .tsrc .zero), .any, .vec⟩
  | .vmin _ | .vmax _ | .vsel _ | .vimul _ | .vmulhi _ | .vimin _ | .vimax _ | .vand _ | .vor _ | .vxor _ | .vshl _ | .vshr _ | .vsar _
    => some ⟨(.regs .vtile .tsrc .tsrc), (.bits 0), .vec⟩
  | .vabs _ | .vneg _ | .vexp _ | .vexp2 _ | .vlog _ | .vlog2 _ | .vrcp _ | .vrsq _ | .vtanh _ | .vsigm _ | .vsin _ | .vcos _ | .verf _ | .viabs _ | .vclz _ | .vpopc _ | .vgetexp _
    => some ⟨(.regs .vtile .tsrc .zero), (.bits 0), .vec⟩
  | .vcmp _ | .vicmp _
    => some ⟨(.regs .mask .tsrc .tsrc), .any, .vec⟩
  | .vcvt _
    => some ⟨(.regs .vtile .vtile .free), .any, .cvt⟩
  | .viadd _ | .visub _ | .vcopysgn _
    => some ⟨(.regs .vtile .tsrc .tsrc), (.bits 1), .vec⟩
  | .vsat _
    => some ⟨(.regs .vtile .tsrc .free), (.bits 0), .vec⟩
  | .vred _
    => some ⟨(.regs .vtile .vtile .free), (.below 3), .red⟩
  | .vscan _
    => some ⟨(.regs .vtile .vtile .free), .any, .red⟩
  | .vtrans _ | .vpack _ | .vunpk _
    => some ⟨(.regs .vtile .vtile .zero), (.bits 0), .vec⟩
  | .vshift _
    => some ⟨(.regs .vtile .vtile .scalar), .any, .vec⟩
  | .vrowg _
    => some ⟨(.regs .vtile .vtile .vtile), (.bits 0), .vec⟩
  | .vmxq _
    => some ⟨(.regs .vtile .vtile .vtile), .any, .type⟩
  | .vmxd _
    => some ⟨(.regs .vtile .vtile .vtile), (.bits 2), .type⟩
  | .vmask _
    => some ⟨.maskOp, (.bits 0), .vmask⟩
  | .vclass _
    => some ⟨(.regs .mask .tsrc .free), (.bits 0), .vec⟩
  | _ => none

/-- The fields of an EX command, none for every other constructor. -/
def Instr.ex? : Instr → Option Ex
  | .tld e | .tst e | .tldx e | .tstx e | .tldb e | .gath e | .scat e | .scopy e => some e
  | .sfill e | .pref e | .celladd e | .cellclr e | .cellrd e | .cellxc e | .brun e | .lput e => some e
  | .lget e | .lsig e | .lcell e | .coll e | .lwaitc e | .lbar e | .lfence e | .lnotify e => some e
  | .wld e | .wlds e | .wswap e | .wmm e | .wmmt e | .wmms e | .wmmst e | .wopa e => some e
  | .wopas e | .wdrain e | .waclr e | .wprom e | .wacc e | .wmva e | .wread e | .vshape e => some e
  | .vld e | .vst e | .vbcast e | .vmov e | .vadd e | .vsub e | .vmul e | .vfma e => some e
  | .vfms e | .vfnma e | .vdiv e | .vsqrt e | .vmin e | .vmax e | .vabs e | .vneg e => some e
  | .vcmp e | .vsel e | .vcvt e | .vround e | .vexp e | .vexp2 e | .vlog e | .vlog2 e => some e
  | .vrcp e | .vrsq e | .vtanh e | .vsigm e | .vsin e | .vcos e | .verf e | .viadd e => some e
  | .visub e | .vimul e | .vmulhi e | .vimin e | .vimax e | .viabs e | .vand e | .vor e => some e
  | .vxor e | .vshl e | .vshr e | .vsar e | .vicmp e | .vclz e | .vpopc e | .vsat e => some e
  | .vred e | .vscan e | .vtrans e | .vshift e | .vrowg e | .vpack e | .vunpk e | .vmxq e => some e
  | .vmxd e | .vmask e | .vclass e | .vcopysgn e | .vldexp e | .vgetexp e => some e
  | _ => none

/-- The defects of the operand fields of an EX command. -/
def FieldRule.defects (r : FieldRule) (e : Ex) : List Reject :=
  let three (a b c : FieldClass) := a.defects e.f1 ++ b.defects e.f2 ++ c.defects e.f3
  match r with
  | .regs a b c => three a b c
  | .shape => if e.x = 0 then three .scalar .zero .zero else three .pair .scalar .zero
  | .bcast => if e.x = 0 then three .vtile .scalar .zero else three .vtile .vtile .zero
  | .mov => if e.x = 1 then three .queue .vtile .zero else three .vtile .tsrc .zero
  | .maskOp =>
    let op := e.ext.toNat / 16
    three .mask (if op ≤ 4 then .mask else if op = 5 then .zero else if op = 6 then .vtile else .free)
      (if op ≤ 3 then .mask else if op ≤ 6 then .zero else .free)

/-- The defects of x: a value that the opcode does not define is a reserved value. Where the tables show a zero bit R384's row
of must-be-zero bits could be read too; the row of x values comes first in its table (DEDUCED, log 74). -/
def XRule.defects (r : XRule) (x : BitVec 2) : List Reject :=
  match r with
  | .any => []
  | .below n => if x.toNat < n then [] else [.value]
  | .bits m => if x.toNat &&& (3 - m) = 0 then [] else [.value]

/-- The defects of the extension byte. -/
def ExtRule.defects (r : ExtRule) (e : Ex) : List Reject :=
  let v := e.ext.toNat
  let bad (b : Bool) (r : Reject) : List Reject := if b then [r] else []
  let vec := bad (v / 16 == 15) .value ++ bad (v / 8 % 2 == 0 && v % 8 != 0) .mbz
  match r with
  | .bits m => bad (v &&& (255 - m) != 0) .mbz
  | .conv =>
    if e.x.toNat % 2 = 0 then bad (v != 0) .mbz
    else bad (v / 16 == 15 || decide (4 < v % 8)) .value
  | .addend => bad (decide (4 ≤ v / 16)) .value ++ bad (v % 16 != 0) .mbz
  | .vec => vec
  | .type => bad (v / 16 == 15) .value ++ bad (v % 16 != 0) .mbz
  | .red => vec ++ bad (decide (5 < e.f3.toNat % 8)) .value ++ bad (decide (8 ≤ e.f3.toNat)) .mbz
  | .cvt =>
    bad (v / 16 == 15 || decide (4 < v % 8)) .value ++
    (if v % 8 < 4 then
      bad (e.f3.toNat % 16 == 15) .value ++ bad (decide (16 ≤ e.f3.toNat)) .mbz
     else [])
  | .vmask =>
    bad (decide (6 < v / 16) || (v / 16 == 6 && v % 16 == 15)) .value ++
      bad (decide (v / 16 < 6) && v % 16 != 0) .mbz
  | .waclr => bad (v &&& 0xF8 != 0 || (e.x == 1 && v != 0)) .mbz

/-- The defects of the sluice fields of an EX command (R166). -/
def Ex.syncDefects (e : Ex) : List Reject :=
  let one (sl cnt : BitVec 6) : List Reject :=
    if sl.toNat < 48 then [] else if sl.toNat = 63 ∧ cnt = 0 then [] else [.sluice]
  one e.wsl e.wcnt ++ one e.ssl e.scnt

/-- The counter ids that TLWAIT and TLARM may name (R219). -/
def counterIdOk (id : Nat) : Bool :=
  decide (id < 4) || (decide (0x10 ≤ id) && decide (id < 0x26)) || (decide (0x30 ≤ id) && decide (id < 0x3C))

/-- The defects of a trip source (R203, R205). -/
def tripDefects (a : BitVec 6) (src : BitVec 2) (k : BitVec 3) (trip : BitVec 8) : List Reject :=
  (if src = 3 ∨ 5 < k.toNat then [.value] else []) ++
  (if (src ≠ 2 ∧ trip ≠ 0) ∨ (src ≠ 1 ∧ a ≠ 0) then [.mbz] else [])

/-- The defects of an instruction's own fields (R384). -/
def Instr.defects (i : Instr) : List Reject :=
  match i with
  | .sel _ _ _ _ x => if x = 3 then [.value] else []
  | .loop _ _ a src k trip _ => tripDefects a src k trip
  | .pipeStart _ a _ src k trip => tripDefects a src k trip
  | .fcvt _ _ _ t _ => if t = 15 then [.value] else []
  | .fdsq _ _ _ b x => if x = 1 ∧ b ≠ 0 then [.mbz] else []
  | .amo _ _ _ _ opc _ _ size => if 8 < opc.toNat ∨ 1 < size.toNat then [.value] else []
  | .amon _ _ _ opc _ _ size => if 8 < opc.toNat ∨ 1 < size.toNat then [.value] else []
  | .cas _ _ _ _ _ _ size => if 1 < size.toNat then [.value] else []
  | .cadd _ _ _ _ _ ft => if 3 < ft.toNat then [.value] else []
  | .fence _ k _ => if k = 0 then [.value] else []
  | .slwait _ _ l _ => if l.toNat < 48 then [] else [.sluice]
  | .slsig _ _ l _ => if l.toNat < 48 then [] else [.sluice]
  | .tlwait _ _ id _ => if counterIdOk id.toNat then [] else [.value]
  | .tlarm _ _ _ id => if counterIdOk id.toNat then [] else [.value]
  | .sev _ _ x => if x = 3 then [.value] else []
  | .csr _ _ a x _ => if x = 0 ∧ a ≠ 0 then [.mbz] else []
  | .aslw _ l _ => if l.toNat < 48 then [] else [.sluice]
  | .asls _ l _ => if l.toNat < 48 then [] else [.sluice]
  | .atlw _ t _ => if t.toNat < 4 then [] else [.regField]
  | .wslw _ l _ => if l.toNat < 48 then [] else [.sluice]
  | .wsls _ l _ => if l.toNat < 48 then [] else [.sluice]
  | .wtlw _ t _ => if t.toNat < 4 then [] else [.regField]
  | .vslw _ l _ => if l.toNat < 48 then [] else [.sluice]
  | .vsls _ l _ => if l.toNat < 48 then [] else [.sluice]
  | .vtlw _ t _ => if t.toNat < 4 then [] else [.regField]
  | .lslw _ l _ => if l.toNat < 48 then [] else [.sluice]
  | .lsls _ l _ => if l.toNat < 48 then [] else [.sluice]
  | .ltlw _ t _ => if t.toNat < 4 then [] else [.regField]
  | i =>
    match i.exRule, i.ex? with
    | some r, some e => r.fields.defects e ++ e.syncDefects ++ r.x.defects e.x ++ r.ext.defects e
    | _, _ => []

/-- An instruction that carries no reserved value. -/
def Instr.wellFormed (i : Instr) : Bool := i.defects.isEmpty

end Sys2Proof
end

