-- ==== Sys2Proof/Decode.lean ====
section
/-!
DEFINITION. Decoding one slot of a code line, the line header and tags, and the encoder (R151 to R175, R384).
A slot is one 32-bit word or a word and its continuation; the tag of the first word chooses the stream.
-/
namespace Sys2Proof

/-! ## Bytes, bits and lists -/

/-- Little-endian value of a byte list (R4). -/
def ofBytes : List Byte → Nat
  | [] => 0
  | b :: bs => b.toNat + 256 * ofBytes bs

/-- The `n` low bytes of a number, least significant first (R4). -/
def toBytes : Nat → Nat → List Byte
  | 0, _ => []
  | n + 1, v => BitVec.ofNat 8 v :: toBytes n (v / 256)

/-- The bits `[hi:lo]` of a number. -/
def bitsOf (v hi lo : Nat) : Nat := v / 2 ^ lo % 2 ^ (hi + 1 - lo)

/-- The list with the element at `k` replaced, unchanged when `k` is outside it. -/
def setAt {α : Type} : List α → Nat → α → List α
  | [], _, _ => []
  | _ :: t, 0, v => v :: t
  | h :: t, k + 1, v => h :: setAt t k v

/-- The element at `k`, or `d` outside the list. -/
def nthD {α : Type} (d : α) : List α → Nat → α
  | [], _ => d
  | h :: _, 0 => h
  | _ :: t, k + 1 => nthD d t k

/-- The streams of R171, with the slot tags each permits. -/
inductive Stream where
  | control | copy | weave | vector | link
  deriving DecidableEq, Repr

/-- The stream code of R130. -/
def Stream.toNat : Stream → Nat
  | .control => 0
  | .copy => 1
  | .weave => 2
  | .vector => 3
  | .link => 4

/-- The stream of an assigned opcode (R171); none for a reserved one. -/
def opcodeStream (op : Nat) : Option Stream :=
  if 0x01 ≤ op ∧ op ≤ 0x3E then some .control
  else if 0x40 ≤ op ∧ op ≤ 0x51 then some .copy
  else if 0x60 ≤ op ∧ op ≤ 0x6B then some .link
  else if 0x70 ≤ op ∧ op ≤ 0x81 then some .weave
  else if 0x90 ≤ op ∧ op ≤ 0xD1 then some .vector
  else none

/-- The stream of a slot tag 1 to 6 (R152). -/
def tagStream (tag : Nat) : Option Stream :=
  if tag = 1 ∨ tag = 2 then some .control
  else if tag = 3 then some .copy
  else if tag = 4 then some .weave
  else if tag = 5 then some .vector
  else if tag = 6 then some .link
  else none

/-- A tag that carries the stream: control slots that end their bundle, engine slots (R152). -/
def Stream.tag : Stream → Nat
  | .control => 2
  | .copy => 3
  | .weave => 4
  | .vector => 5
  | .link => 6

/-- Whether R173 or R174 permits the 64-bit length (`long`) or the 32-bit length for an opcode. -/
def lengthOk (op : Nat) (long : Bool) : Bool :=
  let both := decide (op ∈ [0x11, 0x12, 0x13, 0x14, 0x17, 0x1A, 0x27, 0x29, 0x2A, 0x2B, 0x3A])
  let only64 := decide (op ∈ [0x15, 0x1F, 0x20, 0x2C, 0x2D, 0x2E, 0x2F, 0x33, 0x34, 0x3D])
  let sync := decide (op ∈ [0x4F, 0x50, 0x51, 0x69, 0x6A, 0x6B, 0x7F, 0x80, 0x81, 0xCF, 0xD0, 0xD1])
  if op < 0x40 then both || (if long then only64 else !only64)
  else if sync then !long else long

/-- The fields of a CR or E slot (R162, R165). -/
structure CR where
  op : BitVec 8
  g : BitVec 4
  d : BitVec 6
  a : BitVec 6
  b : BitVec 6
  x : BitVec 2
  deriving DecidableEq, Repr

/-- The word of a CR slot. -/
def CR.pack (f : CR) : BitVec 32 :=
  BitVec.ofNat 32 (f.op.toNat * 2 ^ 24 + f.g.toNat * 2 ^ 20 + f.d.toNat * 2 ^ 14 + f.a.toNat * 2 ^ 8 +
    f.b.toNat * 2 ^ 2 + f.x.toNat)

/-- The CR fields of a word. -/
def CR.unpack (w : BitVec 32) : CR :=
  { op := BitVec.ofNat 8 (w.toNat / 2 ^ 24), g := BitVec.ofNat 4 (w.toNat / 2 ^ 20),
    d := BitVec.ofNat 6 (w.toNat / 2 ^ 14), a := BitVec.ofNat 6 (w.toNat / 2 ^ 8),
    b := BitVec.ofNat 6 (w.toNat / 2 ^ 2), x := BitVec.ofNat 2 w.toNat }

/-- imm8 of a CI slot: field b above x (R162). -/
def CR.imm8 (f : CR) : BitVec 8 := BitVec.ofNat 8 (f.b.toNat * 4 + f.x.toNat)

/-- A CI slot with imm8 `i` (R162). -/
def CR.ofCI (op : BitVec 8) (g : BitVec 4) (d a : BitVec 6) (i : BitVec 8) : CR :=
  { op, g, d, a, b := BitVec.ofNat 6 (i.toNat / 4), x := BitVec.ofNat 2 i.toNat }

/-- The continuation of an EX command (R166). -/
def Ex.cont (e : Ex) : BitVec 32 :=
  BitVec.ofNat 32 (e.wsl.toNat * 2 ^ 26 + e.wcnt.toNat * 2 ^ 20 + e.ssl.toNat * 2 ^ 14 + e.scnt.toNat * 2 ^ 8 +
    e.ext.toNat)

/-- The EX command of a CR word and its continuation (R165, R166). -/
def Ex.of (f : CR) (k : BitVec 32) : Ex :=
  { g := f.g, f1 := f.d, f2 := f.a, f3 := f.b, x := f.x,
    wsl := BitVec.ofNat 6 (k.toNat / 2 ^ 26), wcnt := BitVec.ofNat 6 (k.toNat / 2 ^ 20),
    ssl := BitVec.ofNat 6 (k.toNat / 2 ^ 14), scnt := BitVec.ofNat 6 (k.toNat / 2 ^ 8),
    ext := BitVec.ofNat 8 k.toNat }

/-- The EX command of opcode `op` with fields `e` (R172). -/
def exOf (op : Nat) (e : Ex) : Option Instr :=
  match op with
  | 0x40 => some (.tld e)
  | 0x41 => some (.tst e)
  | 0x42 => some (.tldx e)
  | 0x43 => some (.tstx e)
  | 0x44 => some (.tldb e)
  | 0x45 => some (.gath e)
  | 0x46 => some (.scat e)
  | 0x47 => some (.scopy e)
  | 0x48 => some (.sfill e)
  | 0x49 => some (.pref e)
  | 0x4A => some (.celladd e)
  | 0x4B => some (.cellclr e)
  | 0x4C => some (.cellrd e)
  | 0x4D => some (.cellxc e)
  | 0x4E => some (.brun e)
  | 0x60 => some (.lput e)
  | 0x61 => some (.lget e)
  | 0x62 => some (.lsig e)
  | 0x63 => some (.lcell e)
  | 0x64 => some (.coll e)
  | 0x65 => some (.lwaitc e)
  | 0x66 => some (.lbar e)
  | 0x67 => some (.lfence e)
  | 0x68 => some (.lnotify e)
  | 0x70 => some (.wld e)
  | 0x71 => some (.wlds e)
  | 0x72 => some (.wswap e)
  | 0x73 => some (.wmm e)
  | 0x74 => some (.wmmt e)
  | 0x75 => some (.wmms e)
  | 0x76 => some (.wmmst e)
  | 0x77 => some (.wopa e)
  | 0x78 => some (.wopas e)
  | 0x79 => some (.wdrain e)
  | 0x7A => some (.waclr e)
  | 0x7B => some (.wprom e)
  | 0x7C => some (.wacc e)
  | 0x7D => some (.wmva e)
  | 0x7E => some (.wread e)
  | 0x90 => some (.vshape e)
  | 0x91 => some (.vld e)
  | 0x92 => some (.vst e)
  | 0x93 => some (.vbcast e)
  | 0x94 => some (.vmov e)
  | 0x95 => some (.vadd e)
  | 0x96 => some (.vsub e)
  | 0x97 => some (.vmul e)
  | 0x98 => some (.vfma e)
  | 0x99 => some (.vfms e)
  | 0x9A => some (.vfnma e)
  | 0x9B => some (.vdiv e)
  | 0x9C => some (.vsqrt e)
  | 0x9D => some (.vmin e)
  | 0x9E => some (.vmax e)
  | 0x9F => some (.vabs e)
  | 0xA0 => some (.vneg e)
  | 0xA1 => some (.vcmp e)
  | 0xA2 => some (.vsel e)
  | 0xA3 => some (.vcvt e)
  | 0xA4 => some (.vround e)
  | 0xA5 => some (.vexp e)
  | 0xA6 => some (.vexp2 e)
  | 0xA7 => some (.vlog e)
  | 0xA8 => some (.vlog2 e)
  | 0xA9 => some (.vrcp e)
  | 0xAA => some (.vrsq e)
  | 0xAB => some (.vtanh e)
  | 0xAC => some (.vsigm e)
  | 0xAD => some (.vsin e)
  | 0xAE => some (.vcos e)
  | 0xAF => some (.verf e)
  | 0xB0 => some (.viadd e)
  | 0xB1 => some (.visub e)
  | 0xB2 => some (.vimul e)
  | 0xB3 => some (.vmulhi e)
  | 0xB4 => some (.vimin e)
  | 0xB5 => some (.vimax e)
  | 0xB6 => some (.viabs e)
  | 0xB7 => some (.vand e)
  | 0xB8 => some (.vor e)
  | 0xB9 => some (.vxor e)
  | 0xBA => some (.vshl e)
  | 0xBB => some (.vshr e)
  | 0xBC => some (.vsar e)
  | 0xBD => some (.vicmp e)
  | 0xBE => some (.vclz e)
  | 0xBF => some (.vpopc e)
  | 0xC0 => some (.vsat e)
  | 0xC1 => some (.vred e)
  | 0xC2 => some (.vscan e)
  | 0xC3 => some (.vtrans e)
  | 0xC4 => some (.vshift e)
  | 0xC5 => some (.vrowg e)
  | 0xC6 => some (.vpack e)
  | 0xC7 => some (.vunpk e)
  | 0xC8 => some (.vmxq e)
  | 0xC9 => some (.vmxd e)
  | 0xCA => some (.vmask e)
  | 0xCB => some (.vclass e)
  | 0xCC => some (.vcopysgn e)
  | 0xCD => some (.vldexp e)
  | 0xCE => some (.vgetexp e)
  | _ => none

/-- The standalone sync form of opcode `op` (R168). -/
def syncOf (op : Nat) (g : BitVec 4) (f1 f2 : BitVec 6) : Option Instr :=
  match op with
  | 0x4F => some (.aslw g f1 f2)
  | 0x50 => some (.asls g f1 f2)
  | 0x51 => some (.atlw g f1 f2)
  | 0x7F => some (.wslw g f1 f2)
  | 0x80 => some (.wsls g f1 f2)
  | 0x81 => some (.wtlw g f1 f2)
  | 0xCF => some (.vslw g f1 f2)
  | 0xD0 => some (.vsls g f1 f2)
  | 0xD1 => some (.vtlw g f1 f2)
  | 0x69 => some (.lslw g f1 f2)
  | 0x6A => some (.lsls g f1 f2)
  | 0x6B => some (.ltlw g f1 f2)
  | _ => none

/-- One reject when the condition holds. -/
def rejectIf (b : Bool) (r : Reject) : List Reject := if b then [r] else []

/-- An instruction with the defects of the bits it does not hold. -/
abbrev Parsed := Option (Instr × List Reject)

/-- A CR instruction whose x must be below `n` (R162, R384). -/
def parseX (f : CR) (n : Nat) (i : Instr) (more : List Reject := []) : Parsed :=
  some (i, more ++ rejectIf (decide (n ≤ f.x.toNat)) .value)

/-- The defects of a predicate field (R169). -/
def predDefect (v : BitVec 6) : List Reject := rejectIf (decide (16 ≤ v.toNat)) .regField

/-- The defects of a queue field (R169). -/
def queueDefect (v : BitVec 6) : List Reject := rejectIf (decide (8 ≤ v.toNat)) .regField

/-- The defect of a field that must be zero (R162). -/
def zeroDefect (v : BitVec 6) : List Reject := rejectIf (v != 0) .mbz

/-- A 32-bit control instruction from its word (R173, R194 to R231). -/
def parseControl32 (w : BitVec 32) : Parsed :=
  let f := CR.unpack w
  let g := f.g; let d := f.d; let a := f.a; let b := f.b; let x := f.x; let i := f.imm8
  let d4 := d.setWidth 4; let a4 := a.setWidth 4; let b4 := b.setWidth 4
  let x1 : BitVec 1 := x.setWidth 1
  let o := BitVec.ofNat 2 (i.toNat / 64)
  let v : BitVec 6 := i.setWidth 6
  let c := g
  let n : BitVec 1 := BitVec.ofNat 1 (w.toNat / 2 ^ 19)
  let off : BitVec 19 := BitVec.ofNat 19 w.toNat
  match f.op.toNat with
  | 0x01 => parseX f 1 (.add g d a b)
  | 0x02 => parseX f 1 (.sub g d a b)
  | 0x03 => parseX f 1 (.mul g d a b)
  | 0x04 => parseX f 2 (.mulh g d a b x1)
  | 0x05 => parseX f 2 (.div g d a b x1)
  | 0x06 => parseX f 2 (.rem g d a b x1)
  | 0x07 => parseX f 1 (.and g d a b)
  | 0x08 => parseX f 1 (.or g d a b)
  | 0x09 => parseX f 1 (.xor g d a b)
  | 0x0A => parseX f 1 (.andn g d a b)
  | 0x0B => parseX f 1 (.shl g d a b)
  | 0x0C => parseX f 1 (.shr g d a b)
  | 0x0D => parseX f 1 (.sar g d a b)
  | 0x0E => parseX f 2 (.min g d a b x1)
  | 0x0F => parseX f 2 (.max g d a b x1)
  | 0x10 => some (.bitc g d a x, zeroDefect b)
  | 0x11 => some (.addi g d a i, [])
  | 0x12 => some (.logi g d a o v, [])
  | 0x13 => some (.shi g d a o v, [])
  | 0x14 => some (.ldi g d i, zeroDefect a)
  | 0x16 => some (.cmp g d4 a b x, predDefect d)
  | 0x17 => some (.cmpi g d4 a o v, predDefect d)
  | 0x18 => some (.sel g d a4 b x, predDefect a)
  | 0x19 => some (.plog g d4 a4 b4 x, predDefect d ++ predDefect a ++ predDefect b)
  | 0x1A => some (.lea g d a b x, [])
  | 0x1B => some (.br c n off, [])
  | 0x1C => parseX f 1 (.jmp g a) (zeroDefect d ++ zeroDefect b)
  | 0x1D => some (.call c n off, [])
  | 0x1E => parseX f 1 (.ret g a) (zeroDefect d ++ zeroDefect b)
  | 0x21 => some (.fadd g d a b x, [])
  | 0x22 => parseX f 2 (.fmul g d a b x1)
  | 0x23 => some (.ffma g d a b x, [])
  | 0x24 => some (.fcmp g d4 a b x, predDefect d)
  | 0x25 => parseX f 2 (.fcvt g d a b4 x1) (rejectIf (decide (16 ≤ b.toNat)) .mbz)
  | 0x26 => parseX f 2 (.fdsq g d a b x1)
  | 0x27 => some (.ld g d a (BitVec.ofNat 5 (i.toNat / 8)), rejectIf (i.toNat % 8 != 0) .mbz)
  | 0x28 => some (.ldx g d a b x, [])
  | 0x29 => some (.st g d a (BitVec.ofNat 5 (i.toNat / 8)), rejectIf (i.toNat % 8 != 0) .mbz)
  | 0x2A => some (.lda g d a (BitVec.ofNat 5 (i.toNat / 8)) (i.setWidth 3), [])
  | 0x2B => some (.stl g d a (BitVec.ofNat 5 (i.toNat / 8)) (i.setWidth 3), [])
  | 0x30 => some (.fence g (BitVec.ofNat 2 (i.toNat / 8)) (i.setWidth 3),
      zeroDefect d ++ zeroDefect a ++ rejectIf (decide (32 ≤ i.toNat)) .mbz)
  | 0x31 => some (.slwait g (d.setWidth 3) a v,
      rejectIf (decide (8 ≤ d.toNat) || decide (64 ≤ i.toNat)) .mbz)
  | 0x32 => some (.slsig g (d.setWidth 3) a v,
      rejectIf (decide (8 ≤ d.toNat) || decide (64 ≤ i.toNat)) .mbz)
  | 0x35 => parseX f 1 (.qrd g d (a.setWidth 3)) (queueDefect a ++ zeroDefect b)
  | 0x36 => parseX f 1 (.qwr g (a.setWidth 3) b) (zeroDefect d ++ queueDefect a)
  | 0x37 => parseX f 1 (.wfe g d) (zeroDefect a ++ zeroDefect b)
  | 0x38 => some (.sev g a x, zeroDefect d ++ zeroDefect b)
  | 0x39 => parseX f 1 (.fmt g a) (zeroDefect d ++ zeroDefect b)
  | 0x3A => some (.safept g i, zeroDefect d ++ zeroDefect a)
  | 0x3B => parseX f 1 (.launch g a b) (zeroDefect d)
  | 0x3C => parseX f 1 .exit (zeroDefect d ++ zeroDefect a ++ zeroDefect b ++ rejectIf (g != 0) .mbz)
  | 0x3E =>
    let z := zeroDefect d ++ zeroDefect a
    if i.toNat = 1 then some (.sysUiret g, z)
    else if i.toNat = 2 then some (.sysPause g, z)
    else some (.sysNop g, z ++ rejectIf (i.toNat != 0) .value)
  | _ => none

/-- The defect of imm8 beside an imm32 (R164). -/
def imm8Defect (i : BitVec 8) : List Reject := rejectIf (i != 0) .mbz

/-- A 64-bit control instruction from its word and continuation (R173). -/
def parseControl64 (w k : BitVec 32) : Parsed :=
  let f := CR.unpack w
  let g := f.g; let d := f.d; let a := f.a; let b := f.b; let x := f.x; let i := f.imm8
  let z8 := imm8Defect i
  let o : BitVec 2 := BitVec.ofNat 2 (k.toNat / 2 ^ 30)
  let v30 : BitVec 30 := k.setWidth 30
  let i29 : BitVec 29 := BitVec.ofNat 29 (k.toNat / 8)
  let s3 : BitVec 3 := k.setWidth 3
  let kk : BitVec 3 := BitVec.ofNat 3 (k.toNat / 2 ^ 27)
  let trip : BitVec 8 := BitVec.ofNat 8 (k.toNat / 2 ^ 19)
  let off : BitVec 19 := k.setWidth 19
  let opc : BitVec 4 := BitVec.ofNat 4 (k.toNat / 2 ^ 28)
  let sc : BitVec 3 := BitVec.ofNat 3 (k.toNat / 2 ^ 25)
  let ord : BitVec 2 := BitVec.ofNat 2 (k.toNat / 2 ^ 23)
  let size : BitVec 2 := BitVec.ofNat 2 (k.toNat / 2 ^ 21)
  let ft : BitVec 4 := BitVec.ofNat 4 (k.toNat / 2 ^ 17)
  let low17 := rejectIf (k.toNat % 2 ^ 17 != 0) .mbz
  let id : BitVec 8 := BitVec.ofNat 8 (k.toNat / 2 ^ 24)
  match f.op.toNat with
  | 0x11 => some (.addiImm32 g d a k, z8)
  | 0x12 => some (.logiImm32 g d a o v30, z8)
  | 0x13 => some (.shiImm32 g d a o (k.setWidth 6), z8 ++ rejectIf (k.toNat / 64 % 2 ^ 24 != 0) .mbz)
  | 0x14 => some (.ldiImm32 g d k, z8 ++ zeroDefect a)
  | 0x15 => some (.ldih g d a k, z8)
  | 0x17 => some (.cmpiImm32 g (d.setWidth 4) a o v30, predDefect d ++ z8)
  | 0x1A => some (.leaImm32 g d a b x k, [])
  | 0x1F => some (.loop g d a o kk trip off, z8)
  | 0x20 =>
    match i.toNat / 64 with
    | 0 => some (.pipeStart g a (i.setWidth 3) o kk trip,
        zeroDefect d ++ rejectIf (i.toNat / 8 % 8 != 0 || k.toNat % 2 ^ 19 != 0) .mbz)
    | 1 => some (.pipeTurn g off,
        zeroDefect d ++ zeroDefect a ++ rejectIf (i.toNat % 64 != 0 || k.toNat / 2 ^ 19 != 0) .mbz)
    | _ => some (.pipeTurn g off, zeroDefect d ++ [.value])
  | 0x27 => some (.ldImm32 g d a i29, z8 ++ rejectIf (k.toNat % 8 != 0) .mbz)
  | 0x29 => some (.stImm32 g d a i29, z8 ++ rejectIf (k.toNat % 8 != 0) .mbz)
  | 0x2A => some (.ldaImm32 g d a i29 s3, z8)
  | 0x2B => some (.stlImm32 g d a i29 s3, z8)
  | 0x2C => parseX f 1 (.amo g d a b opc sc ord size) (low17 ++ rejectIf (ft != 0) .mbz)
  | 0x2D => parseX f 1 (.amon g a b opc sc ord size) (zeroDefect d ++ low17 ++ rejectIf (ft != 0) .mbz)
  | 0x2E => parseX f 1 (.cas g d a b sc ord size) (low17 ++ rejectIf (ft != 0 || opc != 0) .mbz)
  | 0x2F => parseX f 1 (.cadd g a b sc ord ft) (zeroDefect d ++ low17 ++ rejectIf (size != 0 || opc != 0) .mbz)
  | 0x33 => parseX f 1 (.tlwait g a id (BitVec.ofNat 3 (k.toNat / 2 ^ 21)))
      (zeroDefect d ++ zeroDefect b ++ rejectIf (k.toNat % 2 ^ 21 != 0) .mbz)
  | 0x34 => parseX f 1 (.tlarm g a b id) (zeroDefect d ++ rejectIf (k.toNat % 2 ^ 24 != 0) .mbz)
  | 0x3A => some (.safeptImm32 g k, z8 ++ zeroDefect d ++ zeroDefect a)
  | 0x3D => some (.csr g d a x (k.setWidth 12), zeroDefect b ++ rejectIf (k.toNat / 2 ^ 12 != 0) .mbz)
  | _ => none

/-- An engine instruction from its word and continuation (R174). -/
def parseEngine (w : BitVec 32) (k : Option (BitVec 32)) : Parsed :=
  let f := CR.unpack w
  match k with
  | some k => (exOf f.op.toNat (Ex.of f k)).map fun i => (i, [])
  | none => (syncOf f.op.toNat f.g f.d f.a).map fun i => (i, rejectIf (f.b != 0) .mbz ++ rejectIf (f.x != 0) .value)

/-- The instruction of a slot whose tag belongs to `st`, or the first defect by R384's table. -/
def decodeSlot (st : Stream) (w : BitVec 32) (k : Option (BitVec 32)) : Except Reject Instr :=
  let op := (CR.unpack w).op.toNat
  match opcodeStream op with
  | none => .error .opcode
  | some st' =>
    if st' ≠ st then .error .stream
    else if lengthOk op k.isSome = false then .error .length
    else
      let p := match st, k with
        | .control, none => parseControl32 w
        | .control, some k => parseControl64 w k
        | _, _ => parseEngine w k
      match p with
      | none => .error .length
      | some (i, ds) =>
        match firstReject (ds ++ i.defects) with
        | some r => .error r
        | none => .ok i

/-- One slot position of a decoded line: its tag, its first word, its continuation, and the instruction or the
defect of the slot. -/
structure Slot where
  num : Nat
  tag : Nat
  word : BitVec 32
  cont : Option (BitVec 32)
  what : Except Reject Instr

/-- The 32-bit word at slot `k` of a line's 32 bytes (R151, R4). -/
def lineWord (line : List Byte) (k : Nat) : BitVec 32 := BitVec.ofNat 32 (ofBytes ((line.drop (4 * k)).take 4))

/-- The tag of slot `k` (R151). -/
def headerTag (hdr : BitVec 32) (k : Nat) : Nat := hdr.toNat / 16 ^ k % 16

/-- The header's LCTL field (R151). -/
def headerLctl (hdr : BitVec 32) : Nat := hdr.toNat % 16

/-- The slots of a line from slot `8 - fuel` on, with empty slots and well-placed continuations left out
(R152, R153, R384). -/
def decodeSlots (line : List Byte) : Nat → List Slot
  | 0 => []
  | fuel + 1 =>
    let k := 7 - fuel
    let hdr := lineWord line 0
    let tag := headerTag hdr k
    let w := lineWord line k
    let paired := decide (k < 7) && headerTag hdr (k + 1) == 7
    let prevTag := if k ≤ 1 then 0 else headerTag hdr (k - 1)
    if tag = 0 then decodeSlots line fuel
    else if tag = 7 then
      if 1 ≤ prevTag ∧ prevTag ≤ 6 then decodeSlots line fuel
      else ⟨k, tag, w, none, .error .continuation⟩ :: decodeSlots line fuel
    else if 8 ≤ tag then ⟨k, tag, w, none, .error .slotTag⟩ :: decodeSlots line fuel
    else
      let cont := if paired then some (lineWord line (k + 1)) else none
      let what := match tagStream tag with
        | none => .error .slotTag
        | some st => decodeSlot st w cont
      ⟨k, tag, w, cont, what⟩ :: decodeSlots line fuel

/-- The slots of a 32-byte code line in address order (R151 to R154). -/
def decodeLine (line : List Byte) : List Slot := decodeSlots line 7

/-- The opcode of an EX command (R172); 0 for every other constructor. -/
def Instr.exOp : Instr → Nat
  | .tld _ => 0x40
  | .tst _ => 0x41
  | .tldx _ => 0x42
  | .tstx _ => 0x43
  | .tldb _ => 0x44
  | .gath _ => 0x45
  | .scat _ => 0x46
  | .scopy _ => 0x47
  | .sfill _ => 0x48
  | .pref _ => 0x49
  | .celladd _ => 0x4A
  | .cellclr _ => 0x4B
  | .cellrd _ => 0x4C
  | .cellxc _ => 0x4D
  | .brun _ => 0x4E
  | .lput _ => 0x60
  | .lget _ => 0x61
  | .lsig _ => 0x62
  | .lcell _ => 0x63
  | .coll _ => 0x64
  | .lwaitc _ => 0x65
  | .lbar _ => 0x66
  | .lfence _ => 0x67
  | .lnotify _ => 0x68
  | .wld _ => 0x70
  | .wlds _ => 0x71
  | .wswap _ => 0x72
  | .wmm _ => 0x73
  | .wmmt _ => 0x74
  | .wmms _ => 0x75
  | .wmmst _ => 0x76
  | .wopa _ => 0x77
  | .wopas _ => 0x78
  | .wdrain _ => 0x79
  | .waclr _ => 0x7A
  | .wprom _ => 0x7B
  | .wacc _ => 0x7C
  | .wmva _ => 0x7D
  | .wread _ => 0x7E
  | .vshape _ => 0x90
  | .vld _ => 0x91
  | .vst _ => 0x92
  | .vbcast _ => 0x93
  | .vmov _ => 0x94
  | .vadd _ => 0x95
  | .vsub _ => 0x96
  | .vmul _ => 0x97
  | .vfma _ => 0x98
  | .vfms _ => 0x99
  | .vfnma _ => 0x9A
  | .vdiv _ => 0x9B
  | .vsqrt _ => 0x9C
  | .vmin _ => 0x9D
  | .vmax _ => 0x9E
  | .vabs _ => 0x9F
  | .vneg _ => 0xA0
  | .vcmp _ => 0xA1
  | .vsel _ => 0xA2
  | .vcvt _ => 0xA3
  | .vround _ => 0xA4
  | .vexp _ => 0xA5
  | .vexp2 _ => 0xA6
  | .vlog _ => 0xA7
  | .vlog2 _ => 0xA8
  | .vrcp _ => 0xA9
  | .vrsq _ => 0xAA
  | .vtanh _ => 0xAB
  | .vsigm _ => 0xAC
  | .vsin _ => 0xAD
  | .vcos _ => 0xAE
  | .verf _ => 0xAF
  | .viadd _ => 0xB0
  | .visub _ => 0xB1
  | .vimul _ => 0xB2
  | .vmulhi _ => 0xB3
  | .vimin _ => 0xB4
  | .vimax _ => 0xB5
  | .viabs _ => 0xB6
  | .vand _ => 0xB7
  | .vor _ => 0xB8
  | .vxor _ => 0xB9
  | .vshl _ => 0xBA
  | .vshr _ => 0xBB
  | .vsar _ => 0xBC
  | .vicmp _ => 0xBD
  | .vclz _ => 0xBE
  | .vpopc _ => 0xBF
  | .vsat _ => 0xC0
  | .vred _ => 0xC1
  | .vscan _ => 0xC2
  | .vtrans _ => 0xC3
  | .vshift _ => 0xC4
  | .vrowg _ => 0xC5
  | .vpack _ => 0xC6
  | .vunpk _ => 0xC7
  | .vmxq _ => 0xC8
  | .vmxd _ => 0xC9
  | .vmask _ => 0xCA
  | .vclass _ => 0xCB
  | .vcopysgn _ => 0xCC
  | .vldexp _ => 0xCD
  | .vgetexp _ => 0xCE
  | _ => 0

/-- Opcode, guard and fields of a standalone sync form (R168). -/
def Instr.sync? : Instr → Option (Nat × BitVec 4 × BitVec 6 × BitVec 6)
  | .aslw g f1 f2 => some (0x4F, g, f1, f2)
  | .asls g f1 f2 => some (0x50, g, f1, f2)
  | .atlw g f1 f2 => some (0x51, g, f1, f2)
  | .wslw g f1 f2 => some (0x7F, g, f1, f2)
  | .wsls g f1 f2 => some (0x80, g, f1, f2)
  | .wtlw g f1 f2 => some (0x81, g, f1, f2)
  | .vslw g f1 f2 => some (0xCF, g, f1, f2)
  | .vsls g f1 f2 => some (0xD0, g, f1, f2)
  | .vtlw g f1 f2 => some (0xD1, g, f1, f2)
  | .lslw g f1 f2 => some (0x69, g, f1, f2)
  | .lsls g f1 f2 => some (0x6A, g, f1, f2)
  | .ltlw g f1 f2 => some (0x6B, g, f1, f2)
  | _ => none

/-- A CR word. -/
def crWord (op : Nat) (g : BitVec 4) (d a b : BitVec 6) (x : BitVec 2 := 0) : BitVec 32 :=
  CR.pack { op := BitVec.ofNat 8 op, g, d, a, b, x }

/-- A CI word. -/
def ciWord (op : Nat) (g : BitVec 4) (d a : BitVec 6) (i : BitVec 8) : BitVec 32 :=
  CR.pack (CR.ofCI (BitVec.ofNat 8 op) g d a i)

/-- A CB word (R163). -/
def cbWord (op : Nat) (c : BitVec 4) (n : BitVec 1) (f : BitVec 19) : BitVec 32 :=
  BitVec.ofNat 32 (op * 2 ^ 24 + c.toNat * 2 ^ 20 + n.toNat * 2 ^ 19 + f.toNat)

/-- An imm8 of a 2-bit operation above six bits (R196, R197). -/
def opImm8 (o : BitVec 2) (v : BitVec 6) : BitVec 8 := BitVec.ofNat 8 (o.toNat * 64 + v.toNat)

/-- An imm32 of a 2-bit operation above thirty bits (R196, R197). -/
def opImm32 (o : BitVec 2) (v : BitVec 30) : BitVec 32 := BitVec.ofNat 32 (o.toNat * 2 ^ 30 + v.toNat)

/-- The continuation of LOOP and PIPE START (R203, R205). -/
def tripCont (src : BitVec 2) (k : BitVec 3) (trip : BitVec 8) (off : BitVec 19) : BitVec 32 :=
  BitVec.ofNat 32 (src.toNat * 2 ^ 30 + k.toNat * 2 ^ 27 + trip.toNat * 2 ^ 19 + off.toNat)

/-- The continuation of an atomic (R213). -/
def atomicCont (opc : BitVec 4) (sc : BitVec 3) (ord size : BitVec 2) (ft : BitVec 4) : BitVec 32 :=
  BitVec.ofNat 32 (opc.toNat * 2 ^ 28 + sc.toNat * 2 ^ 25 + ord.toNat * 2 ^ 23 + size.toNat * 2 ^ 21 +
    ft.toNat * 2 ^ 17)

/-- The words of an instruction: the first slot and, for a 64-bit instruction, its continuation (R162 to R174);
none for a row that is a step of another agent. -/
def encode (i : Instr) : Option (BitVec 32 × Option (BitVec 32)) :=
  let one (w : BitVec 32) : Option (BitVec 32 × Option (BitVec 32)) := some (w, none)
  let two (w k : BitVec 32) : Option (BitVec 32 × Option (BitVec 32)) := some (w, some k)
  let p (v : BitVec 4) : BitVec 6 := v.setWidth 6
  let q (v : BitVec 3) : BitVec 6 := v.setWidth 6
  let u (v : BitVec 1) : BitVec 2 := v.setWidth 2
  let m5 (v : BitVec 5) (s : BitVec 3) : BitVec 8 := BitVec.ofNat 8 (v.toNat * 8 + s.toNat)
  let m29 (v : BitVec 29) (s : BitVec 3) : BitVec 32 := BitVec.ofNat 32 (v.toNat * 8 + s.toNat)
  match i with
  | .add g d a b => one (crWord 0x01 g d a b)
  | .sub g d a b => one (crWord 0x02 g d a b)
  | .mul g d a b => one (crWord 0x03 g d a b)
  | .mulh g d a b x => one (crWord 0x04 g d a b (u x))
  | .div g d a b x => one (crWord 0x05 g d a b (u x))
  | .rem g d a b x => one (crWord 0x06 g d a b (u x))
  | .and g d a b => one (crWord 0x07 g d a b)
  | .or g d a b => one (crWord 0x08 g d a b)
  | .xor g d a b => one (crWord 0x09 g d a b)
  | .andn g d a b => one (crWord 0x0A g d a b)
  | .shl g d a b => one (crWord 0x0B g d a b)
  | .shr g d a b => one (crWord 0x0C g d a b)
  | .sar g d a b => one (crWord 0x0D g d a b)
  | .min g d a b x => one (crWord 0x0E g d a b (u x))
  | .max g d a b x => one (crWord 0x0F g d a b (u x))
  | .bitc g d a k => one (crWord 0x10 g d a 0 k)
  | .addi g d a i => one (ciWord 0x11 g d a i)
  | .addiImm32 g d a i => two (ciWord 0x11 g d a 0) i
  | .logi g d a o v => one (ciWord 0x12 g d a (opImm8 o v))
  | .logiImm32 g d a o v => two (ciWord 0x12 g d a 0) (opImm32 o v)
  | .shi g d a o n => one (ciWord 0x13 g d a (opImm8 o n))
  | .shiImm32 g d a o n => two (ciWord 0x13 g d a 0) (opImm32 o (n.setWidth 30))
  | .ldi g d i => one (ciWord 0x14 g d 0 i)
  | .ldiImm32 g d i => two (ciWord 0x14 g d 0 0) i
  | .ldih g d a i => two (ciWord 0x15 g d a 0) i
  | .cmp g d a b c => one (crWord 0x16 g (p d) a b c)
  | .cmpi g d a c v => one (ciWord 0x17 g (p d) a (opImm8 c v))
  | .cmpiImm32 g d a c v => two (ciWord 0x17 g (p d) a 0) (opImm32 c v)
  | .sel g d a b x => one (crWord 0x18 g d (p a) b x)
  | .plog g d a b o => one (crWord 0x19 g (p d) (p a) (p b) o)
  | .lea g d a b h => one (crWord 0x1A g d a b h)
  | .leaImm32 g d a b h i => two (crWord 0x1A g d a b h) i
  | .br c n f => one (cbWord 0x1B c n f)
  | .jmp g a => one (crWord 0x1C g 0 a 0)
  | .call c n f => one (cbWord 0x1D c n f)
  | .ret g a => one (crWord 0x1E g 0 a 0)
  | .loop g d a src k trip off => two (ciWord 0x1F g d a 0) (tripCont src k trip off)
  | .pipeStart g a st src k trip => two (ciWord 0x20 g 0 a (st.setWidth 8)) (tripCont src k trip 0)
  | .pipeTurn g off => two (ciWord 0x20 g 0 0 0x40) (tripCont 0 0 0 off)
  | .fadd g d a b x => one (crWord 0x21 g d a b x)
  | .fmul g d a b x => one (crWord 0x22 g d a b (u x))
  | .ffma g d a b x => one (crWord 0x23 g d a b x)
  | .fcmp g d a b x => one (crWord 0x24 g (p d) a b x)
  | .fcvt g d a t x => one (crWord 0x25 g d a (p t) (u x))
  | .fdsq g d a b x => one (crWord 0x26 g d a b (u x))
  | .ld g d a i => one (ciWord 0x27 g d a (m5 i 0))
  | .ldImm32 g d a i => two (ciWord 0x27 g d a 0) (m29 i 0)
  | .ldx g d a b z => one (crWord 0x28 g d a b z)
  | .st g d a i => one (ciWord 0x29 g d a (m5 i 0))
  | .stImm32 g d a i => two (ciWord 0x29 g d a 0) (m29 i 0)
  | .lda g d a i s => one (ciWord 0x2A g d a (m5 i s))
  | .ldaImm32 g d a i s => two (ciWord 0x2A g d a 0) (m29 i s)
  | .stl g d a i s => one (ciWord 0x2B g d a (m5 i s))
  | .stlImm32 g d a i s => two (ciWord 0x2B g d a 0) (m29 i s)
  | .amo g d a b opc sc ord size => two (crWord 0x2C g d a b) (atomicCont opc sc ord size 0)
  | .amon g a b opc sc ord size => two (crWord 0x2D g 0 a b) (atomicCont opc sc ord size 0)
  | .cas g d a b sc ord size => two (crWord 0x2E g d a b) (atomicCont 0 sc ord size 0)
  | .cadd g a b sc ord ft => two (crWord 0x2F g 0 a b) (atomicCont 0 sc ord 0 ft)
  | .fence g k s => one (ciWord 0x30 g 0 0 (BitVec.ofNat 8 (k.toNat * 8 + s.toNat)))
  | .slwait g s l n => one (ciWord 0x31 g (q s) l (n.setWidth 8))
  | .slsig g s l n => one (ciWord 0x32 g (q s) l (n.setWidth 8))
  | .tlwait g a id s => two (crWord 0x33 g 0 a 0) (BitVec.ofNat 32 (id.toNat * 2 ^ 24 + s.toNat * 2 ^ 21))
  | .tlarm g a b id => two (crWord 0x34 g 0 a b) (BitVec.ofNat 32 (id.toNat * 2 ^ 24))
  | .qrd g d qq => one (crWord 0x35 g d (q qq) 0)
  | .qwr g qq b => one (crWord 0x36 g 0 (q qq) b)
  | .wfe g d => one (crWord 0x37 g d 0 0)
  | .sev g a x => one (crWord 0x38 g 0 a 0 x)
  | .fmt g a => one (crWord 0x39 g 0 a 0)
  | .safept g i => one (ciWord 0x3A g 0 0 i)
  | .safeptImm32 g i => two (ciWord 0x3A g 0 0 0) i
  | .launch g a b => one (crWord 0x3B g 0 a b)
  | .exit => one (crWord 0x3C 0 0 0 0)
  | .csr g d a x n => two (crWord 0x3D g d a 0 x) (n.setWidth 32)
  | .sysNop g => one (ciWord 0x3E g 0 0 0)
  | .sysUiret g => one (ciWord 0x3E g 0 0 1)
  | .sysPause g => one (ciWord 0x3E g 0 0 2)
  | i =>
    match i.sync?, i.ex? with
    | some (op, g, f1, f2), _ => one (crWord op g f1 f2 0)
    | none, some e => two (crWord i.exOp e.g e.f1 e.f2 e.f3 e.x) e.cont
    | none, none => none

/-- The stream of an encoded instruction (R171). -/
def wordStream (w : BitVec 32) : Stream := (opcodeStream (CR.unpack w).op.toNat).getD .control

/-- The instruction that the decoder reads from a table word: the first slot in the low 32 bits, the continuation
above it. Where the table gives the row no continuation bits, the continuation is the word of zeros if the opcode
has the 64-bit length alone. -/
def decodeTableWord (nbits w : Nat) : Option Instr :=
  let w0 := BitVec.ofNat 32 w
  let op := (CR.unpack w0).op.toNat
  let k := if 32 < nbits ∨ lengthOk op false = false then some (BitVec.ofNat 32 (w / 2 ^ 32)) else none
  match decodeSlot (wordStream w0) w0 k with
  | .ok i => some i
  | .error _ => none

end Sys2Proof
end

