-- ==== Sys2Proof/Machine/Tables.lean ====
section
/-!
DEFINITION. Reading and writing numbered storage, always in its canonical form.
-/
namespace Sys2Proof

/-- The value at number `k`, where `d` is what an unlisted number reads as. -/
def Table.get {α : Type} (d : α) : Table α → Nat → α
  | [], _ => d
  | (j, v) :: t, k => if j = k then v else Table.get d t k

/-- The table without any pair of number `k`. -/
def Table.erase {α : Type} (k : Nat) : Table α → Table α
  | [] => []
  | (j, v) :: t => if j = k then Table.erase k t else (j, v) :: Table.erase k t

/-- The pair `(k, v)` placed before the first larger number. -/
def Table.insert {α : Type} (k : Nat) (v : α) : Table α → Table α
  | [] => [(k, v)]
  | (j, w) :: t => if k < j then (k, v) :: (j, w) :: t else (j, w) :: Table.insert k v t

/-- The table with value `v` at number `k`, in the canonical form. -/
def Table.set {α : Type} [DecidableEq α] (d : α) (t : Table α) (k : Nat) (v : α) : Table α :=
  if v = d then Table.erase k t else Table.insert k v (Table.erase k t)

/-- The canonical form: numbers rise strictly from `lo`, and no listed value is the default. -/
def Table.wfFrom {α : Type} [DecidableEq α] (d : α) : Nat → Table α → Bool
  | _, [] => true
  | lo, (k, v) :: t => decide (lo ≤ k) && decide (v ≠ d) && Table.wfFrom d (k + 1) t

/-- The canonical form of a table. -/
def Table.wf {α : Type} [DecidableEq α] (d : α) (t : Table α) : Bool := Table.wfFrom d 0 t

/-- Values written at consecutive numbers from `k`. -/
def Table.setList {α : Type} [DecidableEq α] (d : α) : Table α → Nat → List α → Table α
  | t, _, [] => t
  | t, k, v :: vs => Table.setList d (Table.set d t k v) (k + 1) vs

/-- The `n` values at consecutive numbers from `k`. -/
def Table.getList {α : Type} (d : α) (t : Table α) (k : Nat) : Nat → List α
  | 0 => []
  | n + 1 => Table.get d t k :: Table.getList d t (k + 1) n

/-- The pairs whose number lies outside `[lo, lo + n)`. -/
def Table.dropRange {α : Type} (lo n : Nat) (t : Table α) : Table α :=
  t.filter fun e => decide (e.1 < lo) || decide (lo + n ≤ e.1)

/-- The pairs whose number lies in `[lo, lo + n)`, renumbered so that `lo` becomes `base`. -/
def Table.takeRange {α : Type} (lo n base : Nat) (t : Table α) : Table α :=
  (t.filter fun e => decide (lo ≤ e.1) && decide (e.1 < lo + n)).map fun e => (e.1 - lo + base, e.2)

/-- `dst` with `[base, base + n)` replaced by the values `src` holds at `[lo, lo + n)`; both tables read the same
default where nothing is listed. -/
def Table.blit {α : Type} (dst : Table α) (base : Nat) (src : Table α) (lo n : Nat) : Table α :=
  (dst.filter fun e => decide (e.1 < base)) ++ Table.takeRange lo n base src ++
    (dst.filter fun e => decide (base + n ≤ e.1))

/-- The table in canonical form that reads as `t` does. -/
def Table.canon {α : Type} [DecidableEq α] (d : α) (t : Table α) : Table α :=
  if Table.wf d t then t else t.foldr (fun e r => Table.set d r e.1 e.2) []

end Sys2Proof
end

