-- ==== Sys2Proof/Machine/Flags.lean ====
section
/-!
DEFINITION. The five arithmetic flags (R32), in the bit order of FPFLAGS.TASK (R376), and the number formats and
element type codes of R20 and R21.
-/
namespace Sys2Proof.Machine

/-- A set of flags: [0] inexact, [1] underflow, [2] overflow, [3] divide-by-zero, [4] invalid (R376). -/
abbrev Flags := BitVec 5

def Flags.inexact : Flags := 1
def Flags.underflow : Flags := 2
def Flags.overflow : Flags := 4
def Flags.divZero : Flags := 8
def Flags.invalid : Flags := 16

/-- Flag `f` when the condition holds. -/
def Flags.when (b : Bool) (f : Flags) : Flags := if b then f else 0

/-- The floating-point formats of R21. -/
inductive Fmt where
  | fp64 | fp32 | bf16 | fp16 | e4m3 | e5m2 | e2m1
  deriving DecidableEq, Repr

/-- Width in bits (R21). -/
def Fmt.width : Fmt → Nat
  | .fp64 => 64 | .fp32 => 32 | .bf16 => 16 | .fp16 => 16 | .e4m3 => 8 | .e5m2 => 8 | .e2m1 => 4

/-- Stored significand bits (R21). -/
def Fmt.mbits : Fmt → Nat
  | .fp64 => 52 | .fp32 => 23 | .bf16 => 7 | .fp16 => 10 | .e4m3 => 3 | .e5m2 => 2 | .e2m1 => 1

/-- Exponent field bits (R21). -/
def Fmt.ebits : Fmt → Nat
  | .fp64 => 11 | .fp32 => 8 | .bf16 => 8 | .fp16 => 5 | .e4m3 => 4 | .e5m2 => 5 | .e2m1 => 2

/-- Exponent bias (R21). -/
def Fmt.bias : Fmt → Nat
  | .fp64 => 1023 | .fp32 => 127 | .bf16 => 127 | .fp16 => 15 | .e4m3 => 7 | .e5m2 => 15 | .e2m1 => 1

/-- Whether an exponent field of all ones is kept for infinities and NaNs (R21, R23). -/
def Fmt.hasInf : Fmt → Bool
  | .e4m3 => false | .e2m1 => false | _ => true

/-- The exponent of the smallest normal number (R21). -/
def Fmt.emin (f : Fmt) : Int := 1 - (f.bias : Int)

/-- The exponent of the quantum of subnormal numbers (R21). -/
def Fmt.qmin (f : Fmt) : Int := f.emin - (f.mbits : Int)

/-- The largest finite magnitude as significand and exponent (R21). -/
def Fmt.maxFinite (f : Fmt) : Nat × Int :=
  match f with
  | .e4m3 => (14, 5)
  | .e2m1 => (3, 1)
  | f => (2 ^ (f.mbits + 1) - 1, (f.bias : Int) - f.mbits)

/-- The bits of the largest finite magnitude (R21). -/
def Fmt.maxFiniteBits (f : Fmt) : Nat :=
  match f with
  | .e4m3 => 0x7E
  | .e2m1 => 7
  | f => (2 ^ f.ebits - 2) * 2 ^ f.mbits + (2 ^ f.mbits - 1)

/-- The bits of +infinity, for the formats that have it. -/
def Fmt.infBits (f : Fmt) : Nat := (2 ^ f.ebits - 1) * 2 ^ f.mbits

/-- Width in bits of an element type code 0 to 14 (R20). -/
def typeWidth (t : Nat) : Nat :=
  match t with
  | 0 => 64 | 1 => 32 | 2 => 16 | 3 => 16 | 4 => 8 | 5 => 8 | 6 => 4
  | 7 => 8 | 8 => 16 | 9 => 32 | 10 => 64 | 11 => 8 | 12 => 16 | 13 => 32 | _ => 64

/-- The floating-point format of a type code, none for the integers (R20). -/
def typeFmt (t : Nat) : Option Fmt :=
  match t with
  | 0 => some .fp64 | 1 => some .fp32 | 2 => some .bf16 | 3 => some .fp16
  | 4 => some .e4m3 | 5 => some .e5m2 | 6 => some .e2m1 | _ => none

/-- Whether an integer type code is signed (R20). -/
def typeSigned (t : Nat) : Bool := decide (7 ≤ t) && decide (t ≤ 10)

/-- Whether a type code is an integer (R20). -/
def typeInt (t : Nat) : Bool := decide (7 ≤ t) && decide (t ≤ 14)

/-- The rounding modes that roundToFormat takes (R30). -/
inductive Round where
  | rne | rtz | rdn | rup
  deriving DecidableEq, Repr

/-- The mode of a rounding code 0 to 3 (R30). -/
def Round.of (c : Nat) : Round :=
  match c with
  | 1 => .rtz | 2 => .rdn | 3 => .rup | _ => .rne

end Sys2Proof.Machine
end

