-- ==== Sys2Proof/Machine/Numbers.lean ====
section
/-!
DEFINITION. Floating-point values, roundToFormat and the exact operations that every rounded operation of the
manual uses (R20 to R33), stochastic rounding (R34 to R36), the weave group sum (R38, R39), the reduction tree
(R42) and polder cells (R45 to R50).
-/
namespace Sys2Proof.Machine

/-- The NaN classes of R26. -/
inductive NanClass where
  | canonical | poison | cellOvf
  deriving DecidableEq, Repr

/-- A value of a floating-point format: a NaN, an infinity, or `(-1)^neg * m * 2^e`. -/
inductive Fp where
  | nan (c : NanClass) (signalling neg : Bool)
  | inf (neg : Bool)
  | fin (neg : Bool) (m : Nat) (e : Int)
  deriving DecidableEq, Repr

/-- Whether a value is a NaN. -/
def Fp.isNan : Fp → Bool
  | .nan _ _ _ => true
  | _ => false

/-- Whether a value is a signalling NaN. -/
def Fp.isSignalling : Fp → Bool
  | .nan _ s _ => s
  | _ => false

/-- The sign of a value. -/
def Fp.neg? : Fp → Bool
  | .nan _ _ n => n
  | .inf n => n
  | .fin n _ _ => n

/-- Whether a value is a zero. -/
def Fp.isZero : Fp → Bool
  | .fin _ 0 _ => true
  | _ => false

/-- The value with its sign inverted. -/
def Fp.negate : Fp → Fp
  | .nan c s n => .nan c s (!n)
  | .inf n => .inf (!n)
  | .fin n m e => .fin (!n) m e

/-- The value that the low bits of `v` hold in format `f` (R21 to R23, R27). -/
def decodeFp (f : Fmt) (v : Nat) : Fp :=
  let neg := v / 2 ^ (f.width - 1) % 2 == 1
  let ex := v / 2 ^ f.mbits % 2 ^ f.ebits
  let fr := v % 2 ^ f.mbits
  let finite : Fp :=
    if ex = 0 then .fin neg fr f.qmin else .fin neg (2 ^ f.mbits + fr) ((ex : Int) - f.bias - f.mbits)
  match f with
  | .e2m1 => finite
  | .e4m3 => if ex = 15 ∧ fr = 7 then .nan .canonical false neg else finite
  | f =>
    if ex = 2 ^ f.ebits - 1 then
      if fr = 0 then .inf neg
      else
        let quiet := fr / 2 ^ (f.mbits - 1) == 1
        let payload := fr % 2 ^ (f.mbits - 1)
        if f = .e5m2 then .nan .canonical (!quiet) neg
        else if quiet && payload == 1 then .nan .poison false neg
        else if quiet && payload == 2 then .nan .cellOvf false neg
        else .nan .canonical (!quiet) neg
    else finite

/-- The bits of a NaN class in a format (R26); E2M1 takes the operand's sign. -/
def nanBits (f : Fmt) (c : NanClass) (neg : Bool) : Nat :=
  match f with
  | .e2m1 => if neg then 15 else 7
  | .e4m3 => 0x7F
  | .e5m2 => 0x7E
  | f =>
    f.infBits + 2 ^ (f.mbits - 1) + (match c with | .canonical => 0 | .poison => 1 | .cellOvf => 2)

/-- The sign bit of a format. -/
def signBit (f : Fmt) (neg : Bool) : Nat := if neg then 2 ^ (f.width - 1) else 0

/-- The bits of an infinite result, which is also what E4M3 and E2M1 and a saturating choice deliver (R31). -/
def infResult (f : Fmt) (sat neg : Bool) : Nat :=
  match f with
  | .e2m1 => signBit f neg + 7
  | .e4m3 => if sat then signBit f neg + 0x7E else 0x7F
  | f => signBit f neg + (if sat then f.maxFiniteBits else f.infBits)

/-- The overflow result of R31. -/
def overflowResult (f : Fmt) (mode : Round) (sat neg : Bool) : Nat :=
  match f with
  | .e2m1 => signBit f neg + 7
  | .e4m3 => if sat then signBit f neg + 0x7E else 0x7F
  | f =>
    let toMax := sat || (match mode with | .rne => false | .rtz => true | .rdn => !neg | .rup => neg)
    signBit f neg + (if toMax then f.maxFiniteBits else f.infBits)

/-- Whether a kept significand rounds up, from its low bit, how the rest compares with one half (0 below, 1 equal,
2 above), and whether the rest is nonzero (R30). -/
def roundsUp (mode : Round) (neg odd : Bool) (half : Nat) (rest : Bool) : Bool :=
  match mode with
  | .rne => half == 2 || (half == 1 && odd)
  | .rtz => false
  | .rdn => neg && rest
  | .rup => !neg && rest

/-- `m * 2^e`, and a little more when `sticky`, rounded to a multiple of `2^q`: the multiple and whether it differs
from the value. -/
def roundAt (mode : Round) (neg : Bool) (m : Nat) (e : Int) (sticky : Bool) (q : Int) : Nat × Bool :=
  if q ≤ e then (m * 2 ^ (e - q).toNat, sticky)
  else
    let d := (q - e).toNat
    let k := m / 2 ^ d
    let r := m % 2 ^ d
    let h := 2 ^ (d - 1)
    let half := if r < h then 0 else if r = h then (if sticky then 2 else 1) else 2
    let rest := r != 0 || sticky
    (if roundsUp mode neg (k % 2 == 1) half rest then k + 1 else k, rest)

/-- Whether `a * 2^i > b * 2^j`. -/
def gtScaled (a : Nat) (i : Int) (b : Nat) (j : Int) : Bool :=
  if a = 0 then false
  else if b = 0 then true
  else
    let la := (Nat.log2 a : Int) + i
    let lb := (Nat.log2 b : Int) + j
    if la ≠ lb then decide (lb < la)
    else if j ≤ i then decide (b < a * 2 ^ (i - j).toNat) else decide (b * 2 ^ (j - i).toNat < a)

/-- The bits of the finite magnitude `k * 2^q`, with `k` at most one binade above the stored significand. -/
def encodeMag (f : Fmt) (neg : Bool) (k : Nat) (q : Int) : Nat :=
  if k < 2 ^ f.mbits then signBit f neg + k
  else
    let top := k / 2 ^ (f.mbits + 1)
    let k' := if top = 0 then k else k / 2
    let q' := if top = 0 then q else q + 1
    signBit f neg + (q' + f.mbits + f.bias).toNat * 2 ^ f.mbits + (k' - 2 ^ f.mbits)

/-- The exact value `(-1)^neg * m * 2^e`, and a little more in magnitude when `sticky`, rounded into a format: the
bits and the flags (R30 to R32). With `sticky`, `m` must hold at least two bits more than the format keeps. -/
def roundFin (f : Fmt) (mode : Round) (sat : Bool) (neg : Bool) (m : Nat) (e : Int) (sticky : Bool) : Nat × Flags :=
  if m = 0 ∧ sticky = false then (signBit f neg, 0)
  else
    let lg : Int := (Nat.log2 m : Int) + e
    let tiny := decide (lg < f.qmin - 2)
    let m := if tiny then 1 else m
    let e := if tiny then f.qmin - 3 else e
    let sticky := sticky || tiny
    let lg : Int := if tiny then f.qmin - 3 else lg
    let qn := lg - f.mbits
    let q := if qn < f.qmin then f.qmin else qn
    let (k, inexact) := roundAt mode neg m e sticky q
    let (mk, me) := f.maxFinite
    if gtScaled k q mk me then
      (overflowResult f mode sat neg, Flags.overflow ||| Flags.inexact)
    else
      let (kn, _) := roundAt mode neg m e sticky qn
      let isTiny := !(gtScaled kn qn 1 f.emin) && !(decide (kn = 2 ^ (f.emin - qn).toNat) && decide (qn ≤ f.emin))
      (encodeMag f neg k q, Flags.when inexact Flags.inexact ||| Flags.when (inexact && isTiny) Flags.underflow)

/-- roundToFormat of an exact value (R30 to R32). -/
def roundToFormat (x : Fp) (f : Fmt) (mode : Round) (sat : Bool) : Nat × Flags :=
  match x with
  | .nan c s n =>
    (nanBits f c n, Flags.when (s || f == .e2m1) Flags.invalid)
  | .inf n =>
    (infResult f sat n, Flags.when (sat || !f.hasInf) Flags.invalid)
  | .fin n m e => roundFin f mode sat n m e false

/-- The class that the NaN operands of an operation give (R27). -/
def nanClassOf (xs : List Fp) : NanClass :=
  if xs.any (fun x => match x with | .nan .poison _ _ => true | _ => false) then .poison
  else if xs.any (fun x => match x with | .nan .cellOvf _ _ => true | _ => false) then .cellOvf
  else .canonical

/-- An exact result before rounding: a value with its sticky bit, and the flags raised so far. -/
structure Exact where
  val : Fp
  sticky : Bool := false
  flags : Flags := 0
  deriving DecidableEq, Repr

/-- The NaN that NaN operands give, with invalid for a signalling one (R27, R32). -/
def Exact.ofNans (xs : List Fp) : Exact :=
  { val := .nan (nanClassOf xs) false false, flags := Flags.when (xs.any Fp.isSignalling) Flags.invalid }

/-- The canonical NaN of an invalid operation (R27). -/
def Exact.invalid : Exact := { val := .nan .canonical false false, flags := Flags.invalid }

/-- An exact result rounded once into a format. -/
def Exact.round (x : Exact) (f : Fmt) (mode : Round) (sat : Bool) : Nat × Flags :=
  match x.val with
  | .fin n m e =>
    let (b, fl) := roundFin f mode sat n m e x.sticky
    (b, fl ||| x.flags)
  | v =>
    let (b, fl) := roundToFormat v f mode sat
    (b, fl ||| x.flags)

/-- The signed integer of a finite value over `2^q`, for `q` at most its exponent. -/
def finOver (neg : Bool) (m : Nat) (e q : Int) : Int :=
  let v : Int := ((m * 2 ^ (e - q).toNat : Nat) : Int)
  if neg then -v else v

/-- A finite value from an integer over `2^q`; an exact zero takes the sign given. -/
def finOf (v : Int) (q : Int) (zeroNeg : Bool) : Fp :=
  if v = 0 then .fin zeroNeg 0 q else .fin (decide (v < 0)) v.natAbs q

/-- The sign of an exact zero sum (IEEE 754, R22). -/
def zeroSumNeg (mode : Round) (na nb : Bool) : Bool := if na == nb then na else mode == .rdn

/-- The exact sum (R22, R27). -/
def exactAdd (mode : Round) (a b : Fp) : Exact :=
  if a.isNan || b.isNan then .ofNans [a, b]
  else
    match a, b with
    | .inf n, .inf n' => if n == n' then { val := .inf n } else .invalid
    | .inf n, _ => { val := .inf n }
    | _, .inf n => { val := .inf n }
    | .fin na ma ea, .fin nb mb eb =>
      let q := if ea ≤ eb then ea else eb
      { val := finOf (finOver na ma ea q + finOver nb mb eb q) q (zeroSumNeg mode na nb) }
    | _, _ => .invalid

/-- The exact product (R22, R27). -/
def exactMul (a b : Fp) : Exact :=
  if a.isNan || b.isNan then .ofNans [a, b]
  else
    let n := a.neg? != b.neg?
    match a, b with
    | .fin _ ma ea, .fin _ mb eb => { val := .fin n (ma * mb) (ea + eb) }
    | .inf _, x => if x.isZero then .invalid else { val := .inf n }
    | x, .inf _ => if x.isZero then .invalid else { val := .inf n }
    | _, _ => .invalid

/-- The exact fused product and sum (R22, R27). -/
def exactFma (mode : Round) (a b c : Fp) : Exact :=
  let p := exactMul a b
  if c.isNan then
    if a.isNan || b.isNan then .ofNans [a, b, c]
    else
      let x := Exact.ofNans [c]
      { x with flags := x.flags ||| Flags.when (p.val.isNan && Config.fmaInvalidWithNan) Flags.invalid }
  else if p.val.isNan then p
  else exactAdd mode p.val c

/-- The quotient to 80 bits and its sticky bit (R22, R27). -/
def exactDiv (a b : Fp) : Exact :=
  if a.isNan || b.isNan then .ofNans [a, b]
  else
    let n := a.neg? != b.neg?
    match a, b with
    | .inf _, .inf _ => .invalid
    | .inf _, _ => { val := .inf n }
    | _, .inf _ => { val := .fin n 0 0 }
    | .fin _ ma ea, .fin _ mb eb =>
      if mb = 0 then
        if ma = 0 then .invalid else { val := .inf n, flags := Flags.divZero }
      else
        let s := 80 + Nat.log2 mb
        let num := ma * 2 ^ s
        { val := .fin n (num / mb) (ea - eb - s), sticky := num % mb != 0 }
    | _, _ => .invalid

/-- The integer square root by bits, from bit `n` down. -/
def isqrtFrom (v : Nat) : Nat → Nat → Nat
  | 0, r => r
  | n + 1, r =>
    let t := r + 2 ^ n
    isqrtFrom v n (if t * t ≤ v then t else r)

/-- The integer square root. -/
def isqrt (v : Nat) : Nat := isqrtFrom v (Nat.log2 v / 2 + 1) 0

/-- The square root to 80 bits and its sticky bit (R22, R27). -/
def exactSqrt (a : Fp) : Exact :=
  match a with
  | .nan c s _ => .ofNans [.nan c s false]
  | .inf n => if n then .invalid else { val := .inf false }
  | .fin n m e =>
    if m = 0 then { val := a }
    else if n then .invalid
    else
      let s : Nat := 160 + (if (e % 2 == 0) then 0 else 1)
      let v := m * 2 ^ s
      let r := isqrt v
      { val := .fin false r ((e - s) / 2), sticky := r * r != v }

/-- How two non-NaN values compare: less, equal or greater; the zeros are equal. -/
def fpCompare (a b : Fp) : Ordering :=
  match a, b with
  | .inf n, .inf n' => if n == n' then .eq else if n then .lt else .gt
  | .inf n, _ => if n then .lt else .gt
  | _, .inf n => if n then .gt else .lt
  | .fin na ma ea, .fin nb mb eb =>
    let q := if ea ≤ eb then ea else eb
    compare (finOver na ma ea q) (finOver nb mb eb q)
  | _, _ => .eq

/-- The relation of FCMP and VCMP, 0 EQ, 1 LT, 2 LE, 3 UN, and its flags (R209). -/
def fpRelation (rel : Nat) (a b : Fp) : Bool × Flags :=
  let nan := a.isNan || b.isNan
  let snan := a.isSignalling || b.isSignalling
  let c := fpCompare a b
  match rel with
  | 0 => (!nan && c == .eq, Flags.when snan Flags.invalid)
  | 1 => (!nan && c == .lt, Flags.when nan Flags.invalid)
  | 2 => (!nan && c != .gt, Flags.when nan Flags.invalid)
  | _ => (nan, Flags.when snan Flags.invalid)

/-- Minimum or maximum, with -0 below +0 and NaN classes kept (R44). -/
def fpMinMax (isMax : Bool) (a b : Fp) : Exact :=
  if a.isNan || b.isNan then .ofNans [a, b]
  else
    let less := match fpCompare a b with
      | .lt => true
      | .gt => false
      | .eq => a.neg? && !b.neg?
    { val := if less == isMax then b else a }

/-- A finite value rounded to an integer: the integer and whether it differs (R33). -/
def roundToInt (mode : Round) (neg : Bool) (m : Nat) (e : Int) : Int × Bool :=
  let tiny := decide (m ≠ 0) && decide ((Nat.log2 m : Int) + e < -3)
  let (k, ix) := if tiny then roundAt mode neg 1 (-4) true 0 else roundAt mode neg m e false 0
  (if neg then -(k : Int) else (k : Int), ix)

/-- The least value of an integer type (R25). -/
def intMin (t : Nat) : Int := if typeSigned t then -((2 ^ (typeWidth t - 1) : Nat) : Int) else 0

/-- The greatest value of an integer type (R25). -/
def intMax (t : Nat) : Int :=
  if typeSigned t then ((2 ^ (typeWidth t - 1) : Nat) : Int) - 1 else ((2 ^ typeWidth t : Nat) : Int) - 1

/-- The low bits of an integer at a width (R25). -/
def wrapInt (w : Nat) (v : Int) : Nat := (v % ((2 ^ w : Nat) : Int)).toNat

/-- The integer that the low bits of `v` hold in a type (R25). -/
def decodeInt (t v : Nat) : Int :=
  let w := typeWidth t
  let u := v % 2 ^ w
  if typeSigned t && decide (2 ^ (w - 1) ≤ u) then (u : Int) - ((2 ^ w : Nat) : Int) else (u : Int)

/-- A value clamped to an integer type's range. -/
def clampInt (t : Nat) (v : Int) : Int :=
  if v < intMin t then intMin t else if intMax t < v then intMax t else v

/-- Floating point to an integer type (R33): the bits at the type's width, and the flags. -/
def fpToInt (x : Fp) (t : Nat) (mode : Round) : Nat × Flags :=
  match x with
  | .nan _ _ _ => (0, Flags.invalid)
  | .inf n => (wrapInt (typeWidth t) (if n then intMin t else intMax t), Flags.invalid)
  | .fin n m e =>
    if decide (m ≠ 0) && decide (80 < (Nat.log2 m : Int) + e) then
      (wrapInt (typeWidth t) (if n then intMin t else intMax t), Flags.invalid)
    else
      let (v, ix) := roundToInt mode n m e
      let c := clampInt t v
      (wrapInt (typeWidth t) c, if c = v then Flags.when ix Flags.inexact else Flags.invalid)

/-- An integer as an exact value. -/
def fpOfInt (v : Int) : Fp := .fin (decide (v < 0)) v.natAbs 0

/-- A conversion of the low bits of `v` from type `st` to type `dt` (R33, R305): bits and flags. An integer into an
integer keeps the low bits, or clamps when `sat`, and raises nothing: R32's row of values out of range is read as one of
floating-point sources (DESIGN CHOICE, log 93). -/
def convertType (st dt v : Nat) (mode : Round) (sat : Bool) : Nat × Flags :=
  match typeFmt st, typeFmt dt with
  | some f, some g => roundToFormat (decodeFp f v) g mode sat
  | some f, none => fpToInt (decodeFp f v) dt mode
  | none, some g => roundToFormat (fpOfInt (decodeInt st v)) g mode sat
  | none, none =>
    let x := decodeInt st v
    (wrapInt (typeWidth dt) (if sat then clampInt dt x else x), 0)

/-- mix64 of R35. -/
def mix64 (z : BitVec 64) : BitVec 64 :=
  let z := (z ^^^ (z >>> 30)) * 0xBF58476D1CE4E5B9#64
  let z := (z ^^^ (z >>> 27)) * 0x94D049BB133111EB#64
  z ^^^ (z >>> 31)

/-- srNoise of R35, from SRSEED. -/
def srNoise (seed : BitVec 128) (i j : BitVec 32) (tag5 : BitVec 5) : BitVec 64 :=
  let s : BitVec 64 := seed.extractLsb' 64 64
  let g : BitVec 64 := ((seed.extractLsb' 5 11 : BitVec 11) ++ tag5 : BitVec 16).setWidth 64
  let n : BitVec 64 := (seed.extractLsb' 16 48 : BitVec 48).setWidth 64
  let k := mix64 (s + g * 0x9E3779B97F4A7C15#64 + n)
  mix64 (k ^^^ (i ++ j : BitVec 64))

/-- srRound of R36: an FP32 value narrowed into a format with the noise of its coordinates. R32 does not say whether
tininess after SR is judged on the delivered value or with an unbounded exponent: the delivered value decides (DESIGN
CHOICE, log 77). -/
def srRound (v : Nat) (f : Fmt) (sat : Bool) (seed : BitVec 128) (i j : BitVec 32) (tag5 : BitVec 5) : Nat × Flags :=
  match decodeFp .fp32 v with
  | .fin neg m e =>
    if m = 0 then roundToFormat (.fin neg m e) f .rne sat
    else
      let lg : Int := (Nat.log2 m : Int) + e
      let un := lg - f.mbits
      let uq := if un < f.qmin then f.qmin else un
      let d := (uq - e).toNat
      let keep := m / 2 ^ d
      let disc := m % 2 ^ d
      let nz := (srNoise seed i j tag5).toNat
      let carry :=
        if d ≤ 32 then decide (2 ^ d ≤ disc + nz % 2 ^ d) && decide (d ≠ 0)
        else decide (2 ^ 32 ≤ disc / 2 ^ (d - 32) + nz % 2 ^ 32)
      let k := if carry then keep + 1 else keep
      let (mk, me) := f.maxFinite
      if gtScaled k (e + d) mk me then (overflowResult f .rne sat neg, Flags.overflow ||| Flags.inexact)
      else
        let (b, _) := roundFin f .rtz sat neg k (e + d) false
        let inexact := disc != 0
        let tiny := !(gtScaled k (e + d) 1 f.emin) && !(decide (k * 2 ^ (e + d - f.qmin).toNat = 2 ^ f.mbits))
        (b, Flags.when inexact Flags.inexact ||| Flags.when (inexact && tiny) Flags.underflow)
  | x => roundToFormat x f .rne sat

/-- floor(log2 |x|) of a nonzero finite value. -/
def fpExponent (m : Nat) (e : Int) : Int := (Nat.log2 m : Int) + e

/-- weaveGroup of R38 and R39: up to 32 factor pairs and two E8M0 scales give an FP32 value and flags. -/
def weaveGroup (ps : List (Fp × Fp)) (sa sw : Nat) : Nat × Flags :=
  let factors := ps.foldr (fun p l => p.1 :: p.2 :: l) []
  let anyNan := ps.any fun p => p.1.isNan || p.2.isNan
  let zeroInf := ps.any fun p => (exactMul p.1 p.2).val.isNan && !(p.1.isNan || p.2.isNan)
  let prods := ps.map fun p => (exactMul p.1 p.2).val
  let snan := factors.any Fp.isSignalling
  if anyNan || zeroInf || sa == 255 || sw == 255 then
    (nanBits .fp32 (nanClassOf factors) false, Flags.when (snan || zeroInf) Flags.invalid)
  else
    let pinf := prods.any fun p => p == .inf false
    let ninf := prods.any fun p => p == .inf true
    if pinf && ninf then (nanBits .fp32 .canonical false, Flags.invalid)
    else if pinf then (Fmt.fp32.infBits, 0)
    else if ninf then (signBit .fp32 true + Fmt.fp32.infBits, 0)
    else if prods.all Fp.isZero then
      (signBit .fp32 (!prods.isEmpty && prods.all fun p => p.neg?), 0)
    else
      let emax := prods.foldl (fun acc p => match p with
        | .fin _ m e => if m = 0 then acc else
            match acc with
            | none => some (fpExponent m e)
            | some x => some (if x < fpExponent m e then fpExponent m e else x)
        | _ => acc) (none : Option Int)
      let q := (emax.getD 0) - 50
      let part (p : Fp) : Int × Bool := match p with
        | .fin n m e =>
          if q ≤ e then (finOver n m e q, false)
          else
            let d := (q - e).toNat
            let k : Int := ((m / 2 ^ d : Nat) : Int)
            (if n then -k else k, m % 2 ^ d != 0)
        | _ => (0, false)
      let s := prods.foldl (fun acc p => acc + (part p).1) 0
      let sc : Int := (sa : Int) - 127 + ((sw : Int) - 127)
      let (b, fl) := roundToFormat (finOf s (q + sc) false) .fp32 .rne false
      let qx := prods.foldl (fun acc p => match p with
        | .fin _ m e => if m ≠ 0 && decide (e < acc) then e else acc
        | _ => acc) q
      let exact := prods.foldl (fun acc p => match p with
        | .fin n m e => if m = 0 then acc else acc + finOver n m e qx
        | _ => acc) (0 : Int)
      let same := fpCompare (decodeFp .fp32 b) (finOf exact (qx + sc) false) == .eq
      (b, if same then fl &&& ~~~(Flags.inexact ||| Flags.underflow) else fl ||| Flags.inexact)

/-- One level of the tree of R42 on values with flags. -/
def treeLevel {α : Type} (op : α → α → α) : List α → List α
  | a :: b :: rest => op a b :: treeLevel op rest
  | rest => rest

/-- treeReduce of R42, by levels. -/
def treeLoop {α : Type} (op : α → α → α) : Nat → List α → List α
  | 0, xs => xs
  | n + 1, xs => if xs.length ≤ 1 then xs else treeLoop op n (treeLevel op xs)

/-- treeReduce of R42. -/
def treeReduce {α : Type} (op : α → α → α) (identity : α) (xs : List α) : α :=
  match treeLoop op xs.length xs with
  | [] => identity
  | x :: _ => x

/-- A polder page's parameters (R45, R46): cell class 1 to 3, exponent, guard and read format code. -/
structure CellParams where
  cls : Nat
  e : Int
  g : Nat
  rfmt : Nat
  deriving DecidableEq, Repr

/-- Bytes of a cell: 8, 16 or 32 (R45). -/
def CellParams.size (p : CellParams) : Nat := 4 * 2 ^ p.cls

/-- Width W of the value field (R45). -/
def CellParams.vWidth (p : CellParams) : Nat := 8 * p.size - 4

/-- The read format (R46). -/
def CellParams.fmt (p : CellParams) : Fmt := match p.rfmt with | 0 => .fp64 | 1 => .fp32 | _ => .bf16

/-- Bytes of an element in element view (R46). -/
def CellParams.rs (p : CellParams) : Nat := p.fmt.width / 8

/-- The type code of the read format (R20, R46). -/
def CellParams.rtype (p : CellParams) : Nat := p.rfmt

/-- The state bits of a raw cell: NaN 8, +Inf 4, -Inf 2, overflow 1 (R45). -/
def cellState (p : CellParams) (raw : Nat) : Nat := raw / 2 ^ p.vWidth % 16

/-- The value field of a raw cell (R45). -/
def cellValue (p : CellParams) (raw : Nat) : Int :=
  let u := raw % 2 ^ p.vWidth
  if 2 ^ (p.vWidth - 1) ≤ u then (u : Int) - ((2 ^ p.vWidth : Nat) : Int) else u

/-- A raw cell from its state bits and value field. -/
def cellPack (p : CellParams) (st : Nat) (v : Int) : Nat := st * 2 ^ p.vWidth + wrapInt p.vWidth v

/-- cellAdd of R47. -/
def cellAdd (p : CellParams) (raw : Nat) (x : Fp) : Nat :=
  let st := cellState p raw
  let v := cellValue p raw
  match x with
  | .nan _ _ _ => cellPack p (st ||| 8) v
  | .inf false => cellPack p (st ||| 4) v
  | .inf true => cellPack p (st ||| 2) v
  | .fin n m e =>
    if m = 0 then raw
    else if p.vWidth < (Nat.log2 m : Int) + e - p.e then cellPack p (st ||| 1) v
    else
      let (a, _) := roundToInt .rne n m (e - p.e)
      if 2 ^ (p.vWidth - 1 - p.g) ≤ a.natAbs then cellPack p (st ||| 1) v
      else cellPack p st (v + a)

/-- cellMerge of R256: values summed, state bits ORed. -/
def cellMerge (p : CellParams) (raw raw' : Nat) : Nat :=
  cellPack p (cellState p raw ||| cellState p raw') (cellValue p raw + cellValue p raw')

/-- cellRead of R50, in the page's read format, with the flags of its rounding (R32). -/
def cellReadFlags (p : CellParams) (raw : Nat) : Nat × Flags :=
  let st := cellState p raw
  let v := cellValue p raw
  if st / 8 % 2 = 1 ∨ (st / 4 % 2 = 1 ∧ st / 2 % 2 = 1) then (nanBits p.fmt .canonical false, 0)
  else if st / 4 % 2 = 1 then (p.fmt.infBits, 0)
  else if st / 2 % 2 = 1 then (signBit p.fmt true + p.fmt.infBits, 0)
  else if st % 2 = 1 then (nanBits p.fmt .cellOvf false, 0)
  else if v = 0 then (0, 0)
  else roundToFormat (finOf v p.e false) p.fmt .rne false

/-- cellRead of R50. -/
def cellRead (p : CellParams) (raw : Nat) : Nat := (cellReadFlags p raw).1

end Sys2Proof.Machine
end

