-- ==== Sys2Proof/Machine/State.lean ====
section
/-!
DEFINITION. The state of one SK6144: its 256 tile cores, its 64 contexts, the graph engine and schedulers, the
memory system, the fabric ports, the steward and its registers, all as plain data. INVENTORY.md lists every piece
with the rule that names it.
-/
namespace Sys2Proof.Machine

/-- Why the machine stops with a fault. No meaning raises one: every fault that the spec names is a state of the
machine, in which the task stops and a record is written (R379). The type is kept for the interface. -/
inductive Fault where
  /-- Never raised. -/
  | none
  deriving DecidableEq, Repr

/-- Why the machine refuses a step. -/
inductive Refusal where
  /-- The row has no meaning yet. Safe: nothing is claimed of it. -/
  | notModelled (mnemonic : String)
  deriving DecidableEq, Repr

/-- An ordering vector: the five components of R69. -/
structure OVec where
  c : BitVec 32 := 0
  a : BitVec 32 := 0
  w : BitVec 32 := 0
  v : BitVec 32 := 0
  l : BitVec 32 := 0
  deriving DecidableEq, Repr

/-- One entry of a sluice's vector log (R70). -/
structure LogEntry where
  total : BitVec 32
  vec : OVec
  deriving DecidableEq, Repr

/-- A sluice (R125), its vector log and totals (R70), and the first streams that signal and wait on it (R392). -/
structure Sluice where
  count : BitVec 16 := 0
  ceil : BitVec 16 := 0
  barrier : Bool := false
  gen : BitVec 10 := 0
  arrive : BitVec 10 := 0
  phase : BitVec 10 := 0
  log : List LogEntry := []
  sigTotal : BitVec 32 := 0
  useTotal : BitVec 32 := 0
  firstSig : Option Nat := none
  firstWait : Option Nat := none
  deriving DecidableEq, Repr

/-- A loop counter (R204). -/
structure LoopCtr where
  act : Bool := false
  n : BitVec 32 := 0
  i : BitVec 32 := 0
  deriving DecidableEq, Repr

/-- The coil state (R206). -/
structure Coil where
  cpn : BitVec 32 := 0
  cpt : BitVec 32 := 0
  cps : BitVec 4 := 0
  srot : BitVec 5 := 0
  prot : BitVec 3 := 0
  deriving DecidableEq, Repr

/-- The registers that a bundle reads before it writes any (R156), and the loop state. -/
structure Regs where
  s : Table Word := []
  p : BitVec 16 := 1
  h : Table Word := []
  loops : Table LoopCtr := []
  coil : Coil := {}
  deriving DecidableEq, Repr

/-- What a unit's slots see as it stood before the unit (R156, R170, R227): its registers, UISTAT.ACT, FPCTL, the
event latch, and the values of the CSRs that it names. -/
structure Before where
  regs : Regs := {}
  act : Bool := false
  latch : BitVec 3 := 0
  fpctl : BitVec 2 := 0
  csrs : List (Nat × Word) := []
  deriving DecidableEq, Repr

/-- UISTAT's fields and the pending interrupts, each with the vector its entry merges (R147, R148). -/
structure UserInt where
  vec : Word := 0
  code : BitVec 32 := 0
  lost : BitVec 8 := 0
  pending : List (BitVec 32 × OVec) := []
  act : Bool := false
  en : Bool := false
  deriving DecidableEq, Repr

/-- A fault taken and not yet written as a record: the fields of R374 that depend on the fault, the
device-local address of the poison granule that it found (R411), whether it concerns work that has completed
locally, and whether nothing that the task does again on resume would raise it (R381). -/
structure FaultInfo where
  code : Nat
  addr : Word := 0
  synd : Word := 0
  aux : Word := 0
  rrow : Nat := 0xFFFFFF
  cmdno : BitVec 32 := 0
  akind : Nat := 0
  aidx : Nat := 0
  res : Bool := false
  line : Word := 0
  slot : Nat := 0
  gran : Option Nat := none
  late : Bool := false
  once : Bool := false
  deriving DecidableEq, Repr

/-- An arm of a counter (R135): the counter, threshold and action word, who armed it and when it was made. -/
structure Arm where
  counter : Nat
  threshold : Word
  action : Word
  core : Nat
  kseq : Word
  queue : Nat
  coords : List (BitVec 16)
  line : Word
  slot : Nat
  order : Nat
  deriving DecidableEq, Repr

/-- An entry of an engine queue: a command or a standalone sync form with all that it captured at dispatch
(R157, R167, R168). `num` is 0 for a sync form. -/
structure QEntry where
  instr : Instr
  num : BitVec 32 := 0
  ops : List Word := []
  shape : Word := 0
  seed : BitVec 128 := 0
  fmt : Word := 0
  kc : OVec := {}
  sigVec : OVec := {}
  line : Word := 0
  slot : Nat := 0
  waited : Bool := false
  deriving DecidableEq, Repr

/-- Bytes that a command awaits from a peer, or has received: the request's tag, the physical range, the data, or the
refusal: its code and the record's AUX (R417, R435); and the flags that the home raised in reading cells (R32). -/
structure Fetched where
  tag : Nat
  addr : Nat
  len : Nat
  got : Option (List Byte) := none
  err : Option (Nat × Word) := none
  flags : Flags := 0
  deriving DecidableEq, Repr

/-- The command an engine has started (R133): rows done, writes of the next row already sent (R234), phase of a waiting
command (LBAR after its add, TLDB after its match), outstanding acknowledgements of its own home and of peers by tag,
flags raised, whether its data effects are done, the fault that stops it, the fault that it will have at its completion, and
the rows of a multicast load that another member has read for it, with the flags of the reading (R238). -/
structure Started where
  entry : QEntry
  row : Nat := 0
  part : Nat := 0
  phase : Nat := 0
  done : Bool := false
  homeAck : Bool := false
  tags : List Nat := []
  waits : List Nat := []
  flags : Flags := 0
  fault : Option FaultInfo := none
  endFault : Option FaultInfo := none
  feed : List (Nat × List Nat × Flags) := []
  deriving DecidableEq, Repr

/-- One engine: its queue, the command at work, the commands whose work is issued and that only await
acknowledgements and runs, oldest first, its last command number, timeline counter, ordering vector, and the peer
bytes the command at work has asked for. -/
structure Engine where
  queue : List QEntry := []
  started : Option Started := none
  flight : List Started := []
  taken : BitVec 32 := 0
  tl : Word := 0
  k : OVec := {}
  fetched : List Fetched := []
  deriving DecidableEq, Repr

/-- A weave weight buffer with its side state (R260, R261); `scaled` says that a load gave it scales (R266). -/
structure WBuf where
  cells : Table (BitVec 32) := []
  word : Word := 0
  scales : Table Byte := []
  scaled : Bool := false
  indices : Table Byte := []
  deriving DecidableEq, Repr

/-- The weave state of a core (R260): the two buffers, accumulator slots (slot k of tile a at 16,384 a + k) and cell
sums. -/
structure Weave where
  active : WBuf := {}
  shadow : WBuf := {}
  acc : Table (BitVec 32) := []
  sums : Table (BitVec 32) := []
  deriving DecidableEq, Repr

/-- A valid byte of an L1 data cache, with its dirty bit, the attributes its request carried, and the moment of its store
(R88, R415). -/
structure L1Byte where
  byte : Byte
  dirty : Bool
  ctx : BitVec 6 := 0
  attr : Word := 0
  stamp : Nat := 0
  deriving DecidableEq, Repr

/-- Streaming stores of a core that are combined into one 256-byte granule and have not left the core (R92): the granule's
number, the bytes by offset, the attributes and context they carry, and the moment of the last store. -/
structure Combine where
  granule : Nat
  bytes : Table (Option Byte) := []
  attr : Word := 0
  ctx : BitVec 6 := 0
  stamp : Nat := 0
  deriving DecidableEq, Repr

/-- A line of 128 bytes in a die's L2 (R89): its number, which of its bytes are not yet at the home, the contexts that wrote
those, which of them wrote last and when, and the attributes under which the line is held (R92, R98, R415). -/
structure L2Line where
  line : Nat
  dirty : BitVec 128 := 0
  owners : BitVec 64 := 0
  ctx : BitVec 6 := 0
  stamp : Nat := 0
  attr : Word := 0
  deriving DecidableEq, Repr

/-- A line of 256 bytes in a memory-side cache (R90, R92, R415): its number, its eviction priority, which of its 32-byte
granules are dirty, and the context that last wrote them and when. -/
structure MscLine where
  line : Nat
  prio : Nat := 0
  dirty : BitVec 8 := 0
  ctx : BitVec 6 := 0
  stamp : Nat := 0
  deriving DecidableEq, Repr

/-- Where an SRAM error stands that has not been met (R408, R429): a single-bit error anywhere on a die; an entry of an
instruction cache, a TLB or a walker; a 32-byte granule of an L1 data cache, of a die's L2 or of the memory-side cache that
holds it; the tag and directory entry of a memory-side cache line; or the steward's memory (R450). -/
inductive SramPlace where
  | single (die : Nat)
  | l1i (core gpa : Nat)
  | l1tlb (core va : Nat)
  | l2tlb (die va : Nat)
  | walker (die : Nat)
  | l1d (core gpa : Nat)
  | l2 (die la : Nat)
  | msc (la : Nat)
  | tag (la : Nat)
  | steward
  deriving DecidableEq, Repr

/-- A TLB entry (R97): context, page base, size code and the leaf's two halves. -/
structure TlbEntry where
  ctx : BitVec 6
  base : Nat
  size : Nat
  lo : Word
  hi : Word
  deriving DecidableEq, Repr

/-- The task in a core's running slot (R60, R63). -/
structure Task where
  ctx : BitVec 6
  queue : Nat
  kseq : Word
  node : Nat
  coords : List (BitVec 16)
  linear : Nat
  member : Nat
  gang : Nat
  gangSize : Nat
  level : BitVec 2
  kernel : BitVec 1024
  since : Nat := 0
  deriving DecidableEq, Repr

/-- Work of a task that memory has not acknowledged yet (R63): own home, and peers by tag; for an engine's command its
stream and number. -/
structure Outstanding where
  stream : Nat
  num : BitVec 32
  homeAck : Bool
  tags : List Nat
  waits : List Nat := []
  deriving DecidableEq, Repr

/-- The draining slot (R63). -/
structure Draining where
  task : Task
  work : List Outstanding
  deriving DecidableEq, Repr

/-- Why a control stream stands at its bundle boundary or holds its unit's completion (R192). -/
inductive Blocked where
  /-- A wait before the unit: nothing of the unit has taken effect. -/
  | before
  /-- A completion held: the unit has dispatched. -/
  | hold
  /-- The target engine's queue is full (R157). -/
  | queueFull
  deriving DecidableEq, Repr

/-- A value a control slot awaits from a peer (R192): its slot and the request. With 8 added to the slot's number it is a
look at bytes that the slot will ask for later (R380). -/
structure HeldLoad where
  slot : Nat
  ask : Fetched
  deriving DecidableEq, Repr

/-- What stops a running task (R74, R379): nothing, a fault, or a pre-emption at a safe point or in full; `soon` is a safe
point that has been executed and whose bundle boundary is not reached (R158, R224). -/
inductive Stopping where
  | no
  | soon
  | fault
  | safePoint
  | full
  deriving DecidableEq, Repr

/-- A control slot executed before its unit completes: the value that its scalar destination gets when the unit
completes, and whether it made a control access (R68, R192). -/
structure EarlySlot where
  slot : Nat
  value : Word := 0
  access : Bool := false
  deriving DecidableEq, Repr

/-- A tile core. Between steps of a unit that a full queue splits or whose completion is held, `unitDone` counts its
dispatched engine slots, `early` holds its control slots already executed (R157, R192) and `unitSnap` what its slots see (R156). `entered` says that a
transfer, a start or a resume reached the pc (R158); `exitAt` is the EXIT whose bundle has run otherwise (R192); `owed`
are faults that arise again on resume (R381). -/
structure Core where
  task : Option Task := none
  draining : Option Draining := none
  line : Word := 0
  slot : Nat := 1
  npc : Option (Word × Nat) := none
  unitDone : Nat := 0
  curSlot : Nat := 1
  early : List EarlySlot := []
  snap : Option Before := none
  unitSnap : Option Before := none
  entered : Bool := true
  exitAt : Option (Word × Nat) := none
  blocked : Option Blocked := none
  held : List HeldLoad := []
  exiting : Bool := false
  pend : Option FaultInfo := none
  more : Bool := false
  owed : List FaultInfo := []
  stopping : Stopping := .no
  regs : Regs := {}
  fpctl : BitVec 2 := 0
  seed : BitVec 128 := 0
  shape : Word := 0
  qcfg : Word := 0
  queues : Table (List Word) := []
  fmtq : List Word := []
  fmtBefore : Nat := 0
  livemap : BitVec 12 := 0
  liveEntry : BitVec 256 := 0
  slset : Word := 0
  ui : UserInt := {}
  sluices : Table Sluice := []
  eng : Table Engine := []
  arms : List Arm := []
  kc : OVec := {}
  accesses : BitVec 32 := 0
  checkW : Table (BitVec 32) := []
  checkR : Table (BitVec 32) := []
  latch : BitVec 3 := 0
  spad : Table Byte := []
  tiles : Table (BitVec 32768) := []
  masks : Table (BitVec 4096) := []
  weave : Weave := {}
  posted : Bool := false
  postedTags : List Nat := []
  l1d : Table (Option L1Byte) := []
  l1i : List (Nat × List Byte) := []
  comb : Option Combine := none
  lastKernel : Option (BitVec 6 × Nat × Word) := none
  tlb : List TlbEntry := []
  flagsRaised : Flags := 0
  flagSlot : Nat := 0
  preemptAt : Option Nat := none
  reserved : Option Nat := none
  frozen : Bool := false
  soft : List (Nat × Nat) := []
  deriving DecidableEq, Repr

/-- A node of a run (R77, R79): the image and index it comes from, the nodes it waits for, the call that holds it,
and how far it has come. -/
inductive NodeSt where
  | waiting
  | ready
  | active
  | completed
  | failed
  | cancelled
  deriving DecidableEq, Repr

/-- One node of a run with its sub-graph calls expanded in place (R79): its graph, its index there, its 512 bytes as
patched for the run, the nodes it waits for, the call that holds it, its depth, its sequence number, the kernels that
a set-level node waits for (R73), whether scheduler memory lost it (R429), and its state. -/
structure RunNode where
  graph : BitVec 16
  idx : Nat
  kind : Nat
  body : BitVec 4096
  preds : List Nat := []
  parent : Option Nat := none
  depth : Nat := 0
  kseq : Word := 0
  drain : List Word := []
  bad : Bool := false
  state : NodeSt := .waiting
  readyAt : Nat := 0
  doom : Option (BitVec 2) := none
  deriving DecidableEq, Repr

/-- A run in progress (R79): its graph, and how many uploads and drops its trigger found accepted (R347). -/
structure Run where
  graph : BitVec 16
  img : Nat := 0
  nodes : List RunNode := []
  firstFail : Word := 0
  anyFail : Bool := false
  deriving DecidableEq, Repr

/-- A D2 kernel's place in the digest chain (R82, R83): pending, passed over, or its digest. -/
inductive Chain where
  | pending
  | skip
  | digest (bytes : List Byte)
  deriving DecidableEq, Repr

/-- A trigger appended to a queue (R78, R79): its value, and how many uploads and drops of the context had been
accepted when it came, which says the image it will run (R347). -/
structure Trigger where
  value : Word
  img : Nat
  deriving DecidableEq, Repr

/-- A queue of a context (R78 to R83, R426); `digesting` holds the numbers of its D2 kernels whose tasks have all
retired and whose digest is to come (R64, R428), and `fetched` holds what the graph and digest engines have asked of
peers. -/
structure Queue where
  trig : Word := 0
  pending : List Trigger := []
  runNo : BitVec 24 := 0
  lastSeq : Word := 0
  digesting : List Word := []
  note : Word := 0
  hash : List Byte := List.replicate 32 0
  hseq : Word := 0
  snapHash : List Byte := List.replicate 32 0
  snapSeq : Word := 0
  nextSeq : Word := 1
  chainNext : Word := 1
  chain : List (Nat × Chain) := []
  run : Option Run := none
  fetched : List Fetched := []
  failSeq : Word := 0
  runf : Bool := false
  halt : Bool := false
  deriving DecidableEq, Repr

/-- A graph image in scheduler memory (R347): the context's id for it, the number of the upload that made it, its
nodes, whether it stands for a drop, whether it is marked invalid, and the nodes that hold an uncorrectable error not yet
met (R429). -/
structure GraphImg where
  graph : BitVec 16
  serial : Nat
  count : Nat
  nodes : Table (BitVec 4096) := []
  drop : Bool := false
  invalid : Bool := false
  bad : List Nat := []
  deriving DecidableEq, Repr

/-- An upload or drop in progress (R347): GUSRC, GUCMD, its number, and the host port it came by. -/
structure Upload where
  src : Word
  cmd : Word
  serial : Nat
  port : Nat := 0
  deriving DecidableEq, Repr

/-- A fault record kept for a context (R374, R377): its 64 bytes as a number, its FSEQ and whether it is a notice. -/
structure Record where
  bits : BitVec 512
  fseq : BitVec 32
  notice : Bool
  deriving DecidableEq, Repr

/-- A task that has stopped on a fault and waits for FQRESUME (R378), or that pre-emption has saved (R81): the core's
state that its image restores, where it ran, its record, and whether it was saved at a safe point. -/
structure SavedTask where
  core : Nat
  state : Core
  fseq : BitVec 32 := 0
  res : Bool := true
  kfail : Bool := false
  released : Option Bool := none
  faulted : Bool := false
  safe : Bool := false
  deriving DecidableEq, Repr

/-- A context (R81, R98, R135, R340, R347, R376). -/
structure Ctx where
  lvl : BitVec 2 := 0
  preempt : Word := 0
  predl : Word := 0
  slice : Word := 0
  saveBase : Word := 0
  ptbase : Word := 0
  tlbinv : Word := 0
  tlbinvQueue : List Word := []
  armDrop : Word := 0
  hwbase : Word := 0
  gquota : Nat := 0
  gusrc : Word := 0
  gucmd : Word := 0
  guPort : Nat := 0
  uploads : List Upload := []
  images : List GraphImg := []
  nextImg : Nat := 0
  queues : Table Queue := []
  tl : Table Word := []
  arms : List Arm := []
  armOrder : Nat := 0
  fqbase : Word := 0
  fqen : Bool := false
  fqlog : Nat := 4
  fqhead : BitVec 32 := 0
  fqtail : BitVec 32 := 0
  fqnext : BitVec 32 := 1
  fqlost : BitVec 32 := 0
  fqresume : Word := 0
  flagsBerm : Flags := 0
  flagsTask : Flags := 0
  trapEn : Flags := 0
  held : List Record := []
  saved : List SavedTask := []
  deriving DecidableEq, Repr

/-- A released kernel (R62, R64, R80): who released it, the level it captured, its record and parameter block, this
device's coordinates along its DEVICES levels (none when it runs no task here), when it became ready, the next task
of each die (die 0 stands for all when no level is of kind DIES), the die that a kernel without such a level and without
gangs has taken with its first task (R58), its tasks started and not yet retired, gangs to place again with the aborts they have had, whether it has failed, whether only its digest is left, and the
answers that its parameter block copy awaits (R61). -/
structure Kernel where
  ctx : BitVec 6
  queue : Nat
  node : Nat
  kseq : Word
  level : BitVec 2
  record : BitVec 1024
  params : BitVec 2048
  devCoords : Option (List Nat)
  readyAt : Nat
  next : Table Nat := []
  home : Option Nat := none
  live : Nat := 0
  relaunch : List Nat := []
  aborts : Table Nat := []
  failed : Bool := false
  digesting : Bool := false
  tags : List Nat := []
  deriving DecidableEq, Repr

/-- Who issued a memory or fabric request: a stream of a core's running or draining task, a berm engine, the graph
engine, the steward, or function f of host port p as 64 p + f; or this device as the home of a counted packet whose
counter lies elsewhere: the packet's source and tag, its context, and the code of an add of it that was discarded
(R246). -/
inductive Issuer where
  | stream (core : Nat) (stream : Nat)
  | berm (ctrl : Nat)
  | node (ctx : Nat) (queue : Nat) (node : Nat)
  | host (fn : Nat)
  | steward
  | relay (dev tag : Nat) (ctx : Nat) (code : Nat)
  deriving DecidableEq, Repr

/-- A request sent over the fabric and not yet answered (R435); `span` is the number of bytes from `addr` on that it reads or
writes at its home (R117); `line`, `slot` and `word` are those of the instruction that a
stream sent it for, as a record of its refusal gives them (R374, R398). -/
structure Request where
  tag : Nat
  dst : Nat
  issuer : Issuer
  sentAt : Nat
  va : Word
  addr : Nat
  len : Nat
  span : Nat := len
  write : Bool
  attr : Word := 0
  acc : Nat := 0
  ctx : Nat := 0
  sym : Bool := false
  line : Word := 0
  slot : Nat := 0
  word : Word := 0
  deriving DecidableEq, Repr

/-- A write of a berm run still to be made: its address and bytes, or one low nibble (R323). -/
structure BermWrite where
  va : Word
  bytes : List Byte
  nibble : Bool := false
  deriving DecidableEq, Repr

/-- A run handed to a berm engine (R243, R258, R324): for a chunk, its number, element offset, element count and the
counter it belongs to; for a BRUN, its first slot, 0 else. Once computed, `writes` are those left of its write phase, in
write order. -/
structure BermRun where
  ctx : BitVec 6
  routine : Word
  launch : Word
  issuer : Option (Nat × Nat)
  word : Word := 0
  chunk : Option (Nat × Nat × Nat × Word) := none
  computed : Bool := false
  writes : List BermWrite := []
  done : Bool := false
  fault : Option FaultInfo := none
  tags : List Nat := []
  fetched : List Fetched := []
  deriving DecidableEq, Repr

/-- A delivery in staging, with the DST bytes that it holds on each base die (R335, R336), and the places of its terms that
staging had no room for and that have been applied (R438). -/
structure HeldTerm where
  pkt : Packet
  stage : List Nat
  done : List Nat := []
  deriving DecidableEq, Repr

/-- The progress of one chunk at its owning weir engine (R256, R257, R335): the DST bytes that each contributor's terms have
covered, the local bytes of which one E2M1 element has come alone, the deliveries held, and the first failure of R440 with
its time. -/
structure Chunk where
  added : Table Nat := []
  halves : List Nat := []
  held : List HeldTerm := []
  fail : Option (Nat × FaultInfo) := none
  deriving DecidableEq, Repr

/-- The summed chunk that a reducer will forward to the other members of its group (R256): the chunk's counter and
number, the runs of element addresses with their counts, the members, and the header's fields. -/
structure Forward where
  counter : Word
  chunkno : Nat
  runs : List (Nat × Nat)
  dests : List Nat
  full : Nat
  chunk : BitVec 4
  etype : BitVec 4
  routine : Word
  rarg : Word
  deriving DecidableEq, Repr

/-- A collective in progress on this device (R259, R440): its issuer and the number of its command's wait, all its chunk
counters and those whose flag has not been seen, the tags its deliveries await, the forwards to come, its first failure with
its time, and whether its node has ended already (R77). -/
structure Collective where
  issuer : Issuer
  wait : Nat := 0
  ctx : BitVec 6
  all : List Word
  left : List Word
  tags : List Nat
  forwards : List Forward := []
  fail : Option (Nat × FaultInfo) := none
  ended : Bool := false
  deriving DecidableEq, Repr

/-- A migration between frames (R108, R109): the granules already arrived. -/
structure Migration where
  old : Nat
  new : Nat
  size : Nat
  arrived : Table Bool := []
  deriving DecidableEq, Repr

/-- An extent of far memory (R349). -/
structure Extent where
  base : Nat := 0
  len : Nat := 0
  state : Nat := 0
  deriving DecidableEq, Repr

/-- A frozen master and the request it holds (R445): the context, the address, and whether it is a host read, which
its release completes (R446). -/
structure Frozen where
  master : BitVec 16
  ctx : BitVec 6
  addr : Word
  read : Bool := false
  deriving DecidableEq, Repr

/-- The memory-side blocks of the device control space (R101, R108 to R112, R411, R412, R349), the L2 slices and the
memory-side caches by set, most recently used line first (R89, R90, R92), and the granules that have arrived in a channel
retirement: all below `retNext`, and those listed (R110). -/
structure MemRegs where
  live : List Nat := List.range 384
  chret : Word := 0
  chBusy : Bool := false
  retired : Nat := 0
  migSubL : Word := 0
  migSubH : Word := 0
  migs : List Migration := []
  migRefused : BitVec 16 := 0
  migDone : BitVec 32 := 0
  migErr : Word := 0
  hpctl : Word := 0
  hpQueue : List Word := []
  hpSkPin : Word := 0
  hpSkCell : Word := 0
  hpCounts : Table Nat := []
  hpPinned : Table Bool := []
  l2 : Table (List L2Line) := []
  msc : Table (List MscLine) := []
  l2Turn : Nat := 0
  cellsUsed : Table (Nat × Nat) := []
  oldLive : List Nat := []
  retNext : Nat := 0
  retArrived : Table Bool := []
  cherr : Table Word := []
  sramerr : Table Word := []
  extents : Table Extent := []
  extctl : Word := 0
  deriving DecidableEq, Repr

/-- The fabric block and the ports (R115, R327, R332, R337, R433, R435): the packets that wait in each port's transmit
queues, those sent and not yet confirmed with the time of each, and those that have left by each port, oldest first; the
requests not yet answered, those of them that were refused here with the code of each, and the writes that wait for an
earlier one of their stream over the same bytes (R117); the lanes that each neighbour has
stopped and those that this device has told its neighbours to stop (R332); the request packets held at frozen ports (R445);
and the retries so far of each port's last retried flit (R433). -/
structure Fabric where
  topo : Word := 0
  scopetab : Word := 0x08040201
  nyfc : Table Word := []
  weirst : Table Word := []
  nyerr : Table Word := []
  fabto : BitVec 32 := 0x10000
  txq : List (Nat × Packet) := []
  wire : List (Nat × Nat × Packet) := []
  outbox : List (Nat × Packet) := []
  lost : List (Nat × Nat) := []
  later : List Packet := []
  heldPkts : List (Nat × Packet) := []
  requests : List Request := []
  nextTag : Nat := 0
  down : BitVec 6 := 0
  stopped : List (Nat × Nat) := []
  told : List (Nat × Nat) := []
  retries : Table Nat := []
  chunks : Table Chunk := []
  deriving DecidableEq, Repr

/-- What the device has sent out of the package: interrupts, completions of host reads, codes on the management
port (R346, R344, R447). -/
inductive Output where
  | msix (port fn vector : Nat)
  | hostData (port fn : Nat) (data : List Byte) (poisoned : Bool)
  | hostAbort (port fn : Nat)
  | hostUnsupported (port fn : Nat)
  | regData (value : Word)
  | manage (code : Nat)
  | powerFault
  | extentReleased (port index : Nat)
  | lane (port lane : Nat) (stop : Bool)
  deriving DecidableEq, Repr

/-- The steward's registers and its work (R351 to R359, R432, R445, R448 to R450), and the module flash that bring-up
reads (R353, R447): `inForce` is the record that the last bring-up read. For the report in progress, what the steward has
asked of peers and the answers its write awaits; `restarting` while its watchdog restarts it (R450). -/
structure Steward where
  phase : Nat := 0
  up : Bool := false
  halted : Bool := false
  powered : Bool := true
  firmware : List Byte := []
  record : List Byte := []
  inForce : List Byte := []
  fwdig : List Byte := List.replicate 64 0
  cfgdig : List Byte := List.replicate 64 0
  reports : Table (Option (BitVec 13 × BitVec 8 × BitVec 8 × BitVec 8)) := []
  attreq : Word := 0
  attQueue : List Word := []
  attDone : BitVec 32 := 0
  attFetched : List Fetched := []
  attTags : List Nat := []
  restarting : Bool := false
  devevt : Word := 0
  frzList : List (BitVec 16) := []
  frzctl : Word := 0
  frozen : List Frozen := []
  pcap : BitVec 16 := 0
  pwrnow : BitVec 16 := 0
  clkWritten : Table Nat := []
  clkStep : Table Nat := []
  clgate : Table (BitVec 16) := []
  gated : Table (BitVec 16) := []
  temp : Table (BitVec 16) := []
  hot : BitVec 4 := 0
  lastoff : BitVec 8 := 0
  corestat : Table Word := []
  pmode : BitVec 2 := 0
  vfbind : Table Byte := []
  pfwin : BitVec 6 := 0
  deriving DecidableEq, Repr

/-- What a host function asks for (R339, R344, R345). -/
inductive HostOp where
  | reg (addr : Nat) (acc : RegAccess)
  | read (off len : Nat)
  | write (off : Nat) (data : List Byte)
  deriving DecidableEq, Repr

/-- The machine. `digestBad` is an uncorrectable error of the digest engine that it has not met yet (R428). -/
structure State where
  now : Nat := 0
  focus : BitVec 8 := 0
  inbox : List Instr := []
  fresh : Nat := 0
  cores : Table Core := []
  ctxs : Table Ctx := []
  mem : List Host.Cell := []
  merr : Table Nat := []
  sram : List SramPlace := []
  l2tlb : Table (List TlbEntry) := []
  kernels : List Kernel := []
  digestBad : Bool := false
  gangReserve : Table (Option (BitVec 6 × Nat × Word)) := []
  barriers : Table (BitVec 16 × BitVec 16) := []
  nextGang : Nat := 0
  nextWait : Nat := 0
  berms : Table (List BermRun) := []
  colls : List Collective := []
  memr : MemRegs := {}
  fab : Fabric := {}
  stew : Steward := {}
  hostq : List (Nat × HostOp) := []
  out : List Output := []
  deriving DecidableEq, Repr

/-- The machine at power-on (R60, R351 to R353, and the Reset columns of the register maps): bring-up has not begun,
no task runs, memory lists nothing. -/
def State.reset : State := {}

end Sys2Proof.Machine
end

