-- ==== Sys2Proof/Machine/Ops.lean ====
section
/-!
DEFINITION. The named operations over the state: registers under rotation and the handler's shadow names, faults,
ordering vectors and sluices, queue registers, records and notices, runs, counters and arms, and taking and leaving
a user interrupt.
-/
namespace Sys2Proof.Machine

/-- The outcome of a row. -/
abbrev Out := Host.Outcome State Fault Refusal

/-! ## Cores and contexts -/

/-- Core `64 die + core`. -/
def State.core (s : State) (k : Nat) : Core := Table.get {} s.cores k

/-- The state with core `k` replaced. -/
def State.setCore (s : State) (k : Nat) (c : Core) : State := { s with cores := Table.set {} s.cores k c }

/-- Context `x`. -/
def State.ctx (s : State) (x : Nat) : Ctx := Table.get {} s.ctxs x

/-- The state with context `x` replaced. -/
def State.setCtx (s : State) (x : Nat) (c : Ctx) : State := { s with ctxs := Table.set {} s.ctxs x c }

/-- The core whose control stream acts. -/
def State.here (s : State) : Core := s.core s.focus.toNat

/-- The state with the acting core replaced. -/
def State.setHere (s : State) (c : Core) : State := s.setCore s.focus.toNat c

/-- The state with the acting core changed. -/
def State.mapHere (s : State) (f : Core → Core) : State := s.setHere (f s.here)

/-- A free value and the state with the counter advanced. -/
def State.freshWord (s : State) : Word × State := (Config.freeWord s.fresh, { s with fresh := s.fresh + 1 })

/-- The context of a core's running task. -/
def Core.ctx? (c : Core) : Option (BitVec 6) := c.task.map Task.ctx

/-- The level of a core's running task; 0 with none (R60). -/
def Core.level (c : Core) : Nat := (c.task.map fun t => t.level.toNat).getD 0

/-- Whether the rules of D1 and D2 hold for the running task (R72). -/
def Core.determinate (c : Core) : Bool := c.level != 0

/-! ## Registers (R155, R156, R169, R170, R149, R206) -/

/-- The registers a slot reads: the values before its bundle when a bundle is open (R156). -/
def Core.view (c : Core) : Regs := (c.snap.map Before.regs).getD c.regs

/-- Whether a slot is decoded in a handler: UISTAT.ACT before its bundle (R149, R170). -/
def Core.inHandler (c : Core) : Bool := (c.snap.map Before.act).getD c.ui.act

/-- The number after renaming by the coil (R206). -/
def rotS (r : Regs) (f : BitVec 6) : Nat :=
  if f.toNat < 32 then f.toNat else 32 + (f.toNat - 32 + 32 - r.coil.srot.toNat) % 32

/-- The predicate number after renaming by the coil (R206). -/
def rotP (r : Regs) (f : BitVec 4) : Nat :=
  if f.toNat < 8 then f.toNat else 8 + (f.toNat - 8 + 8 - r.coil.prot.toNat) % 8

/-- Whether a field names a shadow scalar: 56 to 63 in a handler (R149, R170). -/
def Core.shadow (c : Core) (f : BitVec 6) : Bool := c.inHandler && decide (56 ≤ f.toNat)

/-- The value of a scalar field (R170). -/
def Core.readS (c : Core) (f : BitVec 6) : Word :=
  if f = 0 then 0
  else if c.shadow f then Table.get 0 c.view.h (f.toNat - 56)
  else Table.get 0 c.view.s (rotS c.view f)

/-- The registers with scalar `f` written; a write to s0 is discarded (R170, R193). -/
def Core.writeS (c : Core) (f : BitVec 6) (v : Word) : Core :=
  if f = 0 then c
  else if c.shadow f then { c with regs := { c.regs with h := Table.set 0 c.regs.h (f.toNat - 56) v } }
  else { c with regs := { c.regs with s := Table.set 0 c.regs.s (rotS c.view f) v } }

/-- The value of a predicate field; p0 is always true (R159, R170). -/
def Core.readP (c : Core) (f : BitVec 4) : Bool := if f = 0 then true else c.view.p.getLsbD (rotP c.view f)

/-- A bit vector with bit `k` set to `b`. -/
def setBit {n : Nat} (v : BitVec n) (k : Nat) (b : Bool) : BitVec n :=
  if b then v ||| BitVec.twoPow n k else v &&& ~~~(BitVec.twoPow n k)

/-- The registers with predicate `f` written; a write to p0 is discarded (R193). -/
def Core.writeP (c : Core) (f : BitVec 4) (b : Bool) : Core :=
  if f = 0 then c else { c with regs := { c.regs with p := setBit c.regs.p (rotP c.view f) b } }

/-- A control instruction on the acting core: it takes effect when its guard is true and writes nothing otherwise
(R159). -/
def ctl (g : BitVec 4) (s : State) (f : Core → Core) : Out :=
  .next (if s.here.readP g then s.mapHere f else s)

/-- A control instruction over the whole state, under its guard (R159). -/
def ctlS (g : BitVec 4) (s : State) (f : State → State) : Out :=
  .next (if s.here.readP g then f s else s)

/-- The address of the acting line (R193). -/
def Core.pcLine (c : Core) : Word := c.line

/-- A control transfer taken to a line, slot 1 (R160). -/
def Core.jump (c : Core) (line : Word) : Core := { c with npc := some (line, 1) }

/-- The line `off` lines after the acting one (R163). -/
def Core.lineAt (c : Core) (off : BitVec 19) : Word := c.line + 32 * off.signExtend 64

/-! ## Faults (R373, R380, R381) -/

/-- The stream that a fault's agent kind stands for (R375): a berm run is the copy stream's, a collective the link
stream's. -/
def FaultInfo.stream (f : FaultInfo) : Nat := if f.akind = 6 then 1 else if f.akind = 5 then 4 else f.akind

/-- A fault raised with its line and slot already known. The first fault stays; a later one of another stream sets MORE,
and one that nothing would raise again waits for the resume (R374, R381). -/
def Core.faultAt (c : Core) (f : FaultInfo) : Core :=
  match c.pend with
  | some g => { c with more := c.more || g.stream != f.stream
                       owed := if f.once || f.late then c.owed ++ [f] else c.owed }
  | none => { c with pend := some f }

/-- A fault of the acting control stream or of a slot in its unit: nothing of the unit takes effect, and the record
will name the slot (R380). -/
def Core.fault (c : Core) (f : FaultInfo) : Core := c.faultAt { f with line := c.line, slot := c.curSlot }

/-- The first of the faults owed arises again, on a resume (R381). -/
def Core.oweAgain (c : Core) : Core :=
  match c.pend, c.owed with
  | none, f :: rest => { c with pend := some f, owed := rest, more := rest.any fun g => g.stream != f.stream }
  | _, _ => c

/-- A fault of the acting core's unit. -/
def State.fault (s : State) (f : FaultInfo) : State := s.mapHere fun c => c.fault f

/-- The unit waits before it runs, or holds its completion (R192). -/
def State.block (s : State) (b : Blocked) : State := s.mapHere fun c => { c with blocked := some b }

/-- Flags raised by the acting slot: ORed into FPFLAGS.TASK of the context, and kept with the first slot that raised
one for the trap after the unit (R32, R386). -/
def State.raise (s : State) (f : Flags) : State :=
  if f = 0 then s
  else
    let c := s.here
    let x := (c.ctx?.map BitVec.toNat).getD 0
    let s := s.setHere { c with flagsRaised := c.flagsRaised ||| f
                                flagSlot := if c.flagsRaised = 0 then c.curSlot else c.flagSlot }
    s.setCtx x { s.ctx x with flagsTask := (s.ctx x).flagsTask ||| f }

/-! ## Ordering vectors (R69 to R71) -/

/-- Component `t` of a vector, by stream code. -/
def OVec.get (k : OVec) (t : Nat) : BitVec 32 :=
  match t with
  | 0 => k.c | 1 => k.a | 2 => k.w | 3 => k.v | _ => k.l

/-- A vector with component `t` replaced. -/
def OVec.set (k : OVec) (t : Nat) (n : BitVec 32) : OVec :=
  match t with
  | 0 => { k with c := n } | 1 => { k with a := n } | 2 => { k with w := n } | 3 => { k with v := n }
  | _ => { k with l := n }

/-- The greater of two numbers. -/
def max32 (x y : BitVec 32) : BitVec 32 := if x.toNat < y.toNat then y else x

/-- The componentwise maximum (R69). -/
def OVec.max (x y : OVec) : OVec :=
  { c := max32 x.c y.c, a := max32 x.a y.a, w := max32 x.w y.w, v := max32 x.v y.v, l := max32 x.l y.l }

/-- A core's engine by index 0 to 3: copy, weave, vector, link. -/
def Core.engine (c : Core) (e : Nat) : Engine := Table.get {} c.eng e

/-- A core with engine `e` replaced. -/
def Core.setEngine (c : Core) (e : Nat) (g : Engine) : Core := { c with eng := Table.set {} c.eng e g }

/-- The ordering vector of a stream, 0 control and 1 to 4 the engines (R69). -/
def Core.ovec (c : Core) (t : Nat) : OVec := if t = 0 then c.kc else (c.engine (t - 1)).k

/-- The ordering vector of a stream replaced. -/
def Core.setOvec (c : Core) (t : Nat) (k : OVec) : Core :=
  if t = 0 then { c with kc := k } else c.setEngine (t - 1) { c.engine (t - 1) with k := k }

/-- The serial comparison of the vector log (R70). -/
def notBefore (x y : BitVec 32) : Bool := decide ((x - y).toNat < 2 ^ 31)

/-- The serial comparison of the checker (R71). -/
def later (r known : BitVec 32) : Bool :=
  r != 0 && r != known && decide ((r - known).toNat < 2 ^ 31)

/-- The record number of granule `g` for stream `t` in the checker tables. -/
def checkKey (g t : Nat) : Nat := 5 * g + t

/-- The first conflict of an access of stream `t`: the granule, whether the record is a write, its stream and its
number (R71, R393). -/
def Core.conflict (c : Core) (t : Nat) (reads writes : List Nat) : Option (Nat × Bool × Nat × BitVec 32) :=
  let k := c.ovec t
  let others := [0, 1, 2, 3, 4].filter (· != t)
  let badW (g : Nat) := others.find? fun u => later (Table.get 0 c.checkW (checkKey g u)) (k.get u)
  let badR (g : Nat) := others.find? fun u => later (Table.get 0 c.checkR (checkKey g u)) (k.get u)
  let one (g : Nat) : Option (Nat × Bool × Nat × BitVec 32) :=
    match badW g with
    | some u => some (g, true, u, Table.get 0 c.checkW (checkKey g u))
    | none =>
      if writes.contains g then (badR g).map fun u => (g, false, u, Table.get 0 c.checkR (checkKey g u)) else none
  let found := (reads ++ writes).filterMap one
  found.foldl (fun acc x => match acc with
    | none => some x
    | some y => if x.1 < y.1 then some x else some y) none

/-- checkStart of R71 for access `n` of stream `t`: the core with its records, or the fault of R393. -/
def Core.checkStart (c : Core) (t : Nat) (n : BitVec 32) (reads writes : List Nat) : Except FaultInfo Core :=
  if !c.determinate then .ok c
  else
    match c.conflict t reads writes with
    | some (g, w, u, r) =>
      .error { code := 0x0604, addr := BitVec.ofNat 64 g, synd := ((c.ovec t).get u).setWidth 64,
               aux := BitVec.ofNat 64 (r.toNat * 2 ^ 32 + (if w then 8 else 0) + u),
               cmdno := if t = 0 then 0 else n, akind := t }
    | none =>
      .ok { c with
        checkR := reads.foldl (fun m g => Table.set 0 m (checkKey g t) n) c.checkR
        checkW := writes.foldl (fun m g => Table.set 0 m (checkKey g t) n) c.checkW }

/-! ## An instruction as a record shows it (R373) -/

/-- The first slot of an instruction, as a record's SYND holds it (R373). -/
def slotWord (i : Instr) : Word := ((encode i).map fun w => w.1.setWidth 64).getD 0

/-- The continuation of an instruction, as a record's AUX holds it. -/
def slotCont (i : Instr) : Word := ((encode i).bind fun w => w.2.map fun k => k.setWidth 64).getD 0

/-! ## Uncorrectable errors in core state (R398, R408) -/

/-- Whether a structure of core state holds an uncorrectable error at one of the places (R408). The structures are numbered
by their SYND codes: 1 the scratchpad's 8-byte words, 2 the tiles with mask tile k at 32 + k, 3 the queue registers 0 to 7,
the format queue 8, the engine queues 16 + e and the sluices 64 + k, 4 the accumulator slots with the cell sums after them;
5 and 6 stand for the weight cells of the active and the shadow buffer. -/
def Core.softHit (c : Core) (code : Nat) (places : List Nat) : Bool :=
  c.soft.any fun e => e.1 == code && places.contains e.2

/-- A core with the errors of some places of a structure gone: they have been written whole. -/
def Core.softMend (c : Core) (code : Nat) (places : List Nat) : Core :=
  { c with soft := c.soft.filter fun e => !(e.1 == code && places.contains e.2) }

/-- The fault of an uncorrectable error in core state (R398, R408). -/
def softFault (code : Nat) : FaultInfo := { code := 0x0403, synd := BitVec.ofNat 64 code }

/-- The place of queue register `k`, the format queue, engine queue `e` and sluice `k` among the errors of code 3. -/
def softFmt : Nat := 8
def softEng (e : Nat) : Nat := 16 + e
def softSluice (k : Nat) : Nat := 64 + k

/-! ## Records and notices (R374 to R377) -/

/-- The 64 bytes of a fault record (R374). -/
def recordBits (f : FaultInfo) (x : Nat) (fseq : BitVec 32) (more kfail drain : Bool) (core : Option Nat)
    (queue : Nat) (kseq : Word) (coords : List (BitVec 16)) : BitVec 512 :=
  let b (v : Bool) (n : Nat) : Nat := if v then 2 ^ n else 0
  let cs := nthD 0 coords 0 |>.toNat
  let c1 := nthD 0 coords 1 |>.toNat
  let c2 := nthD 0 coords 2 |>.toNat
  let c3 := nthD 0 coords 3 |>.toNat
  BitVec.ofNat 512 (
    f.aux.toNat * 2 ^ 448 + f.synd.toNat * 2 ^ 384 + f.addr.toNat * 2 ^ 320 + f.rrow % 2 ^ 24 * 2 ^ 296 +
    (core.getD 0) % 256 * 2 ^ 288 + f.cmdno.toNat * 2 ^ 256 + queue % 16 * 2 ^ 252 + b more 251 + b kfail 250 +
    b f.res 249 + f.line.toNat / 32 % 2 ^ 52 * 2 ^ 197 + f.slot % 8 * 2 ^ 192 +
    c3 * 2 ^ 176 + c2 * 2 ^ 160 + c1 * 2 ^ 144 + cs * 2 ^ 128 + kseq.toNat * 2 ^ 64 +
    fseq.toNat * 2 ^ 32 + 2 ^ 31 + b drain 30 + x % 64 * 2 ^ 24 + f.akind % 16 * 2 ^ 20 + f.aidx % 16 * 2 ^ 16 +
    f.code % 2 ^ 16)

/-- A record kept for context `x` with the next FSEQ (R376, R377). -/
def State.keepRecord (s : State) (x : Nat) (notice : Bool) (mk : BitVec 32 → BitVec 512) : State :=
  let c := s.ctx x
  let r : Record := { bits := mk c.fqnext, fseq := c.fqnext, notice := notice }
  s.setCtx x { c with held := c.held ++ [r], fqnext := c.fqnext + 1 }

/-- A notice for context `x`: dropped and counted when 256 notices are held (R377). -/
def State.notice (s : State) (x : Nat) (f : FaultInfo) (core : Option Nat := none) (queue : Nat := 0)
    (kseq : Word := 0) (coords : List (BitVec 16) := []) : State :=
  let c := s.ctx x
  if 256 ≤ (c.held.filter Record.notice).length then s.setCtx x { c with fqlost := c.fqlost + 1 }
  else s.keepRecord x true fun n => recordBits f x n false false false core queue kseq coords

/-! ## Sluices (R125 to R129, R387 to R392) -/

/-- Sluice `k` of a core. -/
def Core.sluice (c : Core) (k : Nat) : Sluice := Table.get {} c.sluices k

/-- A core with sluice `k` replaced. -/
def Core.setSluice (c : Core) (k : Nat) (l : Sluice) : Core := { c with sluices := Table.set {} c.sluices k l }

/-- The number of barrier `k` of a gang in the barrier units' table. -/
def barrierKey (gang k : Nat) : Nat := 64 * gang + k

/-- The arrival count of a barrier and the ceiling of its phase's first arrival (R129, R389). -/
def State.barrier (s : State) (gang k : Nat) : BitVec 16 × BitVec 16 := Table.get (0, 0) s.barriers (barrierKey gang k)

/-- The gang of a core's task, 0 for none. -/
def Core.gang (c : Core) : Nat := (c.task.map Task.gang).getD 0

/-- The word of SLST and of the save image's sluice rows (R125). -/
def State.slst (s : State) (core k : Nat) : Word :=
  let c := s.core core
  let l := c.sluice k
  let count := if l.barrier then (s.barrier c.gang k).1 else l.count
  BitVec.ofNat 64 (l.phase.toNat * 2 ^ 53 + l.arrive.toNat * 2 ^ 43 + l.gen.toNat * 2 ^ 33 +
    (if l.barrier then 2 ^ 32 else 0) + l.ceil.toNat * 2 ^ 16 + count.toNat)

/-- The running members of a gang. -/
def State.gangCores (s : State) (gang : Nat) : List Nat :=
  (List.range 256).filter fun k => gang != 0 && (s.core k).gang == gang

/-- The phase of barrier `k` completed for one member (R129). -/
def Core.phaseUp (c : Core) (k : Nat) : Core :=
  let q := c.sluice k
  c.setSluice k { q with phase := q.phase + 1 }

/-- The phase of barrier `k` completed for the members of a core's gang that are saved or stopped (R129). -/
def State.phaseSaved (s : State) (c : Core) (k : Nat) : State :=
  let x := (c.task.map fun t => t.ctx.toNat).getD 0
  let d := s.ctx x
  let up (t : SavedTask) : SavedTask :=
    if t.state.gang = c.gang then { t with state := t.state.phaseUp k } else t
  s.setCtx x { d with saved := d.saved.map up }

/-- An arrival at barrier `k` (R129), checked by R389. -/
def State.arrive (s : State) (core k : Nat) : Except FaultInfo State :=
  let c := s.core core
  let l := c.sluice k
  let (n, first) := s.barrier c.gang k
  let size := (c.task.map Task.gangSize).getD 0
  if l.ceil = 0 ∨ size < l.ceil.toNat ∨ (n ≠ 0 ∧ l.ceil ≠ first) ∨ l.arrive ≠ l.phase then
    .error { code := 0x0505, synd := s.slst core k }
  else
    let s := s.setCore core (c.setSluice k { l with arrive := l.arrive + 1 })
    let n' := n + 1
    if n' = l.ceil then
      let s := { s with barriers := Table.set (0, 0) s.barriers (barrierKey c.gang k) (0, 0) }
      .ok (((s.gangCores c.gang).foldl (fun s m => s.setCore m ((s.core m).phaseUp k)) s).phaseSaved c k)
    else .ok { s with barriers := Table.set (0, 0) s.barriers (barrierKey c.gang k) (n', l.ceil) }

/-- A signal of `cnt` to sluice `k` of a core, by a stream or, with none, by an armed action; the vector goes to the
log at D1 and D2 (R70, R128, R129, R387, R392). -/
def State.signal (s : State) (core k : Nat) (cnt : BitVec 16) (vec : OVec) (stream : Option Nat) :
    Except FaultInfo State :=
  let c := s.core core
  let l := c.sluice k
  if cnt = 0 then .ok s
  else if stream.isSome && c.softHit 3 [softSluice k] then .error (softFault 3)
  else if l.barrier then s.arrive core k
  else if l.ceil.toNat < l.count.toNat + cnt.toNat then
    .error { code := 0x0501, synd := BitVec.ofNat 64 k,
             aux := BitVec.ofNat 64 (l.count.toNat * 2 ^ 16 + cnt.toNat) }
  else
    match stream, l.firstSig with
    | some t, some u =>
      if c.determinate ∧ t ≠ u then
        .error { code := 0x0605, synd := BitVec.ofNat 64 k, aux := BitVec.ofNat 64 u }
      else .ok (s.setCore core (c.setSluice k (apply c l l.firstSig)))
    | t, u => .ok (s.setCore core (c.setSluice k (apply c l (if c.determinate && u.isNone then t else u))))
where
  apply (c : Core) (l : Sluice) (first : Option Nat) : Sluice :=
    let l := { l with count := l.count + cnt, firstSig := first }
    if c.determinate then
      let tot := l.sigTotal + cnt.setWidth 32
      { l with sigTotal := tot, log := l.log ++ [{ total := tot, vec := vec }] }
    else l

/-- Whether a wait is ready (R128, R129). -/
def Core.waitReady (c : Core) (k : Nat) (cnt : BitVec 16) : Bool :=
  let l := c.sluice k
  if cnt = 0 then true
  else if l.barrier then l.phase == l.arrive
  else decide (cnt.toNat ≤ l.count.toNat)

/-- The fault of a wait on a sluice that holds an error (R408), or by a second stream (R392). -/
def Core.waitFault (c : Core) (k : Nat) (cnt : BitVec 16) (t : Nat) : Option FaultInfo :=
  let l := c.sluice k
  if cnt ≠ 0 ∧ c.softHit 3 [softSluice k] then some { softFault 3 with akind := t }
  else
  match l.firstWait with
  | some u =>
    if cnt ≠ 0 ∧ l.barrier = false ∧ c.determinate ∧ u ≠ t then
      some { code := 0x0605, synd := BitVec.ofNat 64 k, aux := BitVec.ofNat 64 u, akind := t }
    else none
  | none => none

/-- A ready wait taken by a stream: the count falls and the log entry of R70 merges (R128, R129). -/
def Core.waitTake (c : Core) (k : Nat) (cnt : BitVec 16) (t : Nat) : Core :=
  let l := c.sluice k
  if cnt = 0 ∨ l.barrier then c
  else
    let l := { l with count := l.count - cnt }
    if c.determinate then
      let l := { l with firstWait := if l.firstWait.isNone then some t else l.firstWait }
      let tot := l.useTotal + cnt.setWidth 32
      let ent := l.log.find? fun e => notBefore e.total tot
      let l := { l with useTotal := tot, log := l.log.filter fun e => !(notBefore tot e.total) }
      let c := c.setSluice k l
      match ent with
      | some e => c.setOvec t ((c.ovec t).max e.vec)
      | none => c
    else c.setSluice k l

/-! ## Queue registers (R130, R131) -/

/-- The entries of queue register `k`, oldest first. -/
def Core.queueReg (c : Core) (k : Nat) : List Word := Table.get [] c.queues k

/-- A queue register replaced; an error in it is gone when nothing of what it held stays (R408). -/
def Core.setQueueReg (c : Core) (k : Nat) (q : List Word) : Core :=
  let gone : Bool := q.isEmpty || (c.queueReg k).isEmpty
  { c with
    queues := Table.set [] c.queues k q
    soft := if gone then c.soft.filter fun e => !(e.1 == 3 && e.2 == k) else c.soft }

/-- The writer stream of queue `k` in QCFG. -/
def Core.qWriter (c : Core) (k : Nat) : Nat := c.qcfg.toNat / 2 ^ (6 * k) % 8

/-- The reader stream of queue `k` in QCFG. -/
def Core.qReader (c : Core) (k : Nat) : Nat := c.qcfg.toNat / 2 ^ (6 * k + 3) % 8

/-- The fault of a stream that QCFG does not name (R385). -/
def Core.roleFault (c : Core) : FaultInfo := { code := 0x0114, synd := c.qcfg }

/-! ## User interrupts: taking and leaving one (R146 to R150, R390) -/

/-- An interrupt raised on a core; a ninth pending one is lost and counted (R148, R390). -/
def Core.raiseUint (c : Core) (code : BitVec 32) (vec : OVec) : Core :=
  if c.ui.pending.length < 8 then { c with ui := { c.ui with pending := c.ui.pending ++ [(code, vec)] } }
  else { c with ui := { c.ui with lost := if c.ui.lost = 255 then 255 else c.ui.lost + 1 } }

/-- Whether an interrupt waits to be taken at a bundle boundary, and no unit is at work (R148). -/
def Core.uintReady (c : Core) : Bool :=
  c.ui.en && !c.ui.act && !c.ui.pending.isEmpty && c.unitDone == 0 && c.early.isEmpty &&
    c.blocked != some .hold && c.pend.isNone && c.task.isSome

/-- Taking an interrupt: h0 and h1 save the resume point and the code, ACT and CODE are set, and the pc goes to the
handler (R148). -/
def Core.takeUint (c : Core) : Core :=
  match c.ui.pending with
  | [] => c
  | (code, vec) :: rest =>
    let h := Table.set 0 c.regs.h 0 (c.line ||| BitVec.ofNat 64 c.slot)
    let h := Table.set 0 h 1 (code.setWidth 64)
    { c with
      regs := { c.regs with h := h }
      ui := { c.ui with code := code, act := true, pending := rest }
      kc := c.kc.max vec
      line := c.ui.vec, slot := 1, blocked := none, entered := true, exiting := false }

/-- Leaving a handler: ACT falls and the pc goes to the line and slot that h0 names (R150). -/
def Core.leaveUint (c : Core) : Core :=
  let h0 := Table.get 0 c.view.h 0
  { c with ui := { c.ui with act := false }, npc := some (h0 &&& ~~~(31 : Word), h0.toNat % 8) }

/-! ## Runs appended to queues (R79, R427) -/

/-- Queue `q` of a context. -/
def Ctx.queue (c : Ctx) (q : Nat) : Queue := Table.get {} c.queues q

/-- A context with queue `q` replaced. -/
def Ctx.setQueue (c : Ctx) (q : Nat) (v : Queue) : Ctx := { c with queues := Table.set {} c.queues q v }

/-- The TRIG write of a value to queue `q` of context `x`, or what acts as one (R138, R225): the register keeps the value,
and a run is appended, or discarded with notice 0x0809 when 64 are pending (R78, R79, R427). `core` is the core of the task
that wrote it, if one did. -/
def State.trig (s : State) (x q : Nat) (v : Word) (akind : Nat) (core : Option Nat := none) : State :=
  let c := s.ctx x
  let g : Queue := { c.queue q with trig := v }
  if 64 ≤ g.pending.length then
    (s.setCtx x (c.setQueue q g)).notice x { code := 0x0809, aux := BitVec.ofNat 64 (q % 16 * 2 ^ 16 + v.toNat % 2 ^ 16), akind := akind } core
  else
    s.setCtx x (c.setQueue q { g with pending := g.pending ++ [{ value := v, img := c.nextImg }] })

/-! ## Timeline counters and arms (R132 to R138) -/

/-- A context counter (R132). -/
def Ctx.counter (c : Ctx) (id : Nat) : Word := Table.get 0 c.tl id

/-- The event latch bit of a core set (R145). -/
def Core.setLatch (c : Core) (b : Nat) : Core := { c with latch := setBit c.latch b true }

/-- Whether a core's running task belongs to context `x` (R138, R222). -/
def Core.runs (c : Core) (x : Nat) : Bool := (c.task.map fun t => decide (t.ctx.toNat = x)).getD false

/-- A discarded action counted in CTXARMDROP (R138). -/
def State.armDrop (s : State) (x : Nat) : State :=
  let c := s.ctx x
  s.setCtx x { c with armDrop := c.armDrop + 1 }

/-- The notice of a firing that its target refuses (R387, R389). -/
def State.armNotice (s : State) (x : Nat) (a : Arm) (f : FaultInfo) : State :=
  s.notice x { f with akind := 7, aidx := 0, line := a.line, slot := a.slot } (some a.core) a.queue a.kseq a.coords

/-- The action of an arm of context `x` (R138), with the counter advances it causes. The release of a firing is no
core's: no core's dirty bytes go home for it (DESIGN CHOICE, log 83). -/
def State.fire (s : State) (x : Nat) (a : Arm) : State × List (Nat × Word) :=
  let w := a.action.toNat
  let tgt := w / 2 ^ 52 % 256
  let own := decide (tgt = a.core)
  let vec : OVec := if a.counter < 4 ∧ own then ({} : OVec).set (a.counter + 1) (a.threshold.setWidth 32) else {}
  let c := s.core tgt
  match w / 2 ^ 60 with
  | 1 =>
    let h := w / 2 ^ 32 % 2 ^ 16
    let k := h % 64
    if !c.runs x then (s.armDrop x, [])
    else if 48 ≤ k ∨ h / 64 ≠ (c.sluice k).gen.toNat then
      (s.armNotice x a { code := 0x0502, synd := a.action, aux := a.threshold }, [])
    else
      match s.signal tgt k (BitVec.ofNat 16 w) vec none with
      | .ok s' => (s', [])
      | .error f => (s.armNotice x a f, [])
  | 2 => (s, [(0x10 + w / 2 ^ 52 % 16, BitVec.ofNat 64 (w % 2 ^ 32))])
  | 3 => if c.runs x then (s.setCore tgt (c.setLatch 1), []) else (s.armDrop x, [])
  | 4 =>
    if c.runs x then
      let v : OVec := if a.counter < 4 ∧ own then vec else {}
      (s.setCore tgt (c.raiseUint (BitVec.ofNat 32 w) v), [])
    else (s.armDrop x, [])
  | 5 => (s.trig x (w / 2 ^ 52 % 16) (BitVec.ofNat 64 (w % 2 ^ 16)) 7 (some a.core), [])
  | _ => (s, [])

/-- Arms by ascending threshold, then in arming order (R137). -/
def armBefore (a b : Arm) : Bool :=
  decide (a.threshold.toNat < b.threshold.toNat) ||
    (a.threshold == b.threshold && decide (a.order ≤ b.order))

/-- An arm placed among others in firing order. -/
def insertArm (a : Arm) : List Arm → List Arm
  | [] => [a]
  | b :: bs => if armBefore a b then a :: b :: bs else b :: insertArm a bs

/-- The arms in firing order. -/
def sortArms (as : List Arm) : List Arm := as.foldr insertArm []

/-- The arms of a counter that its value has reached, in firing order (R137). -/
def dueArms (as : List Arm) (id : Nat) (v : Word) : List Arm :=
  sortArms (as.filter fun a => a.counter == id && decide (a.threshold.toNat ≤ v.toNat))

/-- The arms that stay. -/
def restArms (as : List Arm) (id : Nat) (v : Word) : List Arm :=
  as.filter fun a => !(a.counter == id && decide (a.threshold.toNat ≤ v.toNat))

/-- A firing sequence, with the advances its actions cause (R137). -/
def State.fireAll (s : State) (x : Nat) (as : List Arm) : State × List (Nat × Word) :=
  as.foldl (fun acc a =>
    let (s', more) := acc.1.fire x a
    (s', acc.2 ++ more)) (s, [])

/-- Counter advances of context `x` processed in order, each with its firing sequence (R137). Every firing removes an
arm, so `fuel` above the number of arms and advances suffices. -/
def State.advances (s : State) (x : Nat) : Nat → List (Nat × Word) → State
  | 0, _ => s
  | _, [] => s
  | fuel + 1, (id, inc) :: rest =>
    let c := s.ctx x
    let v := c.counter id + inc
    let s := s.setCtx x { c with tl := Table.set 0 c.tl id v, arms := restArms c.arms id v }
    let (s, more) := s.fireAll x (dueArms c.arms id v)
    State.advances s x fuel (rest ++ more)

/-- A context counter advanced by `inc` (R132, R137). -/
def State.advance (s : State) (x id : Nat) (inc : Word) : State :=
  s.advances x ((s.ctx x).arms.length + 2) [(id, inc)]

/-- The arms of a core's table that its counter `e` has reached fire (R135, R137). -/
def State.fireCore (s : State) (core e : Nat) : State :=
  let c := s.core core
  let v := (c.engine e).tl
  let x := (c.ctx?.map BitVec.toNat).getD 0
  let due := dueArms c.arms e v
  let s := s.setCore core { c with arms := restArms c.arms e v }
  let (s, more) := s.fireAll x due
  s.advances x ((s.ctx x).arms.length + more.length + 1) more

/-- The value of the counter that a task's TLWAIT, TLARM or timeline wait names (R132). -/
def State.counter (s : State) (core id : Nat) : Word :=
  let c := s.core core
  if id < 4 then (c.engine id).tl else (s.ctx ((c.ctx?.map BitVec.toNat).getD 0)).counter id

end Sys2Proof.Machine
end

