-- ==== Sys2Proof/Machine/Memory.lean ====
section
/-!
DEFINITION. Memory: where a physical address lies, the home memory-side cache with migration, poison and error
counts, translation through the tables and the TLBs, the L1 data cache, element view of polder pages, packets to
peers, and the reads and writes that every agent makes through them.
-/
namespace Sys2Proof.Machine

/-- Whether memory is in its canonical form: addresses rise strictly, and no listed byte is zero. -/
def Memory.wf (m : List Host.Cell) : Bool := Table.wf 0 m

/-! ## Places (R99, R405) -/

/-- This device's index (R327). -/
def State.myIndex (s : State) : Nat := s.fab.topo.toNat % 2 ^ 13

/-- Bytes of HBM4E: L live channels of 2 GiB (R99, R101). -/
def State.hbmBytes (s : State) : Nat := s.memr.live.length * 2 ^ 31

/-- Whether a device index lies in the torus of TOPO (R327, R405). -/
def State.inTorus (s : State) (dev : Nat) : Bool :=
  let t := s.fab.topo.toNat
  decide (dev % 16 ≤ bitsOf t 35 32) && decide (dev / 16 % 16 ≤ bitsOf t 39 36) && decide (dev / 256 ≤ bitsOf t 44 40)

/-- Entry `k` of the extent table of port `p` (R349). -/
def MemRegs.extent (m : MemRegs) (p k : Nat) : Extent := Table.get {} m.extents (256 * p + k)

/-- Bytes in one unit of an extent's length (R349). -/
def extentUnit : Nat := 2 ^ 28

/-- Whether an extent of port `p` in state `st` covers a device-local address. -/
def MemRegs.covered (m : MemRegs) (p st la : Nat) : Bool :=
  (List.range 256).any fun k =>
    let e := m.extent p k
    e.state == st && decide (e.base ≤ la) && decide (la < e.base + e.len * extentUnit)

/-- Whether a far address is mapped: its port in CXL mode and an online extent over it (R348, R405). -/
def State.farMapped (s : State) (la : Nat) : Bool :=
  let p := la / 2 ^ 48 - 1
  decide (1 ≤ la / 2 ^ 48) && decide (la / 2 ^ 48 ≤ 2) && s.stew.pmode.getLsbD p && s.memr.covered p 2 la

/-- The start of the device control space (R338). -/
def controlBase : Nat := 0x7FF0000000000

/-- Whether a global physical address lies in the control space of its device. -/
def inControl (gpa : Nat) : Bool := decide (controlBase ≤ gpa % 2 ^ 51)

/-- What a global physical address names (R99, R405). -/
inductive Place where
  | mem (la : Nat)
  | regs (off : Nat)
  | peer (dev : Nat)
  | unmapped
  deriving DecidableEq, Repr

/-- The place of a global physical address (R99, R405). -/
def State.place (s : State) (gpa : Nat) : Place :=
  let dev := gpa / 2 ^ 51
  let la := gpa % 2 ^ 51
  if !s.inTorus dev then .unmapped
  else if dev ≠ s.myIndex then .peer dev
  else if la < s.hbmBytes then .mem la
  else if controlBase ≤ la then .regs (la - controlBase)
  else if s.farMapped la then .mem la
  else .unmapped

/-- The global physical address of a device-local one. -/
def State.global (s : State) (la : Nat) : Nat := s.myIndex * 2 ^ 51 + la

/-- Whether a device-local address is far memory. -/
def isFar (la : Nat) : Bool := decide (2 ^ 48 ≤ la)

/-! ## Channels and error counts (R100, R411) -/

/-- The placement of R100 under a table of live channels: physical channel and channel-local granule. -/
def placement (live : List Nat) (la : Nat) : Nat × Nat :=
  (nthD 0 live (la / 256 % live.length), la / 256 / live.length)

/-- Whether a granule has arrived in the retirement in progress (R110). -/
def MemRegs.retired? (m : MemRegs) (la : Nat) : Bool :=
  !m.chBusy || decide (la / 256 < m.retNext) || Table.get false m.retArrived (la / 256)

/-- The live table that a granule is read under: the old one at its first touch in a retirement (R110). -/
def MemRegs.readLive (m : MemRegs) (la : Nat) : List Nat := if m.retired? la then m.live else m.oldLive

/-- A granule that has arrived in a retirement, touched or filled (R110). -/
def MemRegs.retire (m : MemRegs) (la : Nat) : MemRegs :=
  if m.retired? la || isFar la then m else { m with retArrived := Table.set false m.retArrived (la / 256) true }

/-- A counter field raised by one, saturating. -/
def satInc (w : Word) (hi lo : Nat) : Word :=
  if bitsOf w.toNat hi lo = 2 ^ (hi + 1 - lo) - 1 then w else w + BitVec.ofNat 64 (2 ^ lo)

/-- A field of a die's SRAMERR raised (R411). -/
def State.sramCount (s : State) (die hi lo : Nat) : State :=
  { s with memr := { s.memr with
      sramerr := Table.set 0 s.memr.sramerr die (satInc (Table.get 0 s.memr.sramerr die) hi lo) } }

/-- The error mark of a 32-byte unit: 0 none, 1 a single-bit error, 2 uncorrectable and not yet found, 3 poison
(R409). -/
def State.mark (s : State) (la : Nat) : Nat := Table.get 0 s.merr (la / 32)

/-- The error mark of a unit replaced. -/
def State.setMark (s : State) (la : Nat) (m : Nat) : State := { s with merr := Table.set 0 s.merr (la / 32) m }

/-- ECC reads one unit: a single-bit error is corrected and counted, an uncorrectable one counts once and becomes
poison (R409, R411). -/
def State.eccUnit (s : State) (la : Nat) : State :=
  let (ch, clg) := placement (s.memr.readLive la) la
  let w := Table.get 0 s.memr.cherr ch
  let put (s : State) (w : Word) : State :=
    if isFar la then s else { s with memr := { s.memr with cherr := Table.set 0 s.memr.cherr ch w } }
  match s.mark la with
  | 1 => put (s.setMark la 0) (satInc w 63 48)
  | 2 =>
    let w := satInc w 47 40
    let keep := w.toNat / 2 ^ 26 * 2 ^ 26
    put (s.setMark la 3) (BitVec.ofNat 64 (keep + clg % 2 ^ 23 * 8 + la / 32 % 8))
  | _ => s

/-- The numbers of the `w`-byte blocks that a byte range touches. -/
def blocksOf (w a n : Nat) : List Nat :=
  if n = 0 then [] else (List.range ((a + n - 1) / w - a / w + 1)).map (· + a / w)

/-- A byte range cut at multiples of `w`: address and length of each piece. -/
def piecesOf (w a n : Nat) : List (Nat × Nat) :=
  (blocksOf w a n).map fun b =>
    let lo := max a (w * b)
    (lo, min (a + n) (w * (b + 1)) - lo)

/-- ECC over a byte range. -/
def State.ecc (s : State) (la n : Nat) : State := (blocksOf 32 la n).foldl (fun s b => s.eccUnit (32 * b)) s

/-- The device-local address of the first poisoned unit of a range. -/
def State.poisonIn (s : State) (la n : Nat) : Option Nat :=
  ((blocksOf 32 la n).find? fun b => decide (2 ≤ s.mark (32 * b))).map (32 * ·)

/-! ## Attributes of a leaf (R95, R96) -/

/-- Bit `k` of a leaf's low half. -/
def attrBit (attr : Word) (k : Nat) : Bool := attr.getLsbD k
/-- ALLOC of a leaf (R95). -/
def attrAlloc (attr : Word) : Nat := bitsOf attr.toNat 9 8
/-- WPOL of a leaf (R95). -/
def attrWpol (attr : Word) : Nat := bitsOf attr.toNat 11 10
/-- CELL of a leaf (R95). -/
def attrCell (attr : Word) : Nat := bitsOf attr.toNat 16 15
/-- The polder parameters of a leaf, none for an ordinary page (R46, R95). -/
def attrParams (attr : Word) : Option CellParams :=
  if attrCell attr = 0 then none
  else
    some { cls := attrCell attr, e := (BitVec.ofNat 12 (bitsOf attr.toNat 43 32)).toInt
           g := bitsOf attr.toNat 51 44, rfmt := bitsOf attr.toNat 53 52 }

/-- The attributes that a request carries: the leaf's low half without V, LEAF, RD, WR, EXE and SUP (R96, R330). -/
def carried (lo : Word) : Word := lo &&& ~~~(0x3F : Word)

/-! ## L2 and the memory-side caches (R88 to R92, R111) -/

/-- Whether an access through a leaf is held in L1 and L2 (R88, R92, R107). -/
def cacheable (lo : Word) : Bool :=
  decide (attrAlloc lo = 0) && decide (attrWpol lo ≠ 2) && decide (attrCell lo = 0)

/-- The base die whose memory-side cache is an address's home (R14, R90). -/
def MemRegs.homeDie (m : MemRegs) (la : Nat) : Nat := if isFar la then la / 256 % 4 else (placement m.live la).1 / 96

/-- Sets of a memory-side cache: 1,536 MiB in 256-byte lines of 16 ways (R90). -/
def mscSets : Nat := 393216

/-- The set of an address in its home, over all the sets: the granules that one cache is home to are numbered in turn, those
of HBM4E through its 96 channels (R90, R100, log 71). -/
def MemRegs.mscKey (m : MemRegs) (la : Nat) : Nat :=
  let k :=
    if isFar la then la / 1024
    else let (ch, clg) := placement m.live la; 96 * clg + ch % 96
  m.homeDie la * mscSets + k % mscSets

/-- The ways of a set: a retirement in progress sets aside one line in twelve, 128 MiB of each cache (R110, log 71). -/
def MemRegs.mscWays (m : MemRegs) (key : Nat) : Nat := if m.chBusy && decide (360448 ≤ key % mscSets) then 0 else 16

/-- The priority at which a request is held: EVP, or 0 for a streaming page (R92). -/
def attrPrio (attr : Word) : Nat := if attrWpol attr = 2 then 0 else bitsOf attr.toNat 14 13

/-- Whether the home may hold a request's line: a polder page whatever its ALLOC (R92, R107). -/
def attrHeld (attr : Word) : Bool := attrAlloc attr != 2 || attrCell attr != 0

/-- What a request that writes within a 256-byte granule brings to the caches: who writes, which bytes of the granule, and the
moment of the store (R89, R331, R415). -/
structure Wr where
  ctx : BitVec 6
  mask : BitVec 256
  stamp : Nat := 0
  deriving DecidableEq, Repr

/-- The mask of the bytes present in a list, from an offset. -/
def presentFrom (off : Nat) : List (Option Byte) → BitVec 256
  | [] => 0
  | b :: bs => (if b.isSome then BitVec.twoPow 256 off else 0) ||| presentFrom (off + 1) bs

/-- The mask of every byte of a range within a granule. -/
def rangeMask (la n : Nat) : BitVec 256 := BitVec.ofNat 256 ((2 ^ n - 1) * 2 ^ (la % 256))

/-- The 32-byte units of a granule in which a mask has a byte. -/
def maskUnits (m : BitVec 256) : BitVec 8 :=
  (List.range 8).foldl (fun u k => if m.extractLsb' (32 * k) 32 = 0 then u else u ||| BitVec.twoPow 8 k) 0

/-- The bytes that a write has in the 128-byte half of its granule that holds an address. -/
def Wr.half (w : Wr) (la : Nat) : BitVec 128 := w.mask.extractLsb' (la / 128 % 2 * 128) 128

/-- Bytes of a 128-byte half as a mask of its granule. -/
def halfMask (la : Nat) (h : BitVec 128) : BitVec 256 := h.setWidth 256 <<< (la / 128 % 2 * 128)

/-- A set with room for one more line: the least recently used line of the lowest priority present leaves (R92). -/
def mscEvict (ways : Nat) (ls : List MscLine) : List MscLine :=
  if ls.length < ways then ls
  else
    let low := ls.foldl (fun p l => min p l.prio) 3
    match (ls.reverse.find? fun l => l.prio == low) with
    | some v => ls.filter (· != v)
    | none => ls

/-- A line of a memory-side cache written: its dirty units, and the context that wrote last (R90, R415). -/
def MscLine.wrote (l : MscLine) (w : Wr) : MscLine :=
  let l := { l with dirty := l.dirty ||| maskUnits w.mask }
  if l.stamp ≤ w.stamp then { l with ctx := w.ctx, stamp := w.stamp } else l

/-- A line of a memory-side cache used: the line comes first in its set, is allocated when it was absent and may be held,
and notes what a write makes dirty (R90, R92). -/
def MemRegs.mscUse (m : MemRegs) (attr : Word) (la : Nat) (w : Option Wr) : MemRegs :=
  let key := m.mscKey la
  let ls := Table.get [] m.msc key
  let used (l : MscLine) : MscLine := match w with | some w => l.wrote w | none => l
  match ls.find? fun l => l.line == la / 256 with
  | some l => { m with msc := Table.set [] m.msc key (used { l with prio := attrPrio attr } :: ls.filter (· != l)) }
  | none =>
    if attrHeld attr && decide (0 < m.mscWays key) then
      let l := used { line := la / 256, prio := attrPrio attr }
      { m with msc := Table.set [] m.msc key (l :: mscEvict (m.mscWays key) ls) }
    else m

/-- Whether the home holds the line of an address. -/
def MemRegs.mscHolds (m : MemRegs) (la : Nat) : Bool :=
  (Table.get [] m.msc (m.mscKey la)).any fun l => l.line == la / 256

/-- The number of a far frame's count at its memory-side cache (R111). -/
def hpKey (frame die : Nat) : Nat := 4 * frame + die

/-- A request to a far frame that carries PIN: the frame is pinned for peer in this epoch (R112). -/
def MemRegs.notePin (m : MemRegs) (attr : Word) (la : Nat) : MemRegs :=
  if isFar la && m.hpctl.getLsbD 0 && attrBit attr 17 then
    { m with hpPinned := Table.set false m.hpPinned (la / 2 ^ 16) true }
  else m

/-- An access that reaches a memory-side cache: the note that a frame is pinned, the hot-page count of a far line that it
misses (R111, R112), and the use of the line. -/
def MemRegs.mscAccess (m : MemRegs) (attr : Word) (la : Nat) (w : Option Wr) : MemRegs :=
  let m := m.notePin attr la
  let key := hpKey (la / 2 ^ 16) (m.homeDie la)
  let m :=
    if isFar la && m.hpctl.getLsbD 0 && !m.mscHolds la then
      { m with hpCounts := Table.set 0 m.hpCounts key (Table.get 0 m.hpCounts key + 1) }
    else m
  m.mscUse attr la w

/-- The held line of one granule moved with its dirty bytes to another, and L2 copies of the first dropped (R109); a set
that a retirement has set aside takes none (R110). -/
def MemRegs.moveLine (m : MemRegs) (src dst : Nat) : MemRegs :=
  let key := m.mscKey src
  match (Table.get [] m.msc key).find? fun l => l.line == src / 256 with
  | none => m
  | some l =>
    let m := { m with msc := Table.set [] m.msc key ((Table.get [] m.msc key).filter (· != l)) }
    let key' := m.mscKey dst
    let ls := (Table.get [] m.msc key').filter fun e => e.line != dst / 256
    if m.mscWays key' = 0 then m
    else { m with msc := Table.set [] m.msc key' ({ l with line := dst / 256 } :: mscEvict (m.mscWays key') ls) }

/-- The set of an address in a die's L2: slice (la / 128) mod 96, of 512 sets of 16 ways (R89, log 71). -/
def l2Key (die la : Nat) : Nat := (die * 96 + la / 128 % 96) * 512 + la / 12288 % 512

/-- The line of an address in a die's L2. -/
def MemRegs.l2Find (m : MemRegs) (die la : Nat) : Option L2Line :=
  (Table.get [] m.l2 (l2Key die la)).find? fun l => l.line == la / 128

/-- A line's bytes not yet at the home written back there, as one request with their mask (R89, R90). -/
def MemRegs.l2WriteBack (m : MemRegs) (l : L2Line) : MemRegs :=
  if l.dirty = 0 then m
  else m.mscAccess l.attr (128 * l.line) (some { ctx := l.ctx, mask := halfMask (128 * l.line) l.dirty, stamp := l.stamp })

/-- A line whose bytes are all at the home. -/
def L2Line.clean (l : L2Line) : L2Line := { l with dirty := 0, owners := 0 }

/-- What the directory does for an access to a granule of 128 bytes: every other die's copy is written back when it is
modified, and invalidated when the access writes (R90). -/
def MemRegs.l2Recall (m : MemRegs) (la : Nat) (die : Option Nat) (write : Bool) : MemRegs :=
  if m.l2.isEmpty then m
  else
    [0, 1, 2, 3].foldl (fun m d =>
      if die = some d then m
      else
        match m.l2Find d la with
        | none => m
        | some l =>
          let m := m.l2WriteBack l
          let rest := (Table.get [] m.l2 (l2Key d la)).filter (· != l)
          let ls := if write then rest else l.clean :: rest
          { m with l2 := Table.set [] m.l2 (l2Key d la) ls }) m

/-- A line placed first in its set of a die's L2; a free way of a full set leaves, its bytes written back (R89, log 15). -/
def MemRegs.l2Place (m : MemRegs) (die : Nat) (l : L2Line) : MemRegs :=
  let key := l2Key die (128 * l.line)
  let ls := (Table.get [] m.l2 key).filter fun e => e.line != l.line
  if ls.length < 16 then { m with l2 := Table.set [] m.l2 key (l :: ls) }
  else
    match ls[Config.freeWay m.l2Turn % 16]? with
    | some v =>
      let m := m.l2WriteBack v
      { m with l2Turn := m.l2Turn + 1, l2 := Table.set [] m.l2 key (l :: ls.filter (· != v)) }
    | none => { m with l2 := Table.set [] m.l2 key (l :: ls) }

/-- Bytes merged into a line of L2; while it is dirty it keeps that it is pinned (R89, R92, R112). -/
def L2Line.merge (l : L2Line) (attr : Word) (la : Nat) (w : Wr) : L2Line :=
  let pin : Word := if l.dirty = 0 then 0 else l.attr &&& BitVec.twoPow 64 17
  { l with dirty := l.dirty ||| w.half la, owners := l.owners ||| BitVec.twoPow 64 w.ctx.toNat
           ctx := if l.stamp ≤ w.stamp then w.ctx else l.ctx, stamp := max l.stamp w.stamp, attr := attr ||| pin }

/-- An access within one 128-byte granule by a core of a die, through its L2 (R89, R92): a read that misses fetches the
line from the home; a write merges in L2, and with write-through goes on to the home. -/
def MemRegs.l2Access (m : MemRegs) (die : Nat) (attr : Word) (la : Nat) (w : Option Wr) : MemRegs :=
  let m := (m.l2Recall la (some die) w.isSome).notePin attr la
  let old := m.l2Find die la
  let l := old.getD { line := la / 128, attr := attr }
  match w with
  | none =>
    let m := if old.isSome then m else m.mscAccess attr (la / 128 * 128) none
    m.l2Place die l
  | some w =>
    if attrWpol attr = 1 then (m.mscAccess attr la (some { w with mask := halfMask la (w.half la) })).l2Place die l
    else m.l2Place die (l.merge attr la w)

/-- The directory's part of an access at the home to a range within a 256-byte granule (R90). -/
def MemRegs.homeRecall (m : MemRegs) (la n : Nat) (write : Bool) : MemRegs :=
  (piecesOf 128 la n).foldl (fun m p => m.l2Recall p.1 none write) m

/-- An access to a range within a 256-byte granule at its current copy: through the L2 of a core's die, or at the home
(R89 to R92). -/
def MemRegs.cacheAccess (m : MemRegs) (attr : Word) (la n : Nat) (w : Option Wr) (die : Option Nat) : MemRegs :=
  match die with
  | some d => (piecesOf 128 la n).foldl (fun m p => m.l2Access d attr p.1 w) m
  | none => (m.homeRecall la n w.isSome).mscAccess attr la w

/-! ## Migration (R108, R109) -/

/-- Bytes of a page or frame by its size code (R95, R108). -/
def frameBytes (size : Nat) : Nat := match size with | 0 => 2 ^ 16 | 1 => 2 ^ 21 | _ => 2 ^ 30

/-- The offset of an address in one of a migration's two frames. -/
def Migration.offset? (m : Migration) (la : Nat) : Option Nat :=
  if m.old ≤ la ∧ la < m.old + frameBytes m.size then some (la - m.old)
  else if m.new ≤ la ∧ la < m.new + frameBytes m.size then some (la - m.new)
  else none

/-- The active migration that an address lies in. -/
def MemRegs.migOf (m : MemRegs) (la : Nat) : Option (Migration × Nat) :=
  m.migs.findSome? fun g => (g.offset? la).map fun o => (g, o)

/-- The place of an address's current copy (R109). -/
def MemRegs.resolve (m : MemRegs) (la : Nat) : Nat :=
  match m.migOf la with
  | some (g, o) => g.new + o
  | none => la

/-- A migration with granule `k` of NEW arrived. -/
def MemRegs.arrive (m : MemRegs) (g : Migration) (k : Nat) : MemRegs :=
  { m with migs := m.migs.map fun h =>
      if h.new = g.new then { h with arrived := Table.set false h.arrived k true } else h }

/-- The cells in use of one granule, with the region of their page, moved to another (R109, R112). -/
def MemRegs.moveCells (m : MemRegs) (src dst : Nat) : MemRegs :=
  let moved := m.cellsUsed.filter fun e => decide (e.1 / 256 = src / 256)
  if moved.isEmpty then m
  else
    let rest := m.cellsUsed.filter fun e => decide (e.1 / 256 ≠ src / 256)
    let put (t : Table (Nat × Nat)) (e : Nat × Nat × Nat) : Table (Nat × Nat) :=
      Table.set (0, 0) t (e.1 - src + dst) (e.2.1 + dst - src, e.2.2)
    { m with cellsUsed := moved.foldl put rest }

/-- The first touch of a granule in a retirement: ECC reads it whole under the old placement, and it has arrived (R110,
R413). -/
def State.arriveGranule (s : State) (la : Nat) : State :=
  if s.memr.retired? la || isFar la then s
  else
    let s := s.ecc (la / 256 * 256) 256
    { s with memr := s.memr.retire la }

/-- One granule copied from OLD to NEW, poison included, when it has not arrived (R109, R413). -/
def State.pullGranule (s : State) (g : Migration) (k : Nat) : State :=
  if Table.get false g.arrived k then s
  else
    let src := g.old + 256 * k
    let dst := g.new + 256 * k
    let s := { s with memr := s.memr.homeRecall src 256 true }
    let s := ((s.arriveGranule src).arriveGranule dst).ecc src 256
    { s with
      mem := Table.blit s.mem dst s.mem src 256
      merr := Table.blit s.merr (dst / 32) s.merr (src / 32) 8
      memr := ((s.memr.arrive g k).moveCells src dst).moveLine src dst }

/-- The pull that an access to a byte makes first (R109). -/
def State.pull (s : State) (la : Nat) : State :=
  match s.memr.migOf la with
  | some (g, o) => s.pullGranule g (o / 256)
  | none => s

/-! ## The home memory-side cache -/

/-- MIGERR written: the frame and the reason (R412). -/
def State.migErr (s : State) (frame : Nat) (reason : Nat) : State :=
  { s with memr := { s.memr with
      migErr := BitVec.ofNat 64 (frame / 2 ^ 16 * 2 ^ 16 % 2 ^ 64 + reason) } }

/-- The note of an access to a pinned page in migration (R412). -/
def State.notePinned (s : State) (attr : Word) (la : Nat) : State :=
  if attrBit attr 17 && (s.memr.migOf la).isSome then s.migErr (s.global la) 7 else s

/-- What the home does before it serves a range within a granule: the note of a pinned page (R412), the pull of R109, the
arrival of the granule in a retirement (R110), and the caches on the way (R89 to R92). `w` is a write's context, bytes and
moment, the bytes by offset in the range; `die` that of a core whose L2 serves it. -/
def State.readyGranule (s : State) (attr : Word) (la n : Nat) (w : Option Wr := none) (die : Option Nat := none) :
    State :=
  let s := (s.notePinned attr la).pull la
  let s := s.arriveGranule (s.memr.resolve la)
  { s with memr := s.memr.cacheAccess attr (s.memr.resolve la) n w die }

/-- What a write of bytes to a range within a granule brings to the caches. -/
def wrOf (x stamp la : Nat) (bs : List (Option Byte)) : Wr :=
  { ctx := BitVec.ofNat 6 x, mask := presentFrom (la % 256) bs, stamp := stamp }

/-- The home made ready for a read within a granule: ECC reads its bytes. -/
def State.touchGranule (s : State) (attr : Word) (la n : Nat) (die : Option Nat := none) : State :=
  let s := s.readyGranule attr la n none die
  s.ecc (s.memr.resolve la) n

/-- The home made ready for a read of a byte range. -/
def State.touch (s : State) (attr : Word) (la n : Nat) (die : Option Nat := none) : State :=
  (piecesOf 256 la n).foldl (fun s p => s.touchGranule attr p.1 p.2 die) s

/-- The bytes of a range at their current copies. -/
def State.bytesAt (s : State) (la n : Nat) : List Byte :=
  (piecesOf 256 la n).flatMap fun p => Table.getList 0 s.mem (s.memr.resolve p.1) p.2

/-- The first poisoned unit of a range at its current copies, as an address of the range. -/
def State.poisonAt (s : State) (la n : Nat) : Option Nat :=
  (piecesOf 256 la n).findSome? fun p =>
    (s.poisonIn (s.memr.resolve p.1) p.2).map fun b => p.1 / 32 * 32 + (b - s.memr.resolve p.1 / 32 * 32)

/-- A home read: the bytes, or the poisoned unit (R409, R410). -/
def State.homeRead (s : State) (attr : Word) (la n : Nat) (die : Option Nat := none) : State × Except Nat (List Byte) :=
  let s := s.touch attr la n die
  match s.poisonAt la n with
  | some b => (s, .error b)
  | none => (s, .ok (s.bytesAt la n))

/-- Bytes placed in memory from an address; an absent byte is left. -/
def putBytes (m : List Host.Cell) (a : Nat) : List (Option Byte) → List Host.Cell
  | [] => m
  | none :: bs => putBytes m (a + 1) bs
  | some b :: bs => putBytes (Table.set 0 m a b) (a + 1) bs

/-- One write request within a granule: ECC reads each unit that the request covers only in part, the bytes are placed,
and poison is lifted from each unit that it covers whole (R410). -/
def State.writeGranule (s : State) (la : Nat) (bs : List (Option Byte)) : State :=
  let at' := s.memr.resolve la
  let some? (b : Nat) : Bool := ((bs.drop (32 * b - at')).take (32 * b + 32 - max at' (32 * b))).any Option.isSome
  let whole (b : Nat) : Bool :=
    decide (at' ≤ 32 * b) && decide (32 * b + 32 ≤ at' + bs.length) &&
      ((bs.drop (32 * b - at')).take 32).all Option.isSome
  let units := blocksOf 32 at' bs.length
  let s := units.foldl (fun s b => if some? b && !whole b then s.eccUnit (32 * b) else s) s
  let s := { s with mem := putBytes s.mem at' bs }
  units.foldl (fun s b => if whole b then s.setMark (32 * b) 0 else s) s

/-- A home write by context `x`: each granule is made ready and written; `stamp` is the moment of the store when it is an
earlier one. -/
def State.homeWriteMask (s : State) (attr : Word) (x : Nat) (la : Nat) (bs : List (Option Byte)) (die : Option Nat := none)
    (stamp : Option Nat := none) : State :=
  (piecesOf 256 la bs.length).foldl (fun s p =>
    let part := (bs.drop (p.1 - la)).take p.2
    let s := s.readyGranule attr p.1 p.2 (some (wrOf x (stamp.getD s.now) p.1 part)) die
    s.writeGranule p.1 part) s

/-- A home write of whole bytes. -/
def State.homeWrite (s : State) (attr : Word) (x : Nat) (la : Nat) (bs : List Byte) (die : Option Nat := none) : State :=
  s.homeWriteMask attr x la (bs.map some) die

/-- The write of an access that has touched the same bytes in the same visit to the home: their line is only marked dirty
(R111, R143). -/
def State.homeRewriteMask (s : State) (attr : Word) (x : Nat) (la : Nat) (bs : List (Option Byte)) : State :=
  (piecesOf 256 la bs.length).foldl (fun s p =>
    let part := (bs.drop (p.1 - la)).take p.2
    let at' := s.memr.resolve p.1
    let m := (s.memr.homeRecall at' p.2 true).mscUse attr at' (some (wrOf x s.now p.1 part))
    ({ s with memr := m }).writeGranule p.1 part) s

/-- The same for whole bytes. -/
def State.homeRewrite (s : State) (attr : Word) (x : Nat) (la : Nat) (bs : List Byte) : State :=
  s.homeRewriteMask attr x la (bs.map some)

/-! ## Agents, and what an access may end in -/

/-- Who accesses memory (R113, R375): the context whose tables translate, the record's agent fields, the core and die
whose TLBs serve it, whether it acts for the supervisor (R465), whether it is a symmetric walk (R251), the peer bytes
already received, and the issuer whose earlier packets its reads must not pass (R117). -/
structure Agent where
  ctx : Nat
  akind : Nat := 0
  aidx : Nat := 0
  core : Option Nat := none
  die : Option Nat := none
  sup : Bool := false
  sym : Bool := false
  got : List Fetched := []
  issuer : Option Issuer := none
  deriving DecidableEq, Repr

/-- Why an access does not finish now: a fault; a packet whose answer it needs; an earlier overlapping packet not yet
answered (R117), with part of a row already sent or not; or a protection violation at an address (R444). -/
inductive Halt where
  | fault (f : FaultInfo)
  | ask (pkt : Packet) (va : Word)
  | wait
  | sent
  | violate (addr : Word)
  deriving DecidableEq, Repr

/-- The codes that RESUME continues from (R373, R398). -/
def codeResumable (code : Nat) : Bool :=
  decide (code ∈ [0x0120, 0x0201, 0x0301, 0x0302, 0x0303, 0x0304, 0x0306, 0x0401, 0x0402, 0x0406])

/-- A fault of an agent. -/
def Agent.flt (a : Agent) (code : Nat) (addr : Word) (synd : Word := 0) (aux : Word := 0)
    (gran : Option Nat := none) : FaultInfo :=
  { code := code, addr := addr, synd := synd, aux := aux, akind := a.akind, aidx := a.aidx,
    res := codeResumable code, gran := gran }

/-- SYND of R399. -/
def Agent.synd (a : Agent) (acc level : Nat) : Word :=
  BitVec.ofNat 64 ((if a.sym then 64 else 0) + acc * 16 + level)

/-- The fault of a poisoned unit (R398, R410). -/
def State.poisonFault (s : State) (a : Agent) (code : Nat) (va : Word) (b : Nat) : FaultInfo :=
  a.flt code va 0 (BitVec.ofNat 64 (s.global b)) (some b)

/-! ## Translation (R93 to R98, R403, R404) -/

/-- The levels of the walk with the shift and width of each index (R95). -/
def walkShift (level : Nat) : Nat := match level with | 3 => 39 | 2 => 30 | 1 => 21 | _ => 16
/-- Entries of a table of a level (R95). -/
def walkEntries (level : Nat) : Nat := match level with | 3 => 2 ^ 18 | 2 => 512 | 1 => 512 | _ => 32

/-- Whether a table may lie at a global physical address (R404). -/
def State.tableOk (s : State) (gpa level : Nat) : Bool :=
  decide (gpa / 2 ^ 51 = s.myIndex) && decide (gpa % 2 ^ 51 < s.hbmBytes) && decide (gpa % (16 * walkEntries level) = 0)

/-- The size code of a leaf found at a level. -/
def leafSize (level : Nat) : Nat := if level = 0 then 0 else if level = 1 then 1 else 2

/-- Whether a present leaf is well formed at its level (R95, R404). -/
def leafOk (level : Nat) (lo hi : Word) : Bool :=
  let v := lo.toNat
  let frame := hi.toNat
  decide (level ≠ 3) && decide (bitsOf v 63 54 = 0) && decide (hi.toNat % 2 ^ 16 = 0) &&
    decide (bitsOf v 31 19 = 0) && decide (bitsOf v 7 6 = 0) && decide (frame % frameBytes (leafSize level) = 0) &&
    decide (attrAlloc lo ≠ 3) && decide (attrWpol lo ≠ 3) &&
    match attrParams lo with
    | none => true
    | some p => decide (p.rfmt ≠ 3) && decide (p.g ≤ p.vWidth - 2) &&
        decide (frame % (frameBytes (leafSize level) * p.size / p.rs) = 0)

/-- The walk from a table at a level (R95, R404): the leaf as a TLB entry, or the fault. The entries are read under attributes
of 0, since no leaf covers them (DESIGN CHOICE, log 88). -/
def State.walkFrom (s : State) (a : Agent) (acc : Nat) (va : Nat) : Nat → Nat → State × Except FaultInfo TlbEntry
  | fuel, table =>
    let level := fuel
    let idx := va / 2 ^ walkShift level % walkEntries level
    let la := table % 2 ^ 51 + 16 * idx
    let fltv (code : Nat) (lo : Word) (gran : Option Nat := none) : Except FaultInfo TlbEntry :=
      .error (a.flt code (BitVec.ofNat 64 va) (a.synd acc level) lo gran)
    let (s, r) := s.homeRead 0 la 16
    match r with
    | .error b => (s, fltv 0x0406 (BitVec.ofNat 64 (ofBytes ((s.bytesAt la 16).take 8))) (some b))
    | .ok bs =>
      let lo := BitVec.ofNat 64 (ofBytes (bs.take 8))
      let hi := BitVec.ofNat 64 (ofBytes (bs.drop 8))
      if !lo.getLsbD 0 then (s, fltv 0x0301 lo)
      else if lo.getLsbD 1 then
        if leafOk level lo hi then
          (s, .ok { ctx := BitVec.ofNat 6 a.ctx, base := va / frameBytes (leafSize level) * frameBytes (leafSize level)
                    size := leafSize level, lo := lo, hi := hi })
        else (s, fltv 0x0304 lo)
      else
        match fuel with
        | 0 => (s, fltv 0x0304 lo)
        | next + 1 =>
          if bitsOf lo.toNat 63 2 ≠ 0 ∨ s.tableOk hi.toNat next = false then (s, fltv 0x0304 lo)
          else State.walkFrom s a acc va next hi.toNat

/-- The whole walk of an address in an agent's context (R95, R404). -/
def State.walk (s : State) (a : Agent) (acc : Nat) (va : Nat) : State × Except FaultInfo TlbEntry :=
  let root := (s.ctx a.ctx).ptbase.toNat
  if s.tableOk root 3 then s.walkFrom a acc va 3 root
  else (s, .error (a.flt 0x0304 (BitVec.ofNat 64 va) (a.synd acc 3) 0))

/-- The entry of a TLB that covers an address (R97). -/
def tlbFind (t : List TlbEntry) (x va : Nat) : Option TlbEntry :=
  t.find? fun e => decide (e.ctx.toNat = x) && decide (e.base ≤ va) && decide (va < e.base + frameBytes e.size)

/-- The L2 TLB of a die. -/
def State.l2 (s : State) (die : Nat) : List TlbEntry := Table.get [] s.l2tlb die

/-- The set of a page in the L2 TLB: 8,192 entries of 8 ways (R97, log 71). -/
def tlbSet (e : TlbEntry) : Nat := e.base / frameBytes e.size % 1024

/-- An entry placed in a die's L2 TLB; of a full set the oldest leaves (R97, log 15). -/
def l2tlbPut (t : List TlbEntry) (e : TlbEntry) : List TlbEntry :=
  let same := t.filter fun o => tlbSet o == tlbSet e
  match same[7]? with
  | some o => e :: t.filter (· != o)
  | none => e :: t

/-- An entry placed in the TLBs that serve an agent, the oldest leaving (R97). -/
def State.tlbFill (s : State) (a : Agent) (e : TlbEntry) : State :=
  let s := match a.core with
    | some k =>
      let c := s.core k
      if (tlbFind c.tlb e.ctx.toNat e.base).isSome then s
      else s.setCore k { c with tlb := (e :: c.tlb).take 64 }
    | none => s
  match a.die with
  | some d =>
    if (tlbFind (s.l2 d) e.ctx.toNat e.base).isSome then s
    else { s with l2tlb := Table.set [] s.l2tlb d (l2tlbPut (s.l2 d) e) }
  | none => s

/-- The leaf that covers an address, from the agent's TLBs or by a walk (R95, R97). -/
def State.lookup (s : State) (a : Agent) (acc : Nat) (va : Nat) : State × Except FaultInfo TlbEntry :=
  let l1 := a.core.bind fun k => tlbFind (s.core k).tlb a.ctx va
  let l2 := a.die.bind fun d => tlbFind (s.l2 d) a.ctx va
  match l1, l2 with
  | some e, _ => (s, .ok e)
  | none, some e => (s.tlbFill a e, .ok e)
  | none, none =>
    let (s, r) := s.walk a acc va
    match r with
    | .ok e => (s.tlbFill a e, .ok e)
    | .error f => (s, .error f)

/-- A translated address: its leaf, the frame and the offset within the page, and the physical address, which for a
polder page is that of the element's cell (R95, R106). -/
structure Page where
  lo : Word
  size : Nat
  frame : Nat
  off : Nat
  gpa : Nat
  deriving DecidableEq, Repr

/-- The polder parameters of a page. -/
def Page.params (p : Page) : Option CellParams := attrParams p.lo

/-- The bytes of memory that `n` bytes of a page's element view stand for (R106). -/
def Page.span (p : Page) (n : Nat) : Nat := match p.params with | some q => (n + q.rs - 1) / q.rs * q.size | none => n

/-- What a request into a polder page carries beside its packet: the frame and size of the page (R112, log 47). -/
def Page.mark (p : Page) : Beside := { page := if p.params.isSome then some (p.frame, p.size) else none }

/-- The page of an address under a leaf. -/
def pageOf (e : TlbEntry) (va : Nat) : Page :=
  let off := va - e.base
  let frame := e.hi.toNat / 2 ^ 16 * 2 ^ 16
  { lo := e.lo, size := e.size, frame := frame, off := off
    gpa := match attrParams e.lo with
      | none => frame + off
      | some p => frame + off / p.rs * p.size }

/-- The access fields that an access needs (R465), and its ACC code (R399). -/
structure Need where
  rd : Bool := false
  wr : Bool := false
  exe : Bool := false
  acc : Nat := 0
  deriving DecidableEq, Repr

def Need.read : Need := { rd := true, acc := 0 }
def Need.write : Need := { wr := true, acc := 1 }
def Need.add : Need := { wr := true, acc := 2 }
def Need.atomic : Need := { rd := true, wr := true, acc := 2 }
def Need.cellRead : Need := { rd := true, acc := 2 }
def Need.fetch : Need := { exe := true, acc := 3 }

/-- Translation with the checks of R403, from 0x0305 to 0x0306; `leaf` is the form's own check of the page. -/
def State.translate (s : State) (a : Agent) (n : Need) (va : Word) (leaf : Page → Option FaultInfo) :
    State × Except FaultInfo Page :=
  if 2 ^ 57 ≤ va.toNat then (s, .error (a.flt 0x0305 va))
  else
    let (s, r) := s.lookup a n.acc va.toNat
    match r with
    | .error f => (s, .error f)
    | .ok e =>
      let p := pageOf e va.toNat
      let lo := e.lo
      if attrBit lo 5 && !a.sup then (s, .error (a.flt 0x0303 va (a.synd n.acc 4) lo))
      else if n.exe && !attrBit lo 4 then (s, .error (a.flt 0x0120 va))
      else if (n.rd && !attrBit lo 2) || (n.wr && !attrBit lo 3) then
        (s, .error (a.flt 0x0302 va (a.synd n.acc 4) lo))
      else
        match leaf p with
        | some f => (s, .error f)
        | none =>
          if s.place p.gpa = .unmapped then
            (s, .error (a.flt 0x0306 va (a.synd n.acc 4) (BitVec.ofNat 64 p.gpa)))
          else (s, .ok p)

/-! ## Packets to peers (R330, R331, R435) -/

/-- The virtual lane of a packet kind (R331): 0 request, 1 response, 2 reduce, 3 management. -/
def laneOf (kind : BitVec 4) : Nat :=
  if kind.toNat ≤ 5 then 0 else if kind.toNat ≤ 7 then 1 else if kind.toNat ≤ 9 then 2 else 3

/-- The flits of a packet: its header, its payload and its mask (R329). -/
def packetFlits (p : Packet) : Nat :=
  if p.kind = 0 ∨ p.kind = 7 then 1
  else 1 + (p.len + 63) / 64 + (if p.kind = 1 ∧ p.msk then (p.len + 511) / 512 else 0)

/-- The sizes of the torus (R327). -/
def State.torus (s : State) : List Nat :=
  let t := s.fab.topo.toNat
  [bitsOf t 35 32 + 1, bitsOf t 39 36 + 1, bitsOf t 44 40 + 1]

/-- The coordinates of a device index (R99, R327). -/
def deviceCoords (dev : Nat) : List Nat := [dev % 16, dev / 16 % 16, dev / 256]

/-- The productive ports of one dimension, + before − (R328, R333). -/
def productive (dim u v size : Nat) : List Nat :=
  let d := (v + size - u % size) % size
  if d = 0 then []
  else if d < size - d then [2 * dim]
  else if size - d < d then [2 * dim + 1]
  else [2 * dim, 2 * dim + 1]

/-- The productive ports toward a device, in port order; none for a device outside the torus (R333). -/
def State.productivePorts (s : State) (dst : Nat) : List Nat :=
  if !s.inTorus dst then []
  else
    [0, 1, 2].flatMap fun k =>
      productive k (nthD 0 (deviceCoords s.myIndex) k) (nthD 0 (deviceCoords dst) k) (nthD 1 s.torus k)

/-- The flits that wait in a port's transmit queue of a lane. -/
def State.queued (s : State) (port lane : Nat) : Nat :=
  ((s.fab.txq.filter fun e => e.1 == port && laneOf e.2.kind == lane).map fun e => packetFlits e.2).foldl (· + ·) 0

/-- The port by which a packet leaves (R333, R434): among the productive ports that are up the one with the fewest flits
queued on the lane, the lowest among equals; a management packet takes the first in dimension order. -/
def State.route (s : State) (p : Packet) : Option Nat :=
  let up := (s.productivePorts p.dst.toNat).filter fun k => !s.fab.down.getLsbD k
  let lane := laneOf p.kind
  if lane = 3 then up.head?
  else
    up.foldl (fun acc k => match acc with
      | none => some k
      | some b => if s.queued k lane < s.queued b lane then some k else some b) none

/-- NYFC's reset value: every lane stops at 48 units and goes at 32 (R332). -/
def nyfcReset : Word := 0x3020302030203020

/-- The 32-byte granule of a device-local address, as a fault's AUX holds it. -/
def State.granule (s : State) (la : Nat) : Word := BitVec.ofNat 64 (s.global (la / 32 * 32))

/-- The transmit queues let go every packet whose lane its neighbour has not stopped (R332); each is on the wire until the
link has confirmed it (R433, R434). -/
def State.transmit (s : State) : State :=
  let held (e : Nat × Packet) : Bool := s.fab.stopped.contains (e.1, laneOf e.2.kind)
  { s with fab := { s.fab with
      txq := s.fab.txq.filter held
      wire := s.fab.wire ++ (s.fab.txq.filter fun e => !held e).map fun e => (s.now, e.1, e.2) } }

/-- The packets on the wire that the link has confirmed by now have left (R433, log 44). -/
def State.confirmWire (s : State) : State :=
  let gone (e : Nat × Nat × Packet) : Bool := decide (e.1 + Config.linkCycles ≤ s.now)
  { s with fab := { s.fab with
      wire := s.fab.wire.filter fun e => !gone e
      outbox := s.fab.outbox ++ (s.fab.wire.filter gone).map Prod.snd } }

/-- A packet that no port can take, dropped and counted at the lowest productive port (R434). -/
def State.countDrop (s : State) (dst : Nat) : State :=
  let k := (s.productivePorts dst).headD 0
  { s with fab := { s.fab with
      nyerr := Table.set 0 s.fab.nyerr k (satInc (Table.get 0 s.fab.nyerr k) 47 32) } }

/-- A packet placed in the transmit queue of its port; whether a port took it. -/
def State.place? (s : State) (p : Packet) : State × Bool :=
  match s.route p with
  | some k => ({ s with fab := { s.fab with txq := s.fab.txq ++ [(k, p)] } }.transmit, true)
  | none => (s.countDrop p.dst.toNat, false)

/-- Whether a packet's issuer awaits an answer to it (R435). -/
def awaitsAnswer (kind : BitVec 4) : Bool := decide (kind.toNat ≤ 5) || kind == 8 || kind == 9

/-- The negative acknowledgement of a packet: a packet of kind 7 whose CONTRIB[15:0] holds the fault code (R434). SYND and
AUX of what this device found travel beside it (R417, log 24). -/
def negative (p : Packet) (code : Nat) (synd aux : Word := 0) : Packet :=
  { dst := p.src, kind := 7, ctx := p.ctx, tag := p.tag, contrib := BitVec.ofNat 32 code
    beside := { synd := synd, aux := aux } }

/-- A packet sent on its way (R333, R434): by a port, or dropped with 0x0701 to its source. -/
def State.emit (s : State) (p : Packet) : State :=
  match s.place? p with
  | (s, true) => s
  | (s, false) =>
    if !awaitsAnswer p.kind then s
    else if p.src.toNat = s.myIndex then { s with fab := { s.fab with lost := s.fab.lost ++ [(p.tag.toNat, 0x0701)] } }
    else (s.place? { negative p 0x0701 with src := BitVec.ofNat 13 s.myIndex, lane := 1 }).1

/-- The ACC code of an access by packet (R399). -/
def packetAcc (kind : BitVec 4) : Nat := match kind.toNat with | 0 => 0 | 1 => 1 | _ => 2

/-- Bytes padded with zeros to a whole flit (R331). -/
def padFlit (bs : List Byte) : List Byte := bs ++ List.replicate ((64 - bs.length % 64) % 64) 0

/-- A packet with the fields that its kind and this device give it: its source, its lane, and the padding of a write's
data (R330, R331). -/
def State.formed (s : State) (p : Packet) : Packet :=
  { p with src := BitVec.ofNat 13 s.myIndex, lane := BitVec.ofNat 2 (laneOf p.kind)
           data := if p.kind = 1 then padFlit p.data else p.data }

/-- The bytes at its home, from its address on, that a request packet reads or writes: those of the cells of a polder page
(R106), and of an atomic's word (R117, log 20). -/
def packetSpan (p : Packet) : Nat :=
  let cell := (attrParams p.attr).map CellParams.size
  let w := ofBytes (p.data.take 8)
  if p.kind = 2 then
    if bitsOf w 31 28 = 9 then cell.getD 8 * max 1 (ofBytes ((p.data.drop 8).take 8))
    else if 9 ≤ bitsOf w 31 28 then cell.getD 8
    else 4 * 2 ^ bitsOf w 22 21
  else
    match attrParams p.attr with
    | some q => if p.kind = 3 then p.len / (typeWidth p.etype.toNat / 8) * q.size else (p.len + q.rs - 1) / q.rs * q.size
    | none => p.len

/-- A packet given the next tag, with a request that awaits its answer. -/
def State.register (s : State) (issuer : Issuer) (va : Word) (pkt : Packet) : State × Packet :=
  let tag := s.fab.nextTag
  let pkt := { s.formed pkt with tag := BitVec.ofNat 16 tag }
  let (line, slot) := match issuer with
    | .stream core _ => ((s.core core).line, (s.core core).curSlot)
    | _ => (0, 0)
  let word := match issuer with
    | .stream core (e + 1) => (((s.core core).engine e).started.map fun t => slotWord t.entry.instr).getD 0
    | _ => 0
  let sym := laneOf pkt.kind == 2 || (pkt.kind == 4 && pkt.beside.note == 1)
  let req : Request := { tag := tag % 2 ^ 16, dst := pkt.dst.toNat, issuer := issuer, sentAt := s.now, va := va
                         addr := pkt.addr.toNat, len := pkt.len, span := packetSpan pkt
                         write := decide (pkt.kind.toNat ≠ 0), attr := pkt.attr
                         acc := packetAcc pkt.kind, ctx := pkt.ctx.toNat, sym := sym, line := line, slot := slot, word := word }
  ({ s with fab := { s.fab with
      requests := s.fab.requests ++ [req], nextTag := (tag + 1) % 2 ^ 16 } }, pkt)

/-- A packet sent, with a request that awaits its answer; its tag. -/
def State.send (s : State) (issuer : Issuer) (va : Word) (pkt : Packet) : State × Nat :=
  ((s.register issuer va pkt).1.emit (s.register issuer va pkt).2, s.fab.nextTag % 2 ^ 16)

/-- A packet that answers another, which nothing answers. -/
def State.reply (s : State) (pkt : Packet) : State := s.emit (s.formed pkt)

/-- Whether a stream has an unanswered packet over some of a physical range, of which one is a write (R117). -/
def State.pendingOver (s : State) (issuer : Issuer) (addr n : Nat) (write : Bool) : Bool :=
  s.fab.requests.any fun r =>
    decide (r.issuer = issuer) && (write || r.write) && decide (r.addr < addr + n) && decide (addr < r.addr + r.span)

/-- A write sent once its stream's earlier packets over the same bytes are answered (R117, R334). -/
def State.sendAfter (s : State) (issuer : Issuer) (va : Word) (pkt : Packet) : State × Nat :=
  if s.pendingOver issuer pkt.addr.toNat (packetSpan pkt) true then
    let (t, p) := s.register issuer va pkt
    ({ t with fab := { t.fab with later := t.fab.later ++ [p] } }, s.fab.nextTag % 2 ^ 16)
  else s.send issuer va pkt

/-- A write refused at once with a code: no memory stands at its address (R414). -/
def State.sendRefused (s : State) (issuer : Issuer) (va : Word) (pkt : Packet) (code : Nat) : State × Nat :=
  let t := (s.register issuer va pkt).1
  ({ t with fab := { t.fab with lost := t.fab.lost ++ [(s.fab.nextTag % 2 ^ 16, code)] } }, s.fab.nextTag % 2 ^ 16)

/-- Whether a waiting write still follows an unanswered packet of its stream over the same bytes. -/
def State.follows (s : State) (p : Packet) : Bool :=
  match s.fab.requests.find? fun r => r.tag == p.tag.toNat with
  | some own => (s.fab.requests.takeWhile fun r => r.tag != p.tag.toNat).any fun r =>
      decide (r.issuer = own.issuer) && decide (r.addr < own.addr + own.span) && decide (own.addr < r.addr + r.span)
  | none => false

/-- The writes that waited for earlier ones, sent when those are answered (R117, R334). -/
def State.sendLater (s : State) : State :=
  if s.fab.later.isEmpty then s
  else
    let due := s.fab.later.filter fun p => !s.follows p
    let t := { s with fab := { s.fab with
      later := s.fab.later.filter s.follows
      requests := s.fab.requests.map fun r =>
        if due.any (fun p => p.tag.toNat == r.tag) then { r with sentAt := s.now } else r } }
    due.foldl State.emit t

/-- Whether an access of a stream to a peer must wait: for its unanswered packets over the same bytes (R117), or, in a
control space, for any that it has sent to the registers of that device (R342). -/
def State.peerHeld (s : State) (issuer : Issuer) (gpa n : Nat) (write : Bool) : Bool :=
  if inControl gpa then s.pendingOver issuer (gpa / 2 ^ 51 * 2 ^ 51 + controlBase) (2 ^ 51 - controlBase) true
  else s.pendingOver issuer gpa n write

/-- The answer an agent has received for a physical range: the bytes, or the fault of a refusal (R417, R435). -/
def Agent.received (a : Agent) (addr n : Nat) (va : Word) (acc : Nat) : Option (Except Halt (List Byte)) :=
  (a.got.find? fun f => f.addr == addr && f.len == n).bind fun f =>
    match f.err, f.got with
    | some (code, aux), _ => some (.error (.fault (a.flt code va (if code = 0x0306 then a.synd acc 4 else 0) aux)))
    | none, some bs => some (.ok bs)
    | none, none => none

/-- The flags that came with the answer for a physical range (R32). -/
def Agent.flagsOf (a : Agent) (addr n : Nat) : Flags :=
  ((a.got.find? fun f => f.addr == addr && f.len == n).map Fetched.flags).getD 0

/-- An agent whose answer for a physical range has been used up: each exchange of a cell takes one of its own (R242). -/
def Agent.used (a : Agent) (addr n : Nat) : Agent :=
  { a with got := a.got.eraseP fun f => f.addr == addr && f.len == n }

/-- Whether a request for a range is under way. -/
def asking (fs : List Fetched) (addr n : Nat) : Bool :=
  fs.any fun f => f.addr == addr && f.len == n && f.got.isNone && f.err.isNone

/-- Whether an agent's own unanswered packets over a range hold an access back (R117). -/
def State.heldBack (s : State) (a : Agent) (addr n : Nat) (write : Bool) : Bool :=
  match a.issuer with
  | some i => s.pendingOver i addr n write
  | none => false

/-- The packet of a request to a peer. -/
def State.request (_s : State) (a : Agent) (kind : BitVec 4) (dev gpa n : Nat) (lo : Word) (data : List Byte) :
    Packet :=
  { dst := BitVec.ofNat 13 dev, kind := kind, ctx := BitVec.ofNat 6 a.ctx, len := n
    addr := BitVec.ofNat 64 gpa, attr := carried lo, data := data }

/-! ## The L1 data cache (R88, R91, R118, R119, R143) -/

/-- The byte that a core's L1 data cache holds at a global physical address. -/
def Core.l1 (c : Core) (gpa : Nat) : Option L1Byte := Table.get none c.l1d gpa

/-- The byte of a core's L1 data cache replaced. -/
def Core.setL1 (c : Core) (gpa : Nat) (b : Option L1Byte) : Core := { c with l1d := Table.set none c.l1d gpa b }

/-- The 128-byte lines in which a core holds dirty bytes. -/
def Core.dirtyLines (c : Core) : List Nat :=
  ((c.l1d.filter fun e => (e.2.map L1Byte.dirty).getD false).map fun e => e.1 / 128).eraseDups

/-- The contexts and attributes under which a line's dirty bytes were stored. -/
def Core.dirtyGroups (c : Core) (line : Nat) : List (BitVec 6 × Word) :=
  ((List.range 128).filterMap fun k =>
    match c.l1 (128 * line + k) with
    | some b => if b.dirty then some (b.ctx, b.attr) else none
    | none => none).eraseDups

/-- The dirty bytes of a line stored under one context and attributes, absent bytes elsewhere. -/
def Core.dirtyBytes (c : Core) (line : Nat) (g : BitVec 6 × Word) : List (Option Byte) :=
  (List.range 128).map fun k =>
    match c.l1 (128 * line + k) with
    | some b => if b.dirty && b.ctx == g.1 && b.attr == g.2 then some b.byte else none
    | none => none

/-- The moment of the last store among them. -/
def Core.dirtyStamp (c : Core) (line : Nat) (g : BitVec 6 × Word) : Nat :=
  (List.range 128).foldl (fun n k =>
    match c.l1 (128 * line + k) with
    | some b => if b.dirty && b.ctx == g.1 && b.attr == g.2 then max n b.stamp else n
    | none => n) 0

/-- The bits of a write's byte mask, eight to a byte (R331). -/
def maskBytes : List (Option Byte) → List Byte
  | b0 :: b1 :: b2 :: b3 :: b4 :: b5 :: b6 :: b7 :: rest =>
    let bit (b : Option Byte) (k : Nat) : Nat := if b.isSome then 2 ^ k else 0
    BitVec.ofNat 8 (bit b0 0 + bit b1 1 + bit b2 2 + bit b3 3 + bit b4 4 + bit b5 5 + bit b6 6 + bit b7 7)
      :: maskBytes rest
  | _ => []

/-- The payload of a masked write: the data padded to a whole flit, then its mask, one bit for each byte (R331). -/
def maskedData (bs : List (Option Byte)) : List Byte :=
  padFlit (bs.map (·.getD 0)) ++ padFlit (maskBytes (bs ++ List.replicate ((8 - bs.length % 8) % 8) none))

/-- A masked write of a core's posted stores sent to their home: here, to a peer after the core's earlier packets over the same
bytes (R117), or to no memory at all, which refuses it with 0x0306 (R414). `die` is that of the L2 it goes through. -/
def State.postBytes (s : State) (core gpa : Nat) (x : BitVec 6) (attr : Word) (bs : List (Option Byte)) (die : Option Nat)
    (stamp : Nat) : State :=
  let masked := !bs.all Option.isSome
  let pkt (dev : Nat) : Packet :=
    { dst := BitVec.ofNat 13 dev, kind := 1, ctx := x, len := bs.length, addr := BitVec.ofNat 64 gpa, attr := attr
      msk := masked, data := if masked then maskedData bs else bs.map (·.getD 0) }
  let note (r : State × Nat) : State :=
    r.1.setCore core { r.1.core core with postedTags := (r.1.core core).postedTags ++ [r.2] }
  match s.place gpa with
  | .mem la =>
    (s.setCore core { s.core core with posted := true }).homeWriteMask attr x.toNat la bs die (some stamp)
  | .peer dev => note (s.sendAfter (.stream core 0) (BitVec.ofNat 64 gpa) (pkt dev))
  | _ => note (s.sendRefused (.stream core 0) (BitVec.ofNat 64 gpa) (pkt (gpa / 2 ^ 51)) 0x0306)

/-- One dirty line of a core written back with its byte mask; its bytes stay valid and clean (R88, R91). -/
def State.writeBackLine (s : State) (core line : Nat) : State :=
  let c := s.core core
  let clean := { c with l1d := c.l1d.map fun e =>
    if e.1 / 128 = line then (e.1, e.2.map fun b => { b with dirty := false }) else e }
  (c.dirtyGroups line).foldl (fun s g =>
    s.postBytes core (128 * line) g.1 g.2 (c.dirtyBytes line g) (some (core / 64)) (c.dirtyStamp line g))
    (s.setCore core clean)

/-- The lines that a core's L1 data cache holds in a set of 64 (R88, log 71). -/
def Core.l1Set (c : Core) (line : Nat) : List Nat :=
  ((c.l1d.filter fun e => decide (e.1 / 128 % 64 = line % 64)).map fun e => e.1 / 128).eraseDups

/-- A line of a core's L1 data cache evicted: its dirty bytes written back, and no byte of it held (R88). -/
def State.evictLine (s : State) (core line : Nat) : State :=
  let s := if (s.core core).dirtyLines.contains line then s.writeBackLine core line else s
  s.setCore core { s.core core with l1d := Table.dropRange (128 * line) 128 (s.core core).l1d }

/-- Room made for the line of an address in a core's L1 data cache of 64 KiB and 8 ways: a free way of a full set is
evicted (R88, log 15). -/
def State.roomL1 (s : State) (core gpa : Nat) : State :=
  let line := gpa / 128
  let ls := (s.core core).l1Set line
  if ls.contains line || decide (ls.length < 8) then s
  else
    let s' := s.evictLine core (nthD 0 ls (Config.freeWay s.fresh % 8))
    { s' with fresh := s'.fresh + 1 }

/-- The streaming stores that a core has combined sent on, as one write with its byte mask (R92). -/
def State.flushComb (s : State) (core : Nat) : State :=
  let c := s.core core
  match c.comb with
  | none => s
  | some g =>
    (s.setCore core { c with comb := none }).postBytes core (256 * g.granule) g.ctx g.attr
      ((List.range 256).map fun k => Table.get none g.bytes k) none g.stamp

/-- Whether a core's combined stores touch a range. -/
def Core.combHits (c : Core) (gpa n : Nat) : Bool :=
  match c.comb with
  | some g => decide (g.granule ∈ blocksOf 256 gpa n)
  | none => false

/-- Combined stores that touch a range sent on before an access of the same core to it (R92, R117). -/
def State.flushOver (s : State) (core gpa n : Nat) : State :=
  if (s.core core).combHits gpa n then s.flushComb core else s

/-- Every dirty byte of a core's L1 data cache written back, and its combined stores sent on: what a release of scope DIE or
wider does (R88, R118). -/
def State.writeBackAll (s : State) (core : Nat) : State :=
  let s := s.flushComb core
  (s.core core).dirtyLines.foldl (fun s l => s.writeBackLine core l) s

/-- Every valid clean byte invalidated: what an acquire of scope DIE or wider does (R88, R119). -/
def Core.dropClean (c : Core) : Core :=
  { c with l1d := c.l1d.filter fun e => (e.2.map L1Byte.dirty).getD false }

/-- An acquire of a scope by a core's control stream (R119). -/
def Core.acquire (c : Core) (scope : Nat) : Core := if scope = 0 then c else c.dropClean

/-- The write-back that a release of a scope begins with (R118). -/
def State.releaseBack (s : State) (core scope : Nat) : State := if scope = 0 then s else s.writeBackAll core

/-- Whether everything that a core's control stream sent to peers is answered, as a release of scope DIE or wider
waits for (R118). -/
def Core.answered (c : Core) (scope : Nat) : Bool := scope = 0 || c.postedTags.isEmpty

/-- The tag of the request that the acting slot has already sent. -/
def Core.issued (c : Core) : Option Nat := (c.held.find? fun h => h.slot == c.curSlot).map fun h => h.ask.tag

/-- Whether the posted request that the acting slot has sent is performed at its home (R119, R213). -/
def Core.performed (c : Core) : Bool := match c.issued with | some t => !c.postedTags.contains t | none => false

/-- A posted packet of the acting core's control stream. An acquire completes when its home has performed it, so the unit
is held until then (R119, R213); `fin` is what follows. -/
def State.postPeer (s : State) (va : Word) (pkt : Packet) (acquire : Bool) (fin : State → State) : State :=
  if s.here.performed then fin s
  else if s.here.issued.isSome then s.block .hold
  else
    let (s, tag) := s.send (.stream s.focus.toNat 0) va pkt
    let c := s.here
    let c := { c with postedTags := c.postedTags ++ [tag] }
    if acquire then
      (s.setHere { c with held := c.held ++ [{ slot := c.curSlot
                                               ask := { tag := tag, addr := pkt.addr.toNat, len := pkt.len } }] }).block .hold
    else fin (s.setHere c)

/-- The lines in which a range has dirty bytes. -/
def Core.dirtyIn (c : Core) (gpa n : Nat) : List Nat :=
  (blocksOf 128 gpa n).filter fun l => (List.range 128).any fun k =>
    decide (gpa ≤ 128 * l + k) && decide (128 * l + k < gpa + n) && ((c.l1 (128 * l + k)).map L1Byte.dirty).getD false

/-- A range dropped from a core's L1 data cache. -/
def Core.dropRange (c : Core) (gpa n : Nat) : Core := { c with l1d := Table.dropRange gpa n c.l1d }

/-- What an atomic does to its own core's copies first: dirty bytes that overlap written back, the bytes
invalidated (R143). -/
def State.flushRange (s : State) (core gpa n : Nat) : State :=
  let s := s.flushOver core gpa n
  let s := ((s.core core).dirtyIn gpa n).foldl (fun s l => s.writeBackLine core l) s
  s.setCore core ((s.core core).dropRange gpa n)

/-- Bytes filled into a core's L1 data cache where no dirty byte stands. -/
def Core.fillL1 (c : Core) (gpa : Nat) : List (Option Byte) → Core
  | [] => c
  | none :: bs => Core.fillL1 c (gpa + 1) bs
  | some b :: bs =>
    match c.l1 gpa with
    | some o => if o.dirty then Core.fillL1 c (gpa + 1) bs
        else Core.fillL1 (c.setL1 gpa (some { byte := b, dirty := false })) (gpa + 1) bs
    | none => Core.fillL1 (c.setL1 gpa (some { byte := b, dirty := false })) (gpa + 1) bs

/-- A core's bytes placed over bytes that came from memory. -/
def Core.overlay (c : Core) (gpa : Nat) : List Byte → List Byte
  | [] => []
  | b :: bs => ((c.l1 gpa).map L1Byte.byte).getD b :: Core.overlay c (gpa + 1) bs

/-- Whether a core's L1 data cache holds every byte of a range. -/
def Core.holds (c : Core) (gpa n : Nat) : Bool := (List.range n).all fun k => (c.l1 (gpa + k)).isSome

/-! ## Element view (R107) -/

/-- The started command of an engine changed. -/
def State.mapStarted (s : State) (core eng : Nat) (f : Started → Started) : State :=
  let c := s.core core
  let g := c.engine eng
  s.setCore core (c.setEngine eng { g with started := g.started.map f })

/-- Flags that an agent's read of cells raises: of a control stream's unit, of a command, or of a context's berm runs (R32,
R386); other agents raise none. -/
def State.raiseBy (s : State) (a : Agent) (f : Flags) : State :=
  if f = 0 then s
  else
    let x := s.ctx a.ctx
    match a.akind, a.issuer with
    | 0, _ => if a.core = some s.focus.toNat then s.raise f else s
    | 6, _ => s.setCtx a.ctx { x with flagsBerm := x.flagsBerm ||| f }
    | _, some (.stream core (e + 1)) =>
      (s.setCtx a.ctx { x with flagsTask := x.flagsTask ||| f }).mapStarted core e fun t => { t with flags := t.flags ||| f }
    | _, _ => s

/-- The bytes of `n / rs` elements of a polder page from the cell at a device-local address: cellRead of each cell, with the
flags raised (R32, R50, R107). -/
def State.polderRead (s : State) (p : CellParams) (attr : Word) (la n : Nat) :
    State × Except Nat (List Byte × Flags) :=
  (List.range (n / p.rs)).foldl (fun acc k =>
    match acc with
    | (s, .error b) => (s, .error b)
    | (s, .ok (bs, f)) =>
      match s.homeRead attr (la + k * p.size) p.size with
      | (s, .error b) => (s, .error b)
      | (s, .ok raw) =>
        let (v, g) := cellReadFlags p (ofBytes raw)
        (s, .ok (bs ++ toBytes p.rs v, f ||| g))) (s, .ok ([], 0))

/-- The first check of a load of a page: on a polder page, alignment to rs and whole elements (R107, R406). -/
def polderLoadCheck (a : Agent) (va : Word) (n : Nat) (slotBits : Word) (p : Page) : Option FaultInfo :=
  match p.params with
  | none => none
  | some c => if p.off % c.rs = 0 ∧ n % c.rs = 0 then none else some (a.flt 0x0307 va slotBits)

/-- The check of an ordinary store or integer atomic: no polder page (R406). -/
def noPolder (a : Agent) (va : Word) (slotBits : Word) (p : Page) : Option FaultInfo :=
  if p.params.isSome then some (a.flt 0x0307 va slotBits) else none

/-- The check of a cell instruction: a polder page (R406). -/
def onlyPolder (a : Agent) (va : Word) (slotBits : Word) (p : Page) : Option FaultInfo :=
  if p.params.isSome then none else some (a.flt 0x0308 va slotBits)

/-! ## Reads and writes of agents other than a control stream -/

/-- A read of `n` bytes at a translated address, past the L1 data cache: in element view on a polder page. -/
def State.readPage (s : State) (a : Agent) (va : Word) (p : Page) (n : Nat) : State × Except Halt (List Byte) :=
  match s.place p.gpa with
  | .mem la =>
    let (s, r) := match p.params with
      | none => s.homeRead p.lo la n
      | some c =>
        match s.polderRead c p.lo la n with
        | (s, .ok (bs, f)) => (s.raiseBy a f, .ok bs)
        | (s, .error b) => (s, .error b)
    match r with
    | .ok bs => (s, .ok bs)
    | .error b => (s, .error (.fault (s.poisonFault a 0x0401 va b)))
  | .peer dev =>
    match a.received p.gpa n va 0 with
    | some r => (s.raiseBy a (a.flagsOf p.gpa n), r)
    | none =>
      if s.heldBack a p.gpa (p.span n) false then (s, .error .wait)
      else (s, .error (.ask (s.request a 0 dev p.gpa n p.lo []) va))
  | .regs _ => (s, .error (.fault (a.flt 0x0115 va)))
  | .unmapped => (s, .error (.fault (a.flt 0x0306 va)))

/-- A read of a byte range, in pieces of at most 4,096 bytes (R104, R329, R382). `rule` is the form's own check of each
page. -/
def State.readSpan (s : State) (a : Agent) (need : Need) (va : Word) (n : Nat)
    (rule : Word → Nat → Page → Option FaultInfo) : State × Except Halt (List Byte) :=
  (piecesOf 4096 va.toNat n).foldl (fun acc pc =>
    match acc with
    | (s, .error h) => (s, .error h)
    | (s, .ok bs) =>
      let v := BitVec.ofNat 64 pc.1
      match s.translate a need v (rule v pc.2) with
      | (s, .error f) => (s, .error (.fault f))
      | (s, .ok p) =>
        match s.readPage a v p pc.2 with
        | (s, .error h) => (s, .error h)
        | (s, .ok more) => (s, .ok (bs ++ more))) (s, .ok [])

/-- A read of bytes with the element-view rule of a load. -/
def State.readBytes (s : State) (a : Agent) (va : Word) (n : Nat) : State × Except Halt (List Byte) :=
  s.readSpan a Need.read va n fun v k p => polderLoadCheck a v k 0 p

/-- A write that will be made: the physical place, the attributes and the bytes. -/
structure Put where
  va : Word
  place : Place
  gpa : Nat
  lo : Word
  bytes : List (Option Byte)
  deriving DecidableEq, Repr

/-- The writes of a byte range, translated and checked, none of them made (R382). -/
def State.planWrite (s : State) (a : Agent) (need : Need) (va : Word) (bs : List (Option Byte))
    (rule : Word → Nat → Page → Option FaultInfo) : State × Except FaultInfo (List Put) :=
  (piecesOf (2 ^ 16) va.toNat bs.length).foldl (fun acc pc =>
    match acc with
    | (s, .error f) => (s, .error f)
    | (s, .ok ps) =>
      let v := BitVec.ofNat 64 pc.1
      match s.translate a need v (rule v pc.2) with
      | (s, .error f) => (s, .error f)
      | (s, .ok p) =>
        match s.place p.gpa with
        | .regs _ => (s, .error (a.flt 0x0115 v))
        | pl =>
          (s, .ok (ps ++ [{ va := v, place := pl, gpa := p.gpa, lo := p.lo
                            bytes := (bs.drop (pc.1 - va.toNat)).take pc.2 }]))) (s, .ok [])

/-- One planned write made: at the home, or as packets of at most 4,096 bytes to a peer; the tags it awaits. -/
def State.put (s : State) (a : Agent) (issuer : Issuer) (w : Put) : State × List Nat :=
  match w.place with
  | .mem la => (s.homeWriteMask w.lo a.ctx la w.bytes, [])
  | .peer dev =>
    (piecesOf 4096 w.gpa w.bytes.length).foldl (fun acc pc =>
      let bs := (w.bytes.drop (pc.1 - w.gpa)).take pc.2
      let masked := !bs.all Option.isSome
      let pkt := { acc.1.request a 1 dev pc.1 pc.2 w.lo (bs.map (·.getD 0)) with msk := masked }
      let pkt := if masked then { pkt with data := maskedData bs } else pkt
      let (s, tag) := acc.1.send issuer w.va pkt
      (s, acc.2 ++ [tag])) (s, [])
  | _ => (s, [])

/-- Planned writes made in order. -/
def State.putAll (s : State) (a : Agent) (issuer : Issuer) (ws : List Put) : State × List Nat :=
  ws.foldl (fun acc w => let (s, t) := acc.1.put a issuer w; (s, acc.2 ++ t)) (s, [])

/-- A write of bytes at a virtual address: all of it checked, then made. -/
def State.writeBytes (s : State) (a : Agent) (issuer : Issuer) (va : Word) (bs : List Byte) :
    State × Except FaultInfo (List Nat) :=
  match s.planWrite a Need.write va (bs.map some) (fun v _ p => noPolder a v 0 p) with
  | (s, .error f) => (s, .error f)
  | (s, .ok ws) => let (s, tags) := s.putAll a issuer ws; (s, .ok tags)

/-- A record or table read by the device itself for a context's supervisor or task; a peer's bytes are not awaited
here and count as unmapped. -/
def State.readNow (s : State) (a : Agent) (va : Word) (n : Nat) : State × Except FaultInfo (List Byte) :=
  match s.readBytes a va n with
  | (s, .ok bs) => (s, .ok bs)
  | (s, .error (.fault f)) => (s, .error f)
  | (s, .error _) => (s, .error (a.flt 0x0306 va))

/-! ## Protection violations, and what a control stream does when an access halts -/

/-- A device-wide event: the bit of DEVEVT, and vector 16 of PF0 on each port (R359). -/
def State.devEvent (s : State) (bit : Nat) : State :=
  { s with
    stew := { s.stew with devevt := setBit s.stew.devevt bit true }
    out := s.out ++ [.msix 0 0 16, .msix 1 0 16] }

/-- A register's value answered to the agent that reads it. -/
def State.answer (s : State) (v : Word) : State := { s with out := s.out ++ [.regData v] }

/-- A register write, which takes effect only once bring-up is complete (R352). -/
def State.whenUp (s : State) (f : State → State) : State := if s.stew.up then f s else s

/-- A register read answered: with zero, and with no effect, before bring-up is complete (R352). -/
def State.readUp (s : State) (f : State → State × Word) : State :=
  if s.stew.up then (f s).1.answer (f s).2 else s.answer 0

/-- A report request ended: DONE counts it, and DEVEVT bit 1 says so (R356, R359). -/
def State.endReport (s : State) : State :=
  { s with stew := { s.stew with
      attQueue := s.stew.attQueue.drop 1, attDone := s.stew.attDone + 1, attFetched := [], attTags := [] } }.devEvent 1

/-- The steward restarted from its verified image: its report in progress will begin again, DEVEVT bit 7 is set, and every
die stands at step 3 meanwhile (R450). -/
def State.stewardRestart (s : State) : State :=
  { s with
    fab := { s.fab with requests := s.fab.requests.filter fun r => decide (r.issuer ≠ Issuer.steward) }
    stew := { s.stew with restarting := true, attFetched := [], attTags := [] } }.devEvent 7

/-- The master id of R444: an AKIND, 0 for a whole core, and an index. -/
def masterId (akind idx : Nat) : BitVec 16 := BitVec.ofNat 16 (akind * 2 ^ 12 + idx % 2 ^ 12)

/-- A master frozen by a violation (R445): its id listed for FRZPOP, DEVEVT bit 5 set, and the context and address of
the held request kept. -/
def State.freeze (s : State) (master : BitVec 16) (x : Nat) (addr : Word) (read : Bool := false) : State :=
  let s := s.devEvent 5
  { s with stew := { s.stew with
      frzList := s.stew.frzList ++ [master]
      frozen := s.stew.frozen ++ [{ master := master, ctx := BitVec.ofNat 6 x, addr := addr, read := read }] } }

/-- A core frozen by its violation (R445). -/
def State.freezeCore (s : State) (core : Nat) (addr : Word) : State :=
  let c := s.core core
  let x := (c.ctx?.map BitVec.toNat).getD 0
  (s.setCore core { c with frozen := true }).freeze (masterId 0 core) x addr

/-- A unit whose error a fault found is counted (R411). -/
def State.found (s : State) (f : FaultInfo) : State :=
  match f.gran with
  | some la => let s := s.pull la; s.eccUnit (s.memr.resolve la)
  | none => s

/-- The agent that a core's control stream is: its task's context and its TLBs, with the peer bytes that its acting
slot has received. -/
def State.control (s : State) (core : Nat) : Agent :=
  let c := s.core core
  { ctx := (c.ctx?.map BitVec.toNat).getD 0, core := some core, die := some (core / 64)
    got := (c.held.filter fun h => h.slot == c.curSlot).map HeldLoad.ask }

/-- What the acting core's control stream does when an access of its slot halts: it faults; it sends the request, once,
and holds its unit; it waits; or the core freezes (R192, R380, R445). -/
def State.haltHere (s : State) (h : Halt) : State :=
  match h with
  | .fault f => (s.found f).fault f
  | .wait | .sent => s.block .hold
  | .violate a => s.freezeCore s.focus.toNat a
  | .ask pkt va =>
    let c := s.here
    let asked := c.held.any fun h => h.slot == c.curSlot && h.ask.addr == pkt.addr.toNat && h.ask.len == pkt.len
    if asked then s.block .hold
    else
      let (s, tag) := s.send (.stream s.focus.toNat 0) va pkt
      (s.mapHere fun c => { c with
        held := c.held ++ [{ slot := c.curSlot, ask := { tag := tag, addr := pkt.addr.toNat, len := pkt.len } }] }).block
          .hold

end Sys2Proof.Machine
end

