-- ==== Sys2Proof/Machine/Engines.lean ====
section
/-!
DEFINITION. The engines' queues: dispatching a command or sync form, starting it when its wait is satisfied, running
it, and what stops it (R68, R69, R133, R157, R165 to R168, R381, R382).
-/
namespace Sys2Proof.Machine

/-- How a command's run ends for now: every effect made; a fault, at start or at a restart row; an access that halts in
a row; or a wait of its own, with the phase it has reached. -/
inductive RunEnd where
  | done
  | fault (row : Option Nat) (f : FaultInfo)
  | halt (row : Nat) (h : Halt)
  | pending (phase : Nat)
  deriving DecidableEq, Repr

/-- What a command's run is given: its core and engine, its queue entry, and the row and phase it runs from. -/
structure Job where
  core : Nat
  eng : Nat
  q : QEntry
  row : Nat := 0
  phase : Nat := 0
  deriving DecidableEq, Repr

/-- How a command runs. -/
abbrev Runner := Job → State → State × RunEnd

/-- The engine of a stream (R130): copy 0, weave 1, vector 2, link 3. -/
def engCopy : Nat := 0
def engWeave : Nat := 1
def engVector : Nat := 2
def engLink : Nat := 3

/-- Entries an engine's queue holds (R157). -/
def queueDepth : Nat := 32

/-- Whether a core's engines start commands: a task runs that nothing stops (R74, R379, R445). -/
def Core.active (c : Core) : Bool :=
  c.task.isSome && (c.stopping == .no || c.stopping == .soon) && c.pend.isNone && !c.frozen

/-- Whether a started command stands at a restart point though it is not done: it waits (R395). -/
def Started.waits? (t : Started) : Bool :=
  match t.entry.instr with
  | .lwaitc _ | .lbar _ => true
  | .tldb _ => decide (t.phase < 2)
  | _ => false

/-- Whether a started command records restart rows, and so stands at a restart point after each (R290). -/
def Started.restarts (t : Started) : Bool :=
  match t.entry.instr with
  | .wld _ | .wlds _ | .wread _ | .wmm _ | .wmmt _ | .wmms _ | .wmmst _ | .wopa _ | .wopas _ | .wprom _ | .wacc _ => true
  | _ => false

/-- Whether a command goes on running while its task stops: one with restart rows does not, any other goes on to its end,
at a stop that is no safe point but for those that wait (R74, R290, R379, R395). -/
def Core.finishes (c : Core) (t : Started) : Bool :=
  c.task.isSome && !c.frozen && !t.restarts && (c.stopping == .safePoint && c.pend.isNone || !t.waits?)

/-- The command of a number changed, at work or in flight. -/
def State.mapCommand (s : State) (core eng : Nat) (num : BitVec 32) (f : Started → Started) : State :=
  let c := s.core core
  let g := c.engine eng
  let h (t : Started) : Started := if t.entry.num = num then f t else t
  s.setCore core (c.setEngine eng { g with started := g.started.map h, flight := g.flight.map h })

/-- Whether a started command has every effect done and acknowledged (R133). -/
def Started.complete (t : Started) : Bool :=
  t.done && !t.homeAck && t.tags.isEmpty && t.waits.isEmpty && t.fault.isNone

/-- Whether every earlier command of a started command's engine has completed. -/
def State.alone (s : State) (core eng : Nat) : Bool := ((s.core core).engine eng).flight.isEmpty

/-- The agent of an engine's command (R113): translations through the die's L2 TLB, and the peer bytes received. -/
def State.agent (s : State) (core eng : Nat) : Agent :=
  let c := s.core core
  { ctx := (c.ctx?.map BitVec.toNat).getD 0, akind := eng + 1, die := some (core / 64), got := (c.engine eng).fetched
    issuer := some (.stream core (eng + 1)) }

/-- A command's fault with the fields that its entry gives (R374, R375); the codes of a polder page's access forms hold its
first slot (R398). -/
def stamp (j : Job) (row : Option Nat) (f : FaultInfo) : FaultInfo :=
  { f with
           synd := if f.code ∈ [0x0307, 0x0308] ∧ f.akind < 5 then slotWord j.q.instr else f.synd
           akind := if 5 ≤ f.akind then f.akind else j.eng + 1, cmdno := j.q.num, rrow := row.getD 0xFFFFFF
           line := j.q.line, slot := j.q.slot }

/-- The commands' planned writes made: the tags they await, and the home's acknowledgement (R133). -/
def State.post (s : State) (j : Job) (ws : List Put) : State :=
  let (s, tags) := s.putAll (s.agent j.core j.eng) (.stream j.core (j.eng + 1)) ws
  let own := ws.any fun w => match w.place with | .mem _ => true | _ => false
  s.mapStarted j.core j.eng fun t => { t with tags := t.tags ++ tags, homeAck := t.homeAck || own }

/-- Flags that a command raises: ORed into FPFLAGS.TASK of its context, and kept with the command for its trap (R32,
R386). -/
def State.raiseCmd (s : State) (j : Job) (f : Flags) : State :=
  let s := s.mapStarted j.core j.eng fun t => { t with flags := t.flags ||| f }
  let x := ((s.core j.core).ctx?.map BitVec.toNat).getD 0
  s.setCtx x { s.ctx x with flagsTask := (s.ctx x).flagsTask ||| f }

/-- A request sent for a command that needs a peer's bytes. -/
def State.askCmd (s : State) (j : Job) (pkt : Packet) (va : Word) : State :=
  let g := (s.core j.core).engine j.eng
  if asking g.fetched pkt.addr.toNat pkt.len then s
  else
    let (s, tag) := s.send (.stream j.core (j.eng + 1)) va pkt
    let c := s.core j.core
    let g := c.engine j.eng
    s.setCore j.core (c.setEngine j.eng { g with
      fetched := g.fetched ++ [{ tag := tag, addr := pkt.addr.toNat, len := pkt.len }] })

/-- A started command that faults at its start: it stands again at the head of its queue, its wait taken (R381,
R420). -/
def State.refuseStart (s : State) (core eng : Nat) (f : FaultInfo) : State :=
  let c := s.core core
  let g := c.engine eng
  match g.started with
  | none => s
  | some st =>
    let j : Job := { core := core, eng := eng, q := st.entry }
    let c := c.setEngine eng { g with started := none, queue := { st.entry with waited := true } :: g.queue }
    s.setCore core (c.faultAt (stamp j none f))

/-- A command with a fault: one that a home reported stays, any other gives way (R381). -/
def Started.faulted (t : Started) (f : FaultInfo) : Started :=
  { t with fault := if (t.fault.map FaultInfo.late).getD false then t.fault else some f }

/-- A started command run from its row and phase. -/
def State.runStarted (s : State) (core eng : Nat) (run : Runner) : State :=
  match ((s.core core).engine eng).started with
  | none => s
  | some st =>
    let j : Job := { core := core, eng := eng, q := st.entry, row := st.row, phase := st.phase }
    match run j s with
    | (s, .done) => s.mapStarted core eng fun t => { t with done := true }
    | (s, .pending ph) => s.mapStarted core eng fun t => { t with phase := ph }
    | (s, .halt row h) =>
      let s := s.mapStarted core eng fun t => { t with row := row }
      match h with
      | .ask pkt va => s.askCmd j pkt va
      | .wait | .sent => s
      | .violate a => s.freezeCore core a
      | .fault f =>
        let s := s.found f
        let s := s.mapStarted core eng fun t => t.faulted (stamp j (some row) f)
        s.setCore core ((s.core core).faultAt (stamp j (some row) f))
    | (s, .fault (some row) f) =>
      let s := s.found f
      let s := s.mapStarted core eng fun t => { t.faulted (stamp j (some row) f) with row := row }
      s.setCore core ((s.core core).faultAt (stamp j (some row) f))
    | (s, .fault none f) => (s.found f).refuseStart core eng f

/-- A packet sent for a command, which awaits its answer (R133). -/
def State.sendCmd (s : State) (j : Job) (va : Word) (pkt : Packet) : State :=
  let (s, tag) := s.send (.stream j.core (j.eng + 1)) va pkt
  s.mapStarted j.core j.eng fun t => { t with tags := t.tags ++ [tag] }

/-- A fault that a home reports of a command's posted work: the command goes on, never completes and is never run
again (R381, R410). -/
def State.lateCmd (s : State) (j : Job) (f : FaultInfo) : State :=
  let f := { stamp j none f with late := true, res := false }
  let s := (s.found f).mapStarted j.core j.eng fun t => t.faulted f
  s.setCore j.core ((s.core j.core).faultAt f)

/-- The wait fields of a queue entry: the sluice and count, none without a wait (R166, R167). -/
def QEntry.wait (q : QEntry) : Option (Nat × BitVec 16) :=
  match q.instr.ex? with
  | some e => if e.wsl.toNat = 63 then none else some (e.wsl.toNat, e.wcnt.setWidth 16)
  | none => none

/-- The signal fields of a queue entry. -/
def QEntry.signal (q : QEntry) : Option (Nat × BitVec 16) :=
  match q.instr.ex? with
  | some e => if e.ssl.toNat = 63 then none else some (e.ssl.toNat, e.scnt.setWidth 16)
  | none => none

/-- The head command of an idle engine started when its wait is satisfied (R167): the wait taken, the vector of R69
merged, and the command run. Its queue entry is free from its start on (R157, DESIGN CHOICE, log 84). -/
def State.startHead (s : State) (core eng : Nat) (run : Runner) : State :=
  let c := s.core core
  let g := c.engine eng
  match g.started, g.queue with
  | none, q :: rest =>
    if !c.active then s
    else
      let j : Job := { core := core, eng := eng, q := q }
      let go (c : Core) (q : QEntry) : State :=
        let c := c.setOvec (eng + 1) ((c.ovec (eng + 1)).max q.kc)
        let g := c.engine eng
        let q := { q with sigVec := (c.ovec (eng + 1)).set (eng + 1) q.num }
        (s.setCore core (c.setEngine eng { g with queue := rest, started := some { entry := q }, fetched := [] })).runStarted
          core eng run
      if c.softHit 3 [softEng eng] then s.setCore core (c.faultAt (stamp j none (softFault 3)))
      else
      match q.waited, q.wait with
      | false, some (k, n) =>
        match c.waitFault k n (eng + 1) with
        | some f => s.setCore core (c.faultAt (stamp j none f))
        | none => if c.waitReady k n then go (c.waitTake k n (eng + 1)) { q with waited := true } else s
      | _, _ => go c { q with waited := true }
  | _, _ => s

/-- The scalar values that a slot captures at dispatch (R157): each operand field and the field after it, and the
field that the extension's low bits name. -/
def Core.capture (c : Core) (e : Ex) : List Word :=
  let pr (f : BitVec 6) : List Word := [c.readS f, c.readS (f + 1)]
  pr e.f1 ++ pr e.f2 ++ pr e.f3 ++ [c.readS (e.ext.setWidth 6)]

/-- The entry of a command dispatched now (R157). -/
def Core.entry (c : Core) (i : Instr) (eng : Nat) (ops : List Word) (fmt : Word) : QEntry :=
  { instr := i, num := (c.engine eng).taken + 1, ops := ops, shape := c.shape, seed := c.seed, fmt := fmt
    kc := c.kc.set 0 c.accesses, line := c.line, slot := c.curSlot }

/-- A command entered in its engine's queue with the next command number (R68, R157, R167). -/
def Core.enqueue (c : Core) (i : Instr) (eng : Nat) (ops : List Word) (fmt : Word) : Core :=
  let g := c.engine eng
  c.setEngine eng { g with queue := g.queue ++ [c.entry i eng ops fmt], taken := g.taken + 1 }

/-- The dispatch of an EX command (R157, R159, R380): nothing under a false guard; the unit's operand checks; a wait
for a free entry; and the entry, which starts at once when its engine is idle and its wait satisfied. -/
def dispatch (i : Instr) (e : Ex) (eng : Nat) (check : Core → List Word → Option FaultInfo) (run : Runner)
    (s : State) : Out :=
  let c := s.here
  if !c.readP e.g then .next s
  else
    let ops := c.capture e
    match check c ops with
    | some f => .next (s.fault f)
    | none =>
      if queueDepth ≤ (c.engine eng).queue.length then .next (s.block .queueFull)
      else
        let t := s.setHere (c.enqueue i eng ops 0)
        .next (if (c.engine eng).queue.isEmpty then t.startHead s.focus.toNat eng run else t)

/-- The dispatch of a weave command that pops a format word (R157, R271, R388). -/
def dispatchFmt (i : Instr) (e : Ex) (check : Core → Word → List Word → Option FaultInfo) (run : Runner)
    (s : State) : Out :=
  let c := s.here
  if !c.readP e.g then .next s
  else
    match c.fmtq with
    | [] => .next (s.fault { code := 0x0503, synd := BitVec.ofNat 64 c.fmtBefore })
    | w :: rest =>
      let ops := c.capture e
      match (if c.softHit 3 [softFmt] then some (softFault 3) else check c w ops) with
      | some f => .next (s.fault f)
      | none =>
        if queueDepth ≤ (c.engine engWeave).queue.length then .next (s.block .queueFull)
        else
          let t := s.setHere ({ c with fmtq := rest }.enqueue i engWeave ops w)
          .next (if (c.engine engWeave).queue.isEmpty then t.startHead s.focus.toNat engWeave run else t)

/-! ## Standalone sync forms (R168) -/

/-- A sync form entered in its engine's queue: no command number; its vector's own component holds the number of the
last command dispatched before it. -/
def Core.enqueueSync (c : Core) (i : Instr) (eng : Nat) (ops : List Word) : Core :=
  let g := c.engine eng
  c.setEngine eng { g with queue := g.queue ++ [{
    instr := i, ops := ops, sigVec := ({} : OVec).set (eng + 1) g.taken, line := c.line, slot := c.curSlot }] }

/-- A sync form at the head of its idle engine's queue: taken when it is ready, with what it does (R168). -/
def State.takeSync (s : State) (core eng : Nat) (act : State → QEntry → Option (Except FaultInfo State)) : State :=
  let c := s.core core
  let g := c.engine eng
  match g.started, g.queue with
  | none, q :: rest =>
    if !c.active then s
    else
      let j : Job := { core := core, eng := eng, q := q }
      if c.softHit 3 [softEng eng] then s.setCore core (c.faultAt (stamp j none (softFault 3)))
      else
      match act (s.setCore core (c.setEngine eng { g with queue := rest })) q with
      | none => s
      | some (.ok s') => s'
      | some (.error f) =>
        -- a wait's fault leaves the form queued; a signal form faults at its completion (R387)
        s.setCore core (c.faultAt (stamp j none f))
  | _, _ => s

/-- What a wait form does: the wait of R128 or R129, with the merge of R70. -/
def syncWait (core eng : Nat) (l n : BitVec 6) (s : State) (_q : QEntry) : Option (Except FaultInfo State) :=
  let c := s.core core
  let cnt : BitVec 16 := n.setWidth 16
  match c.waitFault l.toNat cnt (eng + 1) with
  | some f => some (.error f)
  | none => if c.waitReady l.toNat cnt then some (.ok (s.setCore core (c.waitTake l.toNat cnt (eng + 1)))) else none

/-- What a signal form does once every earlier command of its engine has completed (R168). -/
def syncSignal (core eng : Nat) (l n : BitVec 6) (s : State) (q : QEntry) : Option (Except FaultInfo State) :=
  let c := s.core core
  let vec := (c.ovec (eng + 1)).set (eng + 1) (q.sigVec.get (eng + 1))
  if !s.alone core eng then none
  else some (s.signal core l.toNat (n.setWidth 16) vec (some (eng + 1)))

/-- What a timeline form does: the wait of R134, with the merge of R69. -/
def syncTimeline (core eng : Nat) (t : BitVec 6) (s : State) (q : QEntry) : Option (Except FaultInfo State) :=
  let c := s.core core
  let n := nthD 0 q.ops 0
  let k := t.toNat
  if n.toNat ≤ (c.engine k).tl.toNat then
    let v := c.ovec (eng + 1)
    let v := v.set (k + 1) (max32 (v.get (k + 1)) (n.setWidth 32))
    some (.ok (s.setCore core (c.setOvec (eng + 1) v)))
  else none

/-- The dispatch of a sync form (R157, R168). -/
def dispatchSync (i : Instr) (g : BitVec 4) (eng : Nat) (sr : BitVec 6)
    (act : Nat → State → QEntry → Option (Except FaultInfo State)) (s : State) : Out :=
  let c := s.here
  if !c.readP g then .next s
  else if queueDepth ≤ (c.engine eng).queue.length then .next (s.block .queueFull)
  else
    let t := s.setHere (c.enqueueSync i eng [c.readS sr])
    .next (if (c.engine eng).queue.isEmpty then t.takeSync s.focus.toNat eng (act s.focus.toNat) else t)

end Sys2Proof.Machine
end

