-- ==== Sys2Proof/Machine/Record.lean ====
section
/-!
DEFINITION. The fields of a kernel record (R52 to R58) and of a live-map entry (R75).
-/
namespace Sys2Proof.Machine

/-- Bits `[hi:lo]` of a kernel record (R52). -/
def kfield (r : BitVec 1024) (hi lo : Nat) : Nat := r.toNat / 2 ^ lo % 2 ^ (hi + 1 - lo)

def kCode (r : BitVec 1024) : Word := BitVec.ofNat 64 (kfield r 63 0)
def kPoolAddr (r : BitVec 1024) : Word := BitVec.ofNat 64 (kfield r 127 64)
def kPoolCnt (r : BitVec 1024) : Nat := kfield r 140 128
def kParmLen (r : BitVec 1024) : Nat := kfield r 152 144
def kParmAddr (r : BitVec 1024) : Word := BitVec.ofNat 64 (kfield r 223 160)
def kNlev (r : BitVec 1024) : Nat := kfield r 418 416
def kGang (r : BitVec 1024) : Bool := decide (kfield r 419 419 = 1)
def kRestart (r : BitVec 1024) : Bool := decide (kfield r 420 420 = 1)
def kPrio (r : BitVec 1024) : Nat := kfield r 422 421
def kMesh (r : BitVec 1024) : Nat := kfield r 435 424
def kLiveAddr (r : BitVec 1024) : Word := BitVec.ofNat 64 (kfield r 503 440)
def kLiveCnt (r : BitVec 1024) : Nat := kfield r 516 504
def kResv (r : BitVec 1024) : Nat := kfield r 551 520
def kOutAddr (r : BitVec 1024) : Word := BitVec.ofNat 64 (kfield r 703 640)
def kOutCnt (r : BitVec 1024) : Nat := kfield r 711 704

/-- PMAP entry `k` (R54). -/
def kPmap (r : BitVec 1024) (k : Nat) : Nat := kfield r (559 + 8 * k) (552 + 8 * k)

/-- The kind and extent of loop level `k` (R56). -/
def kLevel (r : BitVec 1024) (k : Nat) : Nat × Nat :=
  let w := kfield r (255 + 32 * k) (224 + 32 * k)
  (bitsOf w 17 16, bitsOf w 15 0)

/-- The loop levels in table order. -/
def kLevels (r : BitVec 1024) : List (Nat × Nat) := (List.range (kNlev r)).map (kLevel r)

/-- The extent of temporal level `k`; 0 when the table holds no such level (R57). -/
def kTemporal (r : BitVec 1024) (k : Nat) : Nat :=
  nthD 0 (((kLevels r).filter fun l => l.1 == 0).map Prod.snd) k

/-- The spatial levels in table order (R57). -/
def kSpatial (r : BitVec 1024) : List (Nat × Nat) := (kLevels r).filter fun l => l.1 != 0

/-- The four grid extents; 1 where no spatial level supplies one (R57). -/
def kExtents (r : BitVec 1024) : List Nat := (List.range 4).map fun k => nthD 1 ((kSpatial r).map Prod.snd) k

/-- Tasks in the grid (R57). -/
def kGrid (r : BitVec 1024) : Nat := (kExtents r).foldl (· * ·) 1

/-- The coordinates of a linear task index (R57). -/
def kCoords (r : BitVec 1024) (linear : Nat) : List (BitVec 16) :=
  let e := kExtents r
  let e0 := nthD 1 e 0
  let e1 := nthD 1 e 1
  let e2 := nthD 1 e 2
  [BitVec.ofNat 16 (linear % e0), BitVec.ofNat 16 (linear / e0 % e1), BitVec.ofNat 16 (linear / (e0 * e1) % e2),
    BitVec.ofNat 16 (linear / (e0 * e1 * e2))]

/-- A live-map entry (R75). -/
def lfield (r : Nat) (hi lo : Nat) : Nat := bitsOf r hi lo

/-- Whether a live-map entry's must-be-zero bits are zero (R75). -/
def liveOk (r : Nat) : Bool := bitsOf r 255 208 == 0 && bitsOf r 143 142 == 0

/-- The kernel record of a core's running task. -/
def Core.kernel (c : Core) : BitVec 1024 := (c.task.map Task.kernel).getD 0

end Sys2Proof.Machine
end

