-- ==== Sys2Proof/Machine/Faults.lean ====
section
/-!
DEFINITION. What a fault does beyond its task: the record of a task's fault, the failing kernel, the aborted gang, and
faults of a draining task's work (R374, R381, R383, R425, R430, R431).
-/
namespace Sys2Proof.Machine

/-! ## Kernels -/

/-- Whether a kernel has a context and sequence number; sequence numbers are a queue's own (R79). -/
def Kernel.is (k : Kernel) (x q : Nat) (kseq : Word) : Bool :=
  decide (k.ctx.toNat = x) && decide (k.queue = q) && k.kseq == kseq

/-- The kernel of a context, queue and sequence number. -/
def State.kernel? (s : State) (x q : Nat) (kseq : Word) : Option Kernel := s.kernels.find? fun k => k.is x q kseq

/-- A kernel changed. -/
def State.mapKernel (s : State) (x q : Nat) (kseq : Word) (f : Kernel → Kernel) : State :=
  { s with kernels := s.kernels.map fun k => if k.is x q kseq then f k else k }

/-- The node that launched a kernel. -/
def Run.nodeOf (r : Run) (kseq : Word) : Option Nat := r.nodes.findIdx? fun e => e.kind == 0 && e.kseq == kseq

/-- The nodes of a run that have failed or are cancelled, and those cancelled, after one more look at every node: what
follows a lost node or lies in a cancelled call is cancelled, and a call with a lost node fails (R77, R426). -/
def Run.loseOnce (r : Run) (acc : List Nat × List Nat) : List Nat × List Nat :=
  r.nodes.zipIdx.foldl (fun acc e =>
    let up := (e.1.parent.map acc.2.contains).getD false
    let acc := if !acc.1.contains e.2 && (up || e.1.preds.any acc.1.contains) then (e.2 :: acc.1, e.2 :: acc.2) else acc
    match e.1.parent with
    | some p => if acc.1.contains e.2 && !acc.1.contains p then (p :: acc.1, acc.2) else acc
    | none => acc) acc

/-- The waiting nodes whose cancellation the failure of node `n` decides keep the level that CTXLVL holds (R428). -/
def Run.doomAfter (r : Run) (n : Nat) (lvl : BitVec 2) : Run :=
  let out := ([0, 1, 2, 3, 4, 5].foldl (fun acc _ => r.loseOnce acc) ([n], [])).2
  { r with nodes := r.nodes.zipIdx.map fun e =>
      if out.contains e.2 ∧ e.1.doom.isNone then { e.1 with doom := some lvl } else e.1 }

/-- A failed node noted in its queue's run: the run halts its queue when it ends (R426). -/
def State.noteFail (s : State) (x q : Nat) (kseq : Word) : State :=
  let c := s.ctx x
  let u := c.queue q
  match u.run with
  | some r =>
    let first := if r.firstFail = 0 ∧ kseq ≠ 0 then kseq else r.firstFail
    s.setCtx x (c.setQueue q { u with run := some { r with firstFail := first, anyFail := true } })
  | none => s

/-- The cancellation of what follows node `n` of a queue's run is decided, by the level that CTXLVL holds now (R428). -/
def State.doom (s : State) (x q n : Nat) : State :=
  let c := s.ctx x
  let u := c.queue q
  s.setCtx x (c.setQueue q { u with run := u.run.map fun r => r.doomAfter n c.lvl })

/-- The same for the node that launched a kernel. -/
def State.doomKernel (s : State) (x q : Nat) (kseq : Word) : State :=
  match (((s.ctx x).queue q).run.bind fun r => r.nodeOf kseq) with
  | some n => s.doom x q n
  | none => s

/-- A kernel fails: no further task of it starts, and the cancellation of what follows it is decided (R425, R428). -/
def State.failKernel (s : State) (x q : Nat) (kseq : Word) : State :=
  ((s.mapKernel x q kseq fun k => { k with failed := true }).noteFail x q kseq).doomKernel x q kseq

/-! ## Gangs (R65, R430, R431) -/

/-- The coordinate of a task along its kernel's DIES level, 0 with none: which gang of its kernel it belongs to
(R58, R65). -/
def gangIndex (r : BitVec 1024) (coords : List (BitVec 16)) : Nat :=
  ((((kSpatial r).map Prod.fst).zip coords).find? fun e => e.1 == 2).map (fun e => e.2.toNat) |>.getD 0

/-- The gang index of a task. -/
def Task.gangIdx (t : Task) : Nat := gangIndex t.kernel t.coords

/-- Whether the gang of a task will be relaunched after its last abort. -/
def State.relaunching (s : State) (t : Task) : Bool :=
  match s.kernel? t.ctx.toNat t.queue t.kseq with
  | some k => k.relaunch.contains t.gangIdx
  | none => false

/-- Aborts of a task's gang in this run so far. -/
def State.gangAborts (s : State) (t : Task) : Nat :=
  match s.kernel? t.ctx.toNat t.queue t.kseq with
  | some k => Table.get 0 k.aborts t.gangIdx
  | none => 0

/-- Whether a record aborts its task's gang (R430). -/
def abortsGang (t : Task) (code : Nat) (kfail : Bool) : Bool :=
  t.gang != 0 && code != 0x0804 && (kfail || code == 0x0403 || code == 0x0404)

/-- The record of a gang that has reached its relaunch limit (R424, R431): it names the kernel, and follows the record that
caused the abort (DEDUCED, log 75). -/
def State.limitRecord (s : State) (t : Task) : State :=
  let dies := if (kSpatial t.kernel).any fun l => l.1 == 2 then 1 else 4
  let f : FaultInfo := { code := 0x0805, synd := dies, akind := 7, res := false }
  s.keepRecord t.ctx.toNat false fun n => recordBits f t.ctx.toNat n false true false none t.queue t.kseq []

/-- A gang aborted by a record: its abort counted and its relaunch noted, and every other member, running or saved by
pre-emption, stopped with 0x0804; members stopped earlier leave their images when the gang is relaunched (R430,
R431). -/
def State.abortGang (s : State) (t : Task) (fseq : BitVec 32) (restart : Bool) : State :=
  let s := s.mapKernel t.ctx.toNat t.queue t.kseq fun k => { k with
    aborts := Table.set 0 k.aborts t.gangIdx (Table.get 0 k.aborts t.gangIdx + 1)
    relaunch := (if restart && !k.relaunch.contains t.gangIdx then k.relaunch ++ [t.gangIdx] else k.relaunch) }
  let abort : FaultInfo := { code := 0x0804, synd := fseq.setWidth 64, akind := 7, slot := 0 }
  let others := (s.gangCores t.gang).filter fun k => ((s.core k).task.map Task.member) != some t.member
  let s := others.foldl (fun s k =>
    let c := s.core k
    s.setCore k { c with more := c.more || c.pend.isSome, pend := some abort }) s
  let x := t.ctx.toNat
  let c := s.ctx x
  let mark (v : SavedTask) : SavedTask :=
    if v.state.gang = t.gang ∧ v.faulted = false then { v with state := { v.state with pend := some abort } } else v
  let relaunch := restart && !(s.kernel? x t.queue t.kseq).isNone
  let gone := if relaunch then c.saved.filter fun v => v.state.gang == t.gang && v.faulted else []
  let s := s.setCtx x { c with saved := (c.saved.filter fun v => !gone.contains v).map mark }
  s.mapKernel x t.queue t.kseq fun k => { k with live := k.live - gone.length }

/-- The record of a task's fault kept for its context, and all that the record causes: the kernel that fails, the gang
that aborts, the core withdrawn (R374, R383, R425, R430 to R432). -/
def State.taskRecord (s : State) (core : Nat) (t : Task) (f : FaultInfo) (more drain : Bool) : State :=
  let x := t.ctx.toNat
  let fails := drain || !f.res
  let abort := abortsGang t f.code fails
  let restart := kRestart t.kernel && decide (s.gangAborts t < 3)
  let kfail := if f.code = 0x0804 then !s.relaunching t else if abort then fails && !restart else fails
  let fseq := (s.ctx x).fqnext
  let f := if drain then { f with res := false, line := 0, slot := 0 } else f
  let s := s.keepRecord x false fun n =>
    recordBits f x n more kfail drain (some core) t.queue t.kseq t.coords
  let s := if f.code = 0x0403 ∨ f.code = 0x0404 then s.sramCount (core / 64) 15 0 else s
  let s := if kfail then s.failKernel x t.queue t.kseq else s
  let s := if abort && kRestart t.kernel && !restart then s.limitRecord t else s
  let s := if abort then s.abortGang t fseq (restart && !kfail) else s
  if f.code = 0x0403 ∧ t.gang ≠ 0 then
    let w := setBit (Table.get 0 s.stew.corestat (core / 64)) (core % 64) true
    { s with stew := { s.stew with corestat := Table.set 0 s.stew.corestat (core / 64) w } }
  else s

/-! ## Draining work (R63, R383) -/

/-- The outstanding work of a core's draining task changed; work with nothing left is done. -/
def State.mapDraining (s : State) (core : Nat) (f : Outstanding → Outstanding) : State :=
  let c := s.core core
  s.setCore core { c with draining := c.draining.map fun d => { d with work := d.work.map f } }

/-- A fault of a draining task's outstanding work of stream `t`, command `num` (R383): the work has ended. -/
def State.drainFault (s : State) (core t : Nat) (num : BitVec 32) (f : FaultInfo) : State :=
  match (s.core core).draining with
  | none => s
  | some d =>
    let f := { f with akind := if 5 ≤ f.akind then f.akind else t, cmdno := num, rrow := 0xFFFFFF }
    s.taskRecord core d.task f false true

/-- The wait of number `id` ended for a saved or stopped task of a core, whose command keeps the fault for its completion
(R440, R451). -/
def State.endSaved (s : State) (core eng id : Nat) (f : Option FaultInfo) : State :=
  let h (t : Started) : Started :=
    if t.waits.contains id then { t with waits := t.waits.erase id, endFault := if t.endFault.isSome then t.endFault else f } else t
  let put (v : SavedTask) : SavedTask :=
    let g := v.state.engine eng
    if v.core = core ∧ (g.flight ++ g.started.toList).any (fun t => t.waits.contains id) then
      { v with state := v.state.setEngine eng { g with started := g.started.map h, flight := g.flight.map h } }
    else v
  { s with ctxs := s.ctxs.map fun e => (e.1, { e.2 with saved := e.2.saved.map put }) }

/-- The wait of number `id` of a core's command ended, for a berm run or a collective, with the fault that its
completion has (R243, R259, R381, R440). -/
def State.endWait (s : State) (core eng id : Nat) (f : Option FaultInfo) : State :=
  let c := s.core core
  let g := c.engine eng
  let has (t : Started) : Bool := t.waits.contains id
  if (g.flight ++ g.started.toList).any has then
    let h (t : Started) : Started :=
      if has t then { t with waits := t.waits.erase id, endFault := if t.endFault.isSome then t.endFault else f } else t
    s.setCore core (c.setEngine eng { g with started := g.started.map h, flight := g.flight.map h })
  else
    let work := ((c.draining.map Draining.work).getD []).find? fun w => w.waits.contains id
    match work with
    | none => s.endSaved core eng id f
    | some w =>
      let s := match f with
        | some f => s.drainFault core w.stream w.num f
        | none => s
      s.mapDraining core fun w => { w with waits := w.waits.erase id }

/-- A new number for a wait. -/
def State.newWait (s : State) : State × Nat := ({ s with nextWait := s.nextWait + 1 }, s.nextWait)

end Sys2Proof.Machine
end

