-- ==== Sys2Proof/Machine/QueueRegs.lean ====
section
/-!
DEFINITION. The registers of a context's queues and its timeline counters, as the host, tasks and peers reach them
(R78, R83, R340, R426).
-/
namespace Sys2Proof.Machine

/-- The highest number of a kernel of the queue that has completed (R64, R78). -/
def Queue.last (q : Queue) : Nat := q.digesting.foldl (fun m k => max m k.toNat) q.lastSeq.toNat

/-- STAT (R78). -/
def Queue.stat (q : Queue) : Word :=
  BitVec.ofNat 64 (q.last % 2 ^ 32 * 2 ^ 32 + q.runNo.toNat * 2 ^ 8 + q.pending.length % 2 ^ 7)

/-- QFAIL (R426). -/
def Queue.qfail (q : Queue) : Word :=
  BitVec.ofNat 64 (q.failSeq.toNat % 2 ^ 60 * 4 + (if q.runf then 2 else 0) + (if q.halt then 1 else 0))

/-- Word `k` of a hash (R78). -/
def hashWord (bs : List Byte) (k : Nat) : Word := BitVec.ofNat 64 (ofBytes ((bs.drop (8 * k)).take 8))

/-- A queue register read: the value, and the snapshot that a read of HASH0 takes (R78, R83). -/
def Queue.read (q : Queue) (off : Nat) : Word × Queue :=
  match off with
  | 0x00 => (q.trig, q)
  | 0x08 => (q.stat, q)
  | 0x10 => (q.note, q)
  | 0x18 =>
    let q := { q with snapHash := q.hash, snapSeq := q.hseq }
    (hashWord q.snapHash 0, q)
  | 0x20 => (hashWord q.snapHash 1, q)
  | 0x28 => (hashWord q.snapHash 2, q)
  | 0x30 => (hashWord q.snapHash 3, q)
  | 0x38 => (q.snapSeq, q)
  | 0x40 => (q.qfail, q)
  | _ => (0, q)

/-- A write of 1 to QFAIL.HALT: the queue is no longer halted (R426). -/
def State.clearHalt (s : State) (x q : Nat) (v : Word) : State :=
  if v.getLsbD 0 then s.setCtx x ((s.ctx x).setQueue q { (s.ctx x).queue q with halt := false }) else s

/-- A queue register written (R78, R426): TRIG and QFAIL alone accept writes. -/
def State.writeQueueReg (s : State) (x q off : Nat) (v : Word) (akind : Nat) (core : Option Nat) : State :=
  match off with
  | 0x00 => s.trig x q v akind core
  | 0x40 => s.clearHalt x q v
  | _ => s

/-- A context's timeline counter at its register offset; reserved ids read zero (R340). -/
def Ctx.counterReg (c : Ctx) (off : Nat) : Word := if counterIdOk (off / 8) && decide (0x10 ≤ off / 8) then c.counter (off / 8) else 0

/-- The start of a context's block in the control space (R338). -/
def ctxBlock (x : Nat) : Nat := 0x01000000 + 0x00100000 * x

/-- A read of the control space by a task or peer of context `x` (R444): its queue registers and timeline counters;
any other is a violation. -/
def State.taskRegRead (s : State) (x off : Nat) : Option (Word × State) :=
  if ctxBlock x + 0x10000 ≤ off ∧ off < ctxBlock x + 0x20000 then
    let o := off - ctxBlock x - 0x10000
    let (v, q) := ((s.ctx x).queue (o / 0x1000)).read (o % 0x1000)
    some (v, s.setCtx x ((s.ctx x).setQueue (o / 0x1000) q))
  else if ctxBlock x + 0x20000 ≤ off ∧ off < ctxBlock x + 0x20000 + 8 * 0x3C then
    some ((s.ctx x).counterReg (off - ctxBlock x - 0x20000), s)
  else none

/-- A write of the control space by a task or peer of context `x` (R444). -/
def State.taskRegWrite (s : State) (x off : Nat) (v : Word) (akind : Nat) (core : Option Nat) : Option State :=
  if ctxBlock x + 0x10000 ≤ off ∧ off < ctxBlock x + 0x20000 then
    let o := off - ctxBlock x - 0x10000
    some (s.writeQueueReg x (o / 0x1000) (o % 0x1000) v akind core)
  else none

end Sys2Proof.Machine
end

