-- ==== Sys2Proof/Machine/Sync.lean ====
section
/-!
DEFINITION. Fences, sluices, timelines, queue registers and events from the control stream (R217 to R222).
-/
namespace Sys2Proof.Machine

/-- Whether a control instruction is a load or store, which may address the scratchpad (R68). -/
def isLoadStore (i : Instr) : Bool :=
  match i with
  | .ld .. | .ldImm32 .. | .ldx .. | .lda .. | .ldaImm32 .. | .st .. | .stImm32 .. | .stl .. | .stlImm32 .. => true
  | _ => false

/-- Whether a control instruction waits before its unit (R192). -/
def waitsBefore (i : Instr) : Bool :=
  match i with
  | .qrd .. | .qwr .. | .slwait .. | .tlwait .. | .wfe .. => true
  | _ => false

/-- Whether a control instruction is posted: its bundle completes once it is issued (R192). -/
def isPosted (i : Instr) : Bool :=
  match i with
  | .st .. | .stImm32 .. | .stl .. | .stlImm32 .. | .amon .. | .cadd .. | .launch .. | .sev .. => true
  | _ => false

/-- Whether a control instruction awaits a value from memory (R192). -/
def awaitsValue (i : Instr) : Bool :=
  match i with
  | .ld .. | .ldImm32 .. | .ldx .. | .lda .. | .ldaImm32 .. | .amo .. | .cas .. => true
  | _ => false

/-- The bytes that a load reads (R211). -/
def loadBytes (i : Instr) : Nat :=
  match i with
  | .ldx _ _ _ _ z => 2 ^ z.toNat
  | _ => 8

/-- Whether it changes memory too. -/
def returnsOld (i : Instr) : Bool :=
  match i with
  | .amo .. | .cas .. => true
  | _ => false

/-- The guard of an instruction that may execute before its unit completes, and the scalar that it writes, s0 for none
(R159, R170). -/
def earlyDest (i : Instr) : BitVec 4 × BitVec 6 :=
  match i with
  | .ld g d _ _ | .ldImm32 g d _ _ | .lda g d _ _ _ | .ldaImm32 g d _ _ _ | .ldx g d _ _ _ | .qrd g d _ | .wfe g d => (g, d)
  | _ => (0, 0)

/-- A release by the acting control stream (R118): dirty bytes written back, then, once every peer has answered, what
follows it. Until then the unit is held: a posted instruction that releases counts as issued once its release is done
(DESIGN CHOICE, log 87). -/
def State.release (s : State) (scope : Nat) (k : State → State) : State :=
  let s := s.releaseBack s.focus.toNat scope
  if s.here.answered scope then k s else s.block .hold

/-- FENCE: kinds 1 ACQ, 2 REL, 3 FULL (R217). -/
def execFence (g : BitVec 4) (k : BitVec 2) (sc : BitVec 3) (s : State) : Out :=
  ctlS g s fun s =>
    let acq (s : State) : State := if k.getLsbD 0 then s.mapHere fun c => c.acquire sc.toNat else s
    if k.getLsbD 1 then s.release sc.toNat acq else acq s

/-- The scope that a wait or signal orders at: DIE on a barrier-mode sluice (R218). -/
def Core.sluiceScope (c : Core) (k : Nat) (sc : BitVec 3) : Nat := if (c.sluice k).barrier then 1 else sc.toNat

/-- SLWAIT: a wait, then an acquire, which a count of 0 makes too (R119, R218). -/
def execSlwait (g : BitVec 4) (sc : BitVec 3) (l n : BitVec 6) (s : State) : Out :=
  ctlS g s fun s =>
    let c := s.here
    let cnt : BitVec 16 := n.setWidth 16
    match c.waitFault l.toNat cnt 0 with
    | some f => s.fault f
    | none =>
      if c.waitReady l.toNat cnt then
        let c' := c.waitTake l.toNat cnt 0
        s.setHere (c'.acquire (c.sluiceScope l.toNat sc))
      else s.block .before

/-- The control accesses made before the acting slot: those that later slots of its unit have already made are taken
off (R68, R218). -/
def Core.accessesSoFar (c : Core) : BitVec 32 :=
  c.accesses - BitVec.ofNat 32 (c.early.filter fun e => e.access && decide (c.curSlot < e.slot)).length

/-- SLSIG (R218). -/
def execSlsig (g : BitVec 4) (sc : BitVec 3) (l n : BitVec 6) (s : State) : Out :=
  ctlS g s fun s =>
    let send (s : State) : State :=
      let c := s.here
      match s.signal s.focus.toNat l.toNat (n.setWidth 16) (c.kc.set 0 c.accessesSoFar) (some 0) with
      | .ok t => t
      | .error f => s.fault f
    -- a signal that faults makes no release either (R387)
    match s.signal s.focus.toNat l.toNat (n.setWidth 16) {} (some 0) with
    | .error f => s.fault f
    | .ok _ => if n = 0 then s else s.release (s.here.sluiceScope l.toNat sc) send

/-- TLWAIT (R219). -/
def execTlwait (g : BitVec 4) (a : BitVec 6) (id : BitVec 8) (sc : BitVec 3) (s : State) : Out :=
  ctlS g s fun s =>
    let c := s.here
    let n := c.readS a
    if n.toNat ≤ (s.counter s.focus.toNat id.toNat).toNat then
      let k := c.kc
      let t := id.toNat + 1
      let k := if id.toNat < 4 then k.set t (max32 (k.get t) (n.setWidth 32)) else k
      s.setHere ({ c with kc := k }.acquire sc.toNat)
    else s.block .before

/-- Whether an action word is legal (R136, R385). -/
def actionOk (w : Nat) : Bool :=
  bitsOf w 51 48 == 0 &&
    match bitsOf w 63 60 with
    | 1 => decide (bitsOf w 37 32 < 48) && bitsOf w 31 16 == 0
    | 2 => bitsOf w 59 56 == 0 && bitsOf w 47 32 == 0
    | 3 => bitsOf w 47 0 == 0
    | 4 => bitsOf w 47 32 == 0
    | 5 => bitsOf w 59 56 == 0 && bitsOf w 47 16 == 0
    | _ => false

/-- TLARM (R135, R137, R220, R388). -/
def execTlarm (g : BitVec 4) (a b : BitVec 6) (id : BitVec 8) (s : State) : Out :=
  ctlS g s fun s =>
    let c := s.here
    let x := (c.ctx?.map BitVec.toNat).getD 0
    let k := s.focus.toNat
    let local' := decide (id.toNat < 4)
    let full := if local' then decide (16 ≤ c.arms.length) else decide (256 ≤ (s.ctx x).arms.length)
    if !actionOk (c.readS b).toNat then s.fault { code := 0x010D, synd := c.readS b, aux := 3 }
    else if full then s.fault { code := 0x0506, synd := id.setWidth 64 }
    else
      let arm : Arm := {
        counter := id.toNat, threshold := c.readS a, action := c.readS b, core := k
        kseq := (c.task.map Task.kseq).getD 0, queue := (c.task.map Task.queue).getD 0
        coords := (c.task.map Task.coords).getD [], line := c.line, slot := c.curSlot, order := (s.ctx x).armOrder }
      let s := s.setCtx x { s.ctx x with armOrder := (s.ctx x).armOrder + 1 }
      let reached := decide ((c.readS a).toNat ≤ (s.counter k id.toNat).toNat)
      if reached then
        let (s, more) := s.fire x arm
        s.advances x ((s.ctx x).arms.length + more.length + 1) more
      else if local' then s.mapHere fun c => { c with arms := c.arms ++ [arm] }
      else s.setCtx x { s.ctx x with arms := (s.ctx x).arms ++ [arm] }

/-- QRD (R131, R221). -/
def execQrd (g : BitVec 4) (d : BitVec 6) (q : BitVec 3) (s : State) : Out :=
  ctlS g s fun s =>
    let c := s.here
    if c.qReader q.toNat ≠ 0 then s.fault c.roleFault
    else if c.softHit 3 [q.toNat] then s.fault (softFault 3)
    else
      match c.queueReg q.toNat with
      | [] => s.block .before
      | v :: rest => s.setHere ((c.setQueueReg q.toNat rest).writeS d v)

/-- QWR (R131, R221). -/
def execQwr (g : BitVec 4) (q : BitVec 3) (b : BitVec 6) (s : State) : Out :=
  ctlS g s fun s =>
    let c := s.here
    if c.qWriter q.toNat ≠ 0 then s.fault c.roleFault
    else if 8 ≤ (c.queueReg q.toNat).length then s.block .before
    else s.setHere (c.setQueueReg q.toNat (c.queueReg q.toNat ++ [c.readS b]))

/-- WFE (R145, R222); in a bundle it reads the latch as it stood before it (R156). -/
def execWfe (g : BitVec 4) (d : BitVec 6) (s : State) : Out :=
  ctlS g s fun s =>
    let c := s.here
    let l := (c.snap.map Before.latch).getD c.latch
    if l = 0 then s.block .before
    else s.setHere ({ c with latch := 0 }.writeS d (l.setWidth 64))

/-- Bit `b` of the event latch set on a core whose running task belongs to context `x`; others are passed over
(R222). -/
def State.setEvent (s : State) (x b core : Nat) : State :=
  if (s.core core).runs x then s.setCore core ((s.core core).setLatch b) else s

/-- The cores that SEV names (R222). -/
def sevTargets (x : BitVec 2) (core : Nat) (a : Word) : List Nat :=
  match x with
  | 0 => [a.toNat % 256]
  | 1 => (List.range 64).map (· + core / 64 * 64)
  | _ => List.range 256

/-- SEV (R222). -/
def execSev (g : BitVec 4) (a : BitVec 6) (x : BitVec 2) (s : State) : Out :=
  ctlS g s fun s =>
    let c := s.here
    (sevTargets x s.focus.toNat (c.readS a)).foldl
      (fun s k => s.setEvent ((c.ctx?.map BitVec.toNat).getD 0) 0 k) s

end Sys2Proof.Machine
end

