-- ==== Sys2Proof/Machine/LoadStore.lean ====
section
/-!
DEFINITION. Loads, stores and atomics of the control stream (R94, R211 to R216, R391, R410, R444).
-/
namespace Sys2Proof.Machine

/-- The scratchpad offset of an address in the scratchpad window (R94). -/
def window? (va : Word) : Option Nat :=
  if 0x01FFFFFFFFC00000 ≤ va.toNat ∧ va.toNat ≤ 0x01FFFFFFFFFFFFFF then some (va.toNat % 2 ^ 22) else none

/-- Scratchpad bytes from an offset, wrapping at its end (R84). -/
def Core.spadRead (c : Core) (off n : Nat) : List Byte :=
  (List.range n).map fun k => Table.get 0 c.spad ((off + k) % 2 ^ 22)

/-- Scratchpad bytes written from an offset, wrapping at its end (R84). -/
def Core.spadWrite (c : Core) (off : Nat) : List Byte → Core
  | [] => c
  | b :: bs => Core.spadWrite { c with spad := Table.set 0 c.spad (off % 2 ^ 22) b } (off + 1) bs

/-- A control access to the scratchpad window: the next access number, checked by R71 (R68, R94). -/
def Core.controlAccess (c : Core) (off n : Nat) (write : Bool) : Except FaultInfo Core :=
  let k := c.accesses + 1
  let gs := blocksOf 1024 off n
  match c.checkStart 0 k (if write then [] else gs) (if write then gs else []) with
  | .error f => .error f
  | .ok c => .ok { c with accesses := k }

/-- A load's own dirty bytes placed over bytes that came past the cache (R117). -/
def Core.overlayDirty (c : Core) (gpa : Nat) : List Byte → List Byte
  | [] => []
  | b :: bs =>
    (match c.l1 gpa with | some o => if o.dirty then o.byte else b | none => b) :: Core.overlayDirty c (gpa + 1) bs

/-- The bytes of a home line with those of poisoned units left out. -/
def State.lineBytes (s : State) (la : Nat) : List (Option Byte) :=
  (List.range 4).flatMap fun u =>
    match s.poisonAt (la + 32 * u) 32 with
    | some _ => List.replicate 32 none
    | none => (s.bytesAt (la + 32 * u) 32).map some

/-- A load of a page held in the L1 data cache: a missing byte fetches its line, which fills what is not dirty
(R88). -/
def State.loadCached (s : State) (core : Nat) (a : Agent) (va : Word) (p : Page) (la n : Nat) :
    State × Except Halt (List Byte) :=
  if (s.core core).holds p.gpa n then (s, .ok ((s.core core).overlay p.gpa (List.replicate n 0)))
  else
    let base := la / 128 * 128
    let s := (s.roomL1 core p.gpa).touch p.lo base 128 (some (core / 64))
    let s := s.setCore core ((s.core core).fillL1 (p.gpa / 128 * 128) (s.lineBytes base))
    if (s.core core).holds p.gpa n then (s, .ok ((s.core core).overlay p.gpa (List.replicate n 0)))
    else
      match s.poisonAt la n with
      | some b => (s, .error (.fault (s.poisonFault a 0x0401 va b)))
      | none => (s, .error .wait)

/-- Whether a line's request was refused for poison in a granule that a load's own bytes do not touch (R410). -/
def Core.lineSpoilt (_c : Core) (a : Agent) (gpa n : Nat) : Bool :=
  a.got.any fun f => f.addr == gpa / 128 * 128 && f.len == 128 && match f.err with
    | some (code, aux) => code == 0x0401 && !(blocksOf 32 gpa n).contains (aux.toNat / 32)
    | none => false

/-- A load from a peer: from the L1 data cache when it holds every byte; else by a request, of the whole line for a page
held in the cache (R88, R91, R117). What reading a peer's cells raises comes with the answer (R32). A line of which another granule is poisoned is asked for the load's bytes alone. -/
def State.loadPeer (s : State) (core : Nat) (a : Agent) (va : Word) (p : Page) (dev n : Nat) :
    State × Except Halt (List Byte) :=
  let c := s.core core
  if cacheable p.lo && c.holds p.gpa n then (s, .ok (c.overlay p.gpa (List.replicate n 0)))
  else
    let (from', len) := if cacheable p.lo && !inControl p.gpa && !c.lineSpoilt a p.gpa n then (p.gpa / 128 * 128, 128) else (p.gpa, n)
    match a.received from' len va 0 with
    | some (.error h) => (s, .error h)
    | some (.ok bs) =>
      if cacheable p.lo && !inControl p.gpa then
        let s := s.roomL1 core p.gpa
        let c := (s.core core).fillL1 from' (bs.map some)
        (s.setCore core c, .ok (c.overlay p.gpa ((bs.drop (p.gpa - from')).take n)))
      else (s.raiseBy a (a.flagsOf from' len), .ok (c.overlayDirty p.gpa bs))
    | none =>
      if s.peerHeld (.stream core 0) from' (p.span len) false then (s, .error .wait)
      else (s, .error (.ask { s.request a 0 dev from' len p.lo [] with beside := { plain := true } } va))

/-- A load of `n` bytes by the acting control stream (R94, R107, R211, R403). -/
def State.load (s : State) (i : Instr) (va : Word) (n : Nat) : State × Except Halt (List Byte) :=
  let core := s.focus.toNat
  let c := s.here
  if va.toNat % n ≠ 0 then (s, .error (.fault { code := 0x0115, addr := va }))
  else
    match window? va with
    | some off =>
      match c.controlAccess off n false with
      | .error f => (s, .error (.fault f))
      | .ok c =>
        if c.softHit 1 (blocksOf 8 off n) then (s, .error (.fault (softFault 1)))
        else (s.setHere c, .ok (c.spadRead off n))
    | none =>
      let a := s.control core
      match s.translate a Need.read va (polderLoadCheck a va n (slotWord i)) with
      | (s, .error f) => (s, .error (.fault f))
      | (s, .ok p) =>
        let s := s.flushOver core p.gpa n
        match s.place p.gpa with
        | .regs off =>
          if n ≠ 8 then (s, .error (.fault { code := 0x0115, addr := va }))
          else
            match s.taskRegRead a.ctx off with
            | some (v, s) => (s, .ok (toBytes 8 v.toNat))
            | none => (s, .error (.violate va))
        | .mem la =>
          if cacheable p.lo then s.loadCached core a va p la n
          else
            match s.readPage a va p n with
            | (s, .ok bs) => (s, .ok (if p.params.isSome then bs else (s.core core).overlayDirty p.gpa bs))
            | r => r
        | .peer dev => s.loadPeer core a va p dev n
        | .unmapped => (s, .error (.fault (a.flt 0x0306 va)))

/-- Bytes held in a core's L1 data cache by a store, each as `b` but for its value (R88). -/
def Core.storeL1 (c : Core) (gpa : Nat) (b : L1Byte) : List Byte → Core
  | [] => c
  | v :: vs => Core.storeL1 (c.setL1 gpa (some { b with byte := v })) (gpa + 1) b vs

/-- The acting core's copies after a store that also goes to its home: valid and clean for write-through, gone for
streaming and for pages that bypass the cache (R92). -/
def Core.storeThrough (c : Core) (p : Page) (x : BitVec 6) (bs : List Byte) : Core :=
  if cacheable p.lo then c.storeL1 p.gpa { byte := 0, dirty := false, ctx := x, attr := carried p.lo } bs else c.dropRange p.gpa bs.length

/-- A write-back store: it allocates its line and marks its bytes valid and dirty (R88). -/
def State.storeBack (s : State) (p : Page) (x : BitVec 6) (bs : List Byte) : State :=
  (s.roomL1 s.focus.toNat p.gpa).mapHere fun c =>
    c.storeL1 p.gpa { byte := 0, dirty := true, ctx := x, attr := carried p.lo, stamp := s.now } bs

/-- Bytes merged into a combined granule from an offset. -/
def Combine.put (g : Combine) (off : Nat) : List Byte → Combine
  | [] => g
  | b :: bs => Combine.put { g with bytes := Table.set none g.bytes off (some b) } (off + 1) bs

/-- A streaming store: it joins the core's combined granule, or sends another one on and begins its own (R92). -/
def State.combine (s : State) (p : Page) (x : BitVec 6) (bs : List Byte) : State :=
  let g0 : Combine := { granule := p.gpa / 256, attr := carried p.lo, ctx := x }
  let same := match s.here.comb with
    | some g => g.granule == g0.granule && g.attr == g0.attr && g.ctx == x
    | none => true
  let s := if same then s else s.flushComb s.focus.toNat
  s.mapHere fun c => { c.dropRange p.gpa bs.length with
    comb := some { (c.comb.getD g0).put (p.gpa % 256) bs with stamp := s.now } }

/-- A store of bytes by the acting control stream, aligned already (R94, R211, R403). -/
def State.store (s : State) (i : Instr) (va : Word) (bs : List Byte) : State × Option Halt :=
  let core := s.focus.toNat
  let c := s.here
  let n := bs.length
  if va.toNat % n ≠ 0 then (s, some (.fault { code := 0x0115, addr := va }))
  else
    match window? va with
    | some off =>
      match c.controlAccess off n true with
      | .error f => (s, some (.fault f))
      | .ok c =>
        let words := blocksOf 8 off n
        -- a word written whole is mended; one that must be merged faults (R408)
        if n % 8 ≠ 0 ∧ c.softHit 1 words then (s, some (.fault (softFault 1)))
        else (s.setHere ((c.softMend 1 words).spadWrite off bs), none)
    | none =>
      let a := s.control core
      match s.translate a Need.write va (noPolder a va (slotWord i)) with
      | (s, .error f) => (s, some (.fault f))
      | (s, .ok p) =>
        let x := BitVec.ofNat 6 a.ctx
        let s := if attrWpol p.lo == 2 then s else s.flushOver core p.gpa n
        let back := cacheable p.lo && attrWpol p.lo == 0 && !inControl p.gpa
        let streams := attrWpol p.lo == 2 && !inControl p.gpa
        match s.place p.gpa with
        | .regs off =>
          match s.taskRegWrite a.ctx off (BitVec.ofNat 64 (ofBytes bs)) 7 (some core) with
          | some s => (s, none)
          | none => (s, some (.violate va))
        | .mem la =>
          if back then (s.storeBack p x bs, none)
          else if streams then (s.combine p x bs, none)
          else
            let s := if cacheable p.lo then s.roomL1 core p.gpa else s
            let s := s.homeWrite p.lo a.ctx la bs (if cacheable p.lo then some (core / 64) else none)
            (s.mapHere fun c => { c.storeThrough p x bs with posted := true }, none)
        | .peer dev =>
          if back then (s.storeBack p x bs, none)
          else if streams then
            if s.pendingOver (.stream core 0) (p.gpa / 256 * 256) 256 true then (s, some .wait) else (s.combine p x bs, none)
          else if s.peerHeld (.stream core 0) p.gpa n true then (s, some .wait)
          else
            let keeps := cacheable p.lo && !inControl p.gpa
            let s := if keeps then s.roomL1 core p.gpa else s
            let (s, tag) := s.send (.stream core 0) va { s.request a 1 dev p.gpa n p.lo bs with beside := { plain := true } }
            (s.mapHere fun c => { (if keeps then c.storeThrough p x bs else c) with postedTags := c.postedTags ++ [tag] }, none)
        | .unmapped => (s, some (.fault (a.flt 0x0306 va)))

/-- The shape of a load instruction: the bytes to s[d], then `after`. -/
def loadTo (i : Instr) (g : BitVec 4) (d : BitVec 6) (n : Nat) (ea : Core → Word) (after : Core → Core) (s : State) :
    Out :=
  ctlS g s fun s =>
    match s.load i (ea s.here) n with
    | (_, .error (.fault f)) => s.haltHere (.fault f)
    | (s, .error h) => s.haltHere h
    | (s, .ok bs) => s.mapHere fun c => after (c.writeS d (BitVec.ofNat 64 (ofBytes bs)))

/-- The shape of a plain store. -/
def storeFrom (i : Instr) (g : BitVec 4) (d : BitVec 6) (ea : Core → Word) (s : State) : Out :=
  ctlS g s fun s =>
    match s.store i (ea s.here) (toBytes 8 (s.here.readS d).toNat) with
    | (_, some (.fault f)) => s.haltHere (.fault f)
    | (s, some h) => s.haltHere h
    | (s, none) => s

/-- The shape of a releasing store: checked first, since a faulting store makes no release (R118, R419); its own store
leaves the L1 data cache at once for a scope of DIE or wider (log 10). -/
def storeRelease (i : Instr) (g : BitVec 4) (d : BitVec 6) (scope : Nat) (ea : Core → Word) (s : State) : Out :=
  ctlS g s fun s =>
    let v := toBytes 8 (s.here.readS d).toNat
    match s.store i (ea s.here) v with
    | (_, some h) => s.haltHere h
    | (_, none) =>
      s.release scope fun s =>
        match s.store i (ea s.here) v with
        | (_, some (.fault f)) => s.haltHere (.fault f)
        | (s, some h) => s.haltHere h
        | (s, none) => s.releaseBack s.focus.toNat scope

/-- The address of a CI access: s[a] plus the offset, whose low three bits are zero (R211). -/
def Core.ea5 (c : Core) (a : BitVec 6) (i : BitVec 5) : Word := c.readS a + (i ++ (0 : BitVec 3)).signExtend 64

/-- The address of a 64-bit CI access (R211). -/
def Core.ea29 (c : Core) (a : BitVec 6) (i : BitVec 29) : Word := c.readS a + (i ++ (0 : BitVec 3)).signExtend 64

/-- LD, 32-bit form (R211). -/
def execLd (g : BitVec 4) (d a : BitVec 6) (i : BitVec 5) (s : State) : Out :=
  loadTo (.ld g d a i) g d 8 (fun c => c.ea5 a i) (fun c => c) s
/-- LD, 64-bit form (R211). -/
def execLdImm32 (g : BitVec 4) (d a : BitVec 6) (i : BitVec 29) (s : State) : Out :=
  loadTo (.ldImm32 g d a i) g d 8 (fun c => c.ea29 a i) (fun c => c) s
/-- LDX (R212). -/
def execLdx (g : BitVec 4) (d a b : BitVec 6) (z : BitVec 2) (s : State) : Out :=
  loadTo (.ldx g d a b z) g d (2 ^ z.toNat) (fun c => c.readS a + c.readS b) (fun c => c) s
/-- ST, 32-bit form (R211). -/
def execSt (g : BitVec 4) (d a : BitVec 6) (i : BitVec 5) (s : State) : Out :=
  storeFrom (.st g d a i) g d (fun c => c.ea5 a i) s
/-- ST, 64-bit form (R211). -/
def execStImm32 (g : BitVec 4) (d a : BitVec 6) (i : BitVec 29) (s : State) : Out :=
  storeFrom (.stImm32 g d a i) g d (fun c => c.ea29 a i) s
/-- LDA, 32-bit form: the load, then an acquire (R119, R211). -/
def execLda (g : BitVec 4) (d a : BitVec 6) (i : BitVec 5) (sc : BitVec 3) (s : State) : Out :=
  loadTo (.lda g d a i sc) g d 8 (fun c => c.ea5 a i) (fun c => c.acquire sc.toNat) s
/-- LDA, 64-bit form (R119, R211). -/
def execLdaImm32 (g : BitVec 4) (d a : BitVec 6) (i : BitVec 29) (sc : BitVec 3) (s : State) : Out :=
  loadTo (.ldaImm32 g d a i sc) g d 8 (fun c => c.ea29 a i) (fun c => c.acquire sc.toNat) s
/-- STL, 32-bit form: a release, then its store (R118, R211). -/
def execStl (g : BitVec 4) (d a : BitVec 6) (i : BitVec 5) (sc : BitVec 3) (s : State) : Out :=
  storeRelease (.stl g d a i sc) g d sc.toNat (fun c => c.ea5 a i) s
/-- STL, 64-bit form (R118, R211). -/
def execStlImm32 (g : BitVec 4) (d a : BitVec 6) (i : BitVec 29) (sc : BitVec 3) (s : State) : Out :=
  storeRelease (.stlImm32 g d a i sc) g d sc.toNat (fun c => c.ea29 a i) s

/-! ## Atomics (R142, R143, R213 to R216) -/

/-- The operations of R214 on `n`-byte values. -/
def amoOp (opc n old v : Nat) : Nat :=
  let w := 8 * n
  let sgn (u : Nat) : Int := if 2 ^ (w - 1) ≤ u then (u : Int) - ((2 ^ w : Nat) : Int) else u
  match opc with
  | 0 => (old + v) % 2 ^ w
  | 1 => old &&& v
  | 2 => old ||| v
  | 3 => old ^^^ v
  | 4 => if sgn v < sgn old then v else old
  | 5 => if sgn old < sgn v then v else old
  | 6 => if v < old then v else old
  | 7 => if old < v then v else old
  | _ => v

/-- One indivisible read-modify-write at this device's home: the old value, or the poisoned unit (R143, R410). -/
def State.homeUpdate (s : State) (lo : Word) (x la n : Nat) (f : Nat → Nat) : State × Except Nat Nat :=
  match s.homeRead lo la n with
  | (s, .error b) => (s, .error b)
  | (s, .ok bs) => (s.homeRewrite lo x la (toBytes n (f (ofBytes bs))), .ok (ofBytes bs))

/-- One nibble of a byte replaced in memory that the home has touched, 1 the low and 2 the high; poison stays (R237,
R410). -/
def State.setNibble (s : State) (lo : Word) (x la nib v : Nat) : State :=
  let old := ((s.bytesAt la 1).headD 0).toNat
  let new := if nib = 1 then old / 16 * 16 + v % 16 else old % 16 + v / 16 % 16 * 16
  s.homeRewrite lo x la [BitVec.ofNat 8 new]

/-- One nibble of a byte written at the home. -/
def State.homeNibble (s : State) (lo : Word) (x la nib v : Nat) : State := (s.touch lo la 1).setNibble lo x la nib v

/-- A fault that a home reports of posted work: it names the instruction, and the unit stands (R381, R410). -/
def State.lateFault (s : State) (f : FaultInfo) : State :=
  (s.found f).mapHere fun c => c.faultAt { f with late := true, res := false, line := c.line, slot := c.curSlot }

/-- The body of an atomic packet (R331): the fields of R213, the operand and the CAS expected value. -/
def atomicBody (opc : BitVec 4) (sc : BitVec 3) (ord size : BitVec 2) (v e : Word) : List Byte :=
  toBytes 8 (opc.toNat * 2 ^ 28 + sc.toNat * 2 ^ 25 + ord.toNat * 2 ^ 23 + size.toNat * 2 ^ 21) ++
    toBytes 8 v.toNat ++ toBytes 8 e.toNat

/-- An integer atomic of the acting control stream: what it does at the home, and with the value that comes back
(R143, R213 to R215, R391, R403, R406, R419). `mark` says, beside its packet, whether a value comes back: 0 none, 1
the old value, 2 the old value of a CAS (log 20). -/
def State.atomic (s : State) (i : Instr) (ea : Word) (need : Need) (code : Option Nat) (sc : BitVec 3)
    (ord size : BitVec 2) (body : List Byte) (mark : BitVec 2) (f : Nat → Nat) (done : State → Nat → State) : State :=
  let core := s.focus.toNat
  let returns : Bool := mark != 0
  let n := 4 * 2 ^ size.toNat
  let c := s.here
  if ea.toNat % n ≠ 0 ∨ (window? ea).isSome then s.fault { code := 0x0115, addr := ea }
  else
    match code with
    | some k => s.fault { code := k, addr := ea }
    | none =>
      let a := s.control core
      match s.translate a need ea (noPolder a ea (slotWord i)) with
      | (t, .error f) => (t.found f).haltHere (.fault f)
      | (t, .ok p) =>
        let run (s : State) : State :=
          let s := s.flushRange core p.gpa n
          let fin (s : State) (old : Nat) : State :=
            let s := done s old
            if ord.getLsbD 0 then s.mapHere fun c => c.acquire sc.toNat else s
          match s.place p.gpa with
          | .mem la =>
            match s.homeUpdate p.lo a.ctx la n f with
            | (s', .error b) =>
              if returns then s.haltHere (.fault (s'.poisonFault a 0x0402 ea b))
              else s'.lateFault (s'.poisonFault a 0x0402 ea b)
            | (s, .ok old) => fin (s.mapHere fun c => { c with posted := c.posted || !returns }) old
          | .peer dev =>
            let pkt := { s.request a 2 dev p.gpa n p.lo body with len := 24, beside := { note := mark } }
            match a.received p.gpa 24 ea 2, c.held.any fun h => h.slot == c.curSlot with
            | some (.error h), _ => s.haltHere h
            | some (.ok bs), _ => fin s (ofBytes bs)
            | none, true => if returns then s.block .hold else s.postPeer ea pkt (ord.getLsbD 0) fun s => fin s 0
            | none, false =>
              if s.pendingOver (.stream core 0) p.gpa n true then s.block .hold
              else if returns then s.haltHere (.ask pkt ea)
              else s.postPeer ea pkt (ord.getLsbD 0) fun s => fin s 0
          | _ => s.fault { code := 0x0115, addr := ea }
        match t.place p.gpa with
        | .regs _ => s.fault { code := 0x0115, addr := ea }
        | _ => if ord.getLsbD 1 then t.release sc.toNat run else run t

/-- The low bytes of a register that an atomic's size takes (R214, R215). -/
def lowBytes (size : BitVec 2) (v : Word) : Nat := v.toNat % 2 ^ (32 * 2 ^ size.toNat)

/-- AMO (R213 to R215). -/
def execAmo (g : BitVec 4) (d a b : BitVec 6) (opc : BitVec 4) (sc : BitVec 3) (ord size : BitVec 2) (s : State) :
    Out :=
  ctlS g s fun s =>
    let c := s.here
    let v := c.readS b
    s.atomic (.amo g d a b opc sc ord size) (c.readS a) Need.atomic (if c.determinate then some 0x0601 else none) sc ord
      size (atomicBody opc sc ord size v 0) 1
      (fun old => amoOp opc.toNat (4 * 2 ^ size.toNat) old (lowBytes size v))
      (fun s old => s.mapHere fun c => c.writeS d (BitVec.ofNat 64 old))

/-- AMON (R213 to R215). -/
def execAmon (g : BitVec 4) (a b : BitVec 6) (opc : BitVec 4) (sc : BitVec 3) (ord size : BitVec 2) (s : State) : Out :=
  ctlS g s fun s =>
    let c := s.here
    let v := c.readS b
    s.atomic (.amon g a b opc sc ord size) (c.readS a) Need.add
      (if c.determinate && opc == 8 then some 0x0602 else none) sc ord size (atomicBody opc sc ord size v 0) 0
      (fun old => amoOp opc.toNat (4 * 2 ^ size.toNat) old (lowBytes size v)) (fun s _ => s)

/-- CAS (R213, R215). -/
def execCas (g : BitVec 4) (d a b : BitVec 6) (sc : BitVec 3) (ord size : BitVec 2) (s : State) : Out :=
  ctlS g s fun s =>
    let c := s.here
    let v := c.readS b
    let e := c.readS d
    s.atomic (.cas g d a b sc ord size) (c.readS a) Need.atomic (if c.determinate then some 0x0601 else none) sc ord size
      (atomicBody 0 sc ord size v e) 2
      (fun old => if old = lowBytes size e then lowBytes size v else old)
      (fun s old => s.mapHere fun c => c.writeS d (BitVec.ofNat 64 old))

/-- The check of CADD's page (R216, R403): alignment, and at D1 and D2 a polder page. -/
def caddCheck (c : Core) (va : Word) (ft : BitVec 4) (p : Page) : Option FaultInfo :=
  match p.params with
  | some q => if p.off % q.rs = 0 then none else some { code := 0x0115, addr := va }
  | none =>
    if va.toNat % (typeWidth ft.toNat / 8) ≠ 0 then some { code := 0x0115, addr := va }
    else if c.determinate then some { code := 0x0603, addr := va }
    else none

/-- The value of an FT addend (R216). -/
def addend (ft v : Nat) : Fp := match typeFmt ft with | some f => decodeFp f v | none => .fin false 0 0

/-- The floating-point add of an ordinary page: the same format, rounded to nearest even, no flags (R216). -/
def fpAddRaw (ft old v : Nat) : Nat :=
  match typeFmt ft with
  | some f => ((exactAdd .rne (decodeFp f old) (decodeFp f v)).round f .rne false).1
  | none => old

/-- The use of a cell noted for the hot-page tracker at its current copy, with the region of its page there (R112). -/
def State.cellUsed (s : State) (page : Page) (q : CellParams) (la : Nat) : State :=
  let at' := s.memr.resolve la
  let region := (page.frame % 2 ^ 51 + at' - la, frameBytes page.size * q.size / q.rs)
  { s with memr := { s.memr with cellsUsed := Table.set (0, 0) s.memr.cellsUsed at' region } }

/-- One add at a cell or an ordinary element of this device's home (R47, R48, R216): a cell's use is noted for
R112. -/
def State.homeAdd (s : State) (page : Page) (x la ft v : Nat) : State × Except Nat Unit :=
  match page.params with
  | some q =>
    match s.homeUpdate page.lo x la q.size (fun raw => cellAdd q raw (addend ft v)) with
    | (s, .error b) => (s, .error b)
    | (s, .ok _) => (s.cellUsed page q la, .ok ())
  | none =>
    match s.homeUpdate page.lo x la (typeWidth ft / 8) (fun old => fpAddRaw ft old v) with
    | (s, .error b) => (s, .error b)
    | (s, .ok _) => (s, .ok ())

/-- CADD (R213, R216, R391, R403, R410). -/
def execCadd (g : BitVec 4) (a b : BitVec 6) (sc : BitVec 3) (ord : BitVec 2) (ft : BitVec 4) (s : State) : Out :=
  ctlS g s fun s =>
    let core := s.focus.toNat
    let c := s.here
    let ea := c.readS a
    let v := (c.readS b).toNat % 2 ^ typeWidth ft.toNat
    if (window? ea).isSome then s.fault { code := 0x0115, addr := ea }
    else
      let ag := s.control core
      match s.translate ag Need.add ea (caddCheck c ea ft) with
      | (t, .error f) => (t.found f).haltHere (.fault f)
      | (t, .ok p) =>
        let n := match p.params with | some q => q.size | none => typeWidth ft.toNat / 8
        let run (s : State) : State :=
          let s := s.flushRange core p.gpa n
          let fin (s : State) : State := if ord.getLsbD 0 then s.mapHere fun c => c.acquire sc.toNat else s
          match s.place p.gpa with
          | .mem la =>
            match s.homeAdd p ag.ctx la ft.toNat v with
            | (s, .error b) => s.lateFault (s.poisonFault ag 0x0402 ea b)
            | (s, .ok _) => fin (s.mapHere fun c => { c with posted := true })
          | .peer dev =>
            if s.here.issued.isNone && s.pendingOver (.stream core 0) p.gpa n true then s.block .hold
            else
              let pkt := { s.request ag 3 dev p.gpa (typeWidth ft.toNat / 8) p.lo (toBytes (typeWidth ft.toNat / 8) v)
                with etype := ft, beside := p.mark }
              s.postPeer ea pkt (ord.getLsbD 0) fin
          | _ => s
        match t.place p.gpa with
        | .regs _ => s.fault { code := 0x0115, addr := ea }
        | _ => if ord.getLsbD 1 then t.release sc.toNat run else run t

end Sys2Proof.Machine
end

