-- ==== Sys2Proof/Machine/Operands.lean ====
section
/-!
DEFINITION. The operand forms of engine commands: scratchpad descriptors with their hulls, coordinate pairs, tile
words, tensor records and layoutMap, and the conversion of elements (R85 to R87, R102 to R105, R232 to R235).
-/
namespace Sys2Proof.Machine

/-- The fault of an invalid operand word: the word and its operand field (R373, R385). -/
def badWord (w : Word) (field : Nat) : FaultInfo := { code := 0x010D, synd := w, aux := BitVec.ofNat 64 field }

/-- The first fault of a list of checks. -/
def firstFault : List (Option FaultInfo) → Option FaultInfo
  | [] => none
  | some f :: _ => some f
  | none :: fs => firstFault fs

/-- A fault when a condition holds. -/
def faultIf (b : Bool) (f : FaultInfo) : Option FaultInfo := if b then some f else none

/-! ## Scratchpad descriptors (R85 to R87) -/

/-- A scratchpad descriptor (R85). -/
structure Desc where
  base : Nat
  rpitch : Nat
  rot : Nat
  tpitch : Nat
  deriving DecidableEq, Repr

/-- The descriptor that two words hold (R85). -/
def Desc.of (w0 w1 : Word) : Desc :=
  { base := bitsOf w0.toNat 21 0, rpitch := bitsOf w0.toNat 53 32, rot := bitsOf w0.toNat 25 22
    tpitch := bitsOf w1.toNat 21 0 }

/-- The offset of byte `xb` of row `i` of tile `t` (R86). -/
def Desc.offset (d : Desc) (t i xb : Nat) : Nat :=
  let a := (d.base + t * d.tpitch + i * d.rpitch + xb) % 2 ^ 22
  if d.rot = 0 then a
  else
    let w := a / 64
    let lw := (w + i) % 2 ^ d.rot
    w / 2 ^ d.rot * 2 ^ (d.rot + 6) % 2 ^ 22 + lw * 64 + a % 64

/-- The checks of a descriptor's own words, of operand field `field` (R85, R385): must-be-zero bits, reserved rotation
codes, and with rotation the multiples of R86. -/
def descCheck (field : Nat) (w0 w1 : Word) : Option FaultInfo :=
  let d := Desc.of w0 w1
  let grp := 64 * 2 ^ d.rot
  firstFault [
    faultIf (bitsOf w0.toNat 63 54 != 0 || bitsOf w0.toNat 31 26 != 0 || decide (6 < d.rot)) (badWord w0 field),
    faultIf (bitsOf w1.toNat 63 22 != 0) (badWord w1 field),
    faultIf (d.rot != 0 && (d.base % grp != 0 || d.rpitch % grp != 0)) (badWord w0 field),
    faultIf (d.rot != 0 && d.tpitch % grp != 0) (badWord w1 field)]

/-- The length conditions of a rotated descriptor (R86, R385): rows of `len` bytes, `rows` rows, `tiles` tiles. -/
def descLengths (field : Nat) (w0 w1 : Word) (tiles rows len : Nat) : Option FaultInfo :=
  let d := Desc.of w0 w1
  firstFault [
    faultIf (d.rot != 0 && decide (d.rpitch < len)) (badWord w0 field),
    faultIf (d.rot != 0 && decide (1 < tiles) && decide (d.tpitch < rows * d.rpitch)) (badWord w1 field)]

/-- The checker granules of one row of `len` bytes (R87). -/
def Desc.rowGranules (d : Desc) (t i len : Nat) : List Nat :=
  let a := (d.base + t * d.tpitch + i * d.rpitch) % 2 ^ 22
  let spans : List Nat :=
    if d.rot = 0 then blocksOf 1024 a len
    else
      let grp := 64 * 2 ^ d.rot
      (blocksOf grp a len).flatMap fun b => blocksOf 1024 (b * grp) grp
  spans.map (· % 4096)

/-- The descriptor hull of an operand (R87). -/
def Desc.hull (d : Desc) (tiles rows len : Nat) : List Nat :=
  if len = 0 then []
  else ((List.range tiles).flatMap fun t => (List.range rows).flatMap fun i => d.rowGranules t i len).eraseDups

/-- Bytes of a row of `n` elements of `b` bits. -/
def rowBytes (n b : Nat) : Nat := (n * b + 7) / 8

/-- One scratchpad element of `b` bits (R86, R23). -/
def Core.element (c : Core) (d : Desc) (t i j b : Nat) : Nat :=
  if b = 4 then (Table.get 0 c.spad (d.offset t i (j / 2))).toNat / 16 ^ (j % 2) % 16
  else ofBytes ((List.range (b / 8)).map fun k => Table.get 0 c.spad (d.offset t i (j * b / 8 + k)))

/-- One scratchpad element written (R86, R23). -/
def Core.setElement (c : Core) (d : Desc) (t i j b v : Nat) : Core :=
  if b = 4 then
    let o := d.offset t i (j / 2)
    let old := (Table.get 0 c.spad o).toNat
    let new := if j % 2 = 0 then old / 16 * 16 + v % 16 else old % 16 + v % 16 * 16
    { c with spad := Table.set 0 c.spad o (BitVec.ofNat 8 new) }
  else
    let m := ((toBytes (b / 8) v).zip (List.range (b / 8))).foldl
      (fun m e => Table.set 0 m (d.offset t i (j * b / 8 + e.2)) e.1) c.spad
    { c with spad := m }

/-- Elements of a row, each a column, a width and a value, written in order. -/
def Core.setElements (c : Core) (d : Desc) (t i : Nat) (es : List (Nat × Nat × Nat)) : Core :=
  es.foldl (fun c e => c.setElement d t i e.1 e.2.1 e.2.2) c

/-- The values of a row as its elements of `b` bits. -/
def rowElements (b : Nat) (vs : List Nat) : List (Nat × Nat × Nat) := vs.zipIdx.map fun e => (e.2, b, e.1)

/-- The elements of a row written in order. -/
def Core.setRow (c : Core) (d : Desc) (t i b : Nat) (vs : List Nat) : Core := c.setElements d t i (rowElements b vs)

/-- The elements of a row. -/
def Core.row (c : Core) (d : Desc) (t i n b : Nat) : List Nat := (List.range n).map fun j => c.element d t i j b

/-- The 8-byte scratchpad words that a row's bytes lie in, for the soft errors of R408. -/
def Desc.rowWords (d : Desc) (t i len : Nat) : List Nat := (List.range len).map fun k => d.offset t i k / 8

/-! ## Coordinates and tile words (R232, R233) -/

/-- A coordinate pair: X0 to X3, signed (R232). -/
def coordsOf (w0 w1 : Word) : List Int :=
  [(w0.setWidth 32 : BitVec 32).toInt, ((w0 >>> 32).setWidth 32 : BitVec 32).toInt,
    (w1.setWidth 32 : BitVec 32).toInt, ((w1 >>> 32).setWidth 32 : BitVec 32).toInt]

/-- A tile word (R232). -/
structure TileWord where
  handle : Nat
  rows : Nat
  cols : Nat
  depth : Nat
  si : Nat
  sj : Nat
  deriving DecidableEq, Repr

/-- The fields of a tile word; the forms without steps take depth 1 and steps 1 (R233). -/
def TileWord.of (ext : Bool) (w : Word) : TileWord :=
  let v := w.toNat
  { handle := bitsOf v 11 0, rows := bitsOf v 23 12, cols := bitsOf v 35 24
    depth := if ext then bitsOf v 43 36 else 1
    si := if ext then bitsOf v 51 44 else 1, sj := if ext then bitsOf v 59 52 else 1 }

/-- The check of a tile word in operand field `field` (R232, R385). -/
def tileCheck (field : Nat) (ext : Bool) (w : Word) : Option FaultInfo :=
  faultIf (bitsOf w.toNat 63 60 != 0 || (!ext && bitsOf w.toNat 59 36 != 0)) (badWord w field)

/-- A computed coordinate; one outside sint(32) is outside every tensor, as −1 is (R233). -/
def inSint (x : Int) : Int := if -2147483648 ≤ x ∧ x ≤ 2147483647 then x else -1

/-- The coordinates of tile element (t, i, j) (R233). -/
def tileCoord (c : List Int) (tw : TileWord) (xp : Bool) (t i j : Nat) : List Int :=
  let x (k : Nat) : Int := nthD 0 c k
  let a : Int := (j * tw.sj : Nat)
  let b : Int := (i * tw.si : Nat)
  [inSint (x 0 + (if xp then b else a)), inSint (x 1 + (if xp then a else b)), inSint (x 2 + (t : Int)), x 3]

/-! ## Tensor records (R102, R103, R105) -/

/-- A pool record as a number, from its 64 bytes. -/
abbrev PoolRec := Nat

def rKind (r : PoolRec) : Nat := bitsOf r 511 508
def rEtype (r : PoolRec) : Nat := bitsOf r 507 504
def rLayout (r : PoolRec) : Nat := bitsOf r 503 501
def rRank (r : PoolRec) : Nat := bitsOf r 500 498
def rIsScale (r : PoolRec) : Bool := decide (bitsOf r 412 412 = 1)
def rScale (r : PoolRec) : Nat := bitsOf r 411 400
def rPad (r : PoolRec) : Nat := bitsOf r 399 336
def rBase (r : PoolRec) : Nat := bitsOf r 63 0
/-- SIZE of a dimension; 1 at or above RANK (R102). -/
def rSize (r : PoolRec) (k : Nat) : Nat := if rRank r ≤ k then 1 else bitsOf r (95 + 32 * k) (64 + 32 * k)
/-- STRIDE1 to STRIDE3 in bytes (R102). -/
def rStride (r : PoolRec) (k : Nat) : Nat := bitsOf r (239 + 48 * (k - 1)) (192 + 48 * (k - 1))

/-- Element width of a record in bits. -/
def rWidth (r : PoolRec) : Nat := typeWidth (rEtype r)

/-- Whether a LAYOUT accepts an element type (R103). -/
def layoutAccepts (layout t : Nat) : Bool :=
  match layout with
  | 3 => decide (t ∈ [2, 3, 4, 5, 6, 7])
  | 4 => decide (t ∈ [4, 5, 6])
  | _ => true

/-- Whether a record is a valid tensor record by its own bits (R102, R103, R385). -/
def tensorOk (r : PoolRec) : Bool :=
  rKind r == 1 && rEtype r != 15 && decide (rLayout r ≤ 4) && decide (1 ≤ rRank r) && decide (rRank r ≤ 4) &&
    bitsOf r 497 413 == 0 && layoutAccepts (rLayout r) (rEtype r)

/-- Whether a record is a valid scale record of an element record (R105). -/
def scaleOk (e r : PoolRec) : Bool :=
  tensorOk r && rIsScale r && rEtype r == 11 && rLayout r == 0 && rSize r 0 == (rSize e 0 + 31) / 32 &&
    rSize r 1 == (rSize e 1 + 31) / 32 && rSize r 2 == rSize e 2 && rSize r 3 == rSize e 3

/-- The fault of an invalid pool record (R373). -/
def badRecord (handle : Nat) (r : PoolRec) : FaultInfo :=
  { code := 0x010E, synd := BitVec.ofNat 64 handle, aux := BitVec.ofNat 64 (r / 2 ^ 448) }

/-- layoutMap of R103: the byte address, the bit within it, and whether the element is inside. Coordinates at or above
RANK count as 0 (R102). -/
def layoutMap (r : PoolRec) (x : List Int) : Nat × Nat × Bool :=
  let xi (k : Nat) : Int := if rRank r ≤ k then 0 else nthD 0 x k
  if (List.range 4).any fun k => decide (xi k < 0) || decide ((rSize r k : Int) ≤ xi k) then (0, 0, false)
  else
    let c (k : Nat) : Nat := (xi k).toNat
    let b := rWidth r
    let st (k : Nat) : Int := (BitVec.ofNat 48 (rStride r k)).toNat
    let outer : Int := (c 2 : Int) * st 2 + (c 3 : Int) * st 3
    let n0 := (rSize r 0 + 127) / 128
    let o : Nat :=
      match rLayout r with
      | 0 => c 0 * b + 8 * (c 1 * rStride r 1)
      | 1 => c 1 * b + 8 * (c 0 * rStride r 1)
      | 2 => (c 1 / 128 * n0 + c 0 / 128) * (16384 * b) + (c 1 % 128 * 128 + c 0 % 128) * b
      | 3 =>
        let p := 16 / b
        (c 1 / (128 * p) * n0 + c 0 / 128) * 262144 + 16 * (128 * (c 1 % (128 * p) / p) + c 0 % 128) + b * (c 1 % p)
      | _ => (c 1 / 32 * ((rSize r 0 + 31) / 32) + c 0 / 32) * (1024 * b) + (c 1 % 32 * 32 + c 0 % 32) * b
    (((rBase r : Int) + outer + (o / 8 : Nat)).toNat % 2 ^ 64, o % 8, true)

/-- A pool record of the issuing kernel read for a command (R53, R385). -/
def State.poolRecord (s : State) (a : Agent) (k : BitVec 1024) (h : Nat) : State × Except Halt PoolRec :=
  if kPoolCnt k ≤ h then (s, .error (.fault (badRecord h 0)))
  else
    match s.readBytes a (kPoolAddr k + BitVec.ofNat 64 (64 * h)) 64 with
    | (s, .ok bs) => (s, .ok (ofBytes bs))
    | (s, .error e) => (s, .error e)

/-- A tensor record with the scale record of its MX pair (R105). -/
structure Tensor where
  desc : PoolRec
  scale : Option PoolRec := none
  deriving DecidableEq, Repr

/-- A command's tensor record, checked with its pair (R102 to R105, R385). -/
def State.tensor (s : State) (a : Agent) (k : BitVec 1024) (h : Nat) : State × Except Halt Tensor :=
  match s.poolRecord a k h with
  | (s, .error e) => (s, .error e)
  | (s, .ok r) =>
    if !tensorOk r then (s, .error (.fault (badRecord h r)))
    else if rLayout r = 4 then
      match s.poolRecord a k (rScale r) with
      | (s, .error e) => (s, .error e)
      | (s, .ok q) =>
        if scaleOk r q then (s, .ok { desc := r, scale := some q }) else (s, .error (.fault (badRecord h r)))
    else (s, .ok { desc := r })

/-! ## Elements in memory -/

/-- Elements of a row joined into runs of consecutive bytes: the runs, and each element's place in the joined bytes with
its bit; none for an element outside (R103, R104). `acc` holds the runs in reverse and the bytes so far. -/
def joinRuns (b : Nat) : List (Nat × Nat × Bool) → List (Nat × Nat) → Nat → List (Nat × Nat) × List (Option (Nat × Nat))
  | [], runs, _ => (runs.reverse, [])
  | (addr, bit, inside) :: es, runs, n =>
    if !inside then
      let (rs, ps) := joinRuns b es runs n
      (rs, none :: ps)
    else
      let len := (b + 7) / 8
      match runs with
      | (start, k) :: more =>
        if b = 4 ∧ addr + 1 = start + k then
          let (rs, ps) := joinRuns b es runs n
          (rs, some (n - 1, bit) :: ps)
        else if addr = start + k then
          let (rs, ps) := joinRuns b es ((start, k + len) :: more) (n + len)
          (rs, some (n, bit) :: ps)
        else
          let (rs, ps) := joinRuns b es ((addr, len) :: runs) (n + len)
          (rs, some (n, bit) :: ps)
      | [] =>
        let (rs, ps) := joinRuns b es [(addr, len)] (n + len)
        (rs, some (n, bit) :: ps)

/-- An element's value in joined bytes. -/
def joinedValue (b : Nat) (bs : List Byte) (place : Nat × Nat) : Nat :=
  ofBytes ((bs.drop place.1).take ((b + 7) / 8)) / 2 ^ place.2 % 2 ^ b

/-- The bytes of several runs, read in order. -/
def State.readRuns (s : State) (a : Agent) (need : Need) (rule : Word → Nat → Page → Option FaultInfo)
    (runs : List (Nat × Nat)) : State × Except Halt (List Byte) :=
  runs.foldl (fun acc r =>
    match acc with
    | (s, .error h) => (s, .error h)
    | (s, .ok bs) =>
      match s.readSpan a need (BitVec.ofNat 64 r.1) r.2 rule with
      | (s, .ok more) => (s, .ok (bs ++ more))
      | (s, .error h) => (s, .error h)) (s, .ok [])

/-- The rule of a tensor read's page: a polder page's read format is the record's type, and whole elements are read
(R107, R385, R406). -/
def tensorReadRule (a : Agent) (h : Nat) (r : PoolRec) (w : Word) (va : Word) (n : Nat) (p : Page) : Option FaultInfo :=
  match p.params with
  | some q => if q.rtype ≠ rEtype r then some (badRecord h r) else polderLoadCheck a va n w p
  | none => none

/-- One row of a tensor read: each element's bits, PAD outside (R104). -/
def State.readRow (s : State) (a : Agent) (h : Nat) (r : PoolRec) (w : Word) (xs : List (List Int)) :
    State × Except Halt (List Nat) :=
  let b := rWidth r
  let (runs, places) := joinRuns b (xs.map (layoutMap r)) [] 0
  match s.readRuns a Need.read (tensorReadRule a h r w) runs with
  | (s, .error e) => (s, .error e)
  | (s, .ok bs) =>
    (s, .ok (places.map fun p => match p with | some p => joinedValue b bs p | none => rPad r % 2 ^ b))

/-- The start's check that no polder page under an inside element is described by a record of another type than its
read format; a refused walk is left to its row (R107, R385). -/
def State.pageTypes (s : State) (a : Agent) (h : Nat) (r : PoolRec) (xs : List (List Int)) : Option FaultInfo :=
  let inside := (xs.map (layoutMap r)).filter fun e => e.2.2
  ((inside.map fun e => e.1 / 2 ^ 16).eraseDups).findSome? fun pg =>
    match (s.translate { a with sup := true } { acc := 0 } (BitVec.ofNat 64 (pg * 2 ^ 16)) fun _ => none).2 with
    | .ok p => (p.params.bind fun q => if q.rtype ≠ rEtype r then some (badRecord h r) else none)
    | .error _ => none

/-- The coordinates of an element's scale: R28 leaves the pairing of the records to R105, which states them. R28's flattened
row index names the same block where SIZE1 is a multiple of 32, and none of R105's scale record else (log 73). -/
def scaleCoord (x : List Int) : List Int :=
  [(nthD 0 x 0).fdiv 32, (nthD 0 x 1).fdiv 32, nthD 0 x 2, nthD 0 x 3]

/-- An element's value scaled by an E8M0 code (R28). A NaN scale takes the place of the element before it is delivered, so a
signalling element under it raises nothing (DESIGN CHOICE, log 93). -/
def scaleFp (x : Fp) (code : Nat) : Fp :=
  if code = 255 then .nan .canonical false false
  else
    match x with
    | .nan _ n q => .nan .canonical n q
    | .inf n => .inf n
    | .fin n m e => .fin n m (e + (code : Int) - 127)

/-- A value delivered in a type (R33, R235). -/
def deliver (x : Fp) (t : Nat) (mode : Round) (sat : Bool) : Nat × Flags :=
  match typeFmt t with
  | some f => roundToFormat x f mode sat
  | none => fpToInt x t mode

/-- The conversion fields of EXT (R235). -/
structure Conv where
  stype : Nat
  sat : Bool
  mode : Round
  deriving DecidableEq, Repr

/-- The conversion of a command, none with CONV = 0. -/
def Conv.of (e : Ex) : Option Conv :=
  if e.x.getLsbD 0 then
    some { stype := bitsOf e.ext.toNat 7 4, sat := e.ext.getLsbD 3, mode := Round.of (bitsOf e.ext.toNat 2 0) }
  else none

/-- The rounding codes 4 to 7 of CONV (R235, R385): not permitted. -/
def convCheck (i : Instr) (e : Ex) : Option FaultInfo :=
  faultIf (e.x.getLsbD 0 && decide (4 ≤ bitsOf e.ext.toNat 2 0)) { code := 0x0113, synd := slotWord i, aux := slotCont i }

/-- Flags joined. -/
def joinFlags (vs : List (Nat × Flags)) : List Nat × Flags :=
  (vs.map Prod.fst, vs.foldl (fun f v => f ||| v.2) 0)

/-- One row of a loading command's values for the scratchpad (R235, R237). -/
def State.loadRow (s : State) (a : Agent) (h : Nat) (t : Tensor) (w : Word) (cv : Option Conv) (xs : List (List Int)) :
    State × Except Halt (List Nat × Flags) :=
  match s.readRow a h t.desc w xs with
  | (s, .error e) => (s, .error e)
  | (s, .ok vs) =>
    match cv with
    | none => (s, .ok (vs, 0))
    | some k =>
      match t.scale with
      | none => (s, .ok (joinFlags (vs.map fun v => convertType (rEtype t.desc) k.stype v k.mode k.sat)))
      | some q =>
        match s.readRow a (rScale t.desc) q w (xs.map scaleCoord) with
        | (s, .error e) => (s, .error e)
        | (s, .ok cs) =>
          (s, .ok (joinFlags ((vs.zip cs).map fun v =>
            match typeFmt (rEtype t.desc) with
            | some f => deliver (scaleFp (decodeFp f v.1) v.2) k.stype k.mode k.sat
            | none => (v.1, 0))))

/-! ## Writes of tensor rows -/

/-- A row's elements as writes: whole bytes in runs, and single nibbles of E2M1 (R237): address, bytes and nibble
(0 whole, 1 low, 2 high). -/
def rowWrites (b : Nat) : List ((Nat × Nat × Bool) × Nat) → List (Nat × List Byte × Nat) → List (Nat × List Byte × Nat)
  | [], acc => acc.reverse
  | ((addr, bit, inside), v) :: es, acc =>
    if !inside then rowWrites b es acc
    else if b = 4 then
      match acc with
      | (a0, [x], nib) :: more =>
        if a0 = addr ∧ nib = 1 ∧ bit = 4 then
          rowWrites b es ((addr, [BitVec.ofNat 8 (x.toNat % 16 + 16 * v)], 0) :: more)
        else rowWrites b es ((addr, [BitVec.ofNat 8 (v * 2 ^ bit)], if bit = 0 then 1 else 2) :: acc)
      | _ => rowWrites b es ((addr, [BitVec.ofNat 8 (v * 2 ^ bit)], if bit = 0 then 1 else 2) :: acc)
    else
      let bs := toBytes (b / 8) v
      match acc with
      | (a0, xs, 0) :: more =>
        if a0 + xs.length = addr then rowWrites b es ((a0, xs ++ bs, 0) :: more)
        else rowWrites b es ((addr, bs, 0) :: acc)
      | _ => rowWrites b es ((addr, bs, 0) :: acc)

/-- Consecutive writes of whole bytes joined. -/
def joinWrites : List (Nat × List Byte × Nat) → List (Nat × List Byte × Nat)
  | [] => []
  | (a, xs, nib) :: rest =>
    match nib, joinWrites rest with
    | 0, (b, ys, 0) :: more => if a + xs.length = b then (a, xs ++ ys, 0) :: more else (a, xs, 0) :: (b, ys, 0) :: more
    | _, more => (a, xs, nib) :: more

/-- A row's writes translated and checked, none made (R382): the rule refuses polder pages (R406). -/
def State.planRow (s : State) (a : Agent) (w : Word) (ws : List (Nat × List Byte × Nat)) :
    State × Except FaultInfo (List (Put × Nat)) :=
  ws.foldl (fun acc x =>
    match acc with
    | (s, .error f) => (s, .error f)
    | (s, .ok ps) =>
      match s.planWrite a Need.write (BitVec.ofNat 64 x.1) (x.2.1.map some) (fun v _ p => noPolder a v w p) with
      | (s, .error f) => (s, .error f)
      | (s, .ok more) => (s, .ok (ps ++ more.map fun p => (p, x.2.2)))) (s, .ok [])

/-- Whether a stream has unanswered packets over a row's peer writes (R117). -/
def State.rowPending (s : State) (j : Job) (ps : List (Put × Nat)) : Bool :=
  ps.any fun p => s.pendingOver (.stream j.core (j.eng + 1)) p.1.gpa p.1.bytes.length true

/-! ## Rows and starts -/

/-- The rows of a command from one of them on: each whole or not at all (R382); the writes of a row that overlap at a
peer go one after another's answer, and those sent stand (R234). -/
def rowLoop (f : Nat → State → State × Option Halt) : Nat → Nat → State → State × RunEnd
  | 0, _, s => (s, .done)
  | k + 1, r, s =>
    match f r s with
    | (t, none) => rowLoop f k (r + 1) t
    | (t, some .sent) => (t, .halt r .wait)
    | (_, some (.fault g)) => (s, .fault (some r) g)
    | (_, some h) => (s, .halt r h)

/-- The rows of a weave command that runs long: while a pre-emption request waits at its core it goes row by row, so that a
stop meets it at a restart point (R74, R290). -/
def weaveRows (j : Job) (f : Nat → State → State × Option Halt) (n r : Nat) (s : State) : State × RunEnd :=
  if (s.core j.core).preemptAt.isSome ∧ 1 < n then
    match rowLoop f 1 r s with
    | (t, .done) => (t, .halt (r + 1) .wait)
    | o => o
  else rowLoop f n r s

/-- How a halt before a command's first effect ends it. -/
def startHalt (j : Job) : Halt → RunEnd
  | .fault f => if j.phase = 0 then .fault none f else .fault (some j.row) f
  | h => .halt j.row h

/-- The ordering check of a command's start, once, and the mark that it has begun (R71, R393). -/
def State.begin (s : State) (j : Job) (reads writes : List Nat) : Except FaultInfo State :=
  if j.phase ≠ 0 then .ok s
  else
    match (s.core j.core).checkStart (j.eng + 1) j.q.num reads writes with
    | .error f => .error f
    | .ok c => .ok ((s.setCore j.core c).mapStarted j.core j.eng fun t => { t with phase := 1 })

/-- Captured operand `k` of a command (R157): 0 and 1 of field 1, 2 and 3 of field 2, 4 and 5 of field 3, 6 of EXT. -/
def Job.op (j : Job) (k : Nat) : Word := nthD 0 j.q.ops k

/-- The kernel record of a command's task. -/
def State.jobKernel (s : State) (j : Job) : BitVec 1024 := (s.core j.core).kernel

/-- The EX fields of a command. -/
def Job.ex (j : Job) : Ex := (j.q.instr.ex?).getD ⟨0, 0, 0, 0, 0, 0, 0, 0, 0, 0⟩

/-- The fault of an uncorrectable scratchpad word among those a row reads (R408). -/
def State.spadSoft (s : State) (j : Job) (d : Desc) (t i len : Nat) : Option Halt :=
  let c := s.core j.core
  if c.soft.isEmpty then none
  else if c.softHit 1 (d.rowWords t i len) then some (.fault (softFault 1)) else none

/-- The bytes of a row that its element `e`, a column and a width, lies in. -/
def elementBytes (e : Nat × Nat) : List Nat :=
  if e.2 = 4 then [e.1 / 2] else (List.range (e.2 / 8)).map fun k => e.1 * e.2 / 8 + k

/-- Whether some elements of a row, columns and widths, write the whole of its byte `k`: a byte of nibbles takes two. -/
def writesByte (es : List (Nat × Nat)) (k : Nat) : Bool :=
  (es.any fun e => e.2 != 4 && (elementBytes e).contains k) || (es.contains (2 * k, 4) && es.contains (2 * k + 1, 4))

/-- Elements of a row, each a column, a width and a value, written to the scratchpad in order: a word with an
uncorrectable error is mended when all of it is written, faults when it must be merged, and is not looked at when nothing
of it is written (R86, R408). -/
def State.spadPut (s : State) (j : Job) (d : Desc) (t i : Nat) (es : List (Nat × Nat × Nat)) : Except Halt State :=
  let c := s.core j.core
  let put (c : Core) : State := s.setCore j.core (c.setElements d t i es)
  if c.soft.isEmpty then .ok (put c)
  else
    let at' := es.map fun e => (e.1, e.2.1)
    let bytes := (at'.flatMap elementBytes).eraseDups
    let whole := (bytes.filter (writesByte at')).map fun k => d.offset t i k
    let hit := ((bytes.map fun k => d.offset t i k / 8).filter fun w => c.softHit 1 [w]).eraseDups
    if hit.all fun w => (List.range 8).all fun k => whole.contains (8 * w + k) then .ok (put (c.softMend 1 hit))
    else .error (.fault (softFault 1))

/-- The elements of a row written to the scratchpad (R86, R408). -/
def State.spadStore (s : State) (j : Job) (d : Desc) (t i b : Nat) (vs : List Nat) : Except Halt State :=
  s.spadPut j d t i (rowElements b vs)

end Sys2Proof.Machine
end

