-- ==== Sys2Proof/Machine/Copy.lean ====
section
/-!
DEFINITION. The copy stream: tensor tile loads and stores, multicast, gather and scatter, scratchpad copy and fill,
prefetch, cell operations, berm launches and the copy stream's sync forms (R232 to R244).
-/
namespace Sys2Proof.Machine

/-! ## Tensor tiles (R237) -/

/-- The row of a tile's coordinates (R233). -/
abbrev TileCoords := Nat → Nat → Nat → List Int

/-- The start's check of the pages under a tile, once (R385). -/
def State.tilePages (s : State) (j : Job) (tw : TileWord) (r : PoolRec) (at' : TileCoords) : Option FaultInfo :=
  if j.row ≠ 0 then none
  else
    s.pageTypes (s.agent j.core j.eng) tw.handle r
      ((List.range (tw.depth * tw.rows * tw.cols)).map fun n =>
        at' (n / tw.cols / tw.rows) (n / tw.cols % tw.rows) (n % tw.cols))

/-- The elements of a row and the flags of reading them, or what holds the reading up. -/
abbrev RowRead := State → State × Except Halt (List Nat × Flags)

/-- A tile load into the descriptor of field 1: TLD, TLDX, TLDB after its match, GATH after its pops, LGET (R237). `share`
says whence a row comes, given how the command itself reads it. -/
def State.runLoad (s : State) (j : Job) (tw : TileWord) (coords : State → TileCoords) (cv : Option Conv)
    (pre : Job → State → State × Option RunEnd) (share : Nat → RowRead → RowRead := fun _ get => get) : State × RunEnd :=
  let a := s.agent j.core j.eng
  let w := slotWord j.q.instr
  let d := Desc.of (j.op 0) (j.op 1)
  match s.tensor a (s.jobKernel j) tw.handle with
  | (s, .error h) => (s, startHalt j h)
  | (s, .ok t) =>
    let bs := match cv with | some k => typeWidth k.stype | none => rWidth t.desc
    let len := rowBytes tw.cols bs
    let lens := if cv.isSome then none else descLengths 1 (j.op 0) (j.op 1) tw.depth tw.rows len
    match lens with
    | some f => (s, startHalt j (.fault f))
    | none =>
      match s.begin j [] (d.hull tw.depth tw.rows len) with
      | .error f => (s, .fault none f)
      | .ok s =>
        match pre j s with
        | (s, some e) => (s, e)
        | (s, none) =>
          let at' := coords s
          match s.tilePages j tw t.desc at' with
          | some f => (s, .fault none f)
          | none =>
            let row (r : Nat) (s : State) : State × Option Halt :=
              let (k, i) := (r / tw.rows, r % tw.rows)
              let get : RowRead := fun s =>
                s.loadRow (s.agent j.core j.eng) tw.handle t w cv ((List.range tw.cols).map fun c => at' k i c)
              match share r get s with
              | (s, .error h) => (s, some h)
              | (s, .ok (vs, fl)) =>
                match s.spadStore j d k i bs vs with
                | .error h => (s, some h)
                | .ok s => (s.raiseCmd j fl, none)
            rowLoop row (tw.depth * tw.rows - j.row) j.row s

/-! ## Completion counters (R139, R246) -/

/-- A counter's page, translated for a counter add (R465); it is no polder page. -/
def State.counterPage (s : State) (a : Agent) (w va : Word) : State × Except FaultInfo Page :=
  match s.translate a Need.add va (noPolder a va w) with
  | (s, .error f) => (s, .error f)
  | (s, .ok p) =>
    match s.place p.gpa with
    | .regs _ => (s, .error (a.flt 0x0115 va))
    | _ => (s, .ok p)

/-- A counter raised by a command: at this device's home, where a poisoned unit discards the add, or by a packet
(R139, R143, R331). -/
def State.counterAdd (s : State) (j : Job) (va : Word) (p : Page) (inc : Word) : State :=
  let a := s.agent j.core j.eng
  match s.place p.gpa with
  | .mem la =>
    match s.homeUpdate p.lo a.ctx la 8 (fun old => (old + inc.toNat) % 2 ^ 64) with
    | (s, .error b) => s.lateCmd j (s.poisonFault a 0x0402 va b)
    | (s, .ok _) => s.mapStarted j.core j.eng fun t => { t with homeAck := true }
  | .peer dev => s.sendCmd j va (s.request a 4 dev p.gpa 8 p.lo (toBytes 8 inc.toNat))
  | _ => s

/-- The counter of a counted transfer: none for address 0, else its page (R246). -/
def State.countPage (s : State) (a : Agent) (w va : Word) : State × Except FaultInfo (Option Page) :=
  if va = 0 then (s, .ok none)
  else
    match s.counterPage a w va with
    | (s, .error f) => (s, .error f)
    | (s, .ok p) => (s, .ok (some p))

/-- One planned write of a row made: whole bytes, or the nibble of an E2M1 element (log 22); its bytes are counted once
written (R117, R237, R246). DESIGN CHOICE (log 22): a lone nibble counts as one byte. -/
def State.putOne (s : State) (j : Job) (cnt : Word) (page : Option Page) (w : Put × Nat) : State :=
  let (p, nib) := w
  let a := s.agent j.core j.eng
  let n := p.bytes.length
  match p.place with
  | .mem la =>
    let s :=
      if nib = 0 then s.homeWriteMask p.lo a.ctx la p.bytes
      else
        let v := ((p.bytes.head?.bind id).getD 0).toNat
        s.homeNibble p.lo a.ctx la nib v
    let s := s.mapStarted j.core j.eng fun t => { t with homeAck := true }
    match page with
    | some q => s.counterAdd j cnt q (BitVec.ofNat 64 n)
    | none => s
  | .peer dev =>
    (piecesOf 4096 p.gpa n).foldl (fun s pc =>
      let bs := ((p.bytes.drop (pc.1 - p.gpa)).take pc.2).map (·.getD 0)
      let pkt := { s.request a 1 dev pc.1 pc.2 p.lo bs with cntaddr := BitVec.ofNat 64 ((page.map Page.gpa).getD 0) }
      s.sendCmd j p.va (if nib = 0 then pkt else { pkt with beside := { note := BitVec.ofNat 2 nib } })) s
  | _ => s

/-- Whether a write to a peer overlaps one of others. -/
def overlapsPeer (p : Put) (qs : List Put) : Bool :=
  match p.place with
  | .peer _ => qs.any fun q => decide (q.gpa < p.gpa + p.bytes.length) && decide (p.gpa < q.gpa + q.bytes.length)
  | _ => false

/-- The first writes of a row of which none overlaps an earlier one at a peer. -/
def disjointPrefix : List (Put × Nat) → List Put → List (Put × Nat)
  | [], _ => []
  | p :: ps, seen => if overlapsPeer p.1 seen then [] else p :: disjointPrefix ps (p.1 :: seen)

/-- The row's writes already sent by a command. -/
def State.partDone (s : State) (j : Job) : Nat :=
  ((((s.core j.core).engine j.eng).started).map Started.part).getD 0

/-- A row's planned writes made in order, as many as do not overlap at a peer: those left follow when the peer has answered
(R117, R234). -/
def State.putRow (s : State) (j : Job) (ps : List (Put × Nat)) (cnt : Word) (page : Option Page) : State × Option Halt :=
  let left := ps.drop (s.partDone j)
  let now := disjointPrefix left []
  if s.rowPending j now then (s, some .wait)
  else
    let s := now.foldl (fun s p => s.putOne j cnt page p) s
    if now.length = left.length then (s.mapStarted j.core j.eng fun t => { t with part := 0 }, none)
    else (s.mapStarted j.core j.eng fun t => { t with part := t.part + now.length }, some .sent)

/-- A tile store from the descriptor of field 1: TST, TSTX, SCAT after its pops, LPUT (R237). `cnt` is the address of
a counter of the bytes, 0 for none (R246). -/
def State.runStore (s : State) (j : Job) (tw : TileWord) (coords : State → TileCoords) (cv : Option Conv)
    (pre : Job → State → State × Option RunEnd) (cnt : Word) : State × RunEnd :=
  let a := s.agent j.core j.eng
  let w := slotWord j.q.instr
  let d := Desc.of (j.op 0) (j.op 1)
  match s.tensor a (s.jobKernel j) tw.handle with
  | (s, .error h) => (s, startHalt j h)
  | (s, .ok t) =>
    let b := rWidth t.desc
    let bs := match cv with | some k => typeWidth k.stype | none => b
    let len := rowBytes tw.cols bs
    let bad :=
      firstFault [
        if cv.isSome then none else descLengths 1 (j.op 0) (j.op 1) tw.depth tw.rows len,
        faultIf (cv.isSome && rLayout t.desc == 4)
          { code := 0x0113, synd := slotWord j.q.instr, aux := slotCont j.q.instr }]
    match bad with
    | some f => (s, startHalt j (.fault f))
    | none =>
      match s.begin j (d.hull tw.depth tw.rows len) [] with
      | .error f => (s, .fault none f)
      | .ok s =>
        match pre j s with
        | (s, some e) => (s, e)
        | (s, none) =>
          let at' := coords s
          match s.tilePages j tw t.desc at' with
          | some f => (s, .fault none f)
          | none =>
            let row (r : Nat) (s : State) : State × Option Halt :=
              let (k, i) := (r / tw.rows, r % tw.rows)
              match s.spadSoft j d k i len with
              | some h => (s, some h)
              | none =>
                let c := s.core j.core
                let els := ((List.range tw.cols).map fun n => (layoutMap t.desc (at' k i n), c.element d k i n bs)).filter
                  fun e => e.1.2.2
                let conv (v : Nat) : Nat × Flags :=
                  match cv with
                  | some q => convertType q.stype (rEtype t.desc) v q.mode q.sat
                  | none => (v, 0)
                let (vs, fl) := joinFlags (els.map fun e => conv e.2)
                match s.planRow (s.agent j.core j.eng) w (joinWrites (rowWrites b ((els.map Prod.fst).zip vs) [])) with
                | (s, .error f) => (s, some (.fault f))
                | (s, .ok ps) =>
                  match if ps.isEmpty then (s, .ok none) else s.countPage (s.agent j.core j.eng) w cnt with
                  | (s, .error f) => (s, some (.fault f))
                  | (s, .ok page) =>
                    match s.putRow j ps cnt page with
                    | (s, none) => (s.raiseCmd j fl, none)
                    | r => r
            rowLoop row (tw.depth * tw.rows - j.row) j.row s

/-- No step between a command's checks and its rows. -/
def noPre (_j : Job) (s : State) : State × Option RunEnd := (s, none)

/-- The coordinates of a tile command: the pair of field 2 and the steps of its tile word (R233). -/
def Job.coords (j : Job) (tw : TileWord) : TileCoords :=
  tileCoord (coordsOf (j.op 2) (j.op 3)) tw (j.ex.x.getLsbD 1)

/-- The run of TLD, TLDX and LGET. -/
def loadRun (ext : Bool) : Runner := fun j s =>
  let tw := TileWord.of ext (j.op 4)
  s.runLoad j tw (fun _ => j.coords tw) (Conv.of j.ex) noPre

/-- The run of TST and TSTX. -/
def storeRun (ext : Bool) : Runner := fun j s =>
  let tw := TileWord.of ext (j.op 4)
  s.runStore j tw (fun _ => j.coords tw) (Conv.of j.ex) noPre 0

/-- The unit's checks of a tile command: its words, its converted lengths and its conversion (R385). -/
def tileUnit (i : Instr) (e : Ex) (ext : Bool) (_c : Core) (ops : List Word) : Option FaultInfo :=
  let w0 := nthD 0 ops 0
  let w1 := nthD 0 ops 1
  let tw := TileWord.of ext (nthD 0 ops 4)
  firstFault [
    descCheck 1 w0 w1,
    tileCheck 3 ext (nthD 0 ops 4),
    match Conv.of e with
    | some k => descLengths 1 w0 w1 tw.depth tw.rows (rowBytes tw.cols (typeWidth k.stype))
    | none => none,
    convCheck i e]

/-- TLD (R237). -/
def execTld (e : Ex) (s : State) : Out := dispatch (.tld e) e engCopy (tileUnit (.tld e) e false) (loadRun false) s
/-- TST (R237). -/
def execTst (e : Ex) (s : State) : Out := dispatch (.tst e) e engCopy (tileUnit (.tst e) e false) (storeRun false) s
/-- TLDX (R237). -/
def execTldx (e : Ex) (s : State) : Out := dispatch (.tldx e) e engCopy (tileUnit (.tldx e) e true) (loadRun true) s
/-- TSTX (R237). -/
def execTstx (e : Ex) (s : State) : Out := dispatch (.tstx e) e engCopy (tileUnit (.tstx e) e true) (storeRun true) s

/-! ## Multicast (R238) -/

/-- The multicast load that a core has started and not yet matched: its mask, and the words that must match. -/
def Core.multicast (c : Core) : Option (Word × List Word) :=
  match (c.engine engCopy).started with
  | some st =>
    match st.entry.instr with
    | .tldb e =>
      if st.phase < 2 then
        some (nthD 0 st.entry.ops 6, [nthD 0 st.entry.ops 2, nthD 0 st.entry.ops 3, nthD 0 st.entry.ops 4,
          if e.x.getLsbD 1 then 1 else 0])
      else none
    | _ => none
  | none => none

/-- The core of a gang's member. -/
def State.memberCore (s : State) (gang m : Nat) : Option Nat :=
  (s.gangCores gang).find? fun k => ((s.core k).task.map Task.member) == some m

/-- The match of a multicast load: it waits for every member of its mask; when all have started, each is matched, or
each faults when the words differ (R238, R385). -/
def multicastMatch (j : Job) (s : State) : State × Option RunEnd :=
  if 2 ≤ j.phase then (s, none)
  else
    let c := s.core j.core
    let mask := j.op 6
    let members := (List.range 64).filter fun m => mask.getLsbD m
    let size := (c.task.map Task.gangSize).getD 0
    let bad (aux : Nat) : FaultInfo := { code := 0x0116, synd := mask, aux := BitVec.ofNat 64 aux }
    if c.gang = 0 ∨ members.any fun m => decide (size ≤ m) then (s, some (.fault none (bad 0)))
    else
      let cores := members.filterMap fun m => (s.memberCore c.gang m).map fun k => (m, k)
      let words (k : Nat) : Option (List Word) :=
        match (s.core k).multicast with
        | some (m, ws) => if m = mask then some ws else none
        | none => none
      if cores.length ≠ members.length ∨ cores.any fun mk => (words mk.2).isNone then (s, some (.pending 1))
      else
        let first := ((cores.head?).bind fun mk => words mk.2).getD []
        match cores.find? fun mk => words mk.2 != some first with
        | some (m, _) =>
          let s := (cores.filter fun mk => mk.2 != j.core).foldl (fun s mk => s.refuseStart mk.2 engCopy (bad m)) s
          (s, some (.fault none (bad m)))
        | none =>
          (cores.foldl (fun s mk => s.mapStarted mk.2 engCopy fun t => { t with phase := 2 }) s, none)

/-- The command of a core, when it is a matched multicast load of this mask that goes on and has still to get row `r`. -/
def Core.lacksRow (c : Core) (mask : Word) (r : Nat) : Option Started :=
  (c.engine engCopy).started.filter fun st =>
    (match st.entry.instr with | .tldb _ => true | _ => false) && nthD 0 st.entry.ops 6 == mask && st.phase == 2 &&
      !st.done && st.fault.isNone && !c.frozen && decide (st.row ≤ r) && !st.feed.any fun e => e.1 == r

/-- The cores of a multicast load's members that have still to get row `r`, lowest member first. -/
def State.lackingRow (s : State) (j : Job) (r : Nat) : List Nat :=
  let mask := j.op 6
  ((List.range 64).filter fun m => mask.getLsbD m).filterMap fun m =>
    (s.memberCore (s.core j.core).gang m).filter fun k => ((s.core k).lacksRow mask r).isSome

/-- A row of a multicast load: the lowest member that lacks it reads it, once for the whole group, and every member that
lacks it gets what was read (R238, log 92). -/
def multicastRow (j : Job) (r : Nat) (get : RowRead) : RowRead := fun s =>
  let mine (s : State) : Option Started := ((s.core j.core).engine engCopy).started
  match (mine s).bind fun st => st.feed.find? fun e => e.1 == r with
  | some e => (s, .ok e.2)
  | none =>
    let lacking := s.lackingRow j r
    if lacking.head? ≠ some j.core then (s, .error .wait)
    else
      match get s with
      | (t, .error h) => (t, .error h)
      | (t, .ok (vs, fl)) =>
        -- the flags of reading polder cells were raised for this command alone
        let fl' := fl ||| ((mine t).map Started.flags).getD 0
        ((lacking.drop 1).foldl (fun t k => t.mapStarted k engCopy fun st => { st with feed := st.feed ++ [(r, vs, fl')] }) t,
          .ok (vs, fl))

/-- The run of TLDB. -/
def multicastRun : Runner := fun j s =>
  let tw := TileWord.of false (j.op 4)
  s.runLoad j tw (fun _ => j.coords tw) none multicastMatch (multicastRow j)

/-- TLDB (R238). -/
def execTldb (e : Ex) (s : State) : Out :=
  dispatch (.tldb e) e engCopy (tileUnit (.tldb e) { e with x := e.x &&& 2 } false) multicastRun s

/-! ## Gather and scatter (R239) -/

/-- The queue entries that a started command has popped so far. -/
def State.popped (s : State) (j : Job) : List Word :=
  match ((s.core j.core).engine j.eng).started with
  | some st => st.entry.ops.drop 7
  | none => []

/-- The role of the engine in the queue it pops, checked before the command starts (R130, R385). -/
def roleCheck (n q : Nat) (j : Job) (s : State) : Option FaultInfo :=
  let c := s.core j.core
  faultIf (decide (n ≠ 0) && c.qReader q != j.eng + 1) c.roleFault

/-- A started command's pops from a queue register: as many as are there; it waits for the rest (R131). -/
def popEntries (n q : Nat) (j : Job) (s : State) : State × Option RunEnd :=
  let c := s.core j.core
  let got := (s.popped j).length
  let es := c.queueReg q
  let k := min (n - got) es.length
  if got < n ∧ c.softHit 3 [q] then (s, some (startHalt j (.fault (softFault 3))))
  else
  let s := s.setCore j.core (c.setQueueReg q (es.drop k))
  let s := s.mapStarted j.core j.eng fun t => { t with entry := { t.entry with ops := t.entry.ops ++ es.take k } }
  if got + k < n then (s, some (.pending 1)) else (s, none)

/-- The coordinates of a gathered or scattered tile: row i at the index that the queue gave (R239). -/
def State.indexed (s : State) (j : Job) : TileCoords := fun _ i c =>
  let o := j.op 5
  let e := nthD 0 (s.popped j) (i / 2)
  let x1 : Int := if i % 2 = 0 then (e.setWidth 32 : BitVec 32).toInt else ((e >>> 32).setWidth 32 : BitVec 32).toInt
  [inSint ((o.setWidth 32 : BitVec 32).toInt + (c : Int)), x1, ((o >>> 32).setWidth 32 : BitVec 32).toInt, 0]

/-- The run of GATH. -/
def gatherRun : Runner := fun j s =>
  let tw := TileWord.of false (j.op 4)
  let n := (tw.rows + 1) / 2
  match roleCheck n j.ex.f2.toNat j s with
  | some f => (s, startHalt j (.fault f))
  | none => s.runLoad j tw (fun s => s.indexed j) (Conv.of j.ex) (popEntries n j.ex.f2.toNat)

/-- The run of SCAT. -/
def scatterRun : Runner := fun j s =>
  let tw := TileWord.of false (j.op 4)
  let n := (tw.rows + 1) / 2
  match roleCheck n j.ex.f2.toNat j s with
  | some f => (s, startHalt j (.fault f))
  | none => s.runStore j tw (fun s => s.indexed j) (Conv.of j.ex) (popEntries n j.ex.f2.toNat) 0

/-- GATH (R239). -/
def execGath (e : Ex) (s : State) : Out := dispatch (.gath e) e engCopy (tileUnit (.gath e) e false) gatherRun s
/-- SCAT (R239). -/
def execScat (e : Ex) (s : State) : Out := dispatch (.scat e) e engCopy (tileUnit (.scat e) e false) scatterRun s

/-! ## Scratchpad copy and fill, prefetch (R240, R241) -/

/-- Rows and bytes per row of a byte shape word (R240). -/
def byteShape (w : Word) : Nat × Nat := (bitsOf w.toNat 43 32, bitsOf w.toNat 21 0)

/-- The check of a byte shape word (R240, R385). -/
def byteShapeCheck (w : Word) : Option FaultInfo :=
  faultIf (bitsOf w.toNat 63 44 != 0 || bitsOf w.toNat 31 22 != 0) (badWord w 3)

/-- The run of SCOPY. -/
def scopyRun : Runner := fun j s =>
  let (rows, len) := byteShape (j.op 4)
  let dst := Desc.of (j.op 0) (j.op 1)
  let src := Desc.of (j.op 2) (j.op 3)
  match s.begin j (src.hull 1 rows len) (dst.hull 1 rows len) with
  | .error f => (s, .fault none f)
  | .ok s =>
    let row (i : Nat) (s : State) : State × Option Halt :=
      match s.spadSoft j src 0 i len with
      | some h => (s, some h)
      | none =>
        match s.spadStore j dst 0 i 8 ((s.core j.core).row src 0 i len 8) with
        | .ok s => (s, none)
        | .error h => (s, some h)
    rowLoop row (rows - j.row) j.row s

/-- The unit's operand checks of SCOPY (R385). -/
def checkScopy (_e : Ex) : Core → List Word → Option FaultInfo :=
  fun _ ops =>
    let (rows, len) := byteShape (nthD 0 ops 4)
    firstFault [
      descCheck 1 (nthD 0 ops 0) (nthD 0 ops 1), descCheck 2 (nthD 0 ops 2) (nthD 0 ops 3),
      byteShapeCheck (nthD 0 ops 4),
      descLengths 1 (nthD 0 ops 0) (nthD 0 ops 1) 1 rows len, descLengths 2 (nthD 0 ops 2) (nthD 0 ops 3) 1 rows len]

/-- SCOPY (R240). -/
def execScopy (e : Ex) (s : State) : Out :=
  dispatch (.scopy e) e engCopy (checkScopy e) scopyRun s

/-- The run of SFILL. -/
def sfillRun : Runner := fun j s =>
  let (rows, len) := byteShape (j.op 4)
  let dst := Desc.of (j.op 0) (j.op 1)
  match s.begin j [] (dst.hull 1 rows len) with
  | .error f => (s, .fault none f)
  | .ok s =>
    let vs := (List.range len).map fun k => (j.op 2).toNat / 256 ^ (k % 8) % 256
    let row (i : Nat) (s : State) : State × Option Halt :=
      match s.spadStore j dst 0 i 8 vs with
      | .ok s => (s, none)
      | .error h => (s, some h)
    rowLoop row (rows - j.row) j.row s

/-- The unit's operand checks of SFILL (R385). -/
def checkSfill (_e : Ex) : Core → List Word → Option FaultInfo :=
  fun _ ops =>
    let (rows, len) := byteShape (nthD 0 ops 4)
    firstFault [
      descCheck 1 (nthD 0 ops 0) (nthD 0 ops 1), byteShapeCheck (nthD 0 ops 4),
      descLengths 1 (nthD 0 ops 0) (nthD 0 ops 1) 1 rows len]

/-- SFILL (R240). -/
def execSfill (e : Ex) (s : State) : Out :=
  dispatch (.sfill e) e engCopy (checkSfill e) sfillRun s

/-- The run of PREF: its record checked, and no architectural effect (R241). -/
def prefRun : Runner := fun j s =>
  match s.tensor (s.agent j.core j.eng) (s.jobKernel j) (TileWord.of false (j.op 4)).handle with
  | (s, .error h) => (s, startHalt j h)
  | (s, .ok _) => (s, .done)

/-- The unit's operand checks of PREF (R385). -/
def checkPref (_e : Ex) : Core → List Word → Option FaultInfo :=
  fun _ ops => tileCheck 3 false (nthD 0 ops 4)

/-- PREF (R241). -/
def execPref (e : Ex) (s : State) : Out :=
  dispatch (.pref e) e engCopy (checkPref e) prefRun s

/-! ## Cell operations (R242) -/

/-- The page of one inside element of a cell command, checked; no cell lies in a control space (R385, R405, R406). -/
def State.cellPage (s : State) (a : Agent) (need : Need) (w : Word) (h : Nat) (r : PoolRec) (addr : Nat) :
    State × Except FaultInfo Page :=
  let va := BitVec.ofNat 64 addr
  let (s, q) := s.translate a need va fun p =>
    match p.params with
    | none => some (a.flt 0x0308 va w)
    | some q => if q.rtype ≠ rEtype r then some (badRecord h r) else none
  match q with
  | .error f => (s, .error f)
  | .ok p =>
    match s.place p.gpa with
    | .regs _ => (s, .error (a.flt 0x0115 va))
    | _ => (s, .ok p)

/-- The inside elements of a row with their pages, every one translated before any is touched (R382). -/
def State.cellRow (s : State) (a : Agent) (need : Need) (w : Word) (h : Nat) (r : PoolRec) (xs : List (List Int)) :
    State × Except FaultInfo (List (Option (Nat × Page))) :=
  xs.foldl (fun acc x =>
    match acc with
    | (s, .error f) => (s, .error f)
    | (s, .ok ps) =>
      let (addr, _, inside) := layoutMap r x
      if !inside then (s, .ok (ps ++ [none]))
      else
        match s.cellPage a need w h r addr with
        | (s, .error f) => (s, .error f)
        | (s, .ok p) => (s, .ok (ps ++ [some (addr, p)]))) (s, .ok [])

/-- The cell of a page's physical address noted as clear (R49, R112). -/
def State.cellUnused (s : State) (la : Nat) : State :=
  { s with memr := { s.memr with cellsUsed := Table.set (0, 0) s.memr.cellsUsed (s.memr.resolve la) (0, 0) } }

/-- A cell that has just been read cleared in the same visit to this device's home (R49, R242). -/
def State.homeClear (s : State) (p : Page) (x la : Nat) : State :=
  let n := (p.params.map CellParams.size).getD 8
  (s.homeRewrite p.lo x la (List.replicate n 0)).cellUnused la

/-- Consecutive cells cleared at this device's home as one write (R49, R410). -/
def State.clearRun (s : State) (p : Page) (x la n : Nat) : State :=
  let k := (p.params.map CellParams.size).getD 8
  (List.range n).foldl (fun s i => s.cellUnused (la + i * k)) (s.homeWrite p.lo x la (List.replicate (n * k) 0))

/-- The packet of a clear of consecutive cells of a peer, or of an exchange or raw read of one: an atomic of code 9,
with the cells' number as its operand, 10 or 11, whose value comes back for the last two; a raw read's has its first 8
bytes alone (the model's own codes, log 20). -/
def State.cellPacket (s : State) (a : Agent) (dev : Nat) (p : Page) (opc : BitVec 4) (n : Nat := 1) : Packet :=
  let body := atomicBody opc 0 0 0 (if opc = 9 then BitVec.ofNat 64 n else 0) 0
  let len := if opc = 11 then 8 else 24
  { s.request a 2 dev p.gpa len p.lo (body.take len) with beside := { p.mark with note := if opc = 9 then 0 else 1 } }

/-- Cells cut into runs of consecutive physical places under one leaf. -/
def cellRuns : List (Nat × Page) → List ((Nat × Page) × Nat)
  | [] => []
  | c :: cs =>
    let k := (c.2.params.map CellParams.size).getD 8
    match cellRuns cs with
    | (d, n) :: rest => if c.2.gpa + k = d.2.gpa ∧ c.2.lo = d.2.lo then (c, n + 1) :: rest else (c, 1) :: (d, n) :: rest
    | [] => [(c, 1)]

/-- Whether a cell row waits for the stream's own earlier packets to the same cells (R117). -/
def State.cellWait (s : State) (a : Agent) (ps : List (Option (Nat × Page))) : Bool :=
  ps.any fun e =>
    match e with
    | some (_, p) =>
      match s.place p.gpa with
      | .peer _ => s.heldBack a p.gpa ((p.params.map CellParams.size).getD 8) true
      | _ => false
    | none => false

/-- One add of a command into a cell: at the home, where a poisoned unit discards it, or as a packet; an add applied
counts rs bytes (R47, R91, R246, R410). -/
def State.cmdAdd (s : State) (j : Job) (ft v addr : Nat) (p : Page) (cnt : Word) (page : Option Page) : State :=
  let a := s.agent j.core j.eng
  match s.place p.gpa with
  | .mem la =>
    match s.homeAdd p a.ctx la ft v with
    | (s, .error b) => s.lateCmd j (s.poisonFault a 0x0402 (BitVec.ofNat 64 addr) b)
    | (s, .ok _) =>
      let s := s.mapStarted j.core j.eng fun t => { t with homeAck := true }
      match page with
      | some q => s.counterAdd j cnt q (BitVec.ofNat 64 ((p.params.map CellParams.rs).getD 8))
      | none => s
  | .peer dev =>
    let n := typeWidth ft / 8
    s.sendCmd j (BitVec.ofNat 64 addr) { s.request a 3 dev p.gpa n p.lo (toBytes n v) with
      etype := BitVec.ofNat 4 ft, cntaddr := BitVec.ofNat 64 ((page.map Page.gpa).getD 0), beside := p.mark }
  | _ => s

/-- The addend type of CELLADD and LCELL (R236). -/
def Job.addType (j : Job) : Nat := bitsOf j.ex.ext.toNat 7 4

/-- The rows of CELLADD and LCELL; `cnt` is the address of a counter of the adds applied, 0 for none (R246). -/
def State.runAdds (s : State) (j : Job) (cnt : Word) : State × RunEnd :=
  let tw := TileWord.of false (j.op 4)
  let d := Desc.of (j.op 0) (j.op 1)
  let w := slotWord j.q.instr
  let b := typeWidth j.addType
  match s.tensor (s.agent j.core j.eng) (s.jobKernel j) tw.handle with
  | (s, .error h) => (s, startHalt j h)
  | (s, .ok t) =>
    match s.tilePages j tw t.desc (j.coords tw) with
    | some f => (s, .fault none f)
    | none =>
      match s.begin j (d.hull 1 tw.rows (rowBytes tw.cols b)) [] with
      | .error f => (s, .fault none f)
      | .ok s =>
        let row (i : Nat) (s : State) : State × Option Halt :=
          match s.spadSoft j d 0 i (rowBytes tw.cols b) with
          | some h => (s, some h)
          | none =>
            let a := s.agent j.core j.eng
            let vs := (s.core j.core).row d 0 i tw.cols b
            match s.cellRow a Need.add w tw.handle t.desc ((List.range tw.cols).map fun c => j.coords tw 0 i c) with
            | (s, .error f) => (s, some (.fault f))
            | (s, .ok ps) =>
              if s.cellWait a ps then (s, some .wait)
              else
                match if ps.all Option.isNone then (s, .ok none) else s.countPage a w cnt with
                | (s, .error f) => (s, some (.fault f))
                | (s, .ok page) => ((ps.zip vs).foldl (fun s e =>
                    match e.1 with
                    | none => s
                    | some (addr, p) => s.cmdAdd j j.addType e.2 addr p cnt page) s, none)
        rowLoop row (tw.rows - j.row) j.row s

/-- The run of CELLADD. -/
def cellAddRun : Runner := fun j s => s.runAdds j 0

/-- The unit's checks of CELLADD and LCELL. -/
def addUnit (e : Ex) (_c : Core) (ops : List Word) : Option FaultInfo :=
  let tw := TileWord.of false (nthD 0 ops 4)
  firstFault [
    descCheck 1 (nthD 0 ops 0) (nthD 0 ops 1), tileCheck 3 false (nthD 0 ops 4),
    descLengths 1 (nthD 0 ops 0) (nthD 0 ops 1) 1 tw.rows (rowBytes tw.cols (typeWidth (bitsOf e.ext.toNat 7 4)))]

/-- CELLADD (R242). -/
def execCelladd (e : Ex) (s : State) : Out := dispatch (.celladd e) e engCopy (addUnit e) cellAddRun s

/-- The run of CELLCLR. -/
def cellClrRun : Runner := fun j s =>
  let tw := TileWord.of false (j.op 4)
  match s.tensor (s.agent j.core j.eng) (s.jobKernel j) tw.handle with
  | (s, .error h) => (s, startHalt j h)
  | (s, .ok t) =>
    match s.tilePages j tw t.desc (j.coords tw) with
    | some f => (s, .fault none f)
    | none =>
      let row (i : Nat) (s : State) : State × Option Halt :=
        let a := s.agent j.core j.eng
        match s.cellRow a Need.add (slotWord j.q.instr) tw.handle t.desc
            ((List.range tw.cols).map fun c => j.coords tw 0 i c) with
        | (s, .error f) => (s, some (.fault f))
        | (s, .ok ps) =>
          if s.cellWait a ps then (s, some .wait)
          else ((cellRuns (ps.filterMap id)).foldl (fun s r =>
            let (e, n) := r
            match s.place e.2.gpa with
            | .mem la => (s.clearRun e.2 a.ctx la n).mapStarted j.core j.eng fun t => { t with homeAck := true }
            | .peer dev => s.sendCmd j (BitVec.ofNat 64 e.1) (s.cellPacket a dev e.2 9 n)
            | _ => s) s, none)
      rowLoop row (tw.rows - j.row) j.row s

/-- The unit's operand checks of CELLCLR (R385). -/
def checkCellclr (_e : Ex) : Core → List Word → Option FaultInfo :=
  fun _ ops => tileCheck 3 false (nthD 0 ops 4)

/-- CELLCLR (R242). -/
def execCellclr (e : Ex) (s : State) : Out :=
  dispatch (.cellclr e) e engCopy (checkCellclr e) cellClrRun s

/-- The value of one cell read by a command: the raw cell or cellRead; with `clear` the cell is cleared in the same
step (R50, R242). -/
def State.cellTake (s : State) (a : Agent) (raw clear : Bool) (addr : Nat) (p : Page) : State × Except Halt Nat :=
  match p.params, s.place p.gpa with
  | some q, .mem la =>
    match s.homeRead p.lo la q.size with
    | (s, .error b) => (s, .error (.fault (s.poisonFault a 0x0401 (BitVec.ofNat 64 addr) b)))
    | (s, .ok bs) =>
      let (v, f) := if raw then (ofBytes bs, 0) else cellReadFlags q (ofBytes bs)
      ((if clear then s.homeClear p a.ctx la else s).raiseBy a f, .ok v)
  | some q, .peer dev =>
    if raw || clear then
      match a.received p.gpa (if clear then 24 else 8) (BitVec.ofNat 64 addr) 2 with
      | some (.ok bs) =>
        let (v, f) := if raw then (ofBytes bs, 0) else cellReadFlags q (ofBytes bs)
        (s.raiseBy a f, .ok v)
      | some (.error h) => (s, .error h)
      | none =>
        if s.heldBack a p.gpa q.size true then (s, .error .wait)
        else (s, .error (.ask (s.cellPacket a dev p (if clear then 10 else 11)) (BitVec.ofNat 64 addr)))
    else
      match s.readPage a (BitVec.ofNat 64 addr) p ((p.params.map CellParams.rs).getD 8) with
      | (s, .ok bs) => (s, .ok (ofBytes bs))
      | (s, .error h) => (s, .error h)
  | some _, .regs _ => (s, .error (.fault (a.flt 0x0115 (BitVec.ofNat 64 addr))))
  | some _, .unmapped =>
    (s, .error (.fault (a.flt 0x0306 (BitVec.ofNat 64 addr) (a.synd 2 4) (BitVec.ofNat 64 p.gpa))))
  | none, _ => (s, .error (.fault (a.flt 0x0308 (BitVec.ofNat 64 addr))))

/-- The agent after it has taken a cell: an exchange with a peer uses up its answer (R242). -/
def Agent.took (a : Agent) (clear : Bool) (p : Page) : Agent := if clear then a.used p.gpa 24 else a

/-- The bytes of peers that a row still lacks: the request to send first. An exchange row first reads its peers' cells, so
that poison in one of them stops the row before any is cleared (R410). -/
def State.cellAsk (s : State) (a : Agent) (raw clear : Bool) (ps : List (Option (Nat × Page))) : Option Halt :=
  let ask (raw clear : Bool) : Option Halt := (ps.foldl (fun (acc : Agent × Option Halt) e =>
    match acc, e with
    | (a, none), some (addr, p) =>
      match s.place p.gpa with
      | .peer _ =>
        match s.cellTake a raw clear addr p with
        | (_, .error h) => (a, some h)
        | _ => (a.took clear p, none)
      | _ => (a, none)
    | acc, _ => acc) (a, none)).2
  if clear then (ask true false).orElse fun _ => ask raw true else ask raw false

/-- The poison that a row of an exchange meets in this device's cells, before any is cleared (R410). -/
def State.cellPoison (s : State) (a : Agent) (ps : List (Option (Nat × Page))) : State × Option Halt :=
  ps.foldl (fun acc e =>
    match acc, e with
    | (s, some h), _ => (s, some h)
    | (s, none), none => (s, none)
    | (s, none), some (addr, p) =>
      match s.place p.gpa with
      | .mem _ =>
        match s.cellTake a true false addr p with
        | (s, .error h) => (s, some h)
        | (s, .ok _) => (s, none)
      | _ => (s, none)) (s, none)

/-- The element width of a cell read: the read format's, or for raw reads the widest cell of the tile's pages; with no
inside element that of the page at BASE, and where that is no polder page a raw read moves no byte (log 21). -/
def State.cellWidth (s : State) (a : Agent) (j : Job) (tw : TileWord) (t : Tensor) (raw : Bool) :
    State × Except (Nat × FaultInfo) Nat :=
  if !raw then (s, .ok (rWidth t.desc))
  else
    let ins := (List.range (tw.rows * tw.cols)).filterMap fun k =>
      let (addr, _, inside) := layoutMap t.desc (j.coords tw 0 (k / tw.cols) (k % tw.cols))
      if inside then some (k / tw.cols, addr) else none
    match ins with
    | [] =>
      match (s.translate a Need.cellRead (BitVec.ofNat 64 (rBase t.desc)) fun _ => none).2 with
      | .ok p => (s, .ok (8 * (p.params.map CellParams.size).getD 0))
      | .error _ => (s, .ok 0)
    | (i, addr) :: _ =>
      match s.cellPage a Need.cellRead (slotWord j.q.instr) tw.handle t.desc addr with
      | (s, .error f) => (s, .error (i, f))
      | (s, .ok p) =>
        let more := ((ins.map fun e => e.2 / 2 ^ 16).eraseDups).map fun pg =>
          match (s.translate { a with sup := true } { acc := 0 } (BitVec.ofNat 64 (pg * 2 ^ 16)) fun _ => none).2 with
          | .ok q => (q.params.map CellParams.size).getD 0
          | .error _ => 0
        (s, .ok (8 * more.foldl max ((p.params.map CellParams.size).getD 8)))

/-- A row of cell values written to the scratchpad, each at its own width (R242). -/
def State.cellStore (s : State) (j : Job) (d : Desc) (i : Nat) (vs : List (Nat × Nat)) : Except Halt State :=
  s.spadPut j d 0 i (vs.zipIdx.map fun e => (e.2, e.1.2, e.1.1))

/-- The peer bytes that a command still holds, once a row has used some up. -/
def State.keepFetched (s : State) (j : Job) (fs : List Fetched) : State :=
  let c := s.core j.core
  s.setCore j.core (c.setEngine j.eng { c.engine j.eng with fetched := fs })

/-- The rows of CELLRD and CELLXC. -/
def State.runCells (s : State) (j : Job) (raw clear : Bool) : State × RunEnd :=
  let tw := TileWord.of false (j.op 4)
  let d := Desc.of (j.op 0) (j.op 1)
  let need := if clear then Need.atomic else Need.cellRead
  match s.tensor (s.agent j.core j.eng) (s.jobKernel j) tw.handle with
  | (s, .error h) => (s, startHalt j h)
  | (s, .ok t) =>
    match s.tilePages j tw t.desc (j.coords tw) with
    | some f => (s, .fault none f)
    | none =>
      match s.cellWidth (s.agent j.core j.eng) j tw t raw with
      | (s, .error (i, f)) => (s, .fault (some (max i j.row)) f)
      | (s, .ok b) =>
        match descLengths 1 (j.op 0) (j.op 1) 1 tw.rows (rowBytes tw.cols b) with
        | some f => (s, startHalt j (.fault f))
        | none =>
          match s.begin j [] (d.hull 1 tw.rows (rowBytes tw.cols b)) with
          | .error f => (s, .fault none f)
          | .ok s =>
            let row (i : Nat) (s : State) : State × Option Halt :=
              let a := s.agent j.core j.eng
              match s.cellRow a need (slotWord j.q.instr) tw.handle t.desc
                  ((List.range tw.cols).map fun c => j.coords tw 0 i c) with
              | (s, .error f) => (s, some (.fault f))
              | (s, .ok ps) =>
                match if clear then s.cellPoison a ps else (s, none) with
                | (s, some h) => (s, some h)
                | (s, none) =>
                match s.cellAsk a raw clear ps with
                | some h => (s, some h)
                | none =>
                  let (s, a, r) := ps.foldl (fun acc e =>
                    match acc with
                    | (s, a, .error h) => (s, a, Except.error h)
                    | (s, a, .ok vs) =>
                      match e with
                      | none => (s, a, .ok (vs ++ [(if raw then 0 else rPad t.desc % 2 ^ b, b)]))
                      | some (addr, p) =>
                        match s.cellTake a raw clear addr p with
                        | (s, .ok v) =>
                          (s, a.took clear p, .ok (vs ++ [(v, if raw then 8 * (p.params.map CellParams.size).getD 8 else b)]))
                        | (s, .error h) => (s, a, .error h)) (s, a, Except.ok [])
                  match r with
                  | .error h => (s, some h)
                  | .ok vs =>
                    match s.cellStore j d i vs with
                    | .ok s => (s.keepFetched j a.got, none)
                    | .error h => (s, some h)
            rowLoop row (if b = 0 then 0 else tw.rows - j.row) j.row s

/-- The run of CELLRD and of CELLXC. -/
def cellReadRun (clear : Bool) : Runner := fun j s => s.runCells j (!clear && j.ex.x.getLsbD 0) clear

/-- The unit's checks of CELLRD and CELLXC. -/
def cellUnit (_c : Core) (ops : List Word) : Option FaultInfo :=
  firstFault [descCheck 1 (nthD 0 ops 0) (nthD 0 ops 1), tileCheck 3 false (nthD 0 ops 4)]

/-- CELLRD (R242). -/
def execCellrd (e : Ex) (s : State) : Out := dispatch (.cellrd e) e engCopy cellUnit (cellReadRun false) s
/-- CELLXC (R242). -/
def execCellxc (e : Ex) (s : State) : Out := dispatch (.cellxc e) e engCopy cellUnit (cellReadRun true) s

/-! ## Berm launch and sync forms (R243, R244) -/

/-- A berm engine's runs, oldest first. -/
def State.berm (s : State) (k : Nat) : List BermRun := Table.get [] s.berms k

/-- A berm engine's runs replaced. -/
def State.setBerm (s : State) (k : Nat) (rs : List BermRun) : State := { s with berms := Table.set [] s.berms k rs }

/-- A run handed to a berm engine (R324). -/
def State.launchBerm (s : State) (k : Nat) (r : BermRun) : State := s.setBerm k (s.berm k ++ [r])

/-- The run of BRUN: once every earlier copy command has completed the run is handed over, and its finish completes the
command (R243). -/
def brunRun : Runner := fun j s =>
  if !s.alone j.core j.eng then (s, .pending 0)
  else
    let ctx := (((s.core j.core).ctx?).getD 0)
    let (s, id) := s.newWait
    let s := s.mapStarted j.core j.eng fun t => { t with waits := [id] }
    (s.launchBerm ((j.op 4).toNat % 16) { ctx := ctx, routine := j.op 0, launch := j.op 2
                                          issuer := some (j.core, id), word := slotWord j.q.instr }, .done)

/-- The unit's operand checks of BRUN (R385). -/
def checkBrun (_e : Ex) : Core → List Word → Option FaultInfo :=
  fun _ ops =>
    let k := nthD 0 ops 4
    let at' (w : Word) : Option FaultInfo := faultIf (w.toNat % 64 != 0) { code := 0x0115, addr := w }
    firstFault [faultIf (decide (11 < k.toNat)) (badWord k 3), at' (nthD 0 ops 0), at' (nthD 0 ops 2)]

/-- BRUN (R243, R385). -/
def execBrun (e : Ex) (s : State) : Out :=
  dispatch (.brun e) e engCopy (checkBrun e) brunRun s

/-- ASLW (R168, R244). -/
def execAslw (g : BitVec 4) (l n : BitVec 6) (s : State) : Out :=
  dispatchSync (.aslw g l n) g engCopy 0 (fun core => syncWait core engCopy l n) s
/-- ASLS (R168, R244). -/
def execAsls (g : BitVec 4) (l n : BitVec 6) (s : State) : Out :=
  dispatchSync (.asls g l n) g engCopy 0 (fun core => syncSignal core engCopy l n) s
/-- ATLW (R168, R244). -/
def execAtlw (g : BitVec 4) (t sr : BitVec 6) (s : State) : Out :=
  dispatchSync (.atlw g t sr) g engCopy sr (fun core => syncTimeline core engCopy t) s

end Sys2Proof.Machine
end

