-- ==== Sys2Proof/Machine/Mesh.lean ====
section
/-!
DEFINITION. Mesh and sharding records and collective descriptors (R252 to R254), their defects (R436), and the
exchange that they derive (R255 to R257).
-/
namespace Sys2Proof.Machine

/-- The coordinates of a linear index over extents, the first fastest (R57, R252). -/
def mixedRadix : Nat → List Nat → List Nat
  | _, [] => []
  | n, e :: es => n % e :: mixedRadix (n / e) es

/-- The linear index of coordinates over extents, the first fastest. -/
def linearIndex : List Nat → List Nat → Nat
  | c :: cs, e :: es => c + e * linearIndex cs es
  | _, _ => 0

/-- The product of a list. -/
def product (xs : List Nat) : Nat := xs.foldl (· * ·) 1

/-! ## Mesh records (R252) -/

/-- A mesh: the sizes of its axes and its devices in linear order. -/
structure Mesh where
  sizes : List Nat
  devs : List Nat
  deriving DecidableEq, Repr

/-- Word `a` of the axes of a mesh record. -/
def axisWord (r : PoolRec) (a : Nat) : Nat := bitsOf r (32 * a + 31) (32 * a)

/-- The device at mesh coordinates (R252). -/
def meshDevice (r : PoolRec) (torus m : List Nat) : Nat :=
  let along (d : Nat) (org : Nat) : Nat :=
    (org + ((List.range m.length).map fun a =>
      if bitsOf (axisWord r a) 17 16 = d then nthD 0 m a * bitsOf (axisWord r a) 31 18 else 0).foldl (· + ·) 0)
      % nthD 1 torus d
  along 0 (bitsOf r 479 472) + 16 * along 1 (bitsOf r 471 464) + 256 * along 2 (bitsOf r 463 456)

/-- The mesh of a record; none for any defect of reason 2 of R436. -/
def meshOf (torus : List Nat) (r : PoolRec) : Option Mesh :=
  let n := bitsOf r 507 506 + 1
  let axes := (List.range n).map (axisWord r)
  let sizes := axes.map fun w => bitsOf w 15 0
  let total := product sizes
  let bad := rKind r != 2 || bitsOf r 505 480 != 0 || bitsOf r 455 128 != 0 ||
    ((List.range 4).drop n).any (fun a => axisWord r a != 0) ||
    axes.any (fun w => bitsOf w 17 16 == 3 || bitsOf w 15 0 == 0 || bitsOf w 31 18 == 0) ||
    decide (nthD 1 torus 0 ≤ bitsOf r 479 472) || decide (nthD 1 torus 1 ≤ bitsOf r 471 464) ||
    decide (nthD 1 torus 2 ≤ bitsOf r 463 456) || decide (product torus < total)
  if bad then none
  else
    let devs := (List.range total).map fun k => meshDevice r torus (mixedRadix k sizes)
    if devs.eraseDups.length = devs.length then some { sizes := sizes, devs := devs } else none

/-! ## Sharding records (R253) -/

/-- The role of an axis (R253). -/
inductive Role where
  | replicate
  | shard (dim : Nat)
  | partialSum
  deriving DecidableEq, Repr

/-- A sharding: the role of each mesh axis and the local extents. -/
structure Sharding where
  roles : List Role
  extents : List Nat
  deriving DecidableEq, Repr

/-- The role nibble of an axis. -/
def roleNibble (r : PoolRec) (a : Nat) : Nat := bitsOf r (483 + 4 * a) (480 + 4 * a)

/-- The sharding of a record over a mesh; none for any defect of reason 3 of R436. -/
def shardingOf (m : Mesh) (r : PoolRec) : Option Sharding :=
  let n := m.sizes.length
  let nibs := (List.range n).map (roleNibble r)
  let bad := rKind r != 3 || bitsOf r 507 496 != 0 || bitsOf r 479 256 != 0 || bitsOf r 127 0 != 0 ||
    ((List.range 4).drop n).any (fun a => roleNibble r a != 0) ||
    nibs.any (fun x => x % 4 == 3 || (x / 4 != 0 && x % 4 != 1))
  if bad then none
  else
    let roles := nibs.map fun x => match x % 4 with | 1 => Role.shard (x / 4) | 2 => .partialSum | _ => .replicate
    let cut (k : Nat) : Nat :=
      product ((roles.zip m.sizes).map fun e => if e.1 = .shard k then e.2 else 1)
    let g (k : Nat) : Nat := bitsOf r (32 * k + 159) (32 * k + 128)
    if (List.range 4).any fun k => g k % cut k != 0 then none
    else some { roles := roles, extents := (List.range 4).map fun k => g k / cut k }

/-- The shard offsets of a device at mesh coordinates (R253): the lowest sharding axis is the most significant. -/
def shardOffsets (sh : Sharding) (sizes m : List Nat) : List Nat :=
  (List.range 4).map fun k =>
    nthD 0 sh.extents k * ((sh.roles.zip (sizes.zip m)).foldl (fun b e =>
      if e.1 = .shard k then b * e.2.1 + e.2.2 else b) 0)

/-! ## Collective descriptors (R254) -/

def dCntBase (d : Nat) : Nat := bitsOf d 511 448
def dPool (d : Nat) : Nat := bitsOf d 447 384
def dRoutine (d : Nat) : Word := BitVec.ofNat 64 (bitsOf d 383 320)
def dRarg (d : Nat) : Word := BitVec.ofNat 64 (bitsOf d 319 256)
def dSrc (d : Nat) : Nat := bitsOf d 191 180
def dDst (d : Nat) : Nat := bitsOf d 179 168
def dMesh (d : Nat) : Nat := bitsOf d 167 156
def dShin (d : Nat) : Nat := bitsOf d 155 144
def dShout (d : Nat) : Nat := bitsOf d 143 132
def dChunk (d : Nat) : Nat := bitsOf d 123 120

/-- Bytes of a chunk (R254). -/
def chunkBytes (code : Nat) : Nat := if code = 0 then 2 ^ 16 else 2 ^ (11 + code)

/-- Whether a descriptor is free of the defects of reason 1 (R436). -/
def descriptorOk (d : Nat) (node : Bool) : Bool :=
  bitsOf d 255 192 == 0 && bitsOf d 131 128 == 0 && bitsOf d 119 0 == 0 && bitsOf d 127 124 == 0 &&
    decide (dChunk d ≤ 9) && !(node && dPool d == 0) && decide (dCntBase d % 8 = 0)

/-! ## The exchange (R255 to R257) -/

/-- A collective checked: its mesh, shardings, tensors, this device's coordinates, the axes summed and whether the
target is a polder page. -/
structure Exchange where
  desc : Nat
  mesh : Mesh
  shin : Sharding
  shout : Sharding
  src : PoolRec
  dst : PoolRec
  me : List Nat
  red : List Nat
  polder : Option CellParams
  deriving DecidableEq, Repr

/-- The axes of a sharding with a role. -/
def Sharding.axes (sh : Sharding) (r : Role) : List Nat :=
  (List.range sh.roles.length).filter fun a => nthD .replicate sh.roles a == r

/-- The bits of one destination element in element view. -/
def Exchange.dstBits (x : Exchange) : Nat := rWidth x.dst

/-- The elements of a device's local part of DST (R257). -/
def Exchange.elements (x : Exchange) : Nat := product x.shout.extents

/-- Bytes of the local part. -/
def Exchange.bytes (x : Exchange) : Nat := rowBytes x.elements x.dstBits

/-- Chunks of the local part. -/
def Exchange.chunks (x : Exchange) : Nat :=
  (x.bytes + chunkBytes (dChunk x.desc) - 1) / chunkBytes (dChunk x.desc)

/-- The chunk of a local element (R257). -/
def Exchange.chunkOf (x : Exchange) (e : Nat) : Nat := e * x.dstBits / 8 / chunkBytes (dChunk x.desc)

/-- The local elements of a chunk. -/
def Exchange.chunkElements (x : Exchange) (c : Nat) : List Nat :=
  let size := chunkBytes (dChunk x.desc) * 8 / x.dstBits
  (List.range (min size (x.elements - c * size))).map (· + c * size)

/-- Bytes of a chunk; the last may be short. -/
def Exchange.sizeOf (x : Exchange) (c : Nat) : Nat :=
  min (chunkBytes (dChunk x.desc)) (x.bytes - c * chunkBytes (dChunk x.desc))

/-- The terms of each element (R255). -/
def Exchange.terms (x : Exchange) : Nat := product (x.red.map fun a => nthD 1 x.mesh.sizes a)

/-- The summed axes that SHOUT replicates: the axes of a group (R256). -/
def Exchange.groupAxes (x : Exchange) : List Nat :=
  x.red.filter fun a => nthD .replicate x.shout.roles a == .replicate

/-- Devices in a group. -/
def Exchange.groupSize (x : Exchange) : Nat := product (x.groupAxes.map fun a => nthD 1 x.mesh.sizes a)

/-- The coordinates along some axes as one index, in ascending axis order. -/
def Exchange.indexOn (x : Exchange) (axes m : List Nat) : Nat :=
  linearIndex (axes.map fun a => nthD 0 m a) (axes.map fun a => nthD 1 x.mesh.sizes a)

/-- Whether a device is the reducer of a chunk (R256); every device is where no group is. -/
def Exchange.reducer (x : Exchange) (m : List Nat) (c : Nat) : Bool :=
  x.indexOn x.groupAxes m == c % x.groupSize

/-- The local coordinates of a local element. -/
def Exchange.localCoords (x : Exchange) (e : Nat) : List Nat := mixedRadix e x.shout.extents

/-- The contributor index of this device's term for a destination, none when this device is no source of the element:
the sources of R255 have this device's coordinates along every axis. -/
def Exchange.contributes (x : Exchange) (dest : List Nat) : Bool :=
  (List.range x.mesh.sizes.length).all fun a =>
    match nthD .replicate x.shin.roles a with
    | .shard _ => true
    | _ => x.red.contains a || nthD 0 dest a == nthD 0 x.me a

/-- The coordinates of a destination's element within this device's SRC, none when its block of SHIN is another's. -/
def Exchange.srcCoords (x : Exchange) (dest : List Nat) (e : Nat) : Option (List Int) :=
  let so := shardOffsets x.shin x.mesh.sizes x.me
  let d := shardOffsets x.shout x.mesh.sizes dest
  let l := x.localCoords e
  let at' := (List.range 4).map fun k => ((nthD 0 d k + nthD 0 l k : Nat) : Int) - (nthD 0 so k : Nat)
  if (List.range 4).all fun k => decide (0 ≤ nthD 0 at' k) && decide (nthD 0 at' k < (nthD 0 x.shin.extents k : Nat)) then
    some at'
  else none

/-- The address of a local element of DST, and its bit (R257). -/
def Exchange.dstAddr (x : Exchange) (e : Nat) : Nat × Nat :=
  let (a, b, _) := layoutMap x.dst ((x.localCoords e).map fun (k : Nat) => (k : Int))
  (a, b)

/-- The counter of a chunk (R257). -/
def Exchange.counter (x : Exchange) (c : Nat) : Word := BitVec.ofNat 64 (dCntBase x.desc + 8 * c)

end Sys2Proof.Machine
end

