-- ==== Sys2Proof/Machine/Weir.lean ====
section
/-!
DEFINITION. The weir engines: a reduce delivery checked, held or applied at its homes, counted, and what a full chunk
does; and the progress of the collectives of this device (R256 to R259, R335 to R337, R437 to R440).
-/
namespace Sys2Proof.Machine

/-- The weir engine set that owns a chunk (R335). -/
def weirSet (c : Nat) : Nat := c % 6

/-- The agent of a set, walking in a context under symmetric addressing (R251, R335). -/
def weirAgent (x set : Nat) : Agent := { ctx := x, akind := 5, aidx := set, sym := true }

/-- The number of a chunk's progress. -/
def chunkKey (x : Nat) (counter : Word) : Nat := x * 2 ^ 64 + counter.toNat

/-- A chunk's progress. -/
def State.chunk (s : State) (x : Nat) (counter : Word) : Chunk := Table.get {} s.fab.chunks (chunkKey x counter)

/-- A chunk's progress changed. -/
def State.mapChunk (s : State) (x : Nat) (counter : Word) (f : Chunk → Chunk) : State :=
  { s with fab := { s.fab with
      chunks := Table.set {} s.fab.chunks (chunkKey x counter) (f (s.chunk x counter)) } }

/-- The first failure of a chunk's collective noted, with its time (R440). -/
def State.chunkFail (s : State) (x : Nat) (counter : Word) (f : FaultInfo) : State :=
  s.mapChunk x counter fun c => { c with fail := if c.fail.isSome then c.fail else some (s.now, f) }

/-- A word with a field replaced by a number. -/
def putField (w : Word) (hi lo v : Nat) : Word :=
  let n := w.toNat
  BitVec.ofNat 64 (n - bitsOf n hi lo * 2 ^ lo + v % 2 ^ (hi + 1 - lo) * 2 ^ lo)

/-! ## The elements of a delivery -/

/-- Whether a reduce packet copies raw elements (log 23). -/
def packetCopies (p : Packet) : Bool := p.beside.copies

/-- Bytes of a destination element and of a payload element on a page (R256, R331). -/
def packetElemBytes (p : Packet) (page : Page) : Nat × Nat :=
  let t := rowBytes 1 (typeWidth p.etype.toNat)
  if (packetCopies p) then (t, t)
  else
    match page.params with
    | some q => (q.rs, if p.kind = 9 then q.size else t)
    | none => (4, if p.kind = 9 then 4 else t)

/-- Elements from an address, `d` bytes apart, each translated: its number, its address, its page and its device-local
address, or the refusal. -/
def State.elementPlaces (s : State) (a : Agent) (need : Need) (rule : Word → Page → Option FaultInfo) (va0 : Word)
    (d n : Nat) : State × Except FaultInfo (List (Nat × Nat × Page × Nat)) :=
  (List.range n).foldl (fun acc k =>
    match acc with
    | (s, .error f) => (s, .error f)
    | (s, .ok ts) =>
      let va := va0 + BitVec.ofNat 64 (k * d)
      match s.translate a need va (rule va) with
      | (s, .error f) => (s, .error f)
      | (s, .ok q) =>
        match s.place q.gpa with
        | .mem la => (s, .ok (ts ++ [(k, va.toNat, q, la)]))
        | .regs _ => (s, .error (a.flt 0x0115 va))
        | _ => (s, .error (a.flt 0x0306 va (a.synd need.acc 4) (BitVec.ofNat 64 q.gpa)))) (s, .ok [])

/-- The elements of a delivery: each place in the payload with its address, its page and its device-local address, or
the refusal (R437). -/
def State.weirTargets (s : State) (a : Agent) (p : Packet) : State × Except FaultInfo (List (Nat × Nat × Page × Nat)) :=
  let rule (v : Word) (q : Page) : Option FaultInfo := if (packetCopies p) then noPolder a v 0 q else none
  match s.translate a Need.add p.addr (rule p.addr) with
  | (s, .error f) => (s, .error f)
  | (s, .ok q) =>
    let (d, m) := packetElemBytes p q
    s.elementPlaces a Need.add rule p.addr d (p.data.length / m)

/-- A term's value in the sum of its target, from its payload element (R47, R256, R439). -/
def packetApply (p : Packet) (q : Page) (v : Nat) (bad : Bool) (old : Nat) : Nat :=
  let x : Fp := if bad then .nan .poison false false else addend p.etype.toNat v
  match q.params, decide (p.kind = 9) with
  | some c, true => if bad then cellAdd c old x else cellMerge c old v
  | some c, false => cellAdd c old x
  | none, true =>
    let y : Fp := if bad then x else decodeFp .fp32 v
    ((exactAdd .rne (decodeFp .fp32 old) y).round .fp32 .rne false).1
  | none, false => ((exactAdd .rne (decodeFp .fp32 old) x).round .fp32 .rne false).1

/-- A poisoned term, or one discarded for its poisoned target: notice 0x0402, and the failure of the chunk's collective
(R439, R440). -/
def State.weirPoison (s : State) (a : Agent) (counter : Word) (e : Nat × Nat × Page × Nat) : State :=
  let f := a.flt 0x0402 (BitVec.ofNat 64 e.2.1) 0 (s.granule e.2.2.2)
  (s.notice a.ctx f).chunkFail a.ctx counter { f with res := false }

/-- One term of a sum applied at its home: a poisoned term or target is noted and still counts as delivered (R439). -/
def State.weirElement (s : State) (a : Agent) (p : Packet) (counter : Word) (e : Nat × Nat × Page × Nat) : State :=
  let (k, _, q, la) := e
  let (_, m) := packetElemBytes p q
  let bs := (p.data.drop (k * m)).take m
  let bad := p.bad.contains k
  let n := match q.params with | some c => c.size | none => 4
  let s := if bad then s.weirPoison a counter e else s
  match s.homeUpdate q.lo a.ctx la n (packetApply p q (ofBytes bs) bad) with
  | (s, .error _) => s.weirPoison a counter e
  | (s, .ok _) => match q.params with | some c => s.cellUsed q c la | none => s

/-- Targets cut into runs of consecutive physical places, elements of `m` bytes each. -/
def targetRuns (m : Nat) : List (Nat × Nat × Page × Nat) → List (List (Nat × Nat × Page × Nat))
  | [] => []
  | t :: ts =>
    match targetRuns m ts with
    | (u :: us) :: rest => if t.2.2.2 + m = u.2.2.2 then (t :: u :: us) :: rest else [t] :: (u :: us) :: rest
    | rest => [t] :: rest

/-- One run of raw elements copied to its home as one write. An element in a poisoned unit that the run does not cover
whole is discarded; a poisoned element leaves its unit poisoned; both are noted (R410, R439, log 23). -/
def State.weirRun (s : State) (a : Agent) (p : Packet) (counter : Word) (ts : List (Nat × Nat × Page × Nat)) : State :=
  match ts with
  | [] => s
  | t :: _ =>
    let q := t.2.2.1
    let (_, m) := packetElemBytes p q
    let lo := t.2.2.2
    let hi := lo + m * ts.length
    let s := s.touch q.lo lo (hi - lo)
    let stuck (e : Nat × Nat × Page × Nat) : Bool :=
      let u := e.2.2.2 / 32 * 32
      !(decide (lo ≤ u) && decide (u + 32 ≤ hi) && p.beside.note == 0) && (s.poisonAt e.2.2.2 m).isSome
    let out := ts.filter stuck
    let bytes := ts.flatMap fun e =>
      ((p.data.drop (e.1 * m)).take m).map fun b => if stuck e then none else some b
    let t := out.foldl (fun s e => s.weirPoison a counter e) s
    let t :=
      if p.beside.note = 0 then t.homeRewriteMask q.lo a.ctx lo bytes
      else if out.isEmpty then t.setNibble q.lo a.ctx lo p.beside.note.toNat (ofBytes (p.data.take 1))
      else t
    (ts.filter fun e => p.bad.contains e.1 && !stuck e).foldl
      (fun s e => (s.setMark (s.memr.resolve e.2.2.2) 3).weirPoison a counter e) t

/-- A delivery's elements applied at their homes (R256, R335). -/
def State.weirApply (s : State) (a : Agent) (p : Packet) (ts : List (Nat × Nat × Page × Nat)) : State :=
  if packetCopies p then
    let m := match ts with | t :: _ => (packetElemBytes p t.2.2.1).2 | [] => 1
    (targetRuns m ts).foldl (fun s r => s.weirRun a p p.cntaddr r) s
  else ts.foldl (fun s t => s.weirElement a p p.cntaddr t) s

/-! ## Fixed order and staging (R335, R336, R438) -/

/-- Whether every term of a delivery's chunk with a lower contributor index has been added: each of those contributors has
covered the whole chunk (R256, R335). -/
def Chunk.ready (c : Chunk) (p : Packet) : Bool :=
  (List.range p.contrib.toNat).all fun k => decide (p.beside.size ≤ Table.get 0 c.added k)

/-- The DST bytes of a delivery of FP32 sums that are homed on each base die (R336). -/
def State.stageOf (s : State) (ts : List (Nat × Nat × Page × Nat)) : List Nat :=
  (List.range 4).map fun die => 4 * (ts.filter fun t => s.memr.homeDie t.2.2.2 == die).length

/-- Bytes held in staging for one base die (R336). -/
def State.stagedOn (s : State) (die : Nat) : Nat :=
  (s.fab.chunks.flatMap fun e => e.2.held).foldl (fun n h => n + nthD 0 h.stage die) 0

/-- A delivery's FP32 terms parted into those that staging takes, each on its own home's base die of 32 MiB, and those it
has no room for (R336, R438). -/
def State.stageSplit (s : State) (ts : List (Nat × Nat × Page × Nat)) :
    List (Nat × Nat × Page × Nat) × List (Nat × Nat × Page × Nat) :=
  let die (t : Nat × Nat × Page × Nat) : Nat := s.memr.homeDie t.2.2.2
  let out := [0, 1, 2, 3].flatMap fun d => ((ts.filter fun t => die t == d).drop ((2 ^ 25 - s.stagedOn d) / 4)).map Prod.fst
  (ts.filter fun t => !out.contains t.1, ts.filter fun t => out.contains t.1)

/-- HELD of a set's WEIRST, in 64-byte units (R337). -/
def State.weirHeld (s : State) (set : Nat) : Nat :=
  (((s.fab.chunks.flatMap fun e => e.2.held).filter fun h => weirSet h.pkt.chunkno.toNat == set).foldl
    (fun n h => n + h.stage.foldl (· + ·) 0) 0 + 63) / 64

/-- Whether a delivery's terms go in fixed order: a sum into an ordinary FP32 target of a context at D1 or D2
(R256, R335). -/
def State.fixedOrder (s : State) (p : Packet) (ts : List (Nat × Nat × Page × Nat)) : Bool :=
  !(packetCopies p) && p.kind == 8 && (s.ctx p.ctx.toNat).lvl != 0 && ts.any fun t => t.2.2.1.params.isNone

/-! ## Counting and full chunks (R257, R258) -/

/-- Whether a delivery is the first of the two E2M1 elements of its byte: the byte counts with the second (R257). -/
def Chunk.firstHalf (c : Chunk) (p : Packet) : Bool :=
  packetCopies p && p.beside.note != 0 && (p.beside.pair.map fun k => !c.halves.contains k).getD false

/-- The bytes of DST that some elements of a delivery cover. -/
def Chunk.covered (c : Chunk) (p : Packet) (ts : List (Nat × Nat × Page × Nat)) : Nat :=
  match ts with
  | [] => 0
  | t :: _ => if c.firstHalf p then 0 else ts.length * (packetElemBytes p t.2.2.1).1

/-- A chunk after some elements of a delivery: their bytes added for its contributor, and its half of a byte noted. -/
def Chunk.cover (c : Chunk) (p : Packet) (ts : List (Nat × Nat × Page × Nat)) : Chunk :=
  let k := p.contrib.toNat
  { c with added := Table.set 0 c.added k (Table.get 0 c.added k + c.covered p ts)
           halves := if c.firstHalf p then c.halves ++ p.beside.pair.toList else c.halves }

/-- The memory controller that serves a place: the one of its channel; for far memory the first of its home's base die
(R14, R100, log 71). -/
def MemRegs.controller (m : MemRegs) (la : Nat) : Nat :=
  if isFar la then 3 * m.homeDie la else (placement m.live la).1 / 32

/-- The run that a full chunk launches, on the controller that serves the first byte of the chunk's backing store (R258,
R324); `rs` is DST's element size. The address is translated as its deliveries were (R465). -/
def State.launchChunk (s : State) (p : Packet) (rs : Nat) : State :=
  let x := p.ctx.toNat
  let a := weirAgent x (weirSet p.chunkno.toNat)
  match s.translate a Need.add p.beside.first (fun _ => none) with
  | (s, .error f) => s.chunkFail x p.cntaddr f
  | (s, .ok q) =>
    let bits := if packetCopies p then typeWidth p.etype.toNat else 8 * rs
    let n := p.beside.size * 8 / bits
    let o := p.chunkno.toNat * chunkBytes p.chunk.toNat * 8 / bits
    s.launchBerm (s.memr.controller (s.memr.resolve (q.gpa % 2 ^ 51))) {
      ctx := p.ctx, routine := p.routine, launch := p.rarg, issuer := none, chunk := some (p.chunkno.toNat, o, n, p.cntaddr) }

/-- A delivery refused: the negative acknowledgement to its source, or the failure of this device's own collective (R437,
R440). -/
def State.refuseTerm (s : State) (p : Packet) (f : FaultInfo) : State :=
  if p.src.toNat = s.myIndex then s.chunkFail p.ctx.toNat p.cntaddr { f with res := false }
  else s.reply (negative p f.code f.synd f.aux)

/-- The refusal of a delivery into a chunk that is full, or past its full count, with its notice (R437). -/
def State.overFull (s : State) (a : Agent) (p : Packet) (old n : Nat) : State × FaultInfo :=
  let f := a.flt 0x0705 p.cntaddr (BitVec.ofNat 64 old) (BitVec.ofNat 64 n)
  (s.notice a.ctx f, f)

/-- What the full count of a chunk does: TL.WEIR, WEIRST, the bound run, the refusal of what is still held, and the flag
seen by this device's collectives (R257 to R259, R335, R337, R437). -/
def State.chunkFull (s : State) (a : Agent) (p : Packet) (rs v : Nat) : State :=
  let x := p.ctx.toNat
  let k := weirSet p.chunkno.toNat
  let w := Table.get 0 s.fab.weirst k
  let s := { s with fab := { s.fab with
    weirst := Table.set 0 s.fab.weirst k (putField w 63 32 (bitsOf w.toNat 63 32 + 1)) } }
  let s := s.advance x (0x20 + k) 1
  let s := if p.routine = 0 then s else s.launchChunk p rs
  let held := (s.chunk x p.cntaddr).held
  let s := s.mapChunk x p.cntaddr fun c => { c with added := [], halves := [], held := [] }
  let s := held.foldl (fun s h =>
    let (s, f) := s.overFull a h.pkt v (h.stage.foldl (· + ·) 0)
    s.refuseTerm h.pkt f) s
  { s with colls := s.colls.map fun c =>
      if c.ctx = p.ctx then { c with left := c.left.filter (· != p.cntaddr) } else c }

/-- Elements of a delivery performed at their homes and counted; `cnt` is the counter's place with its leaf's attributes (R92,
R257, R335). -/
def State.weirPerform (s : State) (a : Agent) (p : Packet) (ts : List (Nat × Nat × Page × Nat)) (cnt : Nat × Word) :
    State :=
  let s := s.weirApply a p ts
  let n := (s.chunk a.ctx p.cntaddr).covered p ts
  let s := s.mapChunk a.ctx p.cntaddr fun c => c.cover p ts
  let old := ofBytes (s.bytesAt cnt.1 8)
  let v := old % 2 ^ 63 + n
  let rs := match ts with | t :: _ => (packetElemBytes p t.2.2.1).1 | [] => 4
  if v = p.full.toNat then
    (s.homeRewrite cnt.2 a.ctx cnt.1 (toBytes 8 (v + 2 ^ 63))).chunkFull a p rs (v + 2 ^ 63)
  else s.homeRewrite cnt.2 a.ctx cnt.1 (toBytes 8 v)

/-- The counter's place and its leaf's attributes, or the refusal (R437). -/
def State.chunkCounter (s : State) (a : Agent) (va : Word) : State × Except FaultInfo (Nat × Word) :=
  match s.counterPage a 0 va with
  | (s, .error f) => (s, .error f)
  | (s, .ok q) =>
    match s.place q.gpa with
    | .mem la =>
      match s.homeRead q.lo la 8 with
      | (s, .error b) => (s, .error (s.poisonFault a 0x0402 va b))
      | (s, .ok _) => (s, .ok (la, q.lo))
    | _ => (s, .error (a.flt 0x0306 va (a.synd 2 4) (BitVec.ofNat 64 q.gpa)))

/-- A delivery received: refused, or performed, or held until its turn; whether all of it was performed (R335, R437). A term
that must be held and finds staging full on its home's base die is applied at once (R438). -/
def State.receiveReduce (s : State) (p : Packet) : State × Except FaultInfo Bool :=
  let x := p.ctx.toNat
  let a := weirAgent x (weirSet p.chunkno.toNat)
  if (s.ctx x).ptbase = 0 then (s, .error (a.flt 0x0703 p.addr 0 (BitVec.ofNat 64 s.myIndex)))
  else
    match s.chunkCounter a p.cntaddr with
    | (s, .error f) => (s, .error f)
    | (s, .ok cnt) =>
      match s.weirTargets a p with
      | (s, .error f) => (s, .error f)
      | (s, .ok ts) =>
        let old := ofBytes (s.bytesAt cnt.1 8)
        let n := (s.chunk x p.cntaddr).covered p ts
        if 2 ^ 63 ≤ old ∨ p.full.toNat < old + n then
          let (s, f) := s.overFull a p old n
          (s, .error f)
        else if !(s.fixedOrder p ts && !(s.chunk x p.cntaddr).ready p) then (s.weirPerform a p ts cnt, .ok true)
        else
          let (hold, now) := s.stageSplit ts
          let f := a.flt 0x0706 p.cntaddr
          let s := if now.isEmpty then s else ((s.notice x f).chunkFail x p.cntaddr f).weirPerform a p now cnt
          if hold.isEmpty then (s, .ok true)
          else
            let h : HeldTerm := { pkt := p, stage := s.stageOf hold, done := now.map Prod.fst }
            (s.mapChunk x p.cntaddr fun c => { c with held := c.held ++ [h] }, .ok false)

/-- A held delivery whose turn has come, performed (R335), or refused if its translation fails by now or its chunk's count
has passed it (R437); the packet performed, to acknowledge. -/
def State.applyHeld (s : State) (x : Nat) (counter : Word) : State × Option Packet :=
  let ch := s.chunk x counter
  match ch.held.find? fun h => ch.ready h.pkt with
  | none => (s, none)
  | some h =>
    let p := h.pkt
    let a := weirAgent x (weirSet p.chunkno.toNat)
    let s := s.mapChunk x counter fun c => { c with held := c.held.erase h }
    match s.chunkCounter a counter with
    | (s, .error f) => (s.refuseTerm p f, none)
    | (s, .ok cnt) =>
      match s.weirTargets a p with
      | (s, .error f) => (s.refuseTerm p f, none)
      | (s, .ok all) =>
        let ts := all.filter fun t => !h.done.contains t.1
        let old := ofBytes (s.bytesAt cnt.1 8)
        let n := (s.chunk x counter).covered p ts
        if 2 ^ 63 ≤ old ∨ p.full.toNat < old + n then
          let (s, f) := s.overFull a p old n
          (s.refuseTerm p f, none)
        else (s.weirPerform a p ts cnt, some p)

/-! ## The collectives of this device (R256, R259, R440) -/

/-- The first failure of a collective noted, with its time. -/
def Collective.failed (c : Collective) (now : Nat) (f : FaultInfo) : Collective :=
  { c with fail := if c.fail.isSome then c.fail else some (now, { f with res := false }) }

/-- A delivery of a collective sent: performed here at once for this device's own part, else as a packet whose answer the
collective awaits (R256, R334). -/
def State.deliver (s : State) (c : Collective) (p : Packet) : State × Collective :=
  if p.dst.toNat = s.myIndex then
    match s.receiveReduce { p with src := p.dst } with
    | (s, .error f) => (s, c.failed s.now f)
    | (s, .ok _) => (s, c)
  else
    let (s, tag) := s.send c.issuer p.cntaddr p
    (s, { c with tags := c.tags ++ [tag] })

/-- Deliveries sent in order. -/
def State.deliverAll (s : State) (c : Collective) (ps : List Packet) : State × Collective :=
  ps.foldl (fun acc p => acc.1.deliver acc.2 p) (s, c)

/-- The packets of a forwarded chunk to its group's other members (R256): raw cells or FP32 sums from this device's own
DST, which the reducer reads under RD of its leaf (DESIGN CHOICE, log 95). -/
def State.forwardPackets (s : State) (x : Nat) (f : Forward) : State × Except FaultInfo (List Packet) :=
  let a := weirAgent x (weirSet f.chunkno)
  f.runs.foldl (fun acc r =>
    match acc with
    | (s, .error e) => (s, .error e)
    | (s, .ok ps) =>
      let va := BitVec.ofNat 64 r.1
      match s.translate a Need.read va (fun _ => none) with
      | (s, .error e) => (s, .error e)
      | (s, .ok q) =>
        let (d, m) := match q.params with | some c => (c.rs, c.size) | none => (4, 4)
        match s.elementPlaces a Need.read (fun _ _ => none) va d r.2 with
        | (s, .error e) => (s, .error e)
        | (s, .ok ts) =>
          let s := (targetRuns m ts).foldl (fun s g =>
            s.touch ((g.head?.map fun t => t.2.2.1.lo).getD 0) ((g.head?.map fun t => t.2.2.2).getD 0) (g.length * m)) s
          let bad := (ts.filter fun t => (s.poisonAt t.2.2.2 m).isSome).map Prod.fst
          let bs := ts.flatMap fun t => s.bytesAt t.2.2.2 m
          let per := 4096 / m
          let cut := (List.range ((r.2 + per - 1) / per)).flatMap fun i =>
            f.dests.map fun dest =>
              let n := min per (r.2 - i * per)
              ({ dst := BitVec.ofNat 13 dest, kind := 9, ctx := BitVec.ofNat 6 x, len := n * m
                 addr := BitVec.ofNat 64 (r.1 + i * per * d), cntaddr := f.counter
                 chunkno := BitVec.ofNat 32 f.chunkno, etype := f.etype, chunk := f.chunk
                 full := BitVec.ofNat 40 f.full, routine := f.routine, rarg := f.rarg
                 beside := { size := f.full, first := BitVec.ofNat 64 ((f.runs.head?.map Prod.fst).getD 0) }
                 data := (bs.drop (i * per * m)).take (n * m)
                 bad := (bad.filter fun k => decide (i * per ≤ k) && decide (k < i * per + n)).map (· - i * per) }
                : Packet)
          (s, .ok (ps ++ cut))) (s, .ok [])

/-- A collective's forwards whose chunks are complete, sent (R256). -/
def State.sendForwards (s : State) (c : Collective) : State × Collective :=
  let due := c.forwards.filter fun f => !c.left.contains f.counter
  let c := { c with forwards := c.forwards.filter fun f => c.left.contains f.counter }
  due.foldl (fun acc f =>
    let (s, c) := acc
    match s.forwardPackets c.ctx.toNat f with
    | (s, .error e) => (s, c.failed s.now e)
    | (s, .ok ps) => s.deliverAll c ps) (s, c)

/-- Whether a collective's bound runs have all finished (R259). -/
def State.runsDone (s : State) (c : Collective) : Bool :=
  s.berms.all fun e => e.2.all fun r =>
    match r.chunk with
    | some (_, _, _, k) => !(r.ctx == c.ctx && c.all.contains k)
    | none => true

/-- Whether a collective has completed on this device (R259). -/
def State.collDone (s : State) (c : Collective) : Bool :=
  c.left.isEmpty && c.tags.isEmpty && c.forwards.isEmpty && s.runsDone c

/-- The earliest of some failures. -/
def firstFailure (fs : List (Nat × FaultInfo)) : Option FaultInfo :=
  (fs.foldl (fun (acc : Option (Nat × FaultInfo)) f => match acc with
    | none => some f
    | some g => if f.1 < g.1 then some f else some g) none).map Prod.snd

/-- The failure a completed collective ends with: the first of its deliveries' and its chunks' (R440). -/
def State.collFail (s : State) (c : Collective) : Option FaultInfo :=
  firstFailure (c.fail.toList ++ c.all.filterMap fun k => (s.chunk c.ctx.toNat k).fail)

/-- A collective node completed or failed (R77, R425). -/
def State.endNode (s : State) (x q n : Nat) (f : Option FaultInfo) : State :=
  let c := s.ctx x
  let u := c.queue q
  match u.run with
  | none => s
  | some r =>
    let st := if f.isSome then NodeSt.failed else .completed
    let nodes := match r.nodes[n]? with
      | some e => setAt r.nodes n { e with state := st }
      | none => r.nodes
    let s := s.setCtx x (c.setQueue q { u with run := some { r with nodes := nodes } })
    match f with
    | some f =>
      ((s.keepRecord x false fun k =>
        recordBits { f with akind := if 5 ≤ f.akind then f.akind else 7, res := false } x k false false false none q 0
          []).noteFail x q 0).doom x q n
    | none => s

/-- Whether a collective is a node's, and that node completes now: every counter of it is full (R77, R259). -/
def Collective.nodeDone (c : Collective) : Bool :=
  !c.ended && c.left.isEmpty && match c.issuer with | .node .. => true | _ => false

/-- The chunks of a collective rid of their failures. -/
def State.clearFails (s : State) (c : Collective) : State :=
  c.all.foldl (fun s k => s.mapChunk c.ctx.toNat k fun h => { h with fail := none }) s

/-- A completed collective leaves: its command's wait ends, or its node's (R259, R440); the fault is the command's or the
node's own, with the code of the failure (R375). -/
def State.endColl (s : State) (c : Collective) : State :=
  let f := (s.collFail c).map fun f => if f.akind = 5 then { f with akind := 4, aidx := 0 } else f
  let s := s.clearFails c
  match c.issuer with
  | .stream core _ => s.endWait core engLink c.wait f
  | .node x q n => s.endNode x q n f
  | _ => s

/-- The collectives looked at once: forwards that are due go, and those that have completed end. -/
def State.settleColls (s : State) : State :=
  let go (acc : State × List Collective) (c : Collective) : State × List Collective :=
    let (s, rest) := acc
    let c := { c with left := ((s.colls.find? fun d => decide (d.issuer = c.issuer ∧ d.wait = c.wait)).map
      Collective.left).getD c.left }
    let (s, c) := s.sendForwards c
    let (s, c) := if c.nodeDone then (s.endColl c, { c with ended := true }) else (s, c)
    if s.collDone c then (if c.ended then s.clearFails c else s.endColl c, rest) else (s, rest ++ [c])
  if s.colls.isEmpty then s
  else
    let (t, cs) := s.colls.foldl go (s, [])
    let left (c : Collective) : List Word :=
      ((t.colls.find? fun d => decide (d.issuer = c.issuer ∧ d.wait = c.wait)).map Collective.left).getD c.left
    { t with colls := cs.map fun c => { c with left := left c } }

end Sys2Proof.Machine
end

