-- ==== Sys2Proof/Machine/Collective.lean ====
section
/-!
DEFINITION. Starting a collective on this device: its descriptor and records checked, its deliveries built from the
exchange, and the collective entered among those in progress (R254 to R259, R436).
-/
namespace Sys2Proof.Machine

/-- The fault of an invalid collective (R424, R436). -/
def badColl (addr : Word) (reason : Nat) : FaultInfo :=
  { code := 0x0704, addr := addr, synd := BitVec.ofNat 64 reason }

/-- The pool that a descriptor's handles name: its address, and its count where it has one (R254). -/
structure Pool where
  addr : Word
  count : Option Nat
  deriving DecidableEq, Repr

/-- A record of a collective: none for a handle beyond the pool (R436). -/
def State.collRecord (s : State) (a : Agent) (p : Pool) (h : Nat) : State × Except Halt (Option PoolRec) :=
  if (p.count.map fun n => decide (n ≤ h)).getD false then (s, .ok none)
  else
    match s.readBytes a (p.addr + BitVec.ofNat 64 (64 * h)) 64 with
    | (s, .ok bs) => (s, .ok (some (ofBytes bs)))
    | (s, .error e) => (s, .error e)

/-- The polder parameters of the page at a record's BASE, by its translation here (R436); none for a record that holds
no element. -/
def State.basePage (s : State) (a : Agent) (need : Need) (r : PoolRec) : State × Except FaultInfo (Option CellParams) :=
  if (List.range 4).any fun k => rSize r k == 0 then (s, .ok none)
  else
    match s.translate a need (BitVec.ofNat 64 (rBase r)) (fun _ => none) with
    | (s, .error f) => (s, .error f)
    | (s, .ok p) => (s, .ok p.params)

/-- Whether types and cell classes are those of R255. -/
def typesOk (red : Bool) (se de : Nat) (srcCell dstCell : Option CellParams) : Bool :=
  if red then
    match dstCell with
    | some q => decide (q.rtype = de) && decide (se ≤ 3)
    | none => decide (de = 1) && decide (se ∈ [1, 2, 3])
  else se == de && srcCell.isNone && dstCell.isNone

/-- A collective checked in the order of R436's reasons: the exchange, or the fault. -/
def State.checkColl (s : State) (a : Agent) (d : Nat) (addr : Word) (pool : Pool) (node : Bool) :
    State × Except Halt Exchange :=
  let no (s : State) (k : Nat) : State × Except Halt Exchange := (s, .error (.fault (badColl addr k)))
  if !descriptorOk d node then no s 1
  else
    match s.collRecord a pool (dMesh d) with
    | (s, .error h) => (s, .error h)
    | (s, .ok mr) =>
      match mr.bind (meshOf s.torus) with
      | none => no s 2
      | some mesh =>
        match s.collRecord a pool (dShin d) with
        | (s, .error h) => (s, .error h)
        | (s, .ok ri) =>
          match ri.bind (shardingOf mesh) with
          | none => no s 3
          | some shin =>
            match s.collRecord a pool (dShout d) with
            | (s, .error h) => (s, .error h)
            | (s, .ok ro) =>
              match ro.bind (shardingOf mesh) with
              | none => no s 3
              | some shout =>
                let pin := shin.axes .partialSum
                let pout := shout.axes .partialSum
                if !pout.all pin.contains then no s 4
                else
                  match s.collRecord a pool (dSrc d) with
                  | (s, .error h) => (s, .error h)
                  | (s, .ok rs) =>
                    match s.collRecord a pool (dDst d) with
                    | (s, .error h) => (s, .error h)
                    | (s, .ok rd) =>
                      match rs, rd with
                      | some src, some dst =>
                        let sizes (r : PoolRec) := (List.range 4).map (rSize r)
                        if !tensorOk src || !tensorOk dst || sizes src != shin.extents || sizes dst != shout.extents then
                          no s 5
                        else
                          match s.basePage a Need.read src with
                          | (s, .error f) => (s, .error (.fault f))
                          | (s, .ok sc) =>
                            match s.basePage { a with sym := true } Need.add dst with
                            | (s, .error f) => (s, .error (.fault f))
                            | (s, .ok dc) =>
                              let red := pin.filter fun k => !pout.contains k
                              if !typesOk (!red.isEmpty) (rEtype src) (rEtype dst) sc dc then no s 5
                              else
                                match mesh.devs.findIdx? (· == s.myIndex) with
                                | none => no s 6
                                | some k =>
                                  (s, .ok { desc := d, mesh := mesh, shin := shin, shout := shout, src := src, dst := dst
                                            me := mixedRadix k mesh.sizes, red := red, polder := dc })
                      | _, _ => no s 5

/-! ## Deliveries -/

/-- One element of SRC: its bits, and whether its unit is poisoned (R255, R439). -/
def State.srcElement (s : State) (a : Agent) (r : PoolRec) (x : List Int) : State × Except Halt (Nat × Bool) :=
  let (addr, bit, _) := layoutMap r x
  let va := BitVec.ofNat 64 addr
  let n := rowBytes 1 (rWidth r)
  match s.translate a Need.read va (polderLoadCheck a va n 0) with
  | (s, .error f) => (s, .error (.fault f))
  | (s, .ok p) =>
    match s.readPage a va p n with
    | (s, .ok bs) => (s, .ok (ofBytes bs / 2 ^ bit % 2 ^ rWidth r, false))
    | (s, .error (.fault f)) => if f.code = 0x0401 then (s.found f, .ok (0, true)) else (s, .error (.fault f))
    | (s, .error h) => (s, .error h)

/-- One term: its destination, chunk, local element, destination address and bit, and its value with its poison. -/
structure Term where
  dest : Nat
  chunk : Nat
  elem : Nat
  addr : Nat
  bit : Nat
  value : Nat
  bad : Bool
  deriving DecidableEq, Repr

/-- The terms that this device sources, destination by destination in local element order (R255, R256). -/
def State.collTerms (s : State) (a : Agent) (x : Exchange) : State × Except Halt (List Term) :=
  (List.range x.mesh.devs.length).foldl (fun acc k =>
    let m := mixedRadix k x.mesh.sizes
    if !x.contributes m then acc
    else
      (List.range x.elements).foldl (fun acc e =>
        match acc with
        | (s, .error h) => (s, .error h)
        | (s, .ok ts) =>
          let c := x.chunkOf e
          if !x.reducer m c then (s, .ok ts)
          else
            match x.srcCoords m e with
            | none => (s, .ok ts)
            | some at' =>
              match s.srcElement a x.src at' with
              | (s, .error h) => (s, .error h)
              | (s, .ok (v, bad)) =>
                let (addr, bit) := x.dstAddr e
                (s, .ok (ts ++ [{ dest := nthD 0 x.mesh.devs k, chunk := c, elem := e, addr := addr, bit := bit
                                  value := v, bad := bad }]))) acc) (s, .ok [])

/-- The header of a term's packet (R330). -/
def Exchange.header (x : Exchange) (ctx : Nat) (t : Term) : Packet :=
  let copies := x.red.isEmpty
  { dst := BitVec.ofNat 13 t.dest, kind := 8, ctx := BitVec.ofNat 6 ctx, addr := BitVec.ofNat 64 t.addr
    cntaddr := x.counter t.chunk, contrib := BitVec.ofNat 32 (x.indexOn x.red x.me)
    chunkno := BitVec.ofNat 32 t.chunk, etype := BitVec.ofNat 4 (rEtype x.src)
    chunk := BitVec.ofNat 4 (dChunk x.desc), full := BitVec.ofNat 40 (x.sizeOf t.chunk * x.terms)
    routine := dRoutine x.desc, rarg := dRarg x.desc
    beside := { copies := copies, size := x.sizeOf t.chunk
                first := BitVec.ofNat 64 (x.dstAddr ((x.chunkElements t.chunk).headD 0)).1 } }

/-- The local byte of an E2M1 element, in local linear order, unless the element is alone in it: a byte counts once both its
elements have come (R257). -/
def Exchange.pairOf (x : Exchange) (e : Nat) : Option Nat := if e % 2 = 0 ∧ e + 1 = x.elements then none else some (e / 2)

/-- A packet of one nibble. -/
def Exchange.nibble (x : Exchange) (ctx : Nat) (t : Term) : Packet :=
  let h := x.header ctx t
  { h with
    len := 1, data := [BitVec.ofNat 8 (t.value * 2 ^ t.bit)], bad := if t.bad then [0] else []
    beside := { h.beside with note := if t.bit = 0 then 1 else 2, pair := x.pairOf t.elem } }

/-- Terms packed into deliveries: consecutive destination elements of one chunk and destination, at most 4,096 payload
bytes to a packet (R256, R331). The two elements of an E2M1 byte go as one byte when they follow each other. -/
def Exchange.pack (x : Exchange) (ctx : Nat) : List Term → List Packet → List Packet
  | [], acc => acc.reverse
  | t :: ts, acc =>
    let w := rWidth x.src
    let b := rowBytes 1 w
    let d := rowBytes 1 x.dstBits
    if w = 4 then
      match acc with
      | p :: ps =>
        if p.dst.toNat = t.dest ∧ p.cntaddr = x.counter t.chunk ∧ p.addr.toNat = t.addr ∧ p.beside.note = 1 ∧ t.bit = 4 ∧
            p.beside.pair.isSome ∧ p.beside.pair = x.pairOf t.elem then
          let v := (p.data.headD 0).toNat + t.value * 16
          x.pack ctx ts ({ p with beside := { p.beside with note := 0 }, data := [BitVec.ofNat 8 v],
                                  bad := if t.bad then [0] else p.bad } :: ps)
        else x.pack ctx ts (x.nibble ctx t :: acc)
      | [] => x.pack ctx ts [x.nibble ctx t]
    else
      let one := { x.header ctx t with len := b, data := toBytes b t.value, bad := if t.bad then [0] else [] }
      match acc with
      | p :: ps =>
        let n := p.data.length / b
        if p.dst.toNat = t.dest ∧ p.cntaddr = x.counter t.chunk ∧ p.addr.toNat + n * d = t.addr ∧
            p.data.length + b ≤ 4096 then
          x.pack ctx ts ({ p with len := p.len + b, data := p.data ++ toBytes b t.value,
                                  bad := if t.bad then p.bad ++ [n] else p.bad } :: ps)
        else x.pack ctx ts (one :: acc)
      | [] => x.pack ctx ts [one]

/-- Local elements of a chunk as runs of consecutive addresses. -/
def Exchange.runs (x : Exchange) (c : Nat) : List (Nat × Nat) :=
  let d := rowBytes 1 x.dstBits
  ((x.chunkElements c).foldl (fun acc e =>
    let a := (x.dstAddr e).1
    match acc with
    | (b, n) :: rest => if b + n * d = a ∧ n < 1024 then (b, n + 1) :: rest else (a, 1) :: (b, n) :: rest
    | [] => [(a, 1)]) []).reverse

/-- The forwards this device owes as a reducer (R256). -/
def Exchange.forwards (x : Exchange) : List Forward :=
  if x.groupAxes.isEmpty then []
  else
    let others := (List.range x.mesh.devs.length).filterMap fun k =>
      let m := mixedRadix k x.mesh.sizes
      let same := (List.range x.mesh.sizes.length).all fun a => x.groupAxes.contains a || nthD 0 m a == nthD 0 x.me a
      if same && m != x.me then some (nthD 0 x.mesh.devs k) else none
    ((List.range x.chunks).filter fun c => x.reducer x.me c).map fun c =>
      { counter := x.counter c, chunkno := c, runs := x.runs c, dests := others, full := x.sizeOf c
        chunk := BitVec.ofNat 4 (dChunk x.desc), etype := BitVec.ofNat 4 (rEtype x.dst)
        routine := dRoutine x.desc, rarg := dRarg x.desc }

/-- Whether a chunk counter of this device holds its flag; a counter that cannot be read holds none. -/
def State.flagged (s : State) (x : Nat) (k : Word) : Bool :=
  match (s.chunkCounter (weirAgent x 0) k).2 with
  | .ok (la, _) => decide (2 ^ 63 ≤ ofBytes (s.bytesAt la 8))
  | .error _ => false

/-- A checked collective begun: entered, and every delivery it owes sent (R256, R259). -/
def State.beginColl (s : State) (a : Agent) (x : Exchange) (issuer : Issuer) (wait : Nat) : State × Except Halt Unit :=
  match s.collTerms a x with
  | (s, .error h) => (s, .error h)
  | (s, .ok ts) =>
    let all := (List.range x.chunks).map x.counter
    let c : Collective := { issuer := issuer, wait := wait, ctx := BitVec.ofNat 6 a.ctx, all := all
                            left := all.filter fun k => !s.flagged a.ctx k, tags := [], forwards := x.forwards }
    let s := { s with colls := s.colls ++ [c] }
    let (s, c') := s.deliverAll c (x.pack a.ctx ts [])
    let put (d : Collective) : Collective :=
      if d.issuer = issuer ∧ d.wait = wait then { d with tags := c'.tags, fail := c'.fail } else d
    ({ s with colls := s.colls.map put }.settleColls, .ok ())

end Sys2Proof.Machine
end

