-- ==== Sys2Proof/Machine/Link.lean ====
section
/-!
DEFINITION. The link stream (R245 to R251, R259): puts, gets, remote counter adds, counter waits, fabric barriers,
collectives, fences and notifies.
-/
namespace Sys2Proof.Machine

/-- The check of a counter address (R246, R385). -/
def counterCheck (va : Word) : Option FaultInfo := faultIf (va.toNat % 8 != 0) { code := 0x0115, addr := va }

/-- The run of LPUT. -/
def lputRun : Runner := fun j s =>
  let tw := TileWord.of false (j.op 4)
  s.runStore j tw (fun _ => j.coords tw) (Conv.of j.ex) noPre (j.op 5)

/-- The unit's operand checks of LPUT (R385). -/
def checkLput (e : Ex) : Core → List Word → Option FaultInfo :=
  fun c ops =>
    firstFault [tileUnit (.lput e) e false c ops, counterCheck (nthD 0 ops 5)]

/-- LPUT (R246). -/
def execLput (e : Ex) (s : State) : Out :=
  dispatch (.lput e) e engLink (checkLput e) lputRun s

/-- LGET (R246). -/
def execLget (e : Ex) (s : State) : Out := dispatch (.lget e) e engLink (tileUnit (.lget e) e false) (loadRun false) s

/-- The run of LCELL. -/
def lcellRun : Runner := fun j s => s.runAdds j (j.op 5)

/-- The unit's operand checks of LCELL (R385). -/
def checkLcell (e : Ex) : Core → List Word → Option FaultInfo :=
  fun c ops => firstFault [addUnit e c ops, counterCheck (nthD 0 ops 5)]

/-- LCELL (R246). -/
def execLcell (e : Ex) (s : State) : Out :=
  dispatch (.lcell e) e engLink (checkLcell e) lcellRun s

/-- The run of LSIG: once every earlier link command has completed (R247). -/
def lsigRun : Runner := fun j s =>
  if !s.alone j.core j.eng then (s, .pending 0)
  else
    match s.counterPage (s.agent j.core j.eng) (slotWord j.q.instr) (j.op 0) with
    | (s, .error f) => (s, .fault none f)
    | (s, .ok p) => (s.counterAdd j (j.op 0) p (j.op 2), .done)

/-- The unit's operand checks of LSIG (R385). -/
def checkLsig (_e : Ex) : Core → List Word → Option FaultInfo :=
  fun _ ops => counterCheck (nthD 0 ops 0)

/-- LSIG (R247). -/
def execLsig (e : Ex) (s : State) : Out :=
  dispatch (.lsig e) e engLink (checkLsig e) lsigRun s

/-- One acquiring read of a counter by a link command, against its threshold: passed, or to be read again; a peer's
counter is asked for anew each time (R248). -/
def State.counterWait (s : State) (j : Job) (a : Agent) (va threshold : Word) (phase : Nat) : State × RunEnd :=
  let fault (f : FaultInfo) : RunEnd := if phase = 0 then .fault none f else .fault (some 0) f
  match s.translate a Need.read va (polderLoadCheck a va 8 (slotWord j.q.instr)) with
  | (s, .error f) => (s, fault f)
  | (s, .ok p) =>
    match s.readPage a va p 8 with
    | (s, .error (.fault f)) => (s, fault f)
    | (s, .error h) => (s, .halt 0 h)
    | (s, .ok bs) =>
      if threshold.toNat ≤ ofBytes bs then (s, .done)
      else
        match s.place p.gpa with
        | .peer dev =>
          let c := s.core j.core
          let g := c.engine j.eng
          let s := s.setCore j.core (c.setEngine j.eng { g with fetched := [] })
          (s, .halt 0 (.ask (s.request a 0 dev p.gpa 8 p.lo []) va))
        | _ => (s, .pending phase)

/-- The run of LWAITC. -/
def lwaitcRun : Runner := fun j s => s.counterWait j (s.agent j.core j.eng) (j.op 0) (j.op 2) 0

/-- The unit's operand checks of LWAITC (R385). -/
def checkLwaitc (_e : Ex) : Core → List Word → Option FaultInfo :=
  fun _ ops => counterCheck (nthD 0 ops 0)

/-- LWAITC (R248). -/
def execLwaitc (e : Ex) (s : State) : Out :=
  dispatch (.lwaitc e) e engLink (checkLwaitc e) lwaitcRun s

/-- The adds of LBAR: at this device's own counter, and by a packet under symmetric addressing to each other device of
the mesh (R249, R251, log 24). -/
def State.barrierAdds (s : State) (j : Job) (m : Mesh) (p : Page) : State :=
  let a := s.agent j.core j.eng
  m.devs.foldl (fun s d =>
    if d = s.myIndex then s.counterAdd j (j.op 0) p 1
    else s.sendCmd j (j.op 0) { dst := BitVec.ofNat 13 d, kind := 4, ctx := BitVec.ofNat 6 a.ctx, len := 8
                                addr := j.op 0, beside := { note := 1 }, data := toBytes 8 1 }) s

/-- The run of LBAR: the adds once every earlier link command has completed, then the wait (R249, R395). -/
def lbarRun : Runner := fun j s =>
  let a := { s.agent j.core j.eng with sym := true }
  if j.phase = 0 then
    if !s.alone j.core j.eng then (s, .pending 0)
    else
      match s.poolRecord { a with sym := false } (s.jobKernel j) (j.op 2).toNat with
      | (s, .error (.fault f)) => (s, .fault none f)
      | (s, .error h) => (s, .halt 0 h)
      | (s, .ok r) =>
        match meshOf s.torus r with
        | none => (s, .fault none (badRecord (j.op 2).toNat r))
        | some m =>
          match s.counterPage a (slotWord j.q.instr) (j.op 0) with
          | (s, .error f) => (s, .fault none f)
          | (s, .ok p) => (s.barrierAdds j m p, .pending 1)
  else s.counterWait j a (j.op 0) (j.op 4) 1

/-- The unit's operand checks of LBAR (R385). -/
def checkLbar (_e : Ex) : Core → List Word → Option FaultInfo :=
  fun _ ops =>
    firstFault [faultIf (decide (4096 ≤ (nthD 0 ops 2).toNat)) (badWord (nthD 0 ops 2) 2), counterCheck (nthD 0 ops 0)]

/-- LBAR (R249). -/
def execLbar (e : Ex) (s : State) : Out :=
  dispatch (.lbar e) e engLink (checkLbar e) lbarRun s

/-- The run of COLL: the descriptor and records checked at start, then every delivery sent; the collective's completion
ends the wait (R254, R259, R436). -/
def collRun : Runner := fun j s =>
  let a := s.agent j.core j.eng
  let k := s.jobKernel j
  match s.readBytes a (j.op 0) 64 with
  | (s, .error (.fault f)) => (s, .fault none f)
  | (s, .error h) => (s, .halt 0 h)
  | (s, .ok bs) =>
    let d := ofBytes bs
    let pool : Pool := if dPool d = 0 then { addr := kPoolAddr k, count := some (kPoolCnt k) }
      else { addr := BitVec.ofNat 64 (dPool d), count := none }
    match s.checkColl a d (j.op 0) pool false with
    | (s, .error (.fault f)) => (s, .fault none f)
    | (s, .error h) => (s, .halt 0 h)
    | (s, .ok x) =>
      let (s, id) := s.newWait
      let s := s.mapStarted j.core j.eng fun t => { t with waits := [id] }
      match s.beginColl a x (.stream j.core (j.eng + 1)) id with
      | (s, .error (.fault f)) => (s, .fault none f)
      | (s, .error h) => (s.mapStarted j.core j.eng fun t => { t with waits := [] }, .halt 0 h)
      | (s, .ok ()) => (s, .done)

/-- The unit's operand checks of COLL (R385). -/
def checkColl (_e : Ex) : Core → List Word → Option FaultInfo :=
  fun _ ops =>
    faultIf ((nthD 0 ops 0).toNat % 64 != 0) { code := 0x0115, addr := nthD 0 ops 0 }

/-- COLL (R254, R259). -/
def execColl (e : Ex) (s : State) : Out :=
  dispatch (.coll e) e engLink (checkColl e) collRun s

/-- The run of LFENCE: every earlier link command has completed, and every recorded write of the control stream is
performed (R250). -/
def lfenceRun : Runner := fun j s =>
  let waiting := (j.q.ops.drop 7).any fun t => (s.core j.core).postedTags.contains t.toNat
  if s.alone j.core j.eng && !waiting then (s, .done) else (s, .pending 0)

/-- LFENCE (R250): at dispatch, dirty bytes written back for scope DIE and wider, and the control stream's writes
recorded. -/
def execLfence (e : Ex) (s : State) : Out :=
  let c := s.here
  if !c.readP e.g then .next s
  else if queueDepth ≤ (c.engine engLink).queue.length then .next (s.block .queueFull)
  else
    let s := s.releaseBack s.focus.toNat (bitsOf e.ext.toNat 2 0)
    let c := s.here
    let ops := c.capture e ++ c.postedTags.map (BitVec.ofNat 64)
    let t := s.setHere (c.enqueue (.lfence e) engLink ops 0)
    .next (if (c.engine engLink).queue.isEmpty then t.startHead s.focus.toNat engLink lfenceRun else t)

/-- The latch of a notified core set when its task's context has the issuer's number (R250). -/
def State.notifyCore (s : State) (x : Nat) (w : Word) : State := s.setEvent x 2 (w.toNat % 256)

/-- The run of LNOTIFY: once every earlier link command has completed (R250). -/
def lnotifyRun : Runner := fun j s =>
  let w := j.op 0
  let dev := bitsOf w.toNat 20 8
  let a := s.agent j.core j.eng
  if !s.alone j.core j.eng then (s, .pending 0)
  else if dev = s.myIndex then (s.notifyCore a.ctx w, .done)
  else
    (s.sendCmd j 0 { dst := BitVec.ofNat 13 dev, kind := 5, ctx := BitVec.ofNat 6 a.ctx, len := 8
                     data := toBytes 8 w.toNat }, .done)

/-- The unit's operand checks of LNOTIFY (R385). -/
def checkLnotify (_e : Ex) : Core → List Word → Option FaultInfo :=
  fun _ ops => faultIf (bitsOf (nthD 0 ops 0).toNat 63 21 != 0) (badWord (nthD 0 ops 0) 1)

/-- LNOTIFY (R250). -/
def execLnotify (e : Ex) (s : State) : Out :=
  dispatch (.lnotify e) e engLink (checkLnotify e) lnotifyRun s

/-- LSLW (R168). -/
def execLslw (g : BitVec 4) (l n : BitVec 6) (s : State) : Out :=
  dispatchSync (.lslw g l n) g engLink 0 (fun core => syncWait core engLink l n) s
/-- LSLS (R168). -/
def execLsls (g : BitVec 4) (l n : BitVec 6) (s : State) : Out :=
  dispatchSync (.lsls g l n) g engLink 0 (fun core => syncSignal core engLink l n) s
/-- LTLW (R168). -/
def execLtlw (g : BitVec 4) (t sr : BitVec 6) (s : State) : Out :=
  dispatchSync (.ltlw g t sr) g engLink sr (fun core => syncTimeline core engLink t) s

end Sys2Proof.Machine
end

