-- ==== Sys2Proof/Machine/MemEvents.lean ====
section
/-!
DEFINITION. The steps of the memory system: TLB invalidation, migration, channel retirement, the hot-page tracker, far
extents, and the error registers (R97, R98, R108 to R112, R349, R350, R411 to R416).
-/
namespace Sys2Proof.Machine

/-- The memory block changed. -/
def State.mapMem (s : State) (f : MemRegs → MemRegs) : State := { s with memr := f s.memr }

/-! ## TLB invalidation (R97, R98) -/

/-- Whether a TLBINV value has only legal bits (R98, R405). -/
def tlbinvOk (v : Word) : Bool := bitsOf v.toNat 63 57 == 0 && bitsOf v.toNat 15 2 == 0

/-- Whether a TLB entry matches an invalidation of context `x`: its page overlaps the page named (R98). -/
def TlbEntry.hit (e : TlbEntry) (x : Nat) (v : Word) : Bool :=
  let size := v.toNat % 4
  let n := frameBytes size
  let base := v.toNat % 2 ^ 57 / n * n
  decide (e.ctx.toNat = x) &&
    (size == 3 || (decide (e.base < base + n) && decide (base < e.base + frameBytes e.size)))

/-- A write of TLBINV: an invalidation begins, or queues behind the one in progress (R98); an illegal value is ignored
(R405). -/
def State.writeTlbinv (s : State) (x : Nat) (value : Word) : State :=
  let c := s.ctx x
  if tlbinvOk value then s.setCtx x { c with tlbinv := value, tlbinvQueue := c.tlbinvQueue ++ [value] } else s

/-- TLBINV_WRITE (R98). -/
def execTlbinvWrite (ctx : BitVec 6) (value : Word) (s : State) : Out := .next (s.whenUp fun s => s.writeTlbinv ctx.toNat value)

/-- What a core holds back of the stores of context `x` sent on: its dirty lines and its combined stores. -/
def State.sendHome (s : State) (core x : Nat) : State :=
  let s := match (s.core core).comb with
    | some g => if g.ctx.toNat = x then s.flushComb core else s
    | none => s
  ((s.core core).dirtyLines.filter fun l => ((s.core core).dirtyGroups l).any fun g => decide (g.1.toNat = x)).foldl
    (fun s l => s.writeBackLine core l) s

/-- The lines of L2 that hold bytes of context `x` not yet at their homes, written back there (R89, R98). -/
def MemRegs.cleanL2 (m : MemRegs) (x : Nat) : MemRegs :=
  let owned (l : L2Line) : Bool := l.dirty != 0 && l.owners.getLsbD x
  let m' := (m.l2.flatMap fun e => e.2.filter owned).foldl MemRegs.l2WriteBack m
  { m' with l2 := m'.l2.map fun e => (e.1, e.2.map fun l => if owned l then l.clean else l) }

/-- TLB_INVALIDATION_COMPLETE: the matching entries leave every TLB, once every access of the context, stores that cores and
L2 hold back included, has reached its home (R98, log 34). -/
def execTlbInvalidationComplete (ctx : BitVec 6) (s : State) : Out :=
  let x := ctx.toNat
  let c := s.ctx x
  match c.tlbinvQueue with
  | [] => .next s
  | v :: rest =>
    let s := (s.cores.foldl (fun s e => s.sendHome e.1 x) s).mapMem fun m => m.cleanL2 x
    if s.fab.requests.any fun r => decide (r.ctx = x) then .next s
    else
      let keep (t : List TlbEntry) : List TlbEntry := t.filter fun e => !e.hit x v
      let s := s.setCtx x { c with tlbinvQueue := rest }
      let s := s.cores.foldl (fun s e => s.setCore e.1 { s.core e.1 with tlb := keep (s.core e.1).tlb }) s
      .next (s.l2tlb.foldl (fun s e => { s with l2tlb := Table.set [] s.l2tlb e.1 (keep (s.l2 e.1)) }) s)

/-! ## Migration (R108, R109, R412) -/

/-- Whether a frame of a size lies wholly in mapped memory of this device. -/
def State.frameMapped (s : State) (gpa n : Nat) : Bool :=
  decide (gpa / 2 ^ 51 = s.myIndex) && (gpa :: (gpa + n - 1) :: (List.range (n / 2 ^ 28)).map fun k => gpa + k * 2 ^ 28).all fun a =>
    match s.place a with
    | .mem _ => true
    | _ => false

/-- Whether two ranges of equal length overlap. -/
def overlaps (a b n m : Nat) : Bool := decide (a < b + m) && decide (b < a + n)

/-- Whether a range overlaps a frame of an active migration. -/
def MemRegs.busyFrame (m : MemRegs) (la n : Nat) : Bool :=
  m.migs.any fun g => overlaps la g.old n (frameBytes g.size) || overlaps la g.new n (frameBytes g.size)

/-- Why a submission is refused: the frame concerned and the reason; OLD is looked at before NEW (R412). -/
def State.migRefusal (s : State) (lo hi : Word) : Option (Nat × Nat) :=
  let size := lo.toNat % 4
  let n := frameBytes size
  let old := lo.toNat / 2 ^ 16 * 2 ^ 16
  let new := hi.toNat / 2 ^ 16 * 2 ^ 16
  let la (a : Nat) : Nat := a % 2 ^ 51
  if 256 ≤ s.memr.migs.length then some (old, 1)
  else if size = 3 ∨ bitsOf lo.toNat 15 2 ≠ 0 ∨ old % n ≠ 0 then some (old, 2)
  else if bitsOf hi.toNat 15 0 ≠ 0 ∨ new % n ≠ 0 then some (new, 2)
  else if !s.frameMapped old n then some (old, 3)
  else if !s.frameMapped new n then some (new, 3)
  else if overlaps (la old) (la new) n n || s.memr.busyFrame (la old) n then some (old, 4)
  else if s.memr.busyFrame (la new) n then some (new, 4)
  else none

/-- The write of MIGSUB.H (R108): a refused one has no effect but its report (R412). -/
def State.submitMigration (s : State) (value : Word) : State :=
  let lo := s.memr.migSubL
  match s.migRefusal lo value with
  | some (frame, why) => (s.mapMem fun m => { m with migRefused := m.migRefused + 1 }).migErr frame why
  | none =>
    let g : Migration := { old := lo.toNat / 2 ^ 16 * 2 ^ 16 % 2 ^ 51, new := value.toNat / 2 ^ 16 * 2 ^ 16 % 2 ^ 51
                           size := lo.toNat % 4 }
    s.mapMem fun m => { m with migSubH := value, migs := m.migs ++ [g] }

/-- MIGRATION_SUBMIT (R108). -/
def execMigrationSubmit (value : Word) (s : State) : Out := .next (s.whenUp fun s => s.submitMigration value)

/-- The first number from `k` that a table of arrivals does not list. -/
def firstGap : Nat → Table Bool → Nat
  | k, [] => k
  | k, (j, _) :: t => if j = k then firstGap (k + 1) t else k

/-- The first granule of a migration that has not arrived; the number of granules when all have. -/
def Migration.nextGranule (g : Migration) : Nat := firstGap 0 g.arrived

/-- A migration whose granules have all arrived completes (R109). -/
def MemRegs.finishMig (m : MemRegs) (new : Nat) : MemRegs :=
  match m.migs.find? fun g => g.new == new with
  | some g =>
    if frameBytes g.size / 256 ≤ g.nextGranule then
      { m with migs := m.migs.filter (fun h => h.new != new), migDone := m.migDone + 1 }
    else m
  | none => m

/-- MIGRATION_BACKGROUND_COPY: the next granule of an active migration that has not arrived is copied, and the migration
completes when none is left (R109, R413). -/
def execMigrationBackgroundCopy (slot granule : Nat) (s : State) : Out :=
  match s.memr.migs[slot]? with
  | none => .next s
  | some g =>
    let n := g.nextGranule
    let s := if n = granule ∧ n < frameBytes g.size / 256 then s.pullGranule g n else s
    .next (s.mapMem fun m => m.finishMig g.new)

/-! ## Channel retirement (R110, R412, R413) -/

/-- The write of CHRET (R110, R412): every granule of HBM4E is in migration, and leaves its old home's cache. Bytes
above the new capacity are lost (R413). -/
def State.retireChannel (s : State) (value : Word) : State :=
  let m := s.memr
  let refuse (why : Nat) : State := s.mapMem fun m => { m with
    migErr := BitVec.ofNat 64 (value.toNat % 2 ^ 9 * 2 ^ 16 + why) }
  if m.chBusy then refuse 5
  else if 384 ≤ value.toNat ∨ !m.live.contains value.toNat ∨ m.live.length ≤ 1 then refuse 6
  else
    let live := m.live.filter (· != value.toNat)
    let cap := live.length * 2 ^ 31
    { s with
      mem := s.mem.filter fun e => decide (e.1 < cap) || decide (2 ^ 48 ≤ e.1)
      merr := s.merr.filter fun e => decide (32 * e.1 < cap) || decide (2 ^ 48 ≤ 32 * e.1)
      memr := { m with
        live := live, oldLive := m.live, chret := value, chBusy := true, retired := m.retired + 1
        retNext := 0, retArrived := []
        msc := m.msc.filterMap fun e =>
          let ls := e.2.filter fun l => isFar (256 * l.line)
          if ls.isEmpty || decide (360448 ≤ e.1 % mscSets) then none else some (e.1, ls) } }

/-- CHANNEL_RETIRE (R110). -/
def execChannelRetire (value : Word) (s : State) : Out := .next (s.whenUp fun s => s.retireChannel value)

/-- RETIREMENT_FILL: the background engines read, under the old placement and in ascending order, up to the next granule
that holds an error and has not arrived; when none is left every granule has arrived (R110, R413). -/
def execRetirementFill (s : State) : Out :=
  if s.memr.chBusy then
    match s.merr.find? fun e => decide (s.memr.retNext ≤ e.1 / 8) && !isFar (32 * e.1) && !s.memr.retired? (32 * e.1) with
    | some e => .next ((s.ecc (e.1 / 8 * 256) 256).mapMem fun m => { m with retNext := e.1 / 8 + 1 })
    | none => .next (s.mapMem fun m => { m with chBusy := false, oldLive := [], retNext := 0, retArrived := [] })
  else .next s

/-! ## The hot-page tracker (R111, R112) -/

/-- Whether a far frame is part of a polder page with pending adds (R112). -/
def MemRegs.pendingAdds (m : MemRegs) (frame : Nat) : Bool :=
  m.cellsUsed.any fun e => overlaps e.2.1 (frame * 2 ^ 16) e.2.2 (2 ^ 16)

/-- One frame judged at the end of an epoch by the memory-side cache that counted it (R111, R112). DESIGN CHOICE (log 71): a
withheld frame that several caches counted raises HPSKPIN or HPSKCELL once for each. -/
def State.judgeFrame (s : State) (key count : Nat) : State :=
  let m := s.memr
  let frame := key / 4
  if count < bitsOf m.hpctl.toNat 63 48 then s
  else if Table.get false m.hpPinned frame then s.mapMem fun m => { m with hpSkPin := m.hpSkPin + 1 }
  else if m.pendingAdds frame then s.mapMem fun m => { m with hpSkCell := m.hpSkCell + 1 }
  else if 256 ≤ m.hpQueue.length then s
  else
    let v := BitVec.ofNat 64 (s.global (frame * 2 ^ 16) + min count 32767 * 2 + 1)
    s.mapMem fun m => { m with hpQueue := m.hpQueue ++ [v] }

/-- The end of an epoch: every counted frame judged, in ascending frame order and for one frame in die order (log 71), and
the counts cleared (R111, R112). DESIGN CHOICE (log 71): a THRESH of 0 proposes only frames with at least one counted miss,
and counts taken before EN was cleared stand until an epoch ends with EN set. -/
def State.endEpoch (s : State) : State :=
  if s.memr.hpctl.getLsbD 0 then
    (s.memr.hpCounts.foldl (fun s e => s.judgeFrame e.1 e.2) s).mapMem fun m => { m with hpCounts := [], hpPinned := [] }
  else s

/-- HOT_PAGE_EPOCH_END (R111, R112). -/
def execHotPageEpochEnd (s : State) : Out := .next s.endEpoch

/-- A read of HPPOP (R111). -/
def State.readHppop (s : State) : State × Word :=
  (s.mapMem fun m => { m with hpQueue := m.hpQueue.drop 1 }, s.memr.hpQueue.headD 0)

/-- HPPOP_READ (R111). -/
def execHppopRead (s : State) : Out := .next (s.readUp State.readHppop)

/-! ## Far extents (R349, R350, R414 to R416) -/

/-- The number of an extent table's entry. -/
def extentKey (p k : Nat) : Nat := 256 * p + k

/-- An extent's state set. -/
def State.setExtent (s : State) (p k st : Nat) : State :=
  let e := s.memr.extent p k
  let e' : Extent := if st = 0 then {} else { e with state := st }
  s.mapMem fun m => { m with extents := Table.set {} m.extents (extentKey p k) e' }

/-- EXTENT_ADD: a free entry takes an extent in state offered (R350). -/
def execExtentAdd (pt : BitVec 1) (entry : BitVec 8) (base : Word) (units : BitVec 32) (s : State) : Out :=
  let e := s.memr.extent pt.toNat entry.toNat
  if e.state = 0 ∧ base.toNat % 2 ^ 28 = 0 then
    let n : Extent := { base := base.toNat, len := units.toNat, state := 1 }
    .next (s.mapMem fun m => { m with extents := Table.set {} m.extents (extentKey pt.toNat entry.toNat) n })
  else .next s

/-- A write of EXTCTL kept (R339). -/
def State.writeExtctl (s : State) (op p k : Nat) : State :=
  s.mapMem fun m => { m with extctl := BitVec.ofNat 64 (op * 2 ^ 9 + p * 2 ^ 8 + k) }

/-- The act of a write of EXTCTL: accept takes an offered extent online, release begins to release an online one, which
is no longer mapped (R350, R414). -/
def State.extentAct (s : State) (op p k : Nat) : State :=
  let s := s.writeExtctl op p k
  let st := (s.memr.extent p k).state
  if op = 1 ∧ st = 1 then s.setExtent p k 2 else if op = 2 ∧ st = 2 then s.setExtent p k 3 else s

/-- EXTENT_ACCEPT (R350). -/
def execExtentAccept (pt : BitVec 1) (entry : BitVec 8) (s : State) : Out :=
  .next (s.whenUp fun s => s.extentAct 1 pt.toNat entry.toNat)

/-- EXTENT_RELEASE (R350, R414). -/
def execExtentRelease (pt : BitVec 1) (entry : BitVec 8) (s : State) : Out :=
  .next (s.whenUp fun s => s.extentAct 2 pt.toNat entry.toNat)

/-- The range of an extent. -/
def Extent.range (e : Extent) : Nat × Nat := (e.base, e.len * extentUnit)

/-- A set of lines by its number, unless it is empty. -/
def keepSome {α : Type} (k : Nat) (ls : List α) : Option (Nat × List α) := if ls.isEmpty then none else some (k, ls)

/-- A range of far memory gone from this device's homes and L2, with its bytes: they are with the memory device, or lost. -/
def State.leaveFar (s : State) (lo n : Nat) : State :=
  let far (f : Nat) (u : Nat) : Bool := decide (f * u < lo + n) && decide (lo < (f + 1) * u)
  { s with
    mem := Table.dropRange lo n s.mem
    merr := s.merr.filter fun e => !far e.1 32
    memr := { s.memr with
      l2 := s.memr.l2.filterMap fun (e : Nat × List L2Line) => keepSome e.1 (e.2.filter fun l => !far l.line 128)
      msc := s.memr.msc.filterMap fun (e : Nat × List MscLine) => keepSome e.1 (e.2.filter fun l => !far l.line 256)
      cellsUsed := s.memr.cellsUsed.filter fun e => !far e.1 1 } }

/-- Every copy of a range of far memory dropped, those of the cores among them (R415). -/
def State.dropFar (s : State) (lo n : Nat) : State :=
  (s.leaveFar lo n).cores.foldl (fun s e =>
    let c := (s.core e.1).dropRange (s.global lo) n
    let gone := match c.comb with
      | some g => decide (s.global lo ≤ 256 * g.granule) && decide (256 * g.granule < s.global lo + n)
      | none => false
    s.setCore e.1 { c with comb := if gone then none else c.comb }) (s.leaveFar lo n)

/-- EXTENT_RELEASE_COMPLETE: the write-backs accepted, the release reported and the entry free; what a core still holds dirty
meets 0x0306 when it goes home (R350, R414). -/
def execExtentReleaseComplete (pt : BitVec 1) (entry : BitVec 8) (s : State) : Out :=
  let p := pt.toNat
  let k := entry.toNat
  let e := s.memr.extent p k
  if e.state = 3 then
    let s := (s.leaveFar e.range.1 e.range.2).setExtent p k 0
    .next { s with out := s.out ++ [.extentReleased p k] }
  else .next s

/-- EXTENT_RELEASE_REQUEST: the fabric manager's request is an event of the device (R350, R359). -/
def execExtentReleaseRequest (_pt : BitVec 1) (_entry : BitVec 8) (s : State) : Out := .next (s.devEvent 0)

/-- Who last wrote dirty bytes at an address, and when. -/
structure LastWrite where
  la : Nat
  ctx : BitVec 6
  stamp : Nat
  deriving DecidableEq, Repr

/-- The dirty bytes that the caches hold: those of the memory-side caches, of L2, and of the cores (R415). -/
def State.dirtyHolders (s : State) : List LastWrite :=
  let base := s.global 0
  (s.memr.msc.flatMap fun e => e.2.filterMap fun l =>
    if l.dirty = 0 then none else some { la := 256 * l.line, ctx := l.ctx, stamp := l.stamp }) ++
  (s.memr.l2.flatMap fun e => e.2.filterMap fun l =>
    if l.dirty = 0 then none else some { la := 128 * l.line, ctx := l.ctx, stamp := l.stamp }) ++
  s.cores.flatMap fun c =>
    (c.2.l1d.filterMap fun e => e.2.bind fun b =>
      if b.dirty && decide (base ≤ e.1) then some { la := e.1 - base, ctx := b.ctx, stamp := b.stamp } else none) ++
    (c.2.comb.toList.filterMap fun g =>
      if base ≤ 256 * g.granule then some { la := 256 * g.granule - base, ctx := g.ctx, stamp := g.stamp } else none)

/-- The pages of a range that hold dirty bytes, with the context that last wrote each (R415): the holder of the latest store,
of equal ones the first in the order above (log 71). -/
def State.dirtyPages (s : State) (lo n : Nat) : Table (BitVec 6) :=
  let inside (w : LastWrite) : Bool := decide (w.la / 2 ^ 16 * 2 ^ 16 < lo + n) && decide (lo < (w.la / 2 ^ 16 + 1) * 2 ^ 16)
  let add (t : Table (BitVec 6 × Nat)) (w : LastWrite) : Table (BitVec 6 × Nat) :=
    match t.find? fun e => e.1 == w.la / 2 ^ 16 with
    | some e => if e.2.2 < w.stamp then Table.insert e.1 (w.ctx, w.stamp) (Table.erase e.1 t) else t
    | none => Table.insert (w.la / 2 ^ 16) (w.ctx, w.stamp) t
  ((s.dirtyHolders.filter inside).foldl add []).map fun e => (e.1, e.2.1)

/-- An active migration that a forced removal cuts (R416). -/
def State.cutMigration (s : State) (lo n : Nat) (g : Migration) : State :=
  let bytes := frameBytes g.size
  let oldIn := overlaps g.old lo bytes n
  let newIn := overlaps g.new lo bytes n
  if !oldIn && !newIn then s
  else
    let s :=
      if oldIn && !newIn then
        let lost (u : Nat) : Bool := !Table.get false g.arrived ((32 * u - g.new) / 256)
        let units := (List.range (bytes / 32)).map (g.new / 32 + ·)
        { s with merr := (units.filter lost).foldl (fun m u => Table.set 0 m u 3) s.merr }
      else s
    let s := s.mapMem fun m => { m with migs := m.migs.filter (fun h => h.new != g.new), migDone := m.migDone + 1 }
    s.migErr (s.global (if oldIn then g.old else g.new)) 8

/-- A forced removal of an extent (R415, R416). -/
def State.forceRemove (s : State) (p k : Nat) : State :=
  let e := s.memr.extent p k
  if e.state = 0 then s
  else
    let (lo, n) := e.range
    let s := s.memr.migs.foldl (fun s g => s.cutMigration lo n g) s
    let lost := if e.state = 1 then [] else s.dirtyPages lo n
    let s := if e.state = 1 then s else s.dropFar lo n
    let s := (s.setExtent p k 0).devEvent 3
    lost.foldl (fun s d => s.notice d.2.toNat { code := 0x0405, addr := BitVec.ofNat 64 (d.1 * 2 ^ 16)
                                                synd := BitVec.ofNat 64 (256 * p + k), akind := 12 }) s

/-- EXTENT_FORCED_REMOVAL (R415). -/
def execExtentForcedRemoval (pt : BitVec 1) (entry : BitVec 8) (s : State) : Out :=
  .next (s.forceRemove pt.toNat entry.toNat)

/-- CXL_LINK_FAILURE: every online and releasing extent of the port is removed (R415). -/
def execCxlLinkFailure (pt : BitVec 1) (s : State) : Out :=
  let p := pt.toNat
  let ks := (List.range 256).filter fun k => decide (2 ≤ (s.memr.extent p k).state)
  .next (ks.foldl (fun s k => s.forceRemove p k) s)

/-- EXTENT_RELEASE_TIMEOUT: a release not accepted in time becomes a forced removal (R415). -/
def execExtentReleaseTimeout (pt : BitVec 1) (entry : BitVec 8) (s : State) : Out :=
  if (s.memr.extent pt.toNat entry.toNat).state = 3 then .next (s.forceRemove pt.toNat entry.toNat) else .next s

/-! ## Error registers (R411, R412, R433) -/

/-- A read of a channel's CHERR: CORR and UNC are cleared (R411). -/
def State.readCherr (s : State) (k : Nat) : State × Word :=
  let w := Table.get 0 s.memr.cherr k
  (s.mapMem fun m => { m with cherr := Table.set 0 m.cherr k (BitVec.ofNat 64 (w.toNat % 2 ^ 40)) }, w)

/-- CHERR_READ (R411). -/
def execCherrRead (chan : BitVec 9) (s : State) : Out := .next (s.readUp fun s => s.readCherr chan.toNat)

/-- A read of a die's SRAMERR: every field is cleared (R411). -/
def State.readSramerr (s : State) (k : Nat) : State × Word :=
  (s.mapMem fun m => { m with sramerr := Table.set 0 m.sramerr k 0 }, Table.get 0 s.memr.sramerr k)

/-- SRAMERR_READ (R411). -/
def execSramerrRead (die : BitVec 2) (s : State) : Out := .next (s.readUp fun s => s.readSramerr die.toNat)

/-- A read of MIGERR: it is cleared (R412). -/
def State.readMigerr (s : State) : State × Word := (s.mapMem fun m => { m with migErr := 0 }, s.memr.migErr)

/-- MIGERR_READ (R412). -/
def execMigerrRead (s : State) : Out := .next (s.readUp State.readMigerr)

end Sys2Proof.Machine
end

