-- ==== Sys2Proof/Machine/Functions.lean ====
section
/-!
DEFINITION. The functions of R304: each returns the exact value rounded once. A value is enclosed between two
fixed-point numbers of growing precision until both round to the same bits; the results that are exact have arms of
their own. Also SHAKE256 (R82).
-/
namespace Sys2Proof.Machine

/-- Fixed-point product at precision `p`. -/
def fxMul (p : Nat) (a b : Int) : Int := a * b / ((2 ^ p : Nat) : Int)

/-- Fixed-point quotient at precision `p`. -/
def fxDiv (p : Nat) (a b : Int) : Int := a * ((2 ^ p : Nat) : Int) / b

/-- `m * 2^e` in fixed point at precision `p`, rounded down. -/
def fxOf (p : Nat) (m : Nat) (e : Int) : Int :=
  let s := e + (p : Int)
  if 0 ≤ s then ((m * 2 ^ s.toNat : Nat) : Int)
  else if decide ((Nat.log2 m : Int) + s < 0) then 0
  else ((m / 2 ^ (-s).toNat : Nat) : Int)

/-- The sum of `t, t*x/a, t*x*x/(a*b), …` with divisors `d, d + s, …`: `n` terms of a power series whose term ratio
is `x / divisor`. -/
def fxSeries (p : Nat) (x : Int) (next : Nat → Nat) : Nat → Nat → Int → Int → Int
  | 0, _, _, acc => acc
  | n + 1, k, t, acc =>
    if t = 0 then acc
    else
      let t' := fxMul p t x / ((next k : Nat) : Int)
      fxSeries p x next n (k + 1) t' (acc + t')

/-- The sum over odd `k` of `z^k / k`, from `t = z^k` (the series of atanh for `x = z^2`, of atan for `-z^2`). -/
def fxOdd (p : Nat) (x : Int) : Nat → Nat → Int → Int → Int
  | 0, _, _, acc => acc
  | n + 1, k, t, acc =>
    if t = 0 then acc
    else fxOdd p x n (k + 2) (fxMul p t x) (acc + t / ((k : Nat) : Int))

/-- ln 2. -/
def fxLn2 (p : Nat) : Int :=
  let z : Int := ((2 ^ p / 3 : Nat) : Int)
  2 * fxOdd p (fxMul p z z) (p + 8) 1 z 0

/-- atan(1/d). -/
def fxAtanInv (p d : Nat) : Int :=
  let z := ((2 ^ p / d : Nat) : Int)
  fxOdd p (-(fxMul p z z)) (p + 8) 1 z 0

/-- pi. -/
def fxPi (p : Nat) : Int := 4 * (4 * fxAtanInv p 5 - fxAtanInv p 239)

/-- e^x for a fixed-point `x`: a fixed-point number and a power of two to multiply by. -/
def fxExp (p : Nat) (x : Int) : Int × Int :=
  let l := fxLn2 p
  let k := x / l
  let r := x - k * l
  let one : Int := ((2 ^ p : Nat) : Int)
  (fxSeries p r id (p / 2 + 40) 1 one one, k)

/-- ln of `m * 2^e`, for positive `m`. -/
def fxLog (p : Nat) (m : Nat) (e : Int) : Int :=
  let lg := Nat.log2 m
  let one : Int := ((2 ^ p : Nat) : Int)
  let f := fxOf p m (-(lg : Int))
  let big := decide (3 * one < 2 * f)
  let f := if big then f / 2 else f
  let k : Int := e + lg + (if big then 1 else 0)
  let s := fxDiv p (f - one) (f + one)
  k * fxLn2 p + 2 * fxOdd p (fxMul p s s) (p + 8) 1 s 0

/-- sin or cos of a fixed-point number of small magnitude. -/
def fxSinCos (p : Nat) (cos : Bool) (r : Int) : Int :=
  let z := -(fxMul p r r)
  let one : Int := ((2 ^ p : Nat) : Int)
  if cos then fxSeries p z (fun k => (2 * k - 1) * (2 * k)) (p / 2 + 40) 1 one one
  else fxSeries p z (fun k => (2 * k) * (2 * k + 1)) (p / 2 + 40) 1 r r

/-- erf of a fixed-point number from 0 to 6. -/
def fxErf (p : Nat) (x : Int) : Int :=
  let z := 2 * fxMul p x x
  let s := fxSeries p z (fun k => 2 * k + 1) (p + 400) 1 x x
  let (e, k) := fxExp p (-(fxMul p x x))
  let w := if 0 ≤ k then e * ((2 ^ k.toNat : Nat) : Int) else e / ((2 ^ (-k).toNat : Nat) : Int)
  let root : Int := ((isqrt (fxPi p * ((2 ^ p : Nat) : Int)).toNat : Nat) : Int)
  fxDiv p (2 * fxMul p s w) root

/-- The functions of R304 whose values need an enclosure. -/
inductive Fn where
  | exp | exp2 | log | log2 | tanh | sigm | sin | cos | erf
  deriving DecidableEq, Repr

/-- An approximation of a function at `(-1)^neg * m * 2^e`, `m` nonzero, at precision `p`: sign, magnitude and
exponent, within 2^24 units. -/
def fnApprox (fn : Fn) (neg : Bool) (m : Nat) (e : Int) (p : Nat) : Bool × Nat × Int :=
  let one : Int := ((2 ^ p : Nat) : Int)
  let ax := fxOf p m e
  let x := if neg then -ax else ax
  let out (v : Int) : Bool × Nat × Int := (decide (v < 0), v.natAbs, -(p : Int))
  match fn with
  | .exp => let (a, k) := fxExp p x; (false, a.natAbs, k - p)
  | .exp2 =>
    let k := x / one
    let (a, k') := fxExp p (fxMul p (x - k * one) (fxLn2 p))
    (false, a.natAbs, k + k' - p)
  | .log => out (fxLog p m e)
  | .log2 => out (fxDiv p (fxLog p m e) (fxLn2 p))
  | .tanh =>
    let (a, k) := fxExp p (-(2 * ax))
    let u := a / ((2 ^ (-k).toNat : Nat) : Int) * (if 0 < k then 2 else 1)
    let t := fxDiv p (one - u) (one + u)
    out (if neg then -t else t)
  | .sigm =>
    let (a, k) := fxExp p (-ax)
    let u := a / ((2 ^ (-k).toNat : Nat) : Int)
    out (if neg then fxDiv p u (one + u) else fxDiv p one (one + u))
  | .erf => let t := fxErf p ax; out (if neg then -t else t)
  | .sin | .cos =>
    let guard := p + 160
    let halfPi := fxPi guard / 2
    let wide := fxOf guard m e
    let n := (2 * wide + halfPi) / (2 * halfPi)
    let r := (wide - n * halfPi) / ((2 ^ 160 : Nat) : Int)
    let q := (n % 4).toNat
    let q := if fn = .cos then q + 1 else q
    let v := match q % 4 with
      | 0 => fxSinCos p false r
      | 1 => fxSinCos p true r
      | 2 => -(fxSinCos p false r)
      | _ => -(fxSinCos p true r)
    out (if neg && fn == .sin then -v else v)

/-- The rounded value of a function by enclosures of doubling precision. -/
def fnRound (fn : Fn) (f : Fmt) (neg : Bool) (m : Nat) (e : Int) : Nat → Nat → Nat × Flags
  | 0, p =>
    let (n, a, x) := fnApprox fn neg m e p
    roundFin f .rne false n a x true
  | fuel + 1, p =>
    let (n, a, x) := fnApprox fn neg m e p
    let err := 2 ^ 24
    if Nat.log2 a < 96 then fnRound fn f neg m e fuel (2 * p)
    else
      let lo := roundFin f .rne false n (a - err) x true
      let hi := roundFin f .rne false n (a + err) x true
      if lo = hi then lo else fnRound fn f neg m e fuel (2 * p)

/-- A result just below `v = 2^k` in magnitude, or just above zero for `v` absent. -/
def nearResult (f : Fmt) (neg : Bool) : Nat × Flags := roundFin f .rne false neg (2 ^ 200 - 1) (-200) true

/-- The functions of R304 with their special results. -/
def fnValue (fn : Fn) (f : Fmt) (x : Fp) : Nat × Flags :=
  match x with
  | .nan _ _ _ => roundToFormat x f .rne false
  | .inf n =>
    match fn with
    | .exp | .exp2 => if n then (0, 0) else (f.infBits, 0)
    | .log | .log2 => if n then (nanBits f .canonical false, Flags.invalid) else (f.infBits, 0)
    | .tanh | .erf => roundToFormat (.fin n 1 0) f .rne false
    | .sigm => if n then (0, 0) else roundToFormat (.fin false 1 0) f .rne false
    | .sin | .cos => (nanBits f .canonical false, Flags.invalid)
  | .fin n m e =>
    if m = 0 then
      match fn with
      | .exp | .exp2 | .cos => roundToFormat (.fin false 1 0) f .rne false
      | .log | .log2 => (signBit f true + f.infBits, Flags.divZero)
      | .tanh | .erf | .sin => (signBit f n, 0)
      | .sigm => roundToFormat (.fin false 1 (-1)) f .rne false
    else
      let lg := fpExponent m e
      let go := fnRound fn f n m e 6 192
      let isPow2 := m == 2 ^ Nat.log2 m
      let huge := roundFin f .rne false false (2 ^ 90) 5000 true
      let least := roundFin f .rne false false (2 ^ 90) (-6000) true
      match fn with
      | .exp => if 10 < lg then (if n then least else huge) else go
      | .exp2 =>
        if 11 < lg then (if n then least else huge)
        else
          let (k, ix) := roundToInt .rtz n m e
          if ix then go else roundFin f .rne false false 1 k false
      | .log | .log2 =>
        if n then (nanBits f .canonical false, Flags.invalid)
        else if isPow2 && lg == 0 then (0, 0)
        else if isPow2 && fn == .log2 then roundToFormat (fpOfInt lg) f .rne false
        else go
      | .tanh => if 7 ≤ lg then nearResult f n else go
      | .sigm => if 8 ≤ lg then (if n then least else nearResult f false) else go
      | .erf => if 3 ≤ lg then nearResult f n else go
      | .sin | .cos => go

/-- The rotation offsets of Keccak in the order of lane 5y + x. -/
def keccakRot : List Nat :=
  [0, 1, 62, 28, 27, 36, 44, 6, 55, 20, 3, 10, 43, 25, 39, 41, 45, 15, 21, 8, 18, 2, 61, 56, 14]

/-- The round constants of Keccak-f[1600]. -/
def keccakRc : List (BitVec 64) :=
  [0x0000000000000001, 0x0000000000008082, 0x800000000000808A, 0x8000000080008000, 0x000000000000808B,
   0x0000000080000001, 0x8000000080008081, 0x8000000000008009] ++
  [0x000000000000008A, 0x0000000000000088, 0x0000000080008009, 0x000000008000000A, 0x000000008000808B,
   0x800000000000008B, 0x8000000000008089, 0x8000000000008003] ++
  [0x8000000000008002, 0x8000000000000080, 0x000000000000800A, 0x800000008000000A, 0x8000000080008081,
   0x8000000000008080, 0x0000000080000001, 0x8000000080008008]

/-- One round of Keccak on 25 lanes. -/
def keccakRound (a : List (BitVec 64)) (rc : BitVec 64) : List (BitVec 64) :=
  let at5 (l : List (BitVec 64)) (k : Nat) := nthD 0 l k
  let c := (List.range 5).map fun x =>
    at5 a x ^^^ at5 a (x + 5) ^^^ at5 a (x + 10) ^^^ at5 a (x + 15) ^^^ at5 a (x + 20)
  let d := (List.range 5).map fun x => at5 c ((x + 4) % 5) ^^^ (at5 c ((x + 1) % 5)).rotateLeft 1
  let t := (List.range 25).map fun k => at5 a k ^^^ at5 d (k % 5)
  let b := (List.range 25).map fun k =>
    let x := k % 5
    let y := k / 5
    let src := 5 * x + (x + 3 * y) % 5
    (at5 t src).rotateLeft (nthD 0 keccakRot src)
  let e := (List.range 25).map fun k =>
    let x := k % 5
    let y := k / 5
    at5 b k ^^^ (~~~(at5 b (5 * y + (x + 1) % 5)) &&& at5 b (5 * y + (x + 2) % 5))
  match e with
  | h :: r => (h ^^^ rc) :: r
  | [] => []

/-- Keccak-f[1600]. -/
def keccakF (a : List (BitVec 64)) : List (BitVec 64) := keccakRc.foldl keccakRound a

/-- A block of 136 bytes absorbed into the lanes. -/
def keccakAbsorb (a : List (BitVec 64)) (block : List Byte) : List (BitVec 64) :=
  keccakF ((List.range 25).map fun k =>
    nthD 0 a k ^^^ (if k < 17 then BitVec.ofNat 64 (ofBytes ((block.drop (8 * k)).take 8)) else 0))

/-- The blocks of a padded message absorbed in order. -/
def keccakBlocks : Nat → List (BitVec 64) → List Byte → List (BitVec 64)
  | 0, a, _ => a
  | n + 1, a, bs => if bs.isEmpty then a else keccakBlocks n (keccakAbsorb a (bs.take 136)) (bs.drop 136)

/-- The first `8 n` bytes of SHAKE256, for `n` up to 17 (R82, R353). -/
def shakeWords (n : Nat) (msg : List Byte) : List Byte :=
  let padLen := 136 - msg.length % 136
  let pad : List Byte :=
    if padLen = 1 then [0x9F] else 0x1F :: (List.replicate (padLen - 2) 0 ++ [0x80])
  let bs := msg ++ pad
  let a := keccakBlocks (bs.length / 136 + 1) (List.replicate 25 0) bs
  (a.take n).foldr (fun w l => toBytes 8 w.toNat ++ l) []

/-- The first 32 bytes of SHAKE256 (R82). -/
def shake256 (msg : List Byte) : List Byte := shakeWords 4 msg

end Sys2Proof.Machine
end

