-- ==== Sys2Proof/Machine/Graph.lean ====
section
/-!
DEFINITION. The graph engine: the images of a context, the nodes of a run, what a kernel's tasks are, and how kernels,
nodes and runs end (R56 to R59, R64, R77 to R83, R347, R425 to R429).
-/
namespace Sys2Proof.Machine

/-! ## Reads and writes of the graph and digest engines (R61, R82, R465) -/

/-- The graph engine, or with AKIND 8 the digest engine, at work for a queue: it acts for the supervisor. -/
def State.graphAgent (s : State) (x q akind : Nat) : Agent :=
  { ctx := x, akind := akind, sup := true, got := ((s.ctx x).queue q).fetched, issuer := some (.node x q 0) }

/-- A queue changed. -/
def State.mapQueue (s : State) (x q : Nat) (f : Queue → Queue) : State :=
  let c := s.ctx x
  s.setCtx x (c.setQueue q (f (c.queue q)))

/-- What the graph engine does when a read needs a peer's bytes: it sends the request, once, and waits. -/
def State.graphAsk (s : State) (x q : Nat) (h : Halt) : State :=
  match h with
  | .ask pkt va =>
    let u := (s.ctx x).queue q
    if u.fetched.any fun f => f.addr == pkt.addr.toNat && f.len == pkt.len then s
    else
      let (s, tag) := s.send (.node x q 0) va pkt
      s.mapQueue x q fun u => { u with fetched := u.fetched ++ [{ tag := tag, addr := pkt.addr.toNat, len := pkt.len }] }
  | _ => s

/-! ## Images (R77, R347) -/

/-- The image in force for graph `g` after `n` accepted uploads and drops; none when it was never uploaded or has been
dropped (R347, R427). -/
def Ctx.imageAt (c : Ctx) (g : BitVec 16) (n : Nat) : Option GraphImg :=
  let is := c.images.filter fun i => i.graph == g && decide (i.serial ≤ n)
  let last := is.foldl (fun acc i => match acc with
    | none => some i
    | some j => if j.serial < i.serial then some i else acc) none
  match last with
  | some i => if i.drop then none else some i
  | none => none

/-- Bits `[hi:lo]` of a node's 512 bytes (R77). -/
def nodeBits (b : BitVec 4096) (hi lo : Nat) : Nat := bitsOf b.toNat hi lo

/-- The kind of a node. -/
def nodeKind (b : BitVec 4096) : Nat := nodeBits b 3 0

/-- The predecessor indices of a node. -/
def nodePreds (b : BitVec 4096) : List Nat :=
  (List.range (nodeBits b 7 4)).map fun k => nodeBits b (27 + 12 * k) (16 + 12 * k)

/-- The counter ids that a timeline node may name (R427). -/
def nodeCounterOk (id : Nat) : Bool := decide (0x10 ≤ id ∧ id ≤ 0x25) || decide (0x30 ≤ id ∧ id ≤ 0x3B)

/-- Whether a node's body has a nonzero bit that its kind does not name (R77, R254). -/
def nodeBodyBad (b : BitVec 4096) : Bool :=
  match nodeKind b with
  | 0 => nodeBits b 4095 3584 != 0
  | 1 => nodeBits b 4095 1024 != 0
  | 2 | 3 => nodeBits b 575 520 != 0 || nodeBits b 4095 640 != 0
  | 4 => nodeBits b 4095 514 != 0
  | 5 => nodeBits b 4095 576 != 0
  | 6 => nodeBits b 4095 528 != 0
  | _ => false

/-- Whether node `k` has a defect of R427 that its own bytes show. Bytes 16 to 63, which R77 puts in neither the header
nor the body, are not checked (DESIGN CHOICE, log 78). -/
def nodeBad (k : Nat) (b : BitVec 4096) : Bool :=
  let kind := nodeKind b
  decide (6 < kind) || decide (8 < nodeBits b 7 4) || nodeBits b 15 8 != 0 || nodeBits b 127 112 != 0 ||
    (nodePreds b).any (fun p => decide (k ≤ p)) || nodeBodyBad b ||
    (decide (kind = 2 ∨ kind = 3) && !nodeCounterOk (nodeBits b 519 512)) || (kind == 4 && nodeBits b 513 512 == 3)

/-- The nodes of a graph's image with every sub-graph call expanded in place, placed after the nodes of `acc`; or the
index of a defective node and its graph (R77, R79, R427). -/
def Ctx.expand (c : Ctx) (n : Nat) : Nat → BitVec 16 → List (BitVec 16) → Option Nat → Nat → List RunNode →
    Except (Nat × BitVec 16) (List RunNode)
  | 0, g, _, _, _, _ => .error (0xFFFF, g)
  | fuel + 1, g, above, parent, depth, acc =>
    match c.imageAt g n with
    | none => .error (0xFFFF, g)
    | some img =>
      if img.invalid then .error (0xFFFF, g)
      else
        let r := (List.range img.count).foldl (fun (r : Except (Nat × BitVec 16) (List RunNode × List Nat)) k =>
          match r with
          | .error e => .error e
          | .ok (acc, at') =>
            let b := Table.get 0 img.nodes k
            if nodeBad k b then .error (k, g)
            else
              let me := acc.length
              let node : RunNode := { graph := g, idx := k, kind := nodeKind b, body := b
                                      preds := (nodePreds b).map (nthD 0 at'), parent := parent, depth := depth
                                      bad := img.bad.contains k }
              if nodeKind b = 6 then
                let sub : BitVec 16 := BitVec.ofNat 16 (nodeBits b 527 512)
                if sub = g ∨ above.contains sub ∨ 4 ≤ depth ∨ (c.imageAt sub n).isNone then .error (k, g)
                else
                  match Ctx.expand c n fuel sub (g :: above) (some me) (depth + 1) (acc ++ [node]) with
                  | .error e => .error e
                  | .ok acc => .ok (acc, at' ++ [me])
              else .ok (acc ++ [node], at' ++ [me])) (.ok (acc, []))
        match r with
        | .error e => .error e
        | .ok (acc, _) => .ok acc

/-! ## Patch lists (R78, R79, R427) -/

/-- The patch list address of a trigger value. -/
def patchAddr (v : Word) : Word := BitVec.ofNat 64 (v.toNat / 2 ^ 16 * 8)

/-- The fault of a patch list (R424, R427). -/
def badPatch (addr : Word) (k : Nat) : FaultInfo := { code := 0x0808, addr := addr, synd := BitVec.ofNat 64 k }

/-- A patch: the node, the word of its parameter block and the value. -/
structure Patch where
  node : Nat
  word : Nat
  value : Nat
  deriving DecidableEq, Repr

/-- One read of a patch list. -/
def State.readPatch (s : State) (a : Agent) (list va : Word) (n k : Nat) : State × Except Halt (List Byte) :=
  match s.readBytes a va n with
  | (s, .error (.fault f)) => (s.found f, .error (.fault (badPatch list k)))
  | r => r

/-- The entries of a patch list for a graph whose nodes are of the given kinds (R79, R427). -/
def State.readPatches (s : State) (a : Agent) (list : Word) (kinds : List Nat) : State × Except Halt (List Patch) :=
  if list = 0 then (s, .ok [])
  else
    match s.readPatch a list list 8 0 with
    | (s, .error h) => (s, .error h)
    | (s, .ok hd) =>
      let n := ofBytes hd
      if 4096 < n then (s, .error (.fault (badPatch list 0)))
      else
        (List.range n).foldl (fun acc k =>
          match acc with
          | (s, .error h) => (s, .error h)
          | (s, .ok ps) =>
            match s.readPatch a list (list + BitVec.ofNat 64 (8 + 16 * k)) 16 k with
            | (s, .error h) => (s, .error h)
            | (s, .ok bs) =>
              let w := ofBytes (bs.take 8)
              let node := w % 2 ^ 12
              if w / 2 ^ 17 ≠ 0 ∨ nthD 7 kinds node ≠ 0 then (s, .error (.fault (badPatch list k)))
              else (s, .ok (ps ++ [{ node := node, word := w / 2 ^ 12 % 32, value := ofBytes (bs.drop 8) }])))
          (s, .ok [])

/-- A node's parameter block with one word replaced. -/
def patchBody (b : BitVec 4096) (word value : Nat) : BitVec 4096 :=
  let lo := 8 * (192 + 8 * word)
  BitVec.ofNat 4096 (b.toNat - nodeBits b (lo + 63) lo * 2 ^ lo + value % 2 ^ 64 * 2 ^ lo)

/-- A patch applied to an image. -/
def GraphImg.patch (i : GraphImg) (p : Patch) : GraphImg :=
  { i with nodes := Table.set 0 i.nodes p.node (patchBody (Table.get 0 i.nodes p.node) p.word p.value) }

/-- Sequence numbers given to the kernel nodes of a run in order; the next number (R79). -/
def numberNodes (next : Word) : List RunNode → List RunNode × Word
  | [] => ([], next)
  | e :: es =>
    if e.kind = 0 then
      let (r, n) := numberNodes (next + 1) es
      ({ e with kseq := next } :: r, n)
    else
      let (r, n) := numberNodes next es
      (e :: r, n)

/-! ## The digest chain (R82, R83, R428) -/

/-- A failure digest (R428). -/
def failDigest (reason : Byte) : List Byte := reason :: List.replicate 31 0

/-- A kernel's place in its queue's digest chain set. -/
def Queue.link (u : Queue) (seq : Word) (c : Chain) : Queue := { u with chain := u.chain ++ [(seq.toNat, c)] }

/-- The chain entry whose turn it is. -/
def Queue.head? (u : Queue) : Option Chain := (u.chain.find? fun e => e.1 == u.chainNext.toNat).map Prod.snd

/-- The entry whose turn it is taken from the chain. -/
def Queue.unlink (u : Queue) : Queue :=
  { u with chain := u.chain.filter (fun e => e.1 != u.chainNext.toNat), chainNext := u.chainNext + 1 }

/-- Numbers of kernels released at D0 or D1 passed over (R83). -/
def Queue.passOver (u : Queue) : Nat → Queue
  | 0 => u
  | n + 1 =>
    match u.head? with
    | some .skip => Queue.passOver u.unlink n
    | _ => u

/-- The chain with every number passed over whose turn it is. -/
def Queue.skipAll (u : Queue) : Queue := u.passOver u.chain.length

/-- The digest whose turn it is chained into H (R82). -/
def Queue.chainOne (u : Queue) : Queue :=
  match u.head? with
  | some (.digest d) =>
    ({ u with hash := shake256 (u.hash ++ toBytes 8 u.chainNext.toNat ++ d), hseq := u.chainNext }.unlink).skipAll
  | _ => u

/-! ## The tasks of a kernel on this device (R56 to R58, R62) -/

/-- Whether a kernel has a DIES level. -/
def Kernel.hasDies (k : Kernel) : Bool := (kSpatial k.record).any fun l => l.1 == 2

/-- The number under which a die's progress is kept: one list for all dies without a DIES level (R58, R62). -/
def Kernel.lane (k : Kernel) (die : Nat) : Nat := if k.hasDies then die else 0

/-- The lists of a kernel. -/
def Kernel.lanes (k : Kernel) : List Nat := if k.hasDies then [0, 1, 2, 3] else [0]

/-- Tasks of a kernel eligible on a die of this device (R58). -/
def Kernel.count (k : Kernel) (die : Nat) : Nat :=
  match k.devCoords with
  | none => 0
  | some _ => product ((kSpatial k.record).map fun l =>
      if l.1 = 1 then l.2 else if l.1 = 2 then (if die < l.2 then 1 else 0) else if l.2 = 0 then 0 else 1)

/-- The coordinates of the `n`-th task of a die, in ascending linear index (R57, R58, R62). -/
def dieCoords (die : Nat) : List (Nat × Nat) → List Nat → Nat → List Nat
  | [], _, _ => []
  | (kind, e) :: ls, ds, n =>
    if kind = 1 then n % e :: dieCoords die ls ds (n / e)
    else if kind = 2 then die :: dieCoords die ls ds n
    else
      match ds with
      | d :: ds => d :: dieCoords die ls ds n
      | [] => 0 :: dieCoords die ls [] n

/-- The coordinates of a kernel's `n`-th task on a die. -/
def Kernel.coords (k : Kernel) (die n : Nat) : List Nat :=
  (dieCoords die (kSpatial k.record) (k.devCoords.getD []) n ++ [0, 0, 0, 0]).take 4

/-- The linear index of coordinates (R57). -/
def Kernel.linear (k : Kernel) (cs : List Nat) : Nat := linearIndex cs (kExtents k.record)

/-- Whether every task of a kernel on this device has started and none is to start again. -/
def Kernel.allStarted (k : Kernel) : Bool :=
  k.relaunch.isEmpty && k.lanes.all fun d => decide (k.count d ≤ Table.get 0 k.next d)

/-- Whether a kernel has ended: no started task is left, and unless it failed none is to start (R64, R425). -/
def Kernel.over (k : Kernel) : Bool := k.live == 0 && k.tags.isEmpty && (k.failed || k.allStarted)

/-! ## How nodes and runs end (R426) -/

/-- The run of a queue changed. -/
def State.mapRun (s : State) (x q : Nat) (f : Run → Run) : State :=
  s.mapQueue x q fun u => { u with run := u.run.map f }

/-- A node's state set. -/
def Run.setState (r : Run) (n : Nat) (st : NodeSt) : Run :=
  match r.nodes[n]? with
  | some e => { r with nodes := setAt r.nodes n { e with state := st } }
  | none => r

/-- Node `n` of a queue's run. -/
def State.node? (s : State) (x q n : Nat) : Option RunNode := ((s.ctx x).queue q).run.bind fun r => r.nodes[n]?

/-- Whether a node has ended. -/
def NodeSt.ended : NodeSt → Bool
  | .completed | .failed | .cancelled => true
  | _ => false

/-- Whether a node has ended without completing. -/
def NodeSt.lost : NodeSt → Bool
  | .failed | .cancelled => true
  | _ => false

/-- The state of node `n` of a run. -/
def Run.stateOf (r : Run) (n : Nat) : NodeSt := (r.nodes[n]?.map RunNode.state).getD .completed

/-- The nodes of a call. -/
def Run.calls (r : Run) (n : Nat) : List RunNode := r.nodes.filter fun e => e.parent == some n

/-- What node `n` becomes when its predecessors and its call are looked at: cancelled, ready, or failed as a call
whose nodes did not all complete (R77, R426). -/
def Run.look (r : Run) (n : Nat) (e : RunNode) : NodeSt :=
  match e.state with
  | .waiting =>
    let par := e.parent.map r.stateOf
    if e.preds.any (fun p => (r.stateOf p).lost) || (par.map NodeSt.lost).getD false then .cancelled
    else if e.preds.all (fun p => r.stateOf p == .completed) && (par.map (· == .active)).getD true then .ready
    else .waiting
  | .active =>
    let sub := r.calls n
    if e.kind = 6 ∧ sub.all (fun c => c.state.ended) ∧ sub.any (fun c => c.state.lost) then .failed else .active
  | st => st

/-- One node of a queue's run looked at; a node that becomes ready notes when (R80), and a cancelled kernel takes its
place in the digest chain by the level that CTXLVL held when its cancellation was decided (R426, R428). -/
def State.lookNode (s : State) (x q n : Nat) : State :=
  match ((s.ctx x).queue q).run with
  | none => s
  | some r =>
    match r.nodes[n]? with
    | none => s
    | some e =>
      let st := r.look n e
      if st = e.state then s
      else
        let s := s.mapRun x q fun r =>
          { r with
            nodes := setAt r.nodes n { e with state := st, readyAt := if st = .ready then s.now else e.readyAt }
            anyFail := r.anyFail || st.lost }
        if st = .cancelled ∧ e.kind = 0 then
          let d : Chain := if e.doom.getD (s.ctx x).lvl = 2 then .digest (failDigest 2) else .skip
          s.mapQueue x q fun u => (u.link e.kseq d).skipAll
        else s

/-- The graphs whose images a trigger's run will use: its own, and those it calls (R77, R347). -/
def Ctx.graphsOf (c : Ctx) (t : Trigger) : List (BitVec 16) :=
  let g : BitVec 16 := t.value.setWidth 16
  match c.expand t.img 5 g [] none 0 [] with
  | .ok ns => (g :: ns.map RunNode.graph).eraseDups
  | .error _ => [g]

/-- The graphs that the runs of a context use, each with the number that says which of its images: those of the runs in
progress and of the pending ones (R347). -/
def Ctx.uses (c : Ctx) : List (BitVec 16 × Nat) :=
  c.queues.flatMap fun u =>
    ((u.2.run.map fun r => ((r.graph :: r.nodes.map RunNode.graph).eraseDups).map fun g => (g, r.img)).getD []) ++
      u.2.pending.flatMap fun t => (c.graphsOf t).map fun g => (g, t.img)

/-- Images that no later run can name and no run uses leave scheduler memory (R347). -/
def Ctx.collect (c : Ctx) : Ctx :=
  let superseded (i : GraphImg) : Bool := c.images.any fun j => j.graph == i.graph && decide (i.serial < j.serial)
  if !c.images.any superseded then c
  else
    let uses := c.uses
    let used (i : GraphImg) : Bool :=
      !superseded i || uses.any fun u => u.1 == i.graph && (c.imageAt u.1 u.2).map GraphImg.serial == some i.serial
    let is := c.images.filter used
    { c with images := is.filter fun i => !i.drop || is.any fun j => j.graph == i.graph && !j.drop }

/-- The drops whose turn has come mark their graphs as dropped: each once no run triggered before it uses its graph
(R347). -/
def Ctx.dropTurn (c : Ctx) : Nat → Ctx
  | 0 => c
  | n + 1 =>
    match c.uploads with
    | u :: rest =>
      let g : BitVec 16 := u.cmd.setWidth 16
      if u.cmd.getLsbD 28 && !c.uses.any (fun r => r.1 == g && decide (r.2 < u.serial)) then
        Ctx.dropTurn { c with
          uploads := rest
          images := c.images ++ [{ graph := g, serial := u.serial, count := 0, drop := true }] } n
      else c
    | [] => c

/-- The drops of a context that a run's end lets happen, and the images it leaves (R347). -/
def Ctx.tidy (c : Ctx) : Ctx := (c.dropTurn c.uploads.length).collect

/-- Every node of a queue's run looked at, often enough for the deepest nest of calls, and the run ended when all its
nodes have; a run with a failed or cancelled node halts its queue (R77, R426). -/
def State.settleRun (s : State) (x q : Nat) : State :=
  match ((s.ctx x).queue q).run with
  | none => s
  | some r =>
    let ns := List.range r.nodes.length
    let s := [0, 1, 2, 3, 4, 5].foldl (fun s _ => ns.foldl (fun s n => s.lookNode x q n) s) s
    let u := (s.ctx x).queue q
    match u.run with
    | none => s
    | some r =>
      if r.nodes.all fun e => e.state.ended then
        let u := if r.anyFail then { u with run := none, halt := true, runf := false, failSeq := r.firstFail }
          else { u with run := none }
        s.setCtx x ((s.ctx x).setQueue q u).tidy
      else s

/-- A kernel of the queue counted completed (R78). -/
def Queue.complete (u : Queue) (seq : Word) : Queue :=
  { u with lastSeq := if u.lastSeq.toNat < seq.toNat then seq else u.lastSeq }

/-- A kernel that has ended leaves the graph engine: its sequence number, its place in the digest chain and its node
(R64, R78, R83, R425, R428). At D2 a kernel that completed stays until its digest is computed; LASTSEQ moves at once. -/
def State.endKernel (s : State) (k : Kernel) : State :=
  let x := k.ctx.toNat
  let q := k.queue
  let drop (s : State) : State := { s with kernels := s.kernels.filter fun o => !o.is x q k.kseq }
  let node (s : State) (st : NodeSt) : State := s.mapRun x q fun r =>
    match r.nodeOf k.kseq with
    | some n => r.setState n st
    | none => r
  if k.failed then
    let d : Chain := if k.level = 2 then .digest (failDigest 1) else .skip
    node ((drop s).mapQueue x q fun u => (u.link k.kseq d).skipAll) .failed
  else
    if k.level = 2 then
      (s.mapKernel x q k.kseq fun o => { o with digesting := true }).mapQueue x q fun u =>
        { u with digesting := u.digesting ++ [k.kseq] }
    else node ((drop s).mapQueue x q fun u => ((u.link k.kseq .skip).skipAll).complete k.kseq) .completed

/-- Every kernel that has ended leaves, and every run is looked at (R64, R77, R425, R426). -/
def State.settleGraph (s : State) : State :=
  let s := s.kernels.foldl (fun s k => if k.over && !k.digesting then s.endKernel k else s) s
  s.ctxs.foldl (fun s e => e.2.queues.foldl (fun s u => s.settleRun e.1 u.1) s) s

/-- Node slots that a context holds (R347). -/
def Ctx.slots (c : Ctx) : Nat := (c.images.map GraphImg.count).foldl (· + ·) 0

end Sys2Proof.Machine
end

