-- ==== Sys2Proof/Machine/Sched.lean ====
section
/-!
DEFINITION. The die schedulers: the release check of a kernel, the state a task starts in, which task a free core takes,
and the placing of gangs (R56 to R66, R80, R385, R425, R432).
-/
namespace Sys2Proof.Machine

/-! ## The release check (R52 to R58, R385) -/

/-- The 64-bit words of a kernel record that hold a defect of R385; a DEVICES level is judged by `State.deviceCoords`. Level
slots at or beyond NLEV hold no level, and their bits are not checked (DESIGN CHOICE, log 78). -/
def kernelDefects (r : BitVec 1024) : List Nat :=
  let mbz : List (Nat × Nat) := [(4, 0), (69, 64), (143, 141), (159, 153), (162, 160), (423, 423), (439, 436), (444, 440),
    (519, 517), (643, 640), (1023, 712)]
  let zero := (mbz.filter fun f => kfield r f.1 f.2 != 0).map fun f =>
    if f.2 = 712 then
      (((List.range 5).map (· + 11)).find? fun w =>
        kfield r (64 * w + 63) (max 712 (64 * w)) != 0).getD 11
    else f.2 / 64
  let pmap := ((List.range 11).filter fun k => kPmap r k / 32 % 4 != 0).map fun k => (552 + 8 * k) / 64
  let nlev := if 6 < kNlev r then [6] else []
  let levels := kLevels r
  let kinds := ((List.range (min 6 (kNlev r))).filter fun k =>
    kfield r (255 + 32 * k) (242 + 32 * k) != 0 || (decide ((kLevel r k).1 = 2) && decide (4 < (kLevel r k).2)) ||
      (decide ((kLevel r k).1 = 2) && ((levels.take k).any fun l => l.1 == 2))).map fun k => (224 + 32 * k) / 64
  let spatial := if 4 < (kSpatial r).length then [6] else []
  let parm := if 256 < kParmLen r ∨ kParmLen r % 8 ≠ 0 then [2] else []
  zero ++ pmap ++ nlev ++ kinds ++ spatial ++ parm

/-- The least of some numbers. -/
def leastOf (ns : List Nat) : Option Nat :=
  ns.foldl (fun acc n => match acc with | none => some n | some m => some (min m n)) none

/-- The DEVICES levels in table order: the record word of each and its extent (R58). -/
def kDevices (r : BitVec 1024) : List (Nat × Nat) :=
  ((List.range (kNlev r)).filter fun k => (kLevel r k).1 == 3).map fun k => ((224 + 32 * k) / 64, (kLevel r k).2)

/-- The fault of an invalid kernel record, naming a word (R373, R385). -/
def badKernel (word : Nat) : FaultInfo := { code := 0x0121, synd := BitVec.ofNat 64 word, akind := 7 }

/-- This device's coordinates along a kernel's DEVICES levels: the empty list without such levels, none for a device
outside the mesh (R58, R59). -/
def State.deviceCoords (s : State) (a : Agent) (r : BitVec 1024) : State × Except Halt (Option (List Nat)) :=
  let ds := kDevices r
  if ds.isEmpty then (s, .ok (some []))
  else if kPoolCnt r ≤ kMesh r then (s, .error (.fault (badKernel 6)))
  else
    match s.readBytes a (kPoolAddr r + BitVec.ofNat 64 (64 * kMesh r)) 64 with
    | (s, .error (.fault f)) => (s.found f, .error (.fault (badKernel 6)))
    | (s, .error h) => (s, .error h)
    | (s, .ok bs) =>
      match meshOf s.torus (ofBytes bs) with
      | none => (s, .error (.fault (badKernel 6)))
      | some m =>
        let wrong := (List.range ds.length).filter fun j =>
          decide (m.sizes.length ≤ j) || nthD 0 m.sizes j != (nthD (0, 0) ds j).2
        match wrong with
        | j :: _ => (s, .error (.fault (badKernel (nthD (0, 0) ds j).1)))
        | [] =>
          match m.devs.findIdx? (· == s.myIndex) with
          | none => (s, .ok none)
          | some k => (s, .ok (some ((mixedRadix k m.sizes).take ds.length)))

/-- A record of the graph engine that names a kernel and no task (R425). -/
def State.kernelRecord (s : State) (x q : Nat) (kseq : Word) (f : FaultInfo) : State :=
  s.keepRecord x false fun n => recordBits { f with res := false } x n false true false none q kseq []

/-- A kernel entered among the released ones (R73, R80), its node at work. -/
def State.enterKernel (s : State) (k : Kernel) : State :=
  let s := { s with kernels := s.kernels ++ [k] }
  s.mapRun k.ctx.toNat k.queue fun r => r.setState k.node .active

/-- A kernel that fails at its release: its record kept, and it ends (R425). -/
def State.refuseKernel (s : State) (k : Kernel) (f : FaultInfo) : State :=
  let s := s.kernelRecord k.ctx.toNat k.queue k.kseq f
  ((s.enterKernel { k with devCoords := none }).failKernel k.ctx.toNat k.queue k.kseq).settleGraph

/-- The kernel of a node as it would be released now (R73, R80). -/
def State.kernelOf (s : State) (x q n : Nat) (e : RunNode) : Kernel :=
  { ctx := BitVec.ofNat 6 x, queue := q, node := n, kseq := e.kseq, level := (s.ctx x).lvl
    record := BitVec.ofNat 1024 (nodeBits e.body 1535 512), params := BitVec.ofNat 2048 (nodeBits e.body 3583 1536)
    devCoords := some [], readyAt := e.readyAt }

/-- The release of a kernel node (R59, R61, R73, R385, R425). Of several defects of its record SYND names the lowest word, and
one that needs the pool only when there is no other (DESIGN CHOICE, log 78). -/
def State.releaseKernel (s : State) (x q n : Nat) (e : RunNode) : State :=
  let k := s.kernelOf x q n e
  let a := s.graphAgent x q 7
  match leastOf (kernelDefects k.record) with
  | some w => s.refuseKernel k (badKernel w)
  | none =>
    match s.deviceCoords a k.record with
    | (s, .error (.fault f)) => s.refuseKernel k f
    | (s, .error h) => s.graphAsk x q h
    | (s, .ok dc) =>
      let bytes := (toBytes 256 k.params.toNat).take (kParmLen k.record)
      match s.planWrite a Need.write (kParmAddr k.record) (bytes.map some) (fun v _ p => noPolder a v 0 p) with
      | (s, .error f) => (s.found f).refuseKernel k f
      | (s, .ok ws) =>
        let (s, tags) := s.putAll a (.node x q n) ws
        let s := s.mapQueue x q fun u => { u with fetched := [] }
        (s.enterKernel { k with devCoords := dc, tags := tags }).settleGraph

/-! ## A task's start (R54, R60, R161) -/

/-- The scalar that PMAP entry `e` loads (R54). -/
def pmapValue (r : BitVec 1024) (params : BitVec 2048) (e : Nat) : Word :=
  if e / 128 = 1 ∧ 8 * (e % 32) < kParmLen r then BitVec.ofNat 64 (bitsOf params.toNat (64 * (e % 32) + 63) (64 * (e % 32)))
  else 0

/-- The scalars at a task's start (R60). -/
def startScalars (k : Kernel) (cs : List Nat) : Table Word :=
  let t := Table.setList 0 [] 1 (cs.map (BitVec.ofNat 64))
  Table.setList 0 t 5 ((List.range 11).map fun j => pmapValue k.record k.params (kPmap k.record j))

/-- The ceiling of every sluice at a task's start (R60). -/
def startCeil (level : BitVec 2) : BitVec 16 := if level = 0 then 0xFFFF else 32

/-- A core's fetched lines when a task of a kernel starts or resumes on it (R161). -/
def Core.enterKernel (c : Core) (x : BitVec 6) (q : Nat) (kseq : Word) : Core :=
  { c with l1i := (if c.lastKernel = some (x, q, kseq) then c.l1i else []), lastKernel := some (x, q, kseq) }

/-- A core with a task just started on it (R60): what the task owns as R60 gives it, with any error there written over
(R408), and the rest of the core kept. -/
def Core.start (c : Core) (t : Task) (k : Kernel) (cs : List Nat) : Core :=
  let fresh : Core := {
    task := some t, line := kCode k.record, slot := 1
    regs := { s := startScalars k cs }
    sluices := (List.range 48).map fun j => (j, ({ ceil := startCeil t.level } : Sluice))
    draining := c.draining, l1d := c.l1d, l1i := c.l1i, lastKernel := c.lastKernel, tlb := c.tlb }
  fresh.enterKernel t.ctx t.queue t.kseq

/-- The `n`-th task of a kernel on a die started on a core, as member `m` of a gang (R60, R65). -/
def State.startTask (s : State) (core : Nat) (k : Kernel) (n m gang size : Nat) : State :=
  let die := core / 64
  let cs := k.coords die n
  let t : Task := {
    ctx := k.ctx, queue := k.queue, kseq := k.kseq, node := k.node, coords := cs.map (BitVec.ofNat 16)
    linear := k.linear cs, member := m, gang := gang, gangSize := size, level := k.level, kernel := k.record
    since := s.now }
  let s := s.setCore core ((s.core core).start t k cs)
  s.mapKernel k.ctx.toNat k.queue k.kseq fun k => { k with live := k.live + 1 }

/-! ## Free cores (R62, R66, R81, R358, R432, R445) -/

/-- Whether a core is withdrawn (R432). -/
def State.withdrawn (s : State) (core : Nat) : Bool := (Table.get 0 s.stew.corestat (core / 64)).getLsbD (core % 64)

/-- Whether a core's cluster is marked for gating (R358). -/
def State.gateMarked (s : State) (core : Nat) : Bool :=
  (Table.get 0 s.stew.clgate (core / 64)).getLsbD (core % 64 / 4)

/-- Whether a core's running slot is free and may be filled. -/
def State.coreFree (s : State) (core : Nat) : Bool :=
  let c := s.core core
  c.task.isNone && !c.frozen && !s.withdrawn core && !s.gateMarked core

/-- Whether a core keeps a saved or stopped task of a context, which keeps the context's other tasks off it (R76). -/
def State.holdsSaved (s : State) (x core : Nat) : Bool := (s.ctx x).saved.any fun t => t.core == core

/-- The cores of a die. -/
def dieCores (die : Nat) : List Nat := (List.range 64).map (64 * die + ·)

/-- The free cores of a die that a task of context `x` may take, none of them reserved (R66, R80). -/
def State.freeFor (s : State) (die x : Nat) : List Nat :=
  (dieCores die).filter fun k => s.coreFree k && (s.core k).reserved.isNone && !s.holdsSaved x k

/-- The gang that a die reserves for (R66). -/
def State.reserving (s : State) (die : Nat) : Option (BitVec 6 × Nat × Word) := Table.get none s.gangReserve die

/-- Whether a die reserves for a kernel's gang. -/
def State.reservesFor (s : State) (die : Nat) (k : Kernel) : Bool := s.reserving die == some (k.ctx, k.queue, k.kseq)

/-- The free cores of a die that a kernel's gang may take. -/
def State.gangFree (s : State) (die : Nat) (k : Kernel) : List Nat :=
  (dieCores die).filter fun c => s.coreFree c && !s.holdsSaved k.ctx.toNat c &&
    ((s.core c).reserved.isNone || s.reservesFor die k)

/-! ## Selection (R80, R81) -/

/-- What may be placed on a die: the next task of a kernel, a gang of it, or a task saved by pre-emption. -/
inductive Cand where
  | task (k : Kernel) (n : Nat)
  | gang (k : Kernel)
  | saved (t : SavedTask)
  deriving DecidableEq, Repr

/-- The effective class of a kernel: it falls with the time it has been ready, so that no ready kernel starves (R67, R80). -/
def State.effClass (s : State) (k : Kernel) : Nat := kPrio k.record - (s.now - k.readyAt) / 2 ^ 20

/-- The keys of R80, in order. -/
def State.keys (s : State) (k : Kernel) (linear : Nat) : List Nat :=
  [s.effClass k, k.readyAt, k.kseq.toNat, k.ctx.toNat, k.queue, linear]

/-- Whether one list of keys comes before another. -/
def keyBefore : List Nat → List Nat → Bool
  | a :: as, b :: bs => decide (a < b) || (a == b && keyBefore as bs)
  | _, _ => false

/-- Whether a kernel's gang on a die waits to be placed, for the first time or again (R65, R431). -/
def Kernel.gangWaits (k : Kernel) (die : Nat) : Bool :=
  decide (0 < k.count die) && (Table.get 0 k.next (k.lane die) == 0 || k.relaunch.contains (k.lane die))

/-- Whether a gang of a kernel holds no core any more, running or draining, and no saved member of it awaits its abort
(R430, R431). -/
def State.gangQuiet (s : State) (k : Kernel) (lane : Nat) : Bool :=
  let mine (t : Task) : Bool := k.is t.ctx.toNat t.queue t.kseq && t.gangIdx == lane
  let held (v : SavedTask) : Bool := v.state.pend.isSome && (v.state.task.map mine).getD false
  s.cores.all (fun e => !((e.2.task.map mine).getD false) && !((e.2.draining.map fun d => mine d.task).getD false)) &&
    !(s.ctx k.ctx.toNat).saved.any held

/-- Whether a die is eligible for the tasks of a kernel without gangs: those of a kernel without a DIES level differ only in
CORES coordinates, and one die takes them all, that of the first (R58). -/
def Kernel.eligibleOn (k : Kernel) (die : Nat) : Bool := k.hasDies || (k.home.getD die == die)

/-- What a kernel offers to a die (R58, R62, R65). -/
def State.offer (s : State) (die : Nat) (k : Kernel) : List (List Nat × Cand) :=
  if k.failed || k.digesting || !k.tags.isEmpty then []
  else if kGang k.record then
    if k.gangWaits die && s.gangQuiet k (k.lane die) then [(s.keys k (k.linear (k.coords die 0)), .gang k)] else []
  else
    let n := Table.get 0 k.next (k.lane die)
    if k.eligibleOn die ∧ n < k.count die then [(s.keys k (k.linear (k.coords die n)), .task k n)] else []

/-- The keys of a saved task: its kernel's and its own linear index (R81). -/
def State.savedKeys (s : State) (t : SavedTask) : List Nat :=
  match t.state.task with
  | none => []
  | some u =>
    match s.kernel? u.ctx.toNat u.queue u.kseq with
    | some k => s.keys k u.linear
    | none => [0, 0, u.kseq.toNat, u.ctx.toNat, u.queue, u.linear]

/-- The tasks saved by pre-emption on a core, none whose gang has aborted (R81, R430). -/
def State.savedOn (s : State) (core : Nat) : List SavedTask :=
  s.ctxs.flatMap fun e => e.2.saved.filter fun t => t.core == core && !t.faulted && t.state.pend.isNone

/-- Candidates placed in selection order. -/
def insertCand (a : List Nat × Cand) : List (List Nat × Cand) → List (List Nat × Cand)
  | [] => [a]
  | b :: bs => if keyBefore b.1 a.1 then b :: insertCand a bs else a :: b :: bs

/-- The candidates of a die in selection order (R80, R81). -/
def State.cands (s : State) (die : Nat) : List (List Nat × Cand) :=
  let ks := s.kernels.flatMap (s.offer die)
  let ss := (dieCores die).flatMap fun k => (s.savedOn k).map fun t => (s.savedKeys t, Cand.saved t)
  (ks ++ ss).foldr insertCand []

/-- The core a candidate can take now: for a gang the first of its cores. -/
def State.coreFor (s : State) (die : Nat) : Cand → Option Nat
  | .task k _ => (s.freeFor die k.ctx.toNat).head?
  | .gang k => if k.count die ≤ (s.gangFree die k).length then (s.gangFree die k).head? else none
  | .saved t => if s.coreFree t.core && (s.core t.core).reserved.isNone then some t.core else none

/-- The first candidate of a die that can be placed, with its core. -/
def State.choice (s : State) (die : Nat) : Option (Cand × Nat) :=
  (s.cands die).findSome? fun c => (s.coreFor die c.2).map fun k => (c.2, k)

/-! ## Gangs (R65, R66, R432) -/

/-- Reserved cores of a die released. -/
def State.unreserve (s : State) (die : Nat) : State :=
  let s := { s with gangReserve := Table.set none s.gangReserve die none }
  (dieCores die).foldl (fun s k =>
    if (s.core k).reserved.isSome then s.setCore k { s.core k with reserved := none } else s) s

/-- Every reservation for a kernel's gang released. -/
def State.unreserveFor (s : State) (k : Kernel) : State :=
  [0, 1, 2, 3].foldl (fun s d => if s.reservesFor d k then s.unreserve d else s) s

/-- Free cores of a die reserved in ascending index for the gang that the die reserves for (R66); a reservation for a
kernel that no longer waits is dropped, and that of a core no longer free. -/
def State.reserveCores (s : State) (die : Nat) : State :=
  match s.reserving die with
  | none => s
  | some (x, q, kseq) =>
    match s.kernel? x.toNat q kseq with
    | none => s.unreserve die
    | some k =>
      if k.failed || !k.gangWaits die then s.unreserve die
      else
        let kept (c : Nat) : Bool := (s.core c).reserved.isSome && s.coreFree c
        let s := (dieCores die).foldl (fun s c =>
          if (s.core c).reserved.isSome && !s.coreFree c then s.setCore c { s.core c with reserved := none } else s) s
        let held := ((dieCores die).filter kept).length
        ((s.freeFor die x.toNat).take (k.count die - held)).foldl (fun s c =>
          s.setCore c { s.core c with reserved := some 0 }) s

/-- A gang placed whole on a die, its members in ascending index on its free cores (R65, R431). -/
def State.placeGang (s : State) (die : Nat) (k : Kernel) : State :=
  let size := k.count die
  let cores := (s.gangFree die k).take size
  let gang := s.nextGang + 1
  let s := ({ s with nextGang := gang }).unreserveFor k
  let s := (List.range size).foldl (fun s m => s.startTask (nthD 0 cores m) k m m gang size) s
  s.mapKernel k.ctx.toNat k.queue k.kseq fun k => { k with
    next := Table.set 0 k.next (k.lane die) size, relaunch := k.relaunch.filter (· != k.lane die) }

/-- The dies on which a kernel's gang of a die may be placed (R58). -/
def Kernel.gangDies (k : Kernel) (die : Nat) : List Nat := if k.hasDies then [die] else [0, 1, 2, 3]

/-- Whether no eligible die has as many cores left as a gang needs (R432). -/
def State.gangHopeless (s : State) (die : Nat) (k : Kernel) : Bool :=
  (k.gangDies die).all fun d => decide (((dieCores d).filter fun c => !s.withdrawn c).length < k.count die)

/-- The gangs that wait for a die, in selection order. -/
def State.gangsFor (s : State) (die : Nat) : List Kernel :=
  (s.cands die).filterMap fun c => match c.2 with | .gang k => some k | _ => none

/-- The die that reserves for a gang: its DIES coordinate's, or the die with the most free cores, the lowest of equals
(R66). -/
def State.reservingDie (s : State) (die : Nat) (k : Kernel) : Nat :=
  let n (d : Nat) : Nat := ((dieCores d).filter s.coreFree).length
  if k.hasDies then die
  else [1, 2, 3].foldl (fun b d => if n b < n d then d else b) 0

end Sys2Proof.Machine
end

