-- ==== Sys2Proof/Machine/Fabric.lean ====
section
/-!
DEFINITION. The steps of the fabric: packets that pass, requests of peers served at their home, answers that reach
their issuers, reduce traffic, and the events of ports and lanes (R139, R246, R250, R330 to R335, R417, R421, R433 to
R437, R444, R445).
-/
namespace Sys2Proof.Machine

/-! ## Answers (R331, R334, R434) -/

/-- A packet refused with a code (R434). -/
def State.nak (s : State) (p : Packet) (code : Nat) (synd aux : Word := 0) : State :=
  s.reply (negative p code synd aux)

/-- A packet performed at its home (R334). -/
def State.ack (s : State) (p : Packet) : State := s.reply { dst := p.src, kind := 7, ctx := p.ctx, tag := p.tag }

/-- The bytes that a packet asked for; `bad` marks the poisoned ones in the link's side band (R331, R409), and the flags of
reading cells travel beside it (R32). -/
def State.respond (s : State) (p : Packet) (bs : List Byte) (bad : List Nat) (flags : Flags := 0) : State :=
  s.reply { dst := p.src, kind := 6, ctx := p.ctx, tag := p.tag, len := bs.length, data := bs, bad := bad
            beside := { flags := flags } }

/-! ## What a peer's request reaches (R405, R435, R444) -/

/-- The target of a peer's request. -/
inductive Target where
  | home (la : Nat)
  | regs (off : Nat)
  | refuse (code : Nat)
  deriving DecidableEq, Repr

/-- Where a peer's request goes: a context without tables is absent; a control space takes aligned 8-byte loads and
stores (R405, R435). -/
def State.peerTarget (s : State) (p : Packet) : Target :=
  if (s.ctx p.ctx.toNat).ptbase = 0 then .refuse 0x0703
  else
    match s.place p.addr.toNat with
    | .mem la => .home la
    | .regs off =>
      if (p.kind = 0 ∨ (p.kind = 1 ∧ p.msk = false)) ∧ p.beside.plain ∧ p.len = 8 ∧ off % 8 = 0 then .regs off
      else .refuse 0x0115
    | _ => .refuse 0x0306

/-- The master id of a port's receiver (R444). -/
def portMaster (port : Nat) : BitVec 16 := masterId 10 port

/-- Whether a master is frozen (R445). -/
def State.isFrozen (s : State) (m : BitVec 16) : Bool := s.stew.frozen.any fun f => f.master == m

/-- Flits in a port's receive buffer of a lane: those of the packets held there (R332, R445). -/
def State.occupancy (s : State) (port lane : Nat) : Nat :=
  ((s.fab.heldPkts.filter fun e => e.1 == port && laneOf e.2.kind == lane).map fun e => packetFlits e.2).foldl (· + ·) 0

/-- A port's receive lanes held to NYFC's levels after a change of occupancy: at its stop level a lane is stopped at the
sender, and at its go level it is let go again (R332). -/
def State.flow (s : State) (port : Nat) : State :=
  [0, 1, 2, 3].foldl (fun s lane =>
    let w := (Table.get nyfcReset s.fab.nyfc port).toNat
    let n := s.occupancy port lane
    let told := s.fab.told.contains (port, lane)
    if !told && decide (16 * bitsOf w (16 * lane + 15) (16 * lane + 8) ≤ n) then
      { s with fab := { s.fab with told := s.fab.told ++ [(port, lane)] }, out := s.out ++ [.lane port lane true] }
    else if told && decide (n ≤ 16 * bitsOf w (16 * lane + 7) (16 * lane)) then
      { s with
        fab := { s.fab with told := s.fab.told.filter (· != (port, lane)) }, out := s.out ++ [.lane port lane false] }
    else s) s

/-- A request held at its port. -/
def State.holdPacket (s : State) (port : Nat) (p : Packet) : State :=
  ({ s with fab := { s.fab with heldPkts := s.fab.heldPkts ++ [(port, p)] } }).flow port

/-- A protection violation by a peer: the packet is held and its port frozen (R444, R445). -/
def State.violatePort (s : State) (port : Nat) (p : Packet) : State :=
  (s.holdPacket port p).freeze (portMaster port) p.ctx.toNat p.addr

/-- The page that a packet's attributes describe, with the frame and size that it names (R112, log 47). -/
def packetPage (p : Packet) : Page :=
  let (frame, size) := p.beside.page.getD (p.addr.toNat / 2 ^ 16 * 2 ^ 16, 0)
  { lo := p.attr, size := size, frame := frame, off := 0, gpa := p.addr.toNat }

/-! ## Requests served at this device's home (R331) -/

/-- The bytes of a read with the places of its poisoned parts, each poisoned 32-byte unit of plain bytes or each element of a
polder page whose cell is poisoned, and the flags of reading cells (R32, R107, R409). -/
def State.serveBytes (s : State) (attr : Word) (la n : Nat) : State × List Byte × List Nat × Flags :=
  match attrParams attr with
  | none =>
    let s := s.touch attr la n
    (s, s.bytesAt la n, (piecesOf 32 la n).filterMap fun pc => (s.poisonAt pc.1 pc.2).map fun _ => pc.1 - la, 0)
  | some q =>
    (List.range (n / q.rs)).foldl (fun acc k =>
      match acc.1.homeRead attr (la + k * q.size) q.size with
      | (s, .error _) => (s, acc.2.1 ++ List.replicate q.rs 0, acc.2.2.1 ++ [k * q.rs], acc.2.2.2)
      | (s, .ok raw) =>
        let (v, f) := cellReadFlags q (ofBytes raw)
        (s, acc.2.1 ++ toBytes q.rs v, acc.2.2.1, acc.2.2.2 ||| f)) (s, [], [], 0)

/-- A read request (R331). -/
def State.serveRead (s : State) (port : Nat) (p : Packet) : State :=
  match s.peerTarget p with
  | .refuse c => s.nak p c
  | .regs off =>
    match s.taskRegRead p.ctx.toNat off with
    | some (v, s) => s.respond p (toBytes 8 v.toNat) []
    | none => s.violatePort port p
  | .home la =>
    let (s, bs, bad, f) := s.serveBytes p.attr la p.len
    s.respond p bs bad f

/-- The bytes of a write with absent ones where its mask has 0; the mask begins after the data's last flit (R331). -/
def packetBytes (p : Packet) : List (Option Byte) :=
  let mask := p.data.drop ((p.len + 63) / 64 * 64)
  (List.range p.len).map fun k =>
    if !p.msk || (nthD 0 mask (k / 8)).getLsbD (k % 8) then some (nthD 0 p.data k) else none

/-- Whether a packet's counter, if it has one, lies in memory (R421). -/
def State.countable (s : State) (p : Packet) : Bool :=
  p.cntaddr == 0 || match s.place p.cntaddr.toNat with
    | .mem _ => true
    | .peer _ => true
    | _ => false

/-- Bytes counted after they are written, and the answer to their packet: the counter raised here, or by a packet to its
home, whose answer is then passed on as the packet's (R139, R246, R334). `bad` is the granule of an add of the packet that
was discarded (R410). DESIGN CHOICE (log 88): the header has the attributes of the data's leaf alone, and the counter add
uses attributes of 0. -/
def State.countFor (s : State) (p : Packet) (n : Nat) (bad : Option Word) : State :=
  let answer (s : State) : State := match bad with | some g => s.nak p 0x0402 0 g | none => s.ack p
  if p.cntaddr = 0 ∨ n = 0 then answer s
  else
    match s.place p.cntaddr.toNat with
    | .mem la =>
      match s.homeUpdate 0 p.ctx.toNat la 8 (fun old => (old + n) % 2 ^ 64) with
      | (s, .error b) => s.nak p 0x0402 0 (s.granule b)
      | (s, .ok _) => answer s
    | .peer dev =>
      (s.send (.relay p.src.toNat p.tag.toNat p.ctx.toNat (if bad.isSome then 0x0402 else 0)) ((bad).getD 0)
        { dst := BitVec.ofNat 13 dev, kind := 4, ctx := p.ctx, len := 8, addr := p.cntaddr, data := toBytes 8 n }).1
    | _ => s.nak p 0x0306 0 p.cntaddr

/-- A write, perhaps masked, or of one nibble (R331, R237, log 22). -/
def State.serveWrite (s : State) (port : Nat) (p : Packet) : State :=
  match s.peerTarget p with
  | .refuse c => s.nak p c
  | .regs off =>
    match s.taskRegWrite p.ctx.toNat off (BitVec.ofNat 64 (ofBytes p.data)) 7 none with
    | some s => s.ack p
    | none => s.violatePort port p
  | .home la =>
    if !s.countable p then s.nak p 0x0306 0 p.cntaddr
    else
      let x := p.ctx.toNat
      let s :=
        if p.beside.note ≠ 0 then s.homeNibble p.attr x la p.beside.note.toNat (ofBytes (p.data.take 1))
        else s.homeWriteMask p.attr x la (packetBytes p)
      let s := p.bad.foldl (fun s o => s.setMark (s.memr.resolve (la + o)) 3) s
      s.countFor p p.len none

/-- An atomic at the home: the integer forms of R214 and R215, and the model's cell codes (log 20). -/
def State.serveAtomic (s : State) (p : Packet) : State :=
  match s.peerTarget p with
  | .refuse c => s.nak p c
  | .regs _ => s.nak p 0x0115
  | .home la =>
    let w := ofBytes (p.data.take 8)
    let opc := bitsOf w 31 28
    let v := ofBytes ((p.data.drop 8).take 8)
    let e := ofBytes ((p.data.drop 16).take 8)
    let x := p.ctx.toNat
    let cell := decide (9 ≤ opc)
    let n := if cell then ((attrParams p.attr).map CellParams.size).getD 8 else 4 * 2 ^ (bitsOf w 22 21)
    if opc = 9 then (s.clearRun (packetPage p) x la (max 1 v)).ack p
    else
      let f (old : Nat) : Nat :=
        if opc = 11 then old
        else if opc = 10 then 0
        else if p.beside.note = 2 then (if old = e % 2 ^ (8 * n) then v % 2 ^ (8 * n) else old)
        else amoOp opc n old (v % 2 ^ (8 * n))
      let r := if cell then s.homeRead p.attr la n else
        match s.homeUpdate p.attr x la n f with
        | (s, .ok old) => (s, .ok (toBytes n old))
        | (s, .error b) => (s, .error b)
      match r with
      | (s, .error b) => s.nak p (if cell then 0x0401 else 0x0402) 0 (s.granule b)
      | (s, .ok bs) =>
        let s := if opc = 10 then s.homeClear (packetPage p) x la else s
        if p.beside.note = 0 then s.ack p else s.respond p bs []

/-- Cell adds, or adds of an ordinary page, applied one by one; those that meet poison are discarded (R216, R331,
R410, R421). -/
def State.serveAdds (s : State) (p : Packet) : State :=
  match s.peerTarget p with
  | .refuse c => s.nak p c
  | .regs _ => s.nak p 0x0115
  | .home la =>
    if !s.countable p then s.nak p 0x0306 0 p.cntaddr
    else
      let w := typeWidth p.etype.toNat / 8
      let (step, rs) := match attrParams p.attr with
        | some q => (q.size, q.rs)
        | none => (w, w)
      let (s, done, bad) := (List.range (p.len / w)).foldl (fun (acc : State × Nat × Option Word) k =>
        let v := ofBytes ((p.data.drop (k * w)).take w)
        match acc.1.homeAdd (packetPage p) p.ctx.toNat (la + k * step) p.etype.toNat v with
        | (s, .ok _) => (s, acc.2.1 + 1, acc.2.2)
        | (s, .error b) => (s, acc.2.1, some (acc.2.2.getD (s.granule b)))) (s, 0, none)
      s.countFor p (done * rs) bad

/-- A counter add (R139, R249, R251, log 24). -/
def State.serveCount (s : State) (port : Nat) (p : Packet) : State :=
  let x := p.ctx.toNat
  let inc := ofBytes p.data
  let add (s : State) (lo : Word) (la : Nat) : State :=
    match s.homeUpdate lo x la 8 (fun old => (old + inc) % 2 ^ 64) with
    | (s, .error b) => s.nak p 0x0402 0 (s.granule b)
    | (s, .ok _) => s.ack p
  if p.beside.note = 1 then
    if (s.ctx x).ptbase = 0 then s.nak p 0x0703
    else
      let a : Agent := { ctx := x, akind := 10, aidx := port, sym := true }
      match s.counterPage a 0 p.addr with
      | (s, .error f) =>
        let gpa := match (s.translate a Need.add p.addr fun _ => none).2 with
          | .ok q => BitVec.ofNat 64 q.gpa
          | .error _ => f.aux
        s.nak p f.code f.synd (if f.code ∈ [0x0115, 0x0307] then gpa else f.aux)
      | (s, .ok q) =>
        match s.place q.gpa with
        | .mem la => add s q.lo la
        | _ => s.nak p 0x0306 (64 + 2 * 16 + 4) (BitVec.ofNat 64 q.gpa)
  else
    match s.peerTarget p with
    | .refuse c => s.nak p c
    | .regs _ => s.nak p 0x0115
    | .home la => add s p.attr la

/-- A notify (R250). -/
def State.serveNotify (s : State) (p : Packet) : State :=
  if (s.ctx p.ctx.toNat).ptbase = 0 then s.nak p 0x0703
  else (s.notifyCore p.ctx.toNat (BitVec.ofNat 64 (ofBytes p.data))).ack p

/-- A request packet served by its kind. -/
def State.serve (s : State) (port : Nat) (p : Packet) : State :=
  match p.kind.toNat with
  | 0 => s.serveRead port p
  | 1 => s.serveWrite port p
  | 2 => s.serveAtomic p
  | 3 => s.serveAdds p
  | 4 => s.serveCount port p
  | 5 => s.serveNotify p
  | _ => s

/-! ## Answers that reach their issuer (R417, R435) -/

/-- The answers that a list of peer bytes awaits, one of them filled in. -/
def fillFetched (tag : Nat) (g : Fetched → Fetched) (fs : List Fetched) : List Fetched :=
  fs.map fun f => if f.tag = tag ∧ f.got.isNone ∧ f.err.isNone then g f else f

/-- Whether a list of peer bytes awaits an answer. -/
def fetching (tag : Nat) (fs : List Fetched) : Bool :=
  fs.any fun f => f.tag == tag && f.got.isNone && f.err.isNone

/-- Whether an issuer waits for the bytes of a request, rather than for a performance: a posted request whose unit is held is
awaited for its performance alone (R119, R213). -/
def State.awaitsBytes (s : State) (r : Request) : Bool :=
  match r.issuer with
  | .stream core 0 => !(s.core core).postedTags.contains r.tag && fetching r.tag ((s.core core).held.map HeldLoad.ask)
  | .stream core t => fetching r.tag ((s.core core).engine (t - 1)).fetched
  | .berm k => (s.berm k).any fun b => fetching r.tag b.fetched
  | .node x q _ => fetching r.tag ((s.ctx x).queue q).fetched
  | .host _ => !r.write
  | .steward => fetching r.tag s.stew.attFetched
  | .relay .. => false

/-- Whether a host read is refused by the home with a code of R398: it completes with Unsupported Request, and a notice is
written (R417). -/
def hostRefusal (e : Option (Nat × Word)) : Bool :=
  match e with
  | some (code, _) => decide (code / 256 = 3)
  | none => false

/-- An awaited value with its answer. A look ahead that is refused stands as the refusal of the slot's own request, for an
atomic, whose body has 24 bytes, with the code of an atomic (R380, R410, log 86). -/
def HeldLoad.filled (h : HeldLoad) (g : Fetched → Fetched) : HeldLoad :=
  let ask := g h.ask
  match ask.err with
  | some (code, aux) =>
    if 8 ≤ h.slot then
      { slot := h.slot - 8, ask := { ask with err := some (if ask.len = 24 ∧ code = 0x0401 then 0x0402 else code, aux) } }
    else { h with ask := ask }
  | none => { h with ask := ask }

/-- The answer of a read given to its issuer. -/
def State.fill (s : State) (r : Request) (g : Fetched → Fetched) : State :=
  match r.issuer with
  | .stream core 0 =>
    let c := s.core core
    s.setCore core { c with held := c.held.map fun h =>
      if h.ask.tag = r.tag ∧ h.ask.got.isNone ∧ h.ask.err.isNone then h.filled g else h }
  | .stream core t =>
    let c := s.core core
    let e := c.engine (t - 1)
    s.setCore core (c.setEngine (t - 1) { e with fetched := fillFetched r.tag g e.fetched })
  | .berm k =>
    let put (b : BermRun) : BermRun := { b with fetched := fillFetched r.tag g b.fetched }
    s.setBerm k ((s.berm k).map put)
  | .node x q _ => s.mapQueue x q fun u => { u with fetched := fillFetched r.tag g u.fetched }
  | .host fn =>
    let e := g { tag := r.tag, addr := r.addr, len := r.len }
    let o : Output := match e.got with
      | some bs => .hostData (fn / 64) (fn % 64) bs false
      | none =>
        if (e.err.map Prod.fst) = some 0x0401 then .hostData (fn / 64) (fn % 64) (List.replicate r.len 0) true
        else if hostRefusal e.err then .hostUnsupported (fn / 64) (fn % 64)
        else .hostAbort (fn / 64) (fn % 64)
    let s := { s with out := s.out ++ [o] }
    match e.err with
    | some (code, aux) =>
      if hostRefusal e.err then
        s.notice r.ctx { code := code, addr := r.va, synd := BitVec.ofNat 64 (r.acc * 16 + 4), aux := aux, akind := 9
                         aidx := fn / 64 }
      else s
    | none => s
  | .steward => { s with stew := { s.stew with attFetched := fillFetched r.tag g s.stew.attFetched } }
  | .relay .. => s

/-- A part of the report that a peer has performed or refused: with the last the request ends (R356, log 26). -/
def State.reportAnswered (s : State) (tag : Nat) : State :=
  if s.stew.attTags = [tag] then s.endReport
  else { s with stew := { s.stew with attTags := s.stew.attTags.erase tag } }

/-- A tag no longer awaited by anything that was performed or refused (R133, R246, R259). -/
def State.clearTag (s : State) (r : Request) : State :=
  let tag := r.tag
  let st (t : Started) : Started := { t with tags := t.tags.erase tag }
  let leave (c : Collective) : Collective := { c with tags := c.tags.erase tag }
  let s := { s with colls := s.colls.map leave }
  match r.issuer with
  | .stream core t =>
    let c := s.core core
    let c := { c with postedTags := c.postedTags.erase tag }
    let e := c.engine (t - 1)
    let c := if t = 0 then c else
      c.setEngine (t - 1) { e with started := e.started.map st, flight := e.flight.map st }
    (s.setCore core c).mapDraining core fun w => { w with tags := w.tags.erase tag }
  | .berm k =>
    let done (b : BermRun) : BermRun := { b with tags := b.tags.erase tag }
    s.setBerm k ((s.berm k).map done)
  | .node .. =>
    let done (k : Kernel) : Kernel := { k with tags := k.tags.erase tag }
    { s with kernels := s.kernels.map done }
  | .host _ => s
  | .steward => s.reportAnswered tag
  | .relay .. => s

/-- The fault of an issuer whose packet was refused or timed out: its own address; SYND the access and level of a refusal at
the leaf (R399), or what the destination's own walk found; AUX the destination device of the codes 0x0701 to 0x0703, else
what the home sent with the refusal, the granule of a discarded add, or the physical address (R417, R424). -/
def Request.fault (r : Request) (code : Nat) (synd aux : Word) : FaultInfo :=
  { code := code, addr := r.va
    synd :=
      if code ∈ [0x0307, 0x0308] then r.word
      else if synd = 0 ∧ code ∈ [0x0301, 0x0302, 0x0303, 0x0304, 0x0306] then
        BitVec.ofNat 64 ((if r.sym then 64 else 0) + r.acc * 16 + 4)
      else synd
    aux :=
      if 0x0701 ≤ code ∧ code ≤ 0x0703 then BitVec.ofNat 64 r.dst
      else if aux ≠ 0 ∨ r.sym then aux
      else if code = 0x0402 ∨ code = 0x0401 then BitVec.ofNat 64 (r.addr / 32 * 32)
      else BitVec.ofNat 64 r.addr }

/-- A write of a berm run refused: the run stops there, and its issuer's record carries the refusal's code whatever
poison it met (R442, R443). -/
def BermRun.refused (b : BermRun) (f : FaultInfo) : BermRun :=
  let keep := match b.fault with | some g => g.code != 0x0401 | none => false
  { b with fault := if keep then b.fault else some f, writes := [], done := true }

/-- A refused or timed-out packet of work that its issuer does not wait for (R381, R383, R425, R440, R442). -/
def State.postedFault (s : State) (r : Request) (f : FaultInfo) : State :=
  let tag := r.tag
  if s.colls.any fun c => c.tags.contains tag then
    { s with colls := s.colls.map fun c => if c.tags.contains tag then c.failed s.now f else c }
  else
    match r.issuer with
    | .stream core t =>
      let c := s.core core
      let late := { f with late := true, res := false }
      let e := c.engine (t - 1)
      let cmd := (e.flight ++ e.started.toList).find? fun u => u.tags.contains tag
      let work := ((c.draining.map Draining.work).getD []).find? fun w => w.tags.contains tag
      match decide (t = 0) && c.postedTags.contains tag, (if t = 0 then none else cmd), work with
      | true, _, _ => s.setCore core (c.faultAt { late with line := r.line, slot := r.slot })
      | false, some u, _ =>
        let g := stamp { core := core, eng := t - 1, q := u.entry } none late
        let s := s.mapCommand core (t - 1) u.entry.num fun v => v.faulted g
        s.setCore core ((s.core core).faultAt g)
      | false, none, some w => s.drainFault core w.stream w.num f
      | _, _, _ => s
    | .berm k =>
      s.setBerm k ((s.berm k).map fun b =>
        if b.tags.contains tag then b.refused { f with akind := 6, aidx := k, res := false } else b)
    | .node x q _ =>
      match s.kernels.find? fun k => k.tags.contains tag with
      | some k => ((s.kernelRecord x q k.kseq { f with akind := 7 }).failKernel x q k.kseq)
      | none => s
    | .host fn => s.notice r.ctx { f with akind := 9, aidx := fn / 64, res := false }
    | .steward => s.reportAnswered tag
    | .relay dev tag' x _ =>
      s.reply (negative { dst := 0, src := BitVec.ofNat 13 dev, kind := 1, ctx := BitVec.ofNat 6 x, tag := BitVec.ofNat 16 tag' }
        f.code f.synd f.aux)

/-- The request that a tag names, taken from those not answered; none for an answer that comes late (R435). -/
def State.takeRequest (s : State) (tag : Nat) : Option (Request × State) :=
  match s.fab.requests.find? fun r => r.tag == tag with
  | some r => some (r, { s with fab := { s.fab with requests := s.fab.requests.filter fun q => q.tag != tag } })
  | none => none

/-- The answer of a relayed counter add passed on to the source of the counted packet (R246, R334). -/
def State.relayed (s : State) (r : Request) : State :=
  match r.issuer with
  | .relay dev tag x code =>
    let p : Packet := { dst := 0, src := BitVec.ofNat 13 dev, kind := 1, ctx := BitVec.ofNat 6 x, tag := BitVec.ofNat 16 tag }
    if code = 0 then s.ack p else s.nak p code 0 r.va
  | _ => s

/-- What follows an answer: collectives that it ends, and kernels. -/
def State.answered (s : State) : State := s.settleColls.settleGraph

/-- A positive answer: bytes, or none for an acknowledgement; `bad` marks poisoned ones (R409, R410), and `flags` are those of
reading cells (R32). An acknowledged posted request of a control stream that holds its unit is performed (R119, R213). -/
def State.confirm (s : State) (tag : Nat) (bs : List Byte) (bad : List Nat) (flags : Flags := 0) : State :=
  match s.takeRequest tag with
  | none => s
  | some (r, s) =>
    if s.awaitsBytes r then
      let gran (o : Nat) : Nat :=
        match attrParams r.attr with
        | none => r.addr + o
        | some q => r.addr + o / q.rs * q.size
      s.fill r fun f =>
        match bad with
        | [] => { f with got := some bs, flags := flags }
        | o :: _ => { f with err := some (0x0401, BitVec.ofNat 64 (gran o / 32 * 32)) }
    else ((s.relayed r).clearTag r).answered

/-- A negative answer, or none in time, or no route (R417, R434, R435). -/
def State.deny (s : State) (tag code : Nat) (synd aux : Word) : State :=
  match s.takeRequest tag with
  | none => s
  | some (r, s) =>
    let f := r.fault code synd aux
    if s.awaitsBytes r then s.fill r fun e => { e with err := some (code, f.aux) }
    else ((s.postedFault r f).clearTag r).answered

/-- This device's own requests that found no route, or no memory, are refused (R414, R434). -/
def State.denyLost (s : State) : State :=
  (s.fab.lost).foldl (fun s e => s.deny e.1 e.2 0 0) { s with fab := { s.fab with lost := [] } }

/-! ## Arrival -/

/-- A packet at a port: held behind a frozen request lane, passed on when it is for another device, else taken by
`use`; a port that is down receives nothing (R332, R433, R445). -/
def State.accept (s : State) (port : BitVec 3) (p : Packet) (ok : Bool) (use : State → State) : State :=
  let k := port.toNat
  if 6 ≤ k ∨ s.fab.down.getLsbD k ∨ !ok then s
  else if laneOf p.kind = 0 ∧ s.isFrozen (portMaster k) then s.holdPacket k p
  else if p.dst.toNat ≠ s.myIndex then s.emit p
  else use s

/-- PACKET_HOP: a packet for another device leaves by a productive port, or is dropped (R333, R434). -/
def execPacketHop (port : BitVec 3) (pkt : Packet) (s : State) : Out :=
  .next (s.accept port pkt (decide (pkt.dst.toNat ≠ s.myIndex) && decide (pkt.kind.toNat ≤ 10)) fun s => s)

/-- READ_REQUEST (R331). -/
def execReadRequest (port : BitVec 3) (pkt : Packet) (s : State) : Out :=
  .next (s.accept port pkt (pkt.kind == 0) fun s => s.serveRead port.toNat pkt)

/-- WRITE_REQUEST (R331). -/
def execWriteRequest (port : BitVec 3) (pkt : Packet) (s : State) : Out :=
  .next (s.accept port pkt (pkt.kind == 1) fun s => s.serveWrite port.toNat pkt)

/-- ATOMIC_REQUEST (R331). -/
def execAtomicRequest (port : BitVec 3) (pkt : Packet) (s : State) : Out :=
  .next (s.accept port pkt (pkt.kind == 2) fun s => s.serveAtomic pkt)

/-- CELL_ADD_REQUEST (R331, R421). -/
def execCellAddRequest (port : BitVec 3) (pkt : Packet) (s : State) : Out :=
  .next (s.accept port pkt (pkt.kind == 3) fun s => s.serveAdds pkt)

/-- COUNTER_ADD_REQUEST (R139). -/
def execCounterAddRequest (port : BitVec 3) (pkt : Packet) (s : State) : Out :=
  .next (s.accept port pkt (pkt.kind == 4) fun s => s.serveCount port.toNat pkt)

/-- NOTIFY_REQUEST (R250). -/
def execNotifyRequest (port : BitVec 3) (pkt : Packet) (s : State) : Out :=
  .next (s.accept port pkt (pkt.kind == 5) fun s => s.serveNotify pkt)

/-- READ_RESPONSE (R331). -/
def execReadResponse (port : BitVec 3) (pkt : Packet) (s : State) : Out :=
  .next (s.accept port pkt (pkt.kind == 6) fun s => s.confirm pkt.tag.toNat pkt.data pkt.bad pkt.beside.flags)

/-- ACKNOWLEDGEMENT (R334). -/
def execAcknowledgement (port : BitVec 3) (pkt : Packet) (s : State) : Out :=
  .next (s.accept port pkt (pkt.kind == 7 && pkt.contrib.toNat % 2 ^ 16 == 0) fun s => s.confirm pkt.tag.toNat [] [])

/-- NEGATIVE_ACKNOWLEDGEMENT (R434). -/
def execNegativeAcknowledgement (port : BitVec 3) (pkt : Packet) (s : State) : Out :=
  .next (s.accept port pkt (pkt.kind == 7 && pkt.contrib.toNat % 2 ^ 16 != 0) fun s =>
    s.deny pkt.tag.toNat (pkt.contrib.toNat % 2 ^ 16) pkt.beside.synd pkt.beside.aux)

/-- A reduce packet received, with its answer (R335, R437). -/
def State.reduce (s : State) (p : Packet) : State :=
  match s.receiveReduce p with
  | (s, .error f) => s.refuseTerm p f
  | (s, .ok true) => (s.ack p).answered
  | (s, .ok false) => s

/-- REDUCE_TERM (R335). -/
def execReduceTerm (port : BitVec 3) (pkt : Packet) (s : State) : Out :=
  .next (s.accept port pkt (pkt.kind == 8) fun s => s.reduce pkt)

/-- REDUCE_FORWARD (R256). -/
def execReduceForward (port : BitVec 3) (pkt : Packet) (s : State) : Out :=
  .next (s.accept port pkt (pkt.kind == 9) fun s => s.reduce pkt)

/-- HELD_TERM_APPLY: a term whose lower contributors have all been added is added and its delivery answered (R335). -/
def execHeldTermApply (ctx : BitVec 6) (cnt : Word) (s : State) : Out :=
  match s.applyHeld ctx.toNat cnt with
  | (s, some p) => .next ((if p.src.toNat = s.myIndex then s else s.ack p).answered)
  | (s, none) => .next s.answered

/-! ## Ports and lanes (R332, R433, R434) -/

/-- An error count of a port raised. -/
def State.countPort (s : State) (port hi lo : Nat) : State :=
  { s with fab := { s.fab with
      nyerr := Table.set 0 s.fab.nyerr port (satInc (Table.get 0 s.fab.nyerr port) hi lo) } }

/-- RESERVED_KIND_PACKET: discarded and counted (R433). -/
def execReservedKindPacket (port : BitVec 3) (pkt : Packet) (s : State) : Out :=
  if pkt.kind.toNat < 11 ∨ 6 ≤ port.toNat ∨ s.fab.down.getLsbD port.toNat then .next s
  else .next (s.countPort port.toNat 31 16)

/-- LANE_STOP: the neighbour stops a lane of a port (R332). -/
def execLaneStop (port lane : BitVec 3) (s : State) : Out :=
  let e := (port.toNat, lane.toNat)
  if 6 ≤ port.toNat ∨ 4 ≤ lane.toNat ∨ s.fab.stopped.contains e then .next s
  else .next { s with fab := { s.fab with stopped := s.fab.stopped ++ [e] } }

/-- LANE_GO: the neighbour lets a lane go, and what waited leaves (R332). -/
def execLaneGo (port lane : BitVec 3) (s : State) : Out :=
  .next { s with fab := { s.fab with stopped := s.fab.stopped.filter (· != (port.toNat, lane.toNat)) } }.transmit

/-- A port marked down: what waits in its transmit queues is routed again, and what it has sent unconfirmed is dropped
(R433, R434). -/
def State.portDown (s : State) (port : Nat) : State :=
  if 6 ≤ port ∨ s.fab.down.getLsbD port then s
  else
    let s := s.devEvent 6
    let mine := s.fab.txq.filter fun e => e.1 == port
    let s := { s with fab := { s.fab with
      down := setBit s.fab.down port true, txq := s.fab.txq.filter fun e => e.1 != port
      wire := s.fab.wire.filter fun e => e.2.1 != port } }
    mine.foldl (fun s e => s.emit e.2) s

/-- LINK_RETRY: a flit retried; one that needs more than 16 retries takes its port down (R433). -/
def execLinkRetry (flit : Retry) (s : State) : Out :=
  let k := flit.port.toNat
  if 6 ≤ k then .next s
  else
    let n := if flit.again then Table.get 0 s.fab.retries k + 1 else 1
    let s := if flit.again then s else s.countPort k 63 48
    let s := { s with fab := { s.fab with retries := Table.set 0 s.fab.retries k n } }
    .next (if 16 < n then s.portDown k else s)

/-- PORT_DOWN (R433). -/
def execPortDown (port : BitVec 3) (s : State) : Out := .next (s.portDown port.toNat)

/-- ACK_TIMEOUT: a request unanswered for FABTO faults its issuer with 0x0702 (R435). -/
def execAckTimeout (tag : BitVec 16) (s : State) : Out :=
  match s.fab.requests.find? fun r => r.tag == tag.toNat with
  | some r =>
    if max 1 s.fab.fabto.toNat * 1024 ≤ s.now - r.sentAt ∧ !s.fab.later.any (fun p => p.tag == tag) then .next (s.deny tag.toNat 0x0702 0 0) else .next s
  | none => .next s

/-- NYERR of a port (R433). -/
def State.nyerrWord (s : State) (port : Nat) : Word :=
  Table.get 0 s.fab.nyerr port ||| (if s.fab.down.getLsbD port then 1 else 0)

/-- A read of NYERR: its counts cleared (R433). -/
def State.readNyerr (s : State) (port : Nat) : State × Word :=
  ({ s with fab := { s.fab with nyerr := Table.set 0 s.fab.nyerr port 0 } }, s.nyerrWord port)

/-- NYERR_READ (R433). -/
def execNyerrRead (port : BitVec 3) (s : State) : Out :=
  if 6 ≤ port.toNat then .next s
  else .next (s.readUp fun s => s.readNyerr port.toNat)

end Sys2Proof.Machine
end

