-- ==== Sys2Proof/Machine/Lanes.lean ====
section
/-!
DEFINITION. What a vector or berm instruction does to one element, and the reductions (R301 to R308, R316, R321).
-/
namespace Sys2Proof.Machine

/-! ## Type sets (R300) -/

/-- The floating-point types of the element operations. -/
def fpType (t : Nat) : Bool := decide (t < 4)
/-- The integer types. -/
def intType (t : Nat) : Bool := decide (7 ≤ t) && decide (t ≤ 14)
/-- The types of the functions of R304. -/
def fnType (t : Nat) : Bool := decide (1 ≤ t) && decide (t ≤ 3)
/-- Every type. -/
def anyType (t : Nat) : Bool := decide (t ≤ 14)

/-- The format of a floating-point type code. -/
def fmtOf (t : Nat) : Fmt := (typeFmt t).getD .fp64

/-! ## Floating-point elements (R301, R304, R316) -/

/-- 1/sqrt(x), to 100 bits and its sticky bit (R304). -/
def exactRsqrt (a : Fp) : Exact :=
  match a with
  | .nan _ _ _ => .ofNans [a]
  | .inf n => if n then .invalid else { val := .fin false 0 0 }
  | .fin n m e =>
    if m = 0 then { val := .inf n, flags := Flags.divZero }
    else if n then .invalid
    else
      let (m, e) := if e % 2 = 0 then (m, e) else (2 * m, e - 1)
      let big := 2 ^ 320
      let r := isqrt (big / m)
      { val := .fin false r (-160 - e / 2), sticky := r * r * m != big }

/-- A value rounded to an integral value of its format: a zero result keeps the sign, and inexact is not raised
(R301). -/
def roundIntegral (t : Nat) (mode : Round) (v : Nat) : Nat × Flags :=
  match decodeFp (fmtOf t) v with
  | .fin n m e =>
    let (k, _) := roundToInt mode n m e
    ((roundToFormat (if k = 0 then .fin n 0 0 else fpOfInt k) (fmtOf t) .rne false).1, 0)
  | x => roundToFormat x (fmtOf t) .rne false

/-- The class bit number of an element: 0 NaN, 1 infinity, 2 normal, 3 subnormal, 4 zero (R316). -/
def classOf (t v : Nat) : Nat :=
  match decodeFp (fmtOf t) v with
  | .nan _ _ _ => 0
  | .inf _ => 1
  | .fin _ m e => if m = 0 then 4 else if fpExponent m e < (fmtOf t).emin then 3 else 2

/-- VCLASS of one element against a class set (R316). -/
def classMatch (t set v : Nat) : Bool :=
  decide (set / 2 ^ classOf t v % 2 = 1) && (decide (set / 32 % 2 = 0) || decide (v / 2 ^ (typeWidth t - 1) % 2 = 1))

/-- floor(log2 |a|) as a value of the type (R316). -/
def exponentOf (t v : Nat) : Nat × Flags :=
  let f := fmtOf t
  match decodeFp f v with
  | .nan c _ n => (nanBits f c n, 0)
  | .inf _ => (f.infBits, 0)
  | .fin _ m e =>
    if m = 0 then (signBit f true + f.infBits, Flags.divZero)
    else roundToFormat (fpOfInt (fpExponent m e)) f .rne false

/-- a times 2 to the n, with n a signed integer of the type's width (R316). Beyond 2^13 every format overflows or
underflows alike. -/
def scaleByPower (t : Nat) (mode : Round) (a n : Nat) : Nat × Flags :=
  let w := typeWidth t
  let u := n % 2 ^ w
  let k : Int := if 2 ^ (w - 1) ≤ u then (u : Int) - ((2 ^ w : Nat) : Int) else u
  let k := if k < -8192 then -8192 else if 8192 < k then 8192 else k
  match decodeFp (fmtOf t) a with
  | .fin s m e => roundToFormat (.fin s m (e + k)) (fmtOf t) mode false
  | x => roundToFormat x (fmtOf t) mode false

/-- The magnitude of a with the sign of b, or with the signs' exclusive or (R316). -/
def copySign (t sub a b : Nat) : Nat :=
  let h := 2 ^ (typeWidth t - 1)
  let sa := a / h % 2
  let sb := b / h % 2
  a % h + (if sub % 2 = 0 then sb else (sa + sb) % 2) * h

/-! ## Integer elements (R302, R306) -/

/-- The relation of VICMP (R302). -/
def intRelation (t rel a b : Nat) : Bool :=
  let x := decodeInt t a
  let y := decodeInt t b
  match rel with
  | 0 => x == y
  | 1 => decide (x < y)
  | 2 => decide (x ≤ y)
  | _ => a &&& b != 0

/-- Leading zeros of a value of `n` bits. -/
def leadingZeros (n a : Nat) : Nat := if a = 0 then n else n - 1 - Nat.log2 a

/-- One bits among the low `n`. -/
def onesCount (n a : Nat) : Nat := ((List.range n).filter fun k => a.testBit k).length

/-- The clamp of VSAT to a range of q bits (R306). -/
def satBits (t q a : Nat) : Nat :=
  let n := typeWidth t
  let x := decodeInt t a
  let lo : Int := if typeSigned t then -((2 ^ (q - 1) : Nat) : Int) else 0
  let hi : Int := if typeSigned t then ((2 ^ (q - 1) : Nat) : Int) - 1 else ((2 ^ q : Nat) : Int) - 1
  wrapInt n (if x < lo then lo else if hi < x then hi else x)

/-- The integer element operations by opcode (R306). DEDUCED (log 30): VSAR of an unsigned type, which has no sign bit,
fills with zeros. -/
def intLane (op t sub a b : Nat) : Nat :=
  let n := typeWidth t
  let x := decodeInt t a
  let y := decodeInt t b
  let fit (v : Int) : Nat := wrapInt n (if sub % 2 = 1 then clampInt t v else v)
  match op with
  | 0xB0 => fit (x + y)
  | 0xB1 => fit (x - y)
  | 0xB2 => wrapInt n (x * y)
  | 0xB3 => wrapInt n (x * y / ((2 ^ n : Nat) : Int))
  | 0xB4 => if x ≤ y then a else b
  | 0xB5 => if x ≤ y then b else a
  | 0xB6 => if typeSigned t then wrapInt n (x.natAbs : Int) else a
  | 0xB7 => a &&& b
  | 0xB8 => a ||| b
  | 0xB9 => a ^^^ b
  | 0xBA => if b < n then a * 2 ^ b % 2 ^ n else 0
  | 0xBB => if b < n then a / 2 ^ b else 0
  | 0xBC => wrapInt n (x / ((2 ^ (min b n) : Nat) : Int))
  | 0xBD => if intRelation t sub a b then 1 else 0
  | 0xBE => leadingZeros n a
  | 0xBF => onesCount n a
  | _ => satBits t (sub + 1) a

/-! ## One element of an instruction (R301, R304, R321) -/

/-- The function of a transcendental opcode (R304). -/
def fnOf (op : Nat) : Option Fn :=
  match op with
  | 0xA5 => some .exp | 0xA6 => some .exp2 | 0xA7 => some .log | 0xA8 => some .log2
  | 0xAB => some .tanh | 0xAC => some .sigm | 0xAD => some .sin | 0xAE => some .cos | 0xAF => some .erf
  | _ => none

/-- One element of a vector opcode: sources `a` and `b`, the destination's prior element `d`, the type, the rounding
and the sub-operation; for VCVT the type is the destination's, and `sub` holds the source type and SAT (R321). -/
def lane (op t : Nat) (mode : Round) (sub a b d : Nat) : Nat × Flags :=
  let w := typeWidth t
  let f := fmtOf t
  let h := 2 ^ (w - 1)
  let x := decodeFp f a
  let y := decodeFp f b
  let z := decodeFp f d
  let out (e : Exact) : Nat × Flags := e.round f mode false
  match op with
  | 0x94 | 0xA2 => (a, 0)
  | 0x95 => out (exactAdd mode x y)
  | 0x96 => out (exactAdd mode x y.negate)
  | 0x97 => out (exactMul x y)
  | 0x98 => out (exactFma mode x y z)
  | 0x99 => out (exactFma mode x y z.negate)
  | 0x9A => out (exactFma mode x.negate y z)
  | 0x9B => out (exactDiv x y)
  | 0x9C => out (exactSqrt x)
  | 0x9D => (fpMinMax false x y).round f .rne false
  | 0x9E => (fpMinMax true x y).round f .rne false
  | 0x9F => (a % h, 0)
  | 0xA0 => (a ^^^ h, 0)
  | 0xA1 => let r := fpRelation sub x y; (if r.1 then 1 else 0, r.2)
  | 0xA3 => convertType (sub % 16) t a mode (decide (sub / 16 % 2 = 1))
  | 0xA4 => roundIntegral t mode a
  | 0xA9 => (exactDiv (.fin false 1 0) x).round f .rne false
  | 0xAA => (exactRsqrt x).round f .rne false
  | 0xCB => (if classMatch t sub a then 1 else 0, 0)
  | 0xCC => (copySign t sub a b, 0)
  | 0xCD => scaleByPower t mode a b
  | 0xCE => exponentOf t a
  | _ =>
    match fnOf op with
    | some fn => fnValue fn f x
    | none => (intLane op t sub a b, 0)

/-! ## Reductions and scans (R42, R43, R307, R308) -/

/-- The working type of a reduction (R307). -/
def workType (t : Nat) : Nat := if t = 0 then 0 else if t < 4 then 1 else t

/-- An input in the working format, widened exactly (R307). -/
def widen (t v : Nat) : Nat × Flags := if fpType t then convertType t (workType t) v .rne false else (v, 0)

/-- A working value rounded to the type under RNE (R307). -/
def narrow (t v : Nat) : Nat × Flags := if fpType t then convertType (workType t) t v .rne false else (v, 0)

/-- The leaf identity of a reduction operation, in the working format (R307). -/
def leafIdentity (op t : Nat) : Nat :=
  let w := workType t
  if fpType t then
    match op with
    | 0 => signBit (fmtOf w) true
    | 1 => (fmtOf w).infBits
    | _ => signBit (fmtOf w) true + (fmtOf w).infBits
  else
    match op with
    | 1 => wrapInt (typeWidth t) (intMax t)
    | 2 => wrapInt (typeWidth t) (intMin t)
    | 3 => 2 ^ typeWidth t - 1
    | _ => 0

/-- The identity of an empty reduction and of an exclusive scan: +0 for a floating sum (R43, R307, R308). -/
def emptyIdentity (op t : Nat) : Nat := if fpType t && op == 0 then 0 else leafIdentity op t

/-- One application of a reduction operation in the working format (R307). -/
def combine (op t a b : Nat) : Nat × Flags :=
  let f := fmtOf (workType t)
  if fpType t then
    match op with
    | 0 => (exactAdd .rne (decodeFp f a) (decodeFp f b)).round f .rne false
    | 1 => (fpMinMax false (decodeFp f a) (decodeFp f b)).round f .rne false
    | _ => (fpMinMax true (decodeFp f a) (decodeFp f b)).round f .rne false
  else
    (match op with
      | 0 => intLane 0xB0 t 0 a b
      | 1 => intLane 0xB4 t 0 a b
      | 2 => intLane 0xB5 t 0 a b
      | 3 => a &&& b
      | 4 => a ||| b
      | _ => a ^^^ b, 0)

/-- A reduction step on values with flags. -/
def combineFlags (op t : Nat) (a b : Nat × Flags) : Nat × Flags :=
  let r := combine op t a.1 b.1
  (r.1, a.2 ||| b.2 ||| r.2)

/-- The tree of R42 over working values, with the flags of every application. -/
def reduceTree (op t : Nat) (xs : List (Nat × Flags)) : Nat × Flags :=
  treeReduce (combineFlags op t) (emptyIdentity op t, 0) xs

end Sys2Proof.Machine
end

