-- ==== Sys2Proof/Machine/Berm.lean ====
section
/-!
DEFINITION. Berm engines: the check of a routine and its launch block, the streams, the instructions over all
elements, and the end of a run (R319 to R325, R441 to R443).
-/
namespace Sys2Proof.Machine

/-! ## Routine words (R320, R321, R441) -/

/-- What R321 permits of an opcode: its types, the bits of SUB it uses, and whether it has a source b. -/
def bermRule (op : Nat) : Option ((Nat → Bool) × Nat × Bool) :=
  if op ∈ [0x94, 0x9C, 0x9F, 0xA0, 0xA4, 0xCE] then some (fpType, 0, false)
  else if op ∈ [0x95, 0x96, 0x97, 0x98, 0x99, 0x9A, 0x9B, 0x9D, 0x9E, 0xCD] then some (fpType, 0, true)
  else if op ∈ [0xA5, 0xA6, 0xA7, 0xA8, 0xA9, 0xAA, 0xAB, 0xAC] then some (fnType, 0, false)
  else if op = 0xA1 then some (fpType, 3, true)
  else if op = 0xBD then some (intType, 3, true)
  else if op = 0xA2 then some (anyType, 0, true)
  else if op = 0xA3 then some (anyType, 31, false)
  else if op ∈ [0xB0, 0xB1] then some (intType, 1, true)
  else if op ∈ [0xB2, 0xB4, 0xB5, 0xB7, 0xB8, 0xB9, 0xBA, 0xBB, 0xBC] then some (intType, 0, true)
  else if op = 0xCC then some (fpType, 1, true)
  else if op = 0xC1 then some (fun t => fpType t || intType t, 7, false)
  else none

def bOp (w : Nat) : Nat := bitsOf w 63 56
def bType (w : Nat) : Nat := bitsOf w 55 52
def bRnd (w : Nat) : Nat := bitsOf w 51 49
def bMsk (w : Nat) : Bool := bitsOf w 48 48 == 1
def bMs (w : Nat) : Nat := bitsOf w 47 45
def bD (w : Nat) : Nat := bitsOf w 44 40
def bA (w : Nat) : Nat := bitsOf w 39 35
def bB (w : Nat) : Nat := bitsOf w 34 30
def bSub (w : Nat) : Nat := bitsOf w 29 24

/-- Whether a routine word is free of the defects of R441. DESIGN CHOICE (log 90): a stream register as the destination of
a VRED, which R320 does not allow and the list of R441 does not name, is a defect too. -/
def bermWordOk (w : Nat) : Bool :=
  match bermRule (bOp w) with
  | none => false
  | some (types, mask, binary) =>
    let red := bOp w == 0xC1
    let sub := bSub w
    let code (c : Nat) : Bool := !(decide (8 ≤ c) && decide (c ≤ 15))
    types (bType w) && decide (bRnd w ≤ 3) && sub &&& mask == sub && bitsOf w 23 0 == 0 &&
      code (bD w) && code (bA w) && code (bB w) && (decide (16 ≤ bD w) == red) && (binary || bB w == 0) &&
      (bOp w != 0xA3 || sub % 16 != 15) &&
      (!red || (decide (sub ≤ 5) && !(fpType (bType w) && decide (2 < sub))))

/-- NINS of a routine's header, none for a defect; with the index of the header word that holds it (R319, R441). -/
def bermHeader (bs : List Byte) : Except Nat Nat :=
  let word (k : Nat) : Nat := ofBytes ((bs.drop (8 * k)).take 8)
  let n := word 0
  if 64 < n ∨ n = 0 then .error 0
  else
    match (List.range 8).find? fun k => k != 0 && word k != 0 with
    | some k => .error k
    | none => .ok n

/-! ## Launch blocks (R322, R324, R441) -/

/-- A launch block or routine as 8-byte words. -/
def wordsOf (n : Nat) (bs : List Byte) : List Nat := (List.range n).map fun k => ofBytes ((bs.drop (8 * k)).take 8)

/-- A stream descriptor: base, type, mode and CLR. -/
structure Stream where
  base : Nat
  type : Nat
  mode : Nat
  clr : Bool
  deriving DecidableEq, Repr

/-- Stream descriptor `j` of a launch block. -/
def streamOf (ws : List Nat) (j : Nat) : Stream :=
  let hi := nthD 0 ws (9 + 2 * j)
  { base := nthD 0 ws (8 + 2 * j), type := hi % 16, mode := bitsOf hi 5 4, clr := hi.testBit 6 }

/-- The index of the first word of a launch block that holds a defect; `off` is the element offset of a chunk's run
(R322, R324, R441). -/
def blockDefect (ws : List Nat) (off : Option Nat) : Option Nat :=
  (List.range 24).find? fun k =>
    let w := nthD 0 ws k
    if k = 0 then decide (2 ^ 32 ≤ w)
    else if k < 8 then w != 0
    else
      let d := streamOf ws ((k - 8) / 2)
      if k % 2 = 0 then decide (d.type ≤ 14) && w % rowBytes 1 (typeWidth d.type) != 0
      else
        decide (2 ^ 7 ≤ w) || d.type == 15 ||
          (d.mode != 0 && d.type == 6 && (off.map fun o => o % 2 == 1).getD false)

/-- The fault of a refused run (R424, R441). -/
def bermRefusal (addr : Word) (k : Nat) (block : Bool) : FaultInfo :=
  { code := 0x080A, addr := addr, synd := BitVec.ofNat 64 k, aux := if block then 1 else 0 }

/-! ## A run -/

/-- The agent of a run: its context, the controller, and the L2 TLB of the die above it (R323). -/
def bermAgent (k : Nat) (r : BermRun) : Agent :=
  { ctx := r.ctx.toNat, akind := 6, aidx := k, die := some (k / 3), got := r.fetched, issuer := some (.berm k) }

/-- A run as checked: its words, streams, element count, scalars, and the offset of its chunk. -/
structure BermPlan where
  words : List Nat
  streams : List Stream
  n : Nat
  ks : List Nat
  deriving DecidableEq, Repr

/-- The routine and launch block of a run read and checked (R322, R324, R441). -/
def State.bermPlan (s : State) (a : Agent) (r : BermRun) : State × Except Halt BermPlan :=
  match s.readBytes a r.routine 64 with
  | (s, .error h) => (s, .error h)
  | (s, .ok hdr) =>
    match bermHeader hdr with
    | .error k => (s, .error (.fault (bermRefusal r.routine k false)))
    | .ok n =>
      match s.readBytes a (r.routine + 64) (8 * n) with
      | (s, .error h) => (s, .error h)
      | (s, .ok code) =>
        let ws := wordsOf n code
        match ws.findIdx? fun w => !bermWordOk w with
        | some k => (s, .error (.fault (bermRefusal r.routine (8 + k) false)))
        | none =>
          match s.readBytes a r.launch 320 with
          | (s, .error h) => (s, .error h)
          | (s, .ok block) =>
            let bs := wordsOf 40 block
            let off := r.chunk.map fun c => c.2.1
            match blockDefect bs off with
            | some k => (s, .error (.fault (bermRefusal r.launch k true)))
            | none =>
              let shift (d : Stream) : Stream :=
                { d with base := (d.base + off.getD 0 * typeWidth d.type / 8) % 2 ^ 64 }
              let ks := bs.drop 24
              let ks := match r.chunk with
                | some (c, o, _, _) => c :: o :: ks.drop 2
                | none => ks
              (s, .ok { words := ws, streams := (List.range 8).map fun j => shift (streamOf bs j)
                        n := match r.chunk with | some (_, _, n, _) => n | none => nthD 0 bs 0
                        ks := ks })

/-- The element that enters a stream in place of a poisoned one (R26, R443). -/
def poisonElement (t : Nat) : Nat :=
  match typeFmt t with
  | some .e2m1 => 7
  | some f => nanBits f .poison false
  | none => 0

/-- The address of element `k` of a stream. -/
def Stream.at (d : Stream) (k : Nat) : Word := BitVec.ofNat 64 (d.base + k * typeWidth d.type / 8)

/-- Whether the leaf that covers an address is a polder page's. -/
def State.polderLeaf (s : State) (a : Agent) (va : Word) : Bool :=
  match (s.lookup a 0 va.toNat).2 with
  | .ok e => (attrParams e.lo).isSome
  | .error _ => false

/-- Element `k` of a read stream: its bits, with the fault of its poison if it has any (R323, R406, R443). A CLR stream
on a polder page needs RD and WR (R403, R465); without `take` nothing is cleared, and a cell of a peer is only read. -/
def State.bermElement (s : State) (a : Agent) (take : Bool) (d : Stream) (k : Nat) :
    State × Except Halt (Nat × Option FaultInfo) :=
  let va := d.at k
  let w := typeWidth d.type
  let n := rowBytes 1 w
  let rule (p : Page) : Option FaultInfo :=
    match p.params with
    | some q => if q.rtype = d.type then none else some (a.flt 0x0307 va)
    | none => none
  let found (s : State) (r : Except Halt Nat) : State × Except Halt (Nat × Option FaultInfo) :=
    match r with
    | .ok v => (s, .ok (v, none))
    | .error (.fault f) =>
      if f.code = 0x0401 then (s.found f, .ok (poisonElement d.type, some f)) else (s, .error (.fault f))
    | .error h => (s, .error h)
  let clears := d.clr && s.polderLeaf a va
  match s.translate a (if clears then Need.atomic else Need.read) va rule with
  | (s, .error f) => (s, .error (.fault f))
  | (s, .ok p) =>
    let far := match s.place p.gpa with | .peer _ => true | _ => false
    if p.params.isSome then
      let early := clears && !take && far
      let (s, r) := s.cellTake a early (d.clr && take) va.toNat p
      found s r
    else
      match s.readPage a va p n with
      | (s, .ok bs) => (s, .ok (ofBytes bs / (if w = 4 ∧ k % 2 = 1 then 16 else 1) % 2 ^ w, none))
      | (s, .error h) => found s (.error h)

/-- A run's agent after it has taken an element: an exchange with a peer uses up its answer (R242, R323). -/
def State.bermTook (s : State) (a : Agent) (take : Bool) (d : Stream) (k : Nat) : Agent :=
  if d.clr && take then
    match (s.translate a Need.atomic (d.at k) fun _ => none).2 with
    | .ok p => a.took p.params.isSome p
    | .error _ => a
  else a

/-- The first read of a peer that a run's streams still await: the request, or nothing when the next fault or the end
comes first (R323). Without `take` the cells of peers are read and none is cleared: no clear is made unless the whole read
phase goes without a fault (R442). -/
def State.bermAsk (s : State) (a : Agent) (take : Bool) (p : BermPlan) : Option Halt :=
  let step (acc : Agent × Option (Option Halt)) (d : Stream) (k : Nat) : Agent × Option (Option Halt) :=
    match acc with
    | (a, some r) => (a, some r)
    | (a, none) =>
      match (s.bermElement a take d k).2 with
      | .ok _ => (s.bermTook a take d k, none)
      | .error (.fault _) => (a, some none)
      | .error h => (a, some (some h))
  ((p.streams.filter fun d => d.mode % 2 == 1).foldl (fun acc d =>
    (List.range p.n).foldl (fun acc k => step acc d k) acc) (a, none)).2.join

/-- A run's streams as they are read, with the first poison met (R323, R443). -/
structure BermData where
  e : List (List Nat)
  ks : List Nat
  flags : Flags := 0
  poison : Option FaultInfo := none

/-- The streams read in order (R323, R442, R443). -/
def State.bermRead (s : State) (a : Agent) (take : Bool) (p : BermPlan) : State × Except Halt BermData :=
  let all := p.streams.foldl (fun acc d =>
    match acc with
    | (s, a, .error h) => (s, a, .error h)
    | (s, a, .ok r) =>
      if d.mode % 2 = 0 then (s, a, .ok { r with e := r.e ++ [List.replicate p.n 0] })
      else
        let out := (List.range p.n).foldl (fun (acc : State × Agent × Except Halt (List Nat × Option FaultInfo)) k =>
          match acc with
          | (s, a, .error h) => (s, a, .error h)
          | (s, a, .ok (vs, bad)) =>
            match s.bermElement a take d k with
            | (s, .error h) => (s, a, .error h)
            | (s, .ok (v, b)) => (s, s.bermTook a take d k, .ok (vs ++ [v], if bad.isSome then bad else b)))
          (s, a, .ok ([], r.poison))
        match out with
        | (s, a, .error h) => (s, a, .error h)
        | (s, a, .ok (vs, bad)) => (s, a, .ok { r with e := r.e ++ [vs], poison := bad })) (s, a, .ok { e := [], ks := p.ks })
  (all.1, all.2.2)

/-- The value of a source operand for element `k` (R320). -/
def BermData.src (r : BermData) (c k : Nat) : Nat :=
  if c < 8 then nthD 0 (nthD [] r.e c) k else nthD 0 r.ks (c - 16)

/-- One instruction over all `n` elements (R321). -/
def BermData.run (r : BermData) (n w : Nat) : BermData :=
  let op := bOp w
  let t := bType w
  let b := typeWidth t
  let from' := if op = 0xA3 then typeWidth (bSub w % 16) else b
  let mode := Round.of (bRnd w)
  let active (k : Nat) : Bool := !bMsk w || nthD 0 (nthD [] r.e (bMs w)) k % 2 ^ 64 != 0
  if op = 0xC1 then
    let sub := bSub w
    let leaf (k : Nat) : Nat × Flags :=
      if active k then widen t (r.src (bA w) k % 2 ^ b) else (leafIdentity sub t, 0)
    let (v, fl) := reduceTree sub t ((List.range n).map leaf)
    { r with ks := setAt r.ks (bD w - 16) v, flags := r.flags ||| fl }
  else
    let one (k : Nat) : Nat × Flags :=
      let old := nthD 0 (nthD [] r.e (bD w)) k
      let x := r.src (bA w) k
      let y := r.src (bB w) k
      if op = 0xA2 then (old / 2 ^ b * 2 ^ b + (if active k then x else y) % 2 ^ b, 0)
      else if !active k then (old, 0)
      else
        let (v, fl) := lane op t mode (bSub w) (x % 2 ^ from') (y % 2 ^ b) (old % 2 ^ b)
        let m := if op = 0xA1 ∨ op = 0xBD then 64 else b
        (old / 2 ^ m * 2 ^ m + v % 2 ^ m, fl)
    let out := (List.range n).map one
    { r with e := setAt r.e (bD w) (out.map Prod.fst), flags := out.foldl (fun f x => f ||| x.2) r.flags }

/-- Elements of `w` bits packed from bit 0. -/
def packElements (w : Nat) (vs : List Nat) : Nat := vs.foldr (fun v acc => v % 2 ^ w + acc * 2 ^ w) 0

/-- The tags of a berm engine's first run extended. -/
def State.bermTags (s : State) (k : Nat) (tags : List Nat) : State :=
  match s.berm k with
  | r :: rest => s.setBerm k ({ r with tags := r.tags ++ tags } :: rest)
  | [] => s

/-- The low nibble of a byte written: the last element of an E2M1 stream of an odd number of elements. -/
def State.bermNibble (s : State) (k : Nat) (a : Agent) (va : Word) (v : Nat) : State × Option FaultInfo :=
  match s.translate a Need.write va (noPolder a va 0) with
  | (s, .error f) => (s, some f)
  | (s, .ok p) =>
    match s.place p.gpa with
    | .mem la => (s.homeNibble p.lo a.ctx la 1 (v % 16), none)
    | .peer dev =>
      let (s, tag) := s.send (.berm k) va
        { s.request a 1 dev p.gpa 1 p.lo [BitVec.ofNat 8 (v % 16)] with beside := { note := 1 } }
      (s.bermTags k [tag], none)
    | _ => (s, some (a.flt 0x0115 va))

/-- One write of a run made: bytes of one page, at the home or by packet, or a nibble. -/
def State.bermPut (s : State) (k : Nat) (a : Agent) (w : BermWrite) : State × Option FaultInfo :=
  if w.nibble then s.bermNibble k a w.va (ofBytes w.bytes)
  else
    match s.planWrite a Need.write w.va (w.bytes.map some) (fun v _ p => noPolder a v 0 p) with
    | (s, .error f) => (s, some f)
    | (s, .ok ws) =>
      let (s, tags) := s.putAll a (.berm k) ws
      (s.bermTags k tags, none)

/-- The writes of a write stream in order, cut where pages and packets end (R323). -/
def streamWrites (d : Stream) (vs : List Nat) : List BermWrite :=
  let w := typeWidth d.type
  let bs := toBytes (vs.length * w / 8) (packElements w vs)
  let base := (d.at 0).toNat
  (piecesOf 4096 base bs.length).map (fun pc => { va := BitVec.ofNat 64 pc.1, bytes := (bs.drop (pc.1 - base)).take pc.2 }) ++
    if vs.length * w % 8 = 0 then []
    else [{ va := d.at (vs.length - 1), bytes := [BitVec.ofNat 8 (nthD 0 vs (vs.length - 1))], nibble := true }]

/-- The writes of a run: its write streams in ascending order, then the scalars of a BRUN (R323, R324). -/
def bermWrites (r : BermRun) (p : BermPlan) (d : BermData) : List BermWrite :=
  ((List.range 8).flatMap fun j =>
    let t := nthD { base := 0, type := 0, mode := 0, clr := false } p.streams j
    if t.mode < 2 then [] else streamWrites t (nthD [] d.e j)) ++
  if r.chunk.isSome then []
  else [{ va := r.launch + 256, bytes := toBytes 64 (packElements 64 (d.ks.drop 8)) }]

/-- A berm engine's first run changed. -/
def State.mapBerm (s : State) (k : Nat) (f : BermRun → BermRun) : State :=
  match s.berm k with
  | r :: rest => s.setBerm k (f r :: rest)
  | [] => s

/-- A run's work all issued, with the fault its issuer will have (R441 to R443). -/
def State.bermDone (s : State) (k : Nat) (f : Option FaultInfo) : State :=
  s.mapBerm k fun r => { r with
    done := true, writes := []
    fault := f.map fun f =>
      { f with akind := 6, aidx := k, res := false, synd := if f.code = 0x0307 then r.word else f.synd } }

/-- What a run does when it needs a peer's bytes: it sends the request, once, and waits. -/
def State.bermHalt (s : State) (k : Nat) (h : Halt) : State :=
  match h with
  | .ask pkt va =>
    let asked := match s.berm k with
      | r :: _ => asking r.fetched pkt.addr.toNat pkt.len
      | [] => true
    if asked then s
    else
      let (s, tag) := s.send (.berm k) va pkt
      s.mapBerm k fun r => { r with fetched := r.fetched ++ [{ tag := tag, addr := pkt.addr.toNat, len := pkt.len }] }
  | .fault f => (s.found f).bermDone k (some f)
  | _ => s

/-- Flags of a context's berm runs (R32, R386). -/
def State.bermFlags (s : State) (x : Nat) (f : Flags) : State :=
  let c := s.ctx x
  s.setCtx x { c with flagsBerm := c.flagsBerm ||| f }

/-- The writes left of a run's write phase made in order, up to the first that a peer must acknowledge: what is written
before a fault stands (R442). -/
def State.bermWrite (s : State) (k : Nat) (a : Agent) : List BermWrite → State
  | [] => s.mapBerm k fun r => { r with writes := [], done := true }
  | w :: ws =>
    match s.bermPut k a w with
    | (s, some f) => s.bermDone k (some f)
    | (s, none) =>
      if ((s.berm k).head?.map BermRun.tags).getD [] = [] then State.bermWrite s k a ws
      else s.mapBerm k fun r => { r with writes := ws, done := ws.isEmpty }

/-- The read phase of a run, and its instructions over all elements (R323, R441 to R443). The reads and clears of this
device's memory are one step of the model, made once the cells of every peer have been taken, and none of them when a peer
refuses; so no add lands between a read and the clear of the same stream; R437 lets
one land between a read and a later write stream's write, and the model makes such writes in the same step too as far as
no peer must acknowledge one first (log 72). -/
def State.computeBerm (s : State) (k : Nat) (r : BermRun) : State :=
  let a := bermAgent k r
  match s.bermPlan a r with
  | (s, .error h) => s.bermHalt k h
  | (s, .ok p) =>
    match (s.bermAsk a false p).orElse fun _ => if (s.bermRead a false p).2.toOption.isSome then s.bermAsk a true p else none with
    | some h => s.bermHalt k h
    | none =>
      match s.bermRead a false p with
      | (s, .error h) => s.bermHalt k h
      | (_, .ok _) =>
        match s.bermRead a true p with
        | (_, .error h) => s.bermHalt k h
        | (s, .ok d) =>
          let d := p.words.foldl (fun d w => d.run p.n w) d
          let s := s.bermFlags r.ctx.toNat d.flags
          let poison := d.poison.map fun f => { f with akind := 6, aidx := k, res := false }
          s.mapBerm k fun r => { r with computed := true, fault := poison, writes := bermWrites r p d }

/-- The first run of a berm engine performed as far as peers allow (R323). -/
def State.performBerm (s : State) (k : Nat) (r : BermRun) : State :=
  let s := if r.computed then s else s.computeBerm k r
  match s.berm k with
  | r :: _ => if r.computed && !r.done && r.tags.isEmpty then s.bermWrite k (bermAgent k r) r.writes else s
  | [] => s

/-- BERM_RUN: the oldest run of a controller's engine performed (R325). -/
def execBermRun (ctrl : BitVec 4) (s : State) : Out :=
  let k := ctrl.toNat
  match s.berm k with
  | r :: _ => if r.done ∨ s.isFrozen (masterId 6 k) then .next s else .next (s.performBerm k r)
  | [] => .next s

/-- A finished run leaves its engine: TL.BERM advances, and its BRUN or its collective learns of it (R243, R259, R325,
R440, R441). -/
def State.finishBerm (s : State) (k : Nat) (r : BermRun) : State :=
  let x := r.ctx.toNat
  let s := s.setBerm k ((s.berm k).drop 1)
  let s := s.advance x (0x30 + k) 1
  let s := match r.issuer with
    | some (core, id) => s.endWait core engCopy id r.fault
    | none => s
  match r.chunk, r.fault with
  | some (_, _, _, counter), some f => (s.chunkFail x counter f).answered
  | _, _ => s.answered

/-- BERM_RUN_FINISH: a run whose writes are all performed finishes (R325). -/
def execBermRunFinish (ctrl : BitVec 4) (s : State) : Out :=
  let k := ctrl.toNat
  match s.berm k with
  | r :: _ => if r.done ∧ r.tags = [] ∧ s.isFrozen (masterId 6 k) = false then .next (s.finishBerm k r) else .next s
  | [] => .next s

end Sys2Proof.Machine
end

