-- ==== Sys2Proof/Machine/ControlFlow.lean ====
section
/-!
DEFINITION. Control transfers, loops and coils (R201 to R207).
-/
namespace Sys2Proof.Machine

/-- Whether a CB condition holds: the predicate equals the sense (R163). -/
def Core.taken (c : Core) (p : BitVec 4) (n : BitVec 1) : Bool := c.readP p == (n == 1)

/-- BR (R163, R201). -/
def execBr (c : BitVec 4) (n : BitVec 1) (f : BitVec 19) (s : State) : Out :=
  .next (if s.here.taken c n then s.mapHere fun k => k.jump (k.lineAt f) else s)

/-- CALL: s31 takes the line after this one (R201). -/
def execCall (c : BitVec 4) (n : BitVec 1) (f : BitVec 19) (s : State) : Out :=
  .next (if s.here.taken c n then s.mapHere fun k => (k.writeS 31 (k.line + 32)).jump (k.lineAt f) else s)

/-- A transfer through a register, whose bits [4:0] and [63:57] must be zero (R202, R373). -/
def State.jumpReg (s : State) (a : BitVec 6) : State :=
  let t := s.here.readS a
  if t.toNat % 32 = 0 ∧ t.toNat < 2 ^ 57 then s.mapHere fun c => c.jump t
  else s.fault { code := 0x010B, addr := t }

/-- JMP (R202). -/
def execJmp (g : BitVec 4) (a : BitVec 6) (s : State) : Out := ctlS g s fun s => s.jumpReg a

/-- RET (R202). -/
def execRet (g : BitVec 4) (a : BitVec 6) (s : State) : Out := ctlS g s fun s => s.jumpReg a

/-- The trip count that SRC names (R203). -/
def Core.trip (c : Core) (a : BitVec 6) (src : BitVec 2) (k : BitVec 3) (trip : BitVec 8) : BitVec 32 :=
  match src with
  | 0 => BitVec.ofNat 32 (kTemporal c.kernel k.toNat)
  | 1 => (c.readS a).setWidth 32
  | _ => trip.setWidth 32

/-- Loop counter `k` of a core. -/
def Core.loopCtr (c : Core) (k : Nat) : LoopCtr := Table.get {} c.regs.loops k

/-- Loop counter `k` replaced. -/
def Core.setLoop (c : Core) (k : Nat) (l : LoopCtr) : Core :=
  { c with regs := { c.regs with loops := Table.set {} c.regs.loops k l } }

/-- LOOP (R203, R204). -/
def execLoop (g : BitVec 4) (d a : BitVec 6) (src : BitVec 2) (k : BitVec 3) (trip : BitVec 8) (off : BitVec 19)
    (s : State) : Out :=
  ctl g s fun c =>
    let l := c.loopCtr k.toNat
    let n := if l.act then l.n else c.trip a src k trip
    let i := (if l.act then l.i else 0) + 1
    if i.toNat < n.toNat then
      ((c.setLoop k.toNat { act := true, n := n, i := i }).writeS d (i.setWidth 64)).jump (c.lineAt off)
    else (c.setLoop k.toNat { act := false, n := n, i := i }).writeS d 0

/-- A core with new coil offsets. -/
def Core.setCoil (c : Core) (k : Coil) : Core := { c with regs := { c.regs with coil := k } }

/-- Logical p8 written under the coil offsets in force after an update (R206). -/
def Core.setP8 (c : Core) (b : Bool) : Core :=
  { c with regs := { c.regs with p := setBit c.regs.p (rotP c.regs 8) b } }

/-- PIPE START (R205, R207). -/
def execPipeStart (g : BitVec 4) (a : BitVec 6) (stages : BitVec 3) (src : BitVec 2) (k : BitVec 3) (trip : BitVec 8)
    (s : State) : Out :=
  ctl g s fun c =>
    let t := c.trip a src k trip
    let c := c.setCoil { cpn := 0, cpt := t, cps := stages.setWidth 4 + 1, srot := 0, prot := 0 }
    let c := { c with regs := { c.regs with p := c.regs.p &&& 0x01FF } }
    c.setP8 (t != 0)

/-- PIPE TURN (R205, R207). -/
def execPipeTurn (g : BitVec 4) (off : BitVec 19) (s : State) : Out :=
  ctl g s fun c =>
    let k := c.regs.coil
    let total := max k.cpt.toNat 1 + k.cps.toNat - 1
    if k.cps = 0 ∨ total ≤ k.cpn.toNat then c
    else
      let k := { k with cpn := k.cpn + 1, srot := k.srot + 1, prot := k.prot + 1 }
      let c := (c.setCoil k).setP8 (decide (k.cpn.toNat < k.cpt.toNat))
      if k.cpn.toNat < total then c.jump (c.lineAt off) else c

end Sys2Proof.Machine
end

