-- ==== Sys2Proof/Machine/Fetch.lean ====
section
/-!
DEFINITION. Fetching code lines and cutting them into dispatch units (R151 to R161, R380, R384, R394).
-/
namespace Sys2Proof.Machine

/-- A core's instruction cache line at a physical address (R161). -/
def Core.icache (c : Core) (gpa : Nat) : Option (List Byte) := (c.l1i.find? fun e => e.1 == gpa).map Prod.snd

/-- A line placed in a core's instruction cache of 2,048 lines, the oldest leaving. -/
def Core.icacheFill (c : Core) (gpa : Nat) (bs : List Byte) : Core := { c with l1i := ((gpa, bs) :: c.l1i).take 2048 }

/-- The fetch of the line at a core's pc (R161, R394): its 32 bytes, through the instruction cache. -/
def State.fetchLine (s : State) (core : Nat) : State × Except Halt (List Byte) :=
  let c := s.core core
  let a := { s.control core with got := (c.held.filter fun h => h.slot == 0).map HeldLoad.ask }
  match s.translate a Need.fetch c.line (fun _ => none) with
  | (s, .error f) => (s, .error (.fault f))
  | (s, .ok p) =>
    match (s.core core).icache p.gpa with
    | some bs => (s, .ok bs)
    | none =>
      match s.place p.gpa, p.params with
      | .regs _, _ => (s, .error (.fault (a.flt 0x0115 c.line)))
      | .mem la, none =>
        -- the instruction cache is filled from L2 (R161)
        match s.homeRead (carried p.lo) la 32 (if cacheable p.lo then some (core / 64) else none) with
        | (s, .error b) => (s, .error (.fault (s.poisonFault a 0x0401 c.line b)))
        | (s, .ok bs) => (s.setCore core ((s.core core).icacheFill p.gpa bs), .ok bs)
      | _, _ =>
        match s.readPage a c.line { p with lo := carried p.lo } 32 with
        | (s, .error h) => (s, .error h)
        | (s, .ok bs) => (s.setCore core ((s.core core).icacheFill p.gpa bs), .ok bs)

/-- What a failing fetch does: the fault stands at the bundle boundary, at the pc (R394). -/
def State.fetchHalt (s : State) (core : Nat) (h : Halt) : State :=
  let c := s.core core
  match h with
  | .fault f =>
    let s := s.found f
    s.setCore core ((s.core core).faultAt { f with line := c.line, slot := c.slot })
  | .violate a => s.freezeCore core a
  | .wait | .sent => s.setCore core { c with blocked := some .hold }
  | .ask pkt va =>
    if c.held.any fun h => h.slot == 0 then s
    else
      let (s, tag) := s.send (.stream core 0) va pkt
      s.setCore core { s.core core with
        held := (s.core core).held ++ [{ slot := 0, ask := { tag := tag, addr := pkt.addr.toNat, len := pkt.len } }]
        blocked := some .hold }

/-- Whether a slot is a control slot by its tag. -/
def slotControl (x : Slot) : Bool := x.tag == 1 || x.tag == 2

/-- Whether a control slot's opcode is a control transfer (R155). -/
def slotTransfer (x : Slot) : Bool :=
  let f := CR.unpack x.word
  slotControl x && (decide (f.op.toNat ∈ [0x1B, 0x1C, 0x1D, 0x1E, 0x1F, 0x20, 0x3C]) ||
    (f.op.toNat == 0x3E && f.imm8 == 1))

/-- The slots of a bundle that begins at the head of the list, with what stands between its control slots (R155). -/
def takeBundle : List Slot → List Slot
  | [] => []
  | x :: xs =>
    if slotControl x && x.tag == 2 then [x]
    else if xs.any slotControl then x :: takeBundle xs
    else [x]

/-- The dispatch unit at the head of a line's remaining slots (R380). -/
def takeUnit : List Slot → List Slot
  | [] => []
  | x :: xs => if slotControl x then takeBundle (x :: xs) else [x]

/-- The number of a bundle's slots up to and including each, for R155's limits: the first slot past a limit. -/
def bundleExcess (controls transfers : Nat) : List Slot → Option Nat
  | [] => none
  | x :: xs =>
    let n := controls + (if slotControl x then 1 else 0)
    let t := transfers + (if slotTransfer x then 1 else 0)
    if 3 < n ∨ 1 < t then some x.num else bundleExcess n t xs

/-- The encoding fault of a slot in its unit (R373, R384); `hdr` is the line's header. -/
def slotFault (hdr : BitVec 32) (unit : List Slot) (x : Slot) : Option FaultInfo :=
  let excess := decide (bundleExcess 0 0 unit = some x.num)
  let own : Option Reject := match x.what with | .error r => some r | .ok _ => none
  let first := match own, excess with
    | some r, true => if r.rank ≤ Reject.bundle.rank then some r else some .bundle
    | some r, false => some r
    | none, true => some .bundle
    | none, false => none
  first.map fun r =>
    let synd : Nat := match r with
      | .slotTag => x.tag
      | .continuation => hdr.toNat
      | .lctl => hdr.toNat
      | .bundle => (unit.filter slotControl).length + 256 * (unit.filter slotTransfer).length
      | _ => x.word.toNat
    let aux : Nat := match r with
      | .slotTag => 0 | .continuation => 0 | .lctl => 0 | .bundle => 0
      | _ => (x.cont.getD 0).toNat
    { code := r.code, synd := BitVec.ofNat 64 synd, aux := BitVec.ofNat 64 aux, slot := x.num }

/-- Whether the pc of a core stands at a bundle boundary (R158): no slot of its unit has dispatched, and the unit is a
bundle, or the pc is the slot 1 of a line reached by a transfer, a start or a resume; EXIT's wait is one (R192). -/
def State.atBoundary (s : State) (core : Nat) : Bool :=
  let c := s.core core
  c.unitDone == 0 && c.early.isEmpty && c.blocked != some .hold &&
    (c.exiting || (c.entered && c.slot == 1) ||
      match (s.fetchLine core).2 with
      | .ok line => (((decodeLine line).filter fun x => decide (c.slot ≤ x.num)).head?.map slotControl).getD false
      | .error _ => false)

/-- Whether a decoded instruction is an engine slot's (R152). -/
def slotEngine (x : Slot) : Bool := decide (3 ≤ x.tag) && decide (x.tag ≤ 6)

/-- The slot after the last of a unit. -/
def unitEnd (unit : List Slot) : Nat :=
  match unit.getLast? with
  | some x => x.num + (if x.cont.isSome then 2 else 1)
  | none => 8

end Sys2Proof.Machine
end

