-- ==== Sys2Proof/Machine/Vector.lean ====
section
/-!
DEFINITION. The vector stream: SHAPE, tiles and masks, elementwise commands, conversions, tile operations, microscaling
and the stream's sync forms (R293 to R317).
-/
namespace Sys2Proof.Machine

/-! ## Geometry (R293 to R296) -/

/-- The geometry of SHAPE (R294, R295). -/
structure Geom where
  rows : Nat
  cols : Nat
  vrows : Nat
  vcols : Nat
  deriving DecidableEq, Repr

/-- The fields of a SHAPE word (R294). -/
def Geom.of (w : Word) : Geom :=
  let v := w.toNat
  { rows := bitsOf v 23 12 + 1, cols := bitsOf v 11 0 + 1, vrows := bitsOf v 49 37, vcols := bitsOf v 36 24 }

/-- The valid positions in ascending order (R296). -/
def Geom.valid (g : Geom) : List (Nat × Nat) :=
  (List.range g.vrows).flatMap fun i => (List.range g.vcols).map fun j => (i, j)

/-- The flat number of a position (R293). -/
def Geom.flat (g : Geom) (p : Nat × Nat) : Nat := p.1 * g.cols + p.2

/-- Whether SHAPE suits a command with elements of these widths (R295, R385). -/
def Geom.fits (g : Geom) (widths : List Nat) (mask : Bool) : Bool :=
  decide (g.vrows ≤ g.rows) && decide (g.vcols ≤ g.cols) && widths.all (fun b => decide (g.rows * g.cols * b ≤ 32768)) &&
    (!mask || decide (g.rows * g.cols ≤ 4096))

/-- Element k of width b of a tile's bits (R293). -/
def tileElem (t k b : Nat) : Nat := t / 2 ^ (k * b) % 2 ^ b

/-- A tile's bits with element k of width b written (R293). -/
def tileSet (t k b v : Nat) : Nat := t - tileElem t k b * 2 ^ (k * b) + v % 2 ^ b * 2 ^ (k * b)

/-- A tile's bits. -/
def Core.tile (c : Core) (v : Nat) : Nat := (Table.get 0 c.tiles v).toNat

/-- A mask's bits. -/
def Core.mask (c : Core) (m : Nat) : BitVec 4096 := Table.get 0 c.masks m

/-- A tile replaced. -/
def Core.setTile (c : Core) (v t : Nat) : Core := { c with tiles := Table.set 0 c.tiles v (BitVec.ofNat 32768 t) }

/-- A mask replaced. -/
def Core.setMask (c : Core) (m : Nat) (v : BitVec 4096) : Core := { c with masks := Table.set 0 c.masks m v }

/-- Elements of a tile written: flat numbers and values, in order. -/
def tileWrites (t b : Nat) (ws : List (Nat × Nat)) : Nat := ws.foldl (fun t w => tileSet t w.1 b w.2) t

/-- Bits of a mask written, in order. -/
def maskWrites (m : BitVec 4096) (ws : List (Nat × Bool)) : BitVec 4096 := ws.foldl (fun m w => setBit m w.1 w.2) m

/-- Elements of width `b` written to a tile; an error in it is gone when they are all of it (R408). -/
def Core.writeTile (c : Core) (v b : Nat) (ws : List (Nat × Nat)) : Core :=
  let c' := c.setTile v (tileWrites (c.tile v) b ws)
  if c.softHit 2 [v] && (List.range (32768 / b)).all fun k => ws.any fun w => w.1 == k then c'.softMend 2 [v] else c'

/-- Bits written to a mask; an error in it is gone when they are all of it (R408). -/
def Core.writeMask (c : Core) (m : Nat) (ws : List (Nat × Bool)) : Core :=
  let c' := c.setMask m (maskWrites (c.mask m) ws)
  if c.softHit 2 [32 + m] && (List.range 4096).all fun k => ws.any fun w => w.1 == k then c'.softMend 2 [32 + m] else c'

/-- TYPE, MSK and MIDX (R298). -/
def vType (e : Ex) : Nat := bitsOf e.ext.toNat 7 4
def vMsk (e : Ex) : Bool := e.ext.getLsbD 3
def vMidx (e : Ex) : Nat := bitsOf e.ext.toNat 2 0

/-- Whether a position is active: valid, and under MSK its mask bit is 1 (R296). -/
def Core.activeAt (c : Core) (e : Ex) (g : Geom) (p : Nat × Nat) : Bool :=
  !(vMsk e) || (c.mask (vMidx e)).getLsbD (g.flat p)

/-- The active positions (R296). -/
def Core.activeOf (c : Core) (e : Ex) (g : Geom) : List (Nat × Nat) := g.valid.filter (c.activeAt e g)

/-! ## Checks (R295, R300, R385) -/

/-- The fault of types and modes (R373, R385). -/
def badType (i : Instr) : FaultInfo := { code := 0x0113, synd := slotWord i, aux := slotCont i }

/-- Whether a tile source field names a mask tile (R299). -/
def isMaskField (f : BitVec 6) : Bool := decide (32 ≤ f.toNat) && decide (f.toNat < 40)

/-- The unit's checks of a vector command: types and modes, then SHAPE and the limits (R295, R299, R300, R385). -/
def vecCheck (i : Instr) (c : Core) (ok : Bool) (srcs : List (BitVec 6)) (widths : List Nat) (mask limit : Bool) :
    Option FaultInfo :=
  firstFault [
    faultIf (!ok || srcs.any isMaskField) (badType i),
    faultIf (!(Geom.of c.shape).fits widths mask || !limit) { code := 0x010F, synd := c.shape }]

/-! ## Queue sources and soft errors (R131, R299, R408) -/

/-- The queue that a tile source field names. -/
def queueOf (f : BitVec 6) : Option Nat := if 40 ≤ f.toNat then some (f.toNat - 40) else none

/-- The queue entries that a command has popped. -/
def State.poppedOf (s : State) (j : Job) : List Word :=
  match ((s.core j.core).engine j.eng).started with
  | some st => st.entry.ops.drop 7
  | none => []

/-- A command's pops, f2 first: each queue's head in order, as far as entries are there (R131, R299). -/
def popSources (j : Job) : List Nat → State → State × Option RunEnd
  | [], s => (s, none)
  | q :: qs, s =>
    let c := s.core j.core
    if c.softHit 3 [q] then (s, some (startHalt j (.fault (softFault 3))))
    else
    match c.queueReg q with
    | [] => (s, some (.pending 1))
    | e :: rest =>
      let s := s.setCore j.core (c.setQueueReg q rest)
      let s := s.mapStarted j.core j.eng fun t => { t with entry := { t.entry with ops := t.entry.ops ++ [e] } }
      popSources j qs s

/-- The start of a vector command: queue roles, the ordering check on tiles (granule 4,096 + k, R287, R317), soft errors
of the tiles and masks it reads, and its pops. -/
def State.vecBegin (s : State) (j : Job) (queues : List Nat) (reads writes : List Nat) (tiles masks : List Nat) :
    State × Option RunEnd :=
  let c := s.core j.core
  if j.phase = 0 ∧ queues.any fun q => c.qReader q != engVector + 1 then (s, some (.fault none c.roleFault))
  else
    match s.begin j (reads ++ tiles.map (4096 + ·)) writes with
    | .error f => (s, some (.fault none f))
    | .ok s =>
      if c.softHit 2 (tiles ++ masks.map (32 + ·)) then (s, some (startHalt j (.fault (softFault 2))))
      else popSources j (queues.drop (s.poppedOf j).length) s

/-- The tiles that source fields name. -/
def tilesOf (fs : List (BitVec 6)) : List Nat := (fs.filter fun f => decide (f.toNat < 32)).map BitVec.toNat

/-- The queues that source fields name, in order. -/
def queuesOf (fs : List (BitVec 6)) : List Nat := fs.filterMap queueOf

/-- The mask a command reads. -/
def vMasks (e : Ex) : List Nat := if (vMsk e) then [(vMidx e)] else []

/-- The bits of a source, by flat number: a tile's element, or a popped entry's low bits at every position (R299). -/
def Core.source (c : Core) (f : BitVec 6) (b : Nat) (popped : Option Word) (k : Nat) : Nat :=
  match popped with
  | some w => w.toNat % 2 ^ b
  | none => tileElem (c.tile f.toNat) k b

/-- The popped entry of each of two source fields. -/
def poppedPair (f2 f3 : BitVec 6) (ps : List Word) : Option Word × Option Word :=
  match queueOf f2, queueOf f3 with
  | some _, some _ => (ps[0]?, ps[1]?)
  | some _, none => (ps[0]?, none)
  | none, some _ => (none, ps[0]?)
  | none, none => (none, none)

/-- A core's registers after a command, with the flags it raises. -/
def State.vecDone (s : State) (j : Job) (c : Core) (f : Flags) : State × RunEnd :=
  ((s.setCore j.core c).raiseCmd j f, .done)

/-! ## Elementwise commands (R301, R302, R306, R316) -/

/-- How an elementwise command uses its fields: its opcode, whether f3 is a source, whether the destination's prior
element is one, whether the result is a mask, and what SUB is. -/
structure Elementwise where
  op : Nat
  two : Bool := false
  addend : Bool := false
  toMask : Bool := false
  round : Bool := false
  sub : Ex → Nat := fun _ => 0

/-- The source fields of an elementwise command. -/
def Elementwise.sources (k : Elementwise) (e : Ex) : List (BitVec 6) := if k.two then [e.f2, e.f3] else [e.f2]

/-- The run of an elementwise command: every active position (R296, R301). -/
def elementRun (k : Elementwise) : Runner := fun j s =>
  let e := j.ex
  let g := Geom.of j.q.shape
  let srcs := k.sources e
  let d := e.f1.toNat
  match s.vecBegin j (queuesOf srcs) [] (if k.toMask then [] else [4096 + d])
      (tilesOf srcs ++ if k.addend then [d] else []) (vMasks e) with
  | (s, some r) => (s, r)
  | (s, none) =>
    let c := s.core j.core
    let t := (vType e)
    let b := typeWidth t
    let (pa, pb) := poppedPair e.f2 (if k.two then e.f3 else 0) (s.poppedOf j)
    let one (p : Nat × Nat) : Nat × Nat × Flags :=
      let n := g.flat p
      let y := if k.two then c.source e.f3 b pb n else 0
      let z := if k.addend then tileElem (c.tile d) n b else 0
      let r := lane k.op t (if k.round then Round.of e.x.toNat else .rne) (k.sub e) (c.source e.f2 b pa n) y z
      (n, r.1, r.2)
    let rs := (c.activeOf e g).map one
    let fl := rs.foldl (fun f r => f ||| r.2.2) (0 : Flags)
    let c := if k.toMask then c.writeMask d (rs.map fun r => (r.1, r.2.1 != 0))
      else c.writeTile d b (rs.map fun r => (r.1, r.2.1))
    s.vecDone j c fl

/-- The unit's operand checks of an elementwise command (R385). -/
def checkElement (i : Instr) (e : Ex) (k : Elementwise) (types : Nat → Bool) (limit : Bool) :
    Core → List Word → Option FaultInfo :=
  fun c _ => vecCheck i c (types (vType e)) (k.sources e) [typeWidth (vType e)] ((vMsk e) || k.toMask) limit

/-- The dispatch of an elementwise command with its permitted types. -/
def execElement (i : Instr) (e : Ex) (k : Elementwise) (types : Nat → Bool) (limit : Bool) (s : State) : Out :=
  dispatch i e engVector (checkElement i e k types limit) (elementRun k) s

/-- x as SUB. -/
def subX (e : Ex) : Nat := e.x.toNat

/-- The fields of VADD and the rest of each opcode (R300). -/
def elementOf (op : Nat) : Elementwise :=
  { op := op
    two := decide (op ∈ [0x95, 0x96, 0x97, 0x98, 0x99, 0x9A, 0x9B, 0x9D, 0x9E, 0xA1, 0xB0, 0xB1, 0xB2, 0xB3, 0xB4, 0xB5,
      0xB7, 0xB8, 0xB9, 0xBA, 0xBB, 0xBC, 0xBD, 0xCC, 0xCD])
    addend := decide (op ∈ [0x98, 0x99, 0x9A])
    toMask := decide (op ∈ [0xA1, 0xBD, 0xCB])
    round := decide (op ∈ [0x95, 0x96, 0x97, 0x98, 0x99, 0x9A, 0x9B, 0x9C, 0xA4, 0xCD])
    sub := if op = 0xC0 ∨ op = 0xCB then fun e => e.f3.toNat else subX }

/-- VADD (R301). -/
def execVadd (e : Ex) (s : State) : Out := execElement (.vadd e) e (elementOf 0x95) fpType true s
/-- VSUB (R301). -/
def execVsub (e : Ex) (s : State) : Out := execElement (.vsub e) e (elementOf 0x96) fpType true s
/-- VMUL (R301). -/
def execVmul (e : Ex) (s : State) : Out := execElement (.vmul e) e (elementOf 0x97) fpType true s
/-- VFMA (R301). -/
def execVfma (e : Ex) (s : State) : Out := execElement (.vfma e) e (elementOf 0x98) fpType true s
/-- VFMS (R301). -/
def execVfms (e : Ex) (s : State) : Out := execElement (.vfms e) e (elementOf 0x99) fpType true s
/-- VFNMA (R301). -/
def execVfnma (e : Ex) (s : State) : Out := execElement (.vfnma e) e (elementOf 0x9A) fpType true s
/-- VDIV (R301). -/
def execVdiv (e : Ex) (s : State) : Out := execElement (.vdiv e) e (elementOf 0x9B) fpType true s
/-- VSQRT (R301). -/
def execVsqrt (e : Ex) (s : State) : Out := execElement (.vsqrt e) e (elementOf 0x9C) fpType true s
/-- VMIN (R301). -/
def execVmin (e : Ex) (s : State) : Out := execElement (.vmin e) e (elementOf 0x9D) fpType true s
/-- VMAX (R301). -/
def execVmax (e : Ex) (s : State) : Out := execElement (.vmax e) e (elementOf 0x9E) fpType true s
/-- VABS (R301). -/
def execVabs (e : Ex) (s : State) : Out := execElement (.vabs e) e (elementOf 0x9F) fpType true s
/-- VNEG (R301). -/
def execVneg (e : Ex) (s : State) : Out := execElement (.vneg e) e (elementOf 0xA0) fpType true s
/-- VCMP (R302). -/
def execVcmp (e : Ex) (s : State) : Out := execElement (.vcmp e) e (elementOf 0xA1) fpType true s
/-- VROUND (R301). -/
def execVround (e : Ex) (s : State) : Out := execElement (.vround e) e (elementOf 0xA4) fpType true s
/-- VEXP (R304). -/
def execVexp (e : Ex) (s : State) : Out := execElement (.vexp e) e (elementOf 0xA5) fnType true s
/-- VEXP2 (R304). -/
def execVexp2 (e : Ex) (s : State) : Out := execElement (.vexp2 e) e (elementOf 0xA6) fnType true s
/-- VLOG (R304). -/
def execVlog (e : Ex) (s : State) : Out := execElement (.vlog e) e (elementOf 0xA7) fnType true s
/-- VLOG2 (R304). -/
def execVlog2 (e : Ex) (s : State) : Out := execElement (.vlog2 e) e (elementOf 0xA8) fnType true s
/-- VRCP (R304). -/
def execVrcp (e : Ex) (s : State) : Out := execElement (.vrcp e) e (elementOf 0xA9) fpType true s
/-- VRSQ (R304). -/
def execVrsq (e : Ex) (s : State) : Out := execElement (.vrsq e) e (elementOf 0xAA) fnType true s
/-- VTANH (R304). -/
def execVtanh (e : Ex) (s : State) : Out := execElement (.vtanh e) e (elementOf 0xAB) fnType true s
/-- VSIGM (R304). -/
def execVsigm (e : Ex) (s : State) : Out := execElement (.vsigm e) e (elementOf 0xAC) fnType true s
/-- VSIN (R304). -/
def execVsin (e : Ex) (s : State) : Out := execElement (.vsin e) e (elementOf 0xAD) fnType true s
/-- VCOS (R304). -/
def execVcos (e : Ex) (s : State) : Out := execElement (.vcos e) e (elementOf 0xAE) fnType true s
/-- VERF (R304). -/
def execVerf (e : Ex) (s : State) : Out := execElement (.verf e) e (elementOf 0xAF) fnType true s
/-- VIADD (R306). -/
def execViadd (e : Ex) (s : State) : Out := execElement (.viadd e) e (elementOf 0xB0) intType true s
/-- VISUB (R306). -/
def execVisub (e : Ex) (s : State) : Out := execElement (.visub e) e (elementOf 0xB1) intType true s
/-- VIMUL (R306). -/
def execVimul (e : Ex) (s : State) : Out := execElement (.vimul e) e (elementOf 0xB2) intType true s
/-- VMULHI (R306). -/
def execVmulhi (e : Ex) (s : State) : Out := execElement (.vmulhi e) e (elementOf 0xB3) intType true s
/-- VIMIN (R306). -/
def execVimin (e : Ex) (s : State) : Out := execElement (.vimin e) e (elementOf 0xB4) intType true s
/-- VIMAX (R306). -/
def execVimax (e : Ex) (s : State) : Out := execElement (.vimax e) e (elementOf 0xB5) intType true s
/-- VIABS (R306). -/
def execViabs (e : Ex) (s : State) : Out := execElement (.viabs e) e (elementOf 0xB6) intType true s
/-- VAND (R306). -/
def execVand (e : Ex) (s : State) : Out := execElement (.vand e) e (elementOf 0xB7) intType true s
/-- VOR (R306). -/
def execVor (e : Ex) (s : State) : Out := execElement (.vor e) e (elementOf 0xB8) intType true s
/-- VXOR (R306). -/
def execVxor (e : Ex) (s : State) : Out := execElement (.vxor e) e (elementOf 0xB9) intType true s
/-- VSHL (R306). -/
def execVshl (e : Ex) (s : State) : Out := execElement (.vshl e) e (elementOf 0xBA) intType true s
/-- VSHR (R306). -/
def execVshr (e : Ex) (s : State) : Out := execElement (.vshr e) e (elementOf 0xBB) intType true s
/-- VSAR (R306). -/
def execVsar (e : Ex) (s : State) : Out := execElement (.vsar e) e (elementOf 0xBC) intType true s
/-- VICMP (R302). -/
def execVicmp (e : Ex) (s : State) : Out := execElement (.vicmp e) e (elementOf 0xBD) intType true s
/-- VCLZ (R306). -/
def execVclz (e : Ex) (s : State) : Out := execElement (.vclz e) e (elementOf 0xBE) intType true s
/-- VPOPC (R306). -/
def execVpopc (e : Ex) (s : State) : Out := execElement (.vpopc e) e (elementOf 0xBF) intType true s
/-- VSAT: q = f3 + 1 bits, at most the type's width (R306, R385). -/
def execVsat (e : Ex) (s : State) : Out :=
  execElement (.vsat e) e (elementOf 0xC0) intType (decide (e.f3.toNat + 1 ≤ typeWidth (vType e))) s
/-- VCLASS (R316). -/
def execVclass (e : Ex) (s : State) : Out := execElement (.vclass e) e (elementOf 0xCB) fpType true s
/-- VCOPYSGN (R316). -/
def execVcopysgn (e : Ex) (s : State) : Out := execElement (.vcopysgn e) e (elementOf 0xCC) fpType true s
/-- VLDEXP (R316). -/
def execVldexp (e : Ex) (s : State) : Out := execElement (.vldexp e) e (elementOf 0xCD) fpType true s
/-- VGETEXP (R316). -/
def execVgetexp (e : Ex) (s : State) : Out := execElement (.vgetexp e) e (elementOf 0xCE) fpType true s

/-! ## Moves (R303) -/

/-- The run of VSEL: every valid position, from a where the mask bit is 1 and from b elsewhere. -/
def selectRun : Runner := fun j s =>
  let e := j.ex
  let g := Geom.of j.q.shape
  match s.vecBegin j (queuesOf [e.f2, e.f3]) [] [4096 + e.f1.toNat] (tilesOf [e.f2, e.f3]) [(vMidx e)] with
  | (s, some r) => (s, r)
  | (s, none) =>
    let c := s.core j.core
    let b := typeWidth (vType e)
    let (pa, pb) := poppedPair e.f2 e.f3 (s.poppedOf j)
    let one (p : Nat × Nat) : Nat × Nat :=
      let n := g.flat p
      (n, if (c.mask (vMidx e)).getLsbD n then c.source e.f2 b pa n else c.source e.f3 b pb n)
    s.vecDone j (c.writeTile e.f1.toNat b (g.valid.map one)) 0

/-- The unit's operand checks of VSEL (R385). -/
def checkVsel (e : Ex) : Core → List Word → Option FaultInfo :=
  fun c _ =>
    vecCheck (.vsel e) c (anyType (vType e) && (vMsk e)) [e.f2, e.f3] [typeWidth (vType e)] true true

/-- VSEL (R303). -/
def execVsel (e : Ex) (s : State) : Out :=
  dispatch (.vsel e) e engVector (checkVsel e) selectRun s

/-- The run of VBCAST: a scalar, row 0 or column 0. -/
def broadcastRun : Runner := fun j s =>
  let e := j.ex
  let g := Geom.of j.q.shape
  let d := e.f1.toNat
  match s.vecBegin j [] [] [4096 + d] (if e.x = 0 then [] else [e.f2.toNat]) (vMasks e) with
  | (s, some r) => (s, r)
  | (s, none) =>
    let c := s.core j.core
    let b := typeWidth (vType e)
    let one (p : Nat × Nat) : Nat × Nat :=
      (g.flat p,
        match e.x with
        | 0 => (j.op 2).toNat % 2 ^ b
        | 1 => tileElem (c.tile e.f2.toNat) p.2 b
        | _ => tileElem (c.tile e.f2.toNat) (p.1 * g.cols) b)
    s.vecDone j (c.writeTile d b ((c.activeOf e g).map one)) 0

/-- The unit's operand checks of VBCAST (R385). -/
def checkVbcast (e : Ex) : Core → List Word → Option FaultInfo :=
  fun c _ =>
    vecCheck (.vbcast e) c (anyType (vType e)) [] [typeWidth (vType e)] (vMsk e) true

/-- VBCAST (R303). -/
def execVbcast (e : Ex) (s : State) : Out :=
  dispatch (.vbcast e) e engVector (checkVbcast e) broadcastRun s

/-- The run of VMOV: a copy of the active positions, or a push of element (0, 0), which waits for room (R131). -/
def moveRun : Runner := fun j s =>
  let e := j.ex
  if e.x = 1 then
    let q := e.f1.toNat
    let c := s.core j.core
    if j.phase = 0 ∧ c.qWriter q ≠ engVector + 1 then (s, .fault none c.roleFault)
    else
      match s.vecBegin j [] [] [] [e.f2.toNat] [] with
      | (s, some r) => (s, r)
      | (s, none) =>
        let c := s.core j.core
        if 8 ≤ (c.queueReg q).length then (s, .pending 1)
        else
          let v := BitVec.ofNat 64 (tileElem (c.tile e.f2.toNat) 0 (typeWidth (vType e)))
          s.vecDone j (c.setQueueReg q (c.queueReg q ++ [v])) 0
  else elementRun { op := 0x94 } j s

/-- The unit's operand checks of VMOV (R385). -/
def checkVmov (e : Ex) : Core → List Word → Option FaultInfo :=
  fun c _ =>
    vecCheck (.vmov e) c (anyType (vType e)) (if e.x = 1 then [] else [e.f2]) [typeWidth (vType e)] (vMsk e) true

/-- VMOV (R303). -/
def execVmov (e : Ex) (s : State) : Out :=
  dispatch (.vmov e) e engVector (checkVmov e) moveRun s

/-! ## SHAPE (R297) -/

/-- The command of VSHAPE: it completes when it starts. -/
def shapeRun : Runner := fun _ s => (s, .done)

/-- The SHAPE word that the bounds form sets, from a tile word, a coordinate pair and a tensor record (R297). -/
def boundsShape (tw : TileWord) (x : List Int) (r : PoolRec) : Word :=
  let left (n : Nat) (size : Nat) (o : Int) : Nat := min n ((size : Int) - o).toNat
  let x1 : Int := if rRank r < 2 then 0 else nthD 0 x 1
  let (vr, vc) := if tw.rows = 0 ∨ tw.cols = 0 then (0, 0)
    else (left tw.rows (rSize r 1) x1, left tw.cols (rSize r 0) (nthD 0 x 0))
  BitVec.ofNat 64 (vr * 2 ^ 37 + vc * 2 ^ 24 + (max tw.rows 1 - 1) * 2 ^ 12 + (max tw.cols 1 - 1))

/-- VSHAPE takes its effect at dispatch, in address order, and its command then only completes. The bounds form reads its
tensor record in its unit (R297, R380). -/
def execVshape (e : Ex) (s : State) : Out :=
  let c := s.here
  let go (v : Word) (s : State) : Out :=
    dispatch (.vshape e) e engVector (fun _ _ => none) shapeRun (s.mapHere fun c => { c with shape := v })
  if !c.readP e.g then .next s
  else if queueDepth ≤ (c.engine engVector).queue.length then .next (s.block .queueFull)
  else
    let ops := c.capture e
    if e.x = 0 then
      let v := nthD 0 ops 0
      if bitsOf v.toNat 63 50 ≠ 0 then .next (s.fault (badWord v 1)) else go v s
    else
      match tileCheck 2 false (nthD 0 ops 2) with
      | some f => .next (s.fault f)
      | none =>
        let tw := TileWord.of false (nthD 0 ops 2)
        match s.poolRecord (s.control s.focus.toNat) c.kernel tw.handle with
        | (s, .error (.fault f)) => .next ((s.found f).fault f)
        | (s, .error h) => .next ((s.haltHere h).block .queueFull)
        | (s, .ok r) =>
          if tensorOk r then go (boundsShape tw (coordsOf (nthD 0 ops 0) (nthD 0 ops 1)) r) s
          else .next (s.fault (badRecord tw.handle r))

/-! ## Scratchpad (R317) -/

/-- The run of VLD: the active elements of VROWS rows of VCOLS elements. -/
def vldRun : Runner := fun j s =>
  let e := j.ex
  let g := Geom.of j.q.shape
  let d := Desc.of (j.op 2) (j.op 3)
  let b := typeWidth (vType e)
  let len := rowBytes g.vcols b
  match s.vecBegin j [] (d.hull 1 g.vrows len) [4096 + e.f1.toNat] [] (vMasks e) with
  | (s, some r) => (s, r)
  | (s, none) =>
    match (List.range g.vrows).findSome? fun i => s.spadSoft j d 0 i len with
    | some h => (s, startHalt j h)
    | none =>
      let c := s.core j.core
      let ws := (c.activeOf e g).map fun p => (g.flat p, c.element d 0 p.1 p.2 b)
      s.vecDone j (c.writeTile e.f1.toNat b ws) 0

/-- The unit's operand checks of VLD (R385). -/
def checkVld (e : Ex) : Core → List Word → Option FaultInfo :=
  fun c ops =>
    let g := Geom.of c.shape
    firstFault [
      vecCheck (.vld e) c (anyType (vType e)) [] [typeWidth (vType e)] (vMsk e) true,
      descCheck 2 (nthD 0 ops 2) (nthD 0 ops 3),
      descLengths 2 (nthD 0 ops 2) (nthD 0 ops 3) 1 g.vrows (rowBytes g.vcols (typeWidth (vType e)))]

/-- VLD (R317). -/
def execVld (e : Ex) (s : State) : Out :=
  dispatch (.vld e) e engVector (checkVld e) vldRun s

/-- The run of VST: active elements only, row by row (R317). -/
def vstRun : Runner := fun j s =>
  let e := j.ex
  let g := Geom.of j.q.shape
  let d := Desc.of (j.op 0) (j.op 1)
  let b := typeWidth (vType e)
  let len := rowBytes g.vcols b
  match s.vecBegin j [] [] (d.hull 1 g.vrows len) [e.f2.toNat] (vMasks e) with
  | (s, some r) => (s, r)
  | (s, none) =>
    let c := s.core j.core
    let tile := c.tile e.f2.toNat
    let active := c.activeOf e g
    let row (i : Nat) (s : State) : State × Option Halt :=
      match s.spadPut j d 0 i ((active.filter fun p => p.1 == i).map fun p => (p.2, b, tileElem tile (g.flat p) b)) with
      | .ok s => (s, none)
      | .error h => (s, some h)
    rowLoop row g.vrows 0 s

/-- The unit's operand checks of VST (R385). -/
def checkVst (e : Ex) : Core → List Word → Option FaultInfo :=
  fun c ops =>
    let g := Geom.of c.shape
    firstFault [
      vecCheck (.vst e) c (anyType (vType e)) [] [typeWidth (vType e)] (vMsk e) true,
      descCheck 1 (nthD 0 ops 0) (nthD 0 ops 1),
      descLengths 1 (nthD 0 ops 0) (nthD 0 ops 1) 1 g.vrows (rowBytes g.vcols (typeWidth (vType e)))]

/-- VST (R317). -/
def execVst (e : Ex) (s : State) : Out :=
  dispatch (.vst e) e engVector (checkVst e) vstRun s

/-! ## Conversion (R305) -/

/-- The rounding code of VCVT. -/
def cvtRnd (e : Ex) : Nat := bitsOf e.ext.toNat 2 0

/-- The source type of VCVT: FP32 under SR. -/
def cvtFrom (e : Ex) : Nat := if (cvtRnd e) = 4 then 1 else bitsOf e.f3.toNat 3 0

/-- The run of VCVT: every valid position, all of va read before any write. -/
def convertRun : Runner := fun j s =>
  let e := j.ex
  let g := Geom.of j.q.shape
  let sr := (cvtRnd e) = 4
  let st := (cvtFrom e)
  let dt := (vType e)
  let sat := e.ext.getLsbD 3
  match s.vecBegin j (if sr then [e.f3.toNat % 8] else []) [] [4096 + e.f1.toNat] [e.f2.toNat] [] with
  | (s, some r) => (s, r)
  | (s, none) =>
    let c := s.core j.core
    let org := nthD 0 (s.poppedOf j) 0
    let i0 : BitVec 32 := (org >>> 32).setWidth 32
    let j0 : BitVec 32 := org.setWidth 32
    let tag : BitVec 5 := BitVec.ofNat 5 (e.f3.toNat / 8 * 4 + e.x.toNat)
    let src := c.tile e.f2.toNat
    let one (p : Nat × Nat) : Nat × Nat × Flags :=
      let v := tileElem src (g.flat p) (typeWidth st)
      let r := if sr then
          srRound v (fmtOf dt) sat j.q.seed (i0 + BitVec.ofNat 32 p.1) (j0 + BitVec.ofNat 32 p.2) tag
        else convertType st dt v (Round.of (cvtRnd e)) sat
      (g.flat p, r.1, r.2)
    let rs := g.valid.map one
    s.vecDone j (c.writeTile e.f1.toNat (typeWidth dt) (rs.map fun r => (r.1, r.2.1)))
      (rs.foldl (fun f r => f ||| r.2.2) 0)

/-- The unit's operand checks of VCVT (R305, R385). It defines every value of x; with RND 0 to 3 any but 0 is a combination
that R300 does not permit (log 74). -/
def checkVcvt (e : Ex) : Core → List Word → Option FaultInfo :=
  fun c _ =>
    vecCheck (.vcvt e) c (if cvtRnd e = 4 then decide (2 ≤ vType e) && decide (vType e ≤ 6) else e.x == 0) []
      [typeWidth (vType e), typeWidth (cvtFrom e)] false true

/-- VCVT (R305). -/
def execVcvt (e : Ex) (s : State) : Out :=
  dispatch (.vcvt e) e engVector (checkVcvt e) convertRun s

/-! ## Reductions and scans (R307, R308) -/

/-- The input of a reduction at a position: the element when active, the leaf identity otherwise (R307). -/
def Core.reduceIn (c : Core) (e : Ex) (g : Geom) (p : Nat × Nat) : Nat × Flags :=
  let t := (vType e)
  if c.activeAt e g p then widen t (tileElem (c.tile e.f2.toNat) (g.flat p) (typeWidth t))
  else (leafIdentity (e.f3.toNat % 8) t, 0)

/-- A working result rounded to the type, with its flags. -/
def narrowFlags (t : Nat) (r : Nat × Flags) : Nat × Flags := let n := narrow t r.1; (n.1, r.2 ||| n.2)

/-- The run of VRED: ALL, ROW or COL (R307). -/
def reduceRun : Runner := fun j s =>
  let e := j.ex
  let g := Geom.of j.q.shape
  let d := e.f1.toNat
  match s.vecBegin j [] [] [4096 + d] [e.f2.toNat] (vMasks e) with
  | (s, some r) => (s, r)
  | (s, none) =>
    let c := s.core j.core
    let t := (vType e)
    let op := e.f3.toNat % 8
    let rowRes (i : Nat) := reduceTree op t ((List.range g.vcols).map fun k => c.reduceIn e g (i, k))
    let colRes (k : Nat) := reduceTree op t ((List.range g.vrows).map fun i => c.reduceIn e g (i, k))
    let rs : List (Nat × Nat × Flags) :=
      match e.x with
      | 1 => (List.range g.vrows).map fun i => (g.flat (i, 0), narrowFlags t (rowRes i))
      | 2 => (List.range g.vcols).map fun k => (k, narrowFlags t (colRes k))
      | _ => [(0, narrowFlags t (reduceTree op t ((List.range g.vrows).map rowRes)))]
    s.vecDone j (c.writeTile d (typeWidth t) (rs.map fun r => (r.1, r.2.1)))
      (rs.foldl (fun f r => f ||| r.2.2) 0)

/-- The types and operations of VRED and VSCAN: AND, OR and XOR for integers only (R300). -/
def reduceOk (e : Ex) : Bool := (fpType (vType e) || intType (vType e)) && (intType (vType e) || decide (e.f3.toNat % 8 ≤ 2))

/-- The unit's operand checks of VRED (R385). -/
def checkVred (e : Ex) : Core → List Word → Option FaultInfo :=
  fun c _ =>
    vecCheck (.vred e) c (reduceOk e) [] [typeWidth (vType e)] (vMsk e) true

/-- VRED (R307). -/
def execVred (e : Ex) (s : State) : Out :=
  dispatch (.vred e) e engVector (checkVred e) reduceRun s

/-- The prefixes of one line (R308): each position with its output, and the flags. -/
def scanLine (c : Core) (e : Ex) (g : Geom) (excl : Bool) : List (Nat × Nat) → Option Nat → List (Nat × Nat) →
    Flags → List (Nat × Nat) × Flags
  | [], _, out, fl => (out, fl)
  | p :: ps, acc, out, fl =>
    let t := (vType e)
    let op := e.f3.toNat % 8
    let x := c.reduceIn e g p
    let sum : Nat × Flags := match acc with
      | none => (x.1, 0)
      | some a => combine op t a x.1
    let shown := if excl then acc.getD 0 else sum.1
    let on := c.activeAt e g p
    let r := if on then narrow t shown else (0, 0)
    scanLine c e g excl ps (some sum.1) (if on then out ++ [(g.flat p, r.1)] else out) (fl ||| x.2 ||| sum.2 ||| r.2)

/-- The run of VSCAN (R308). -/
def scanRun : Runner := fun j s =>
  let e := j.ex
  let g := Geom.of j.q.shape
  let d := e.f1.toNat
  match s.vecBegin j [] [] [4096 + d] [e.f2.toNat] (vMasks e) with
  | (s, some r) => (s, r)
  | (s, none) =>
    let c := s.core j.core
    let t := (vType e)
    let excl := e.x.getLsbD 1
    let start := if excl then some (emptyIdentity (e.f3.toNat % 8) t) else none
    let lines := if e.x.getLsbD 0 then
        (List.range g.vcols).map fun k => (List.range g.vrows).map fun i => (i, k)
      else (List.range g.vrows).map fun i => (List.range g.vcols).map fun k => (i, k)
    let rs := lines.map fun l => scanLine c e g excl l start [] 0
    s.vecDone j (c.writeTile d (typeWidth t) (rs.flatMap Prod.fst))
      (rs.foldl (fun f r => f ||| r.2) 0)

/-- The unit's operand checks of VSCAN (R385). -/
def checkVscan (e : Ex) : Core → List Word → Option FaultInfo :=
  fun c _ =>
    vecCheck (.vscan e) c (reduceOk e) [] [typeWidth (vType e)] (vMsk e) true

/-- VSCAN (R308). -/
def execVscan (e : Ex) (s : State) : Out :=
  dispatch (.vscan e) e engVector (checkVscan e) scanRun s

/-! ## Moving elements within a tile (R309 to R312) -/

/-- A command that moves elements of va, all read before any write: its writes from the core and the geometry. -/
def moveTile (masks : Ex → List Nat) (reads : Ex → List Nat) (ws : Job → Core → Geom → List (Nat × Nat)) : Runner :=
  fun j s =>
    let e := j.ex
    let g := Geom.of j.q.shape
    let d := e.f1.toNat
    match s.vecBegin j [] [] [4096 + d] (reads e) (masks e) with
    | (s, some r) => (s, r)
    | (s, none) =>
      let c := s.core j.core
      s.vecDone j (c.writeTile d (typeWidth (vType e)) (ws j c g)) 0

/-- Source a alone. -/
def readA (e : Ex) : List Nat := [e.f2.toNat]

/-- The run of VTRANS (R309). -/
def transposeRun : Runner :=
  moveTile (fun _ => []) readA fun j c g =>
    let b := typeWidth (vType j.ex)
    g.valid.map fun p => (p.2 * g.rows + p.1, tileElem (c.tile j.ex.f2.toNat) (g.flat p) b)

/-- The unit's operand checks of VTRANS (R385). -/
def checkVtrans (e : Ex) : Core → List Word → Option FaultInfo :=
  fun c _ =>
    vecCheck (.vtrans e) c (anyType (vType e) && !(vMsk e)) [] [typeWidth (vType e)] false true

/-- VTRANS (R309). -/
def execVtrans (e : Ex) (s : State) : Out :=
  dispatch (.vtrans e) e engVector (checkVtrans e) transposeRun s

/-- The run of VSHIFT (R310). -/
def shiftRun : Runner :=
  moveTile vMasks readA fun j c g =>
    let e := j.ex
    let b := typeWidth (vType e)
    let k := (j.op 4).toInt
    let cols := e.x.getLsbD 0
    let n : Nat := if cols then g.vrows else g.vcols
    (c.activeOf e g).map fun p =>
      let o : Int := ((if cols then p.1 else p.2 : Nat) : Int) - k
      let o := if e.x.getLsbD 1 then o % (n : Int) else o
      let v := if decide (0 ≤ o) && decide (o < (n : Int)) then
          tileElem (c.tile e.f2.toNat) (g.flat (if cols then (o.toNat, p.2) else (p.1, o.toNat))) b
        else 0
      (g.flat p, v)

/-- The unit's operand checks of VSHIFT (R385). -/
def checkVshift (e : Ex) : Core → List Word → Option FaultInfo :=
  fun c _ =>
    vecCheck (.vshift e) c (anyType (vType e)) [] [typeWidth (vType e)] (vMsk e) true

/-- VSHIFT (R310). -/
def execVshift (e : Ex) (s : State) : Out :=
  dispatch (.vshift e) e engVector (checkVshift e) shiftRun s

/-- The run of VROWG (R311). -/
def rowGatherRun : Runner :=
  moveTile (fun _ => []) (fun e => [e.f2.toNat, e.f3.toNat]) fun j c g =>
    let e := j.ex
    let b := typeWidth (vType e)
    g.valid.map fun p =>
      let i := tileElem (c.tile e.f3.toNat) p.1 16
      (g.flat p, if i < g.vrows then tileElem (c.tile e.f2.toNat) (g.flat (i, p.2)) b else 0)

/-- The unit's operand checks of VROWG (R385). -/
def checkVrowg (e : Ex) : Core → List Word → Option FaultInfo :=
  fun c _ =>
    vecCheck (.vrowg e) c (anyType (vType e) && !(vMsk e)) [] [typeWidth (vType e)] false
      (decide ((Geom.of c.shape).vrows ≤ 2048))

/-- VROWG (R311). -/
def execVrowg (e : Ex) (s : State) : Out :=
  dispatch (.vrowg e) e engVector (checkVrowg e) rowGatherRun s

/-- The active positions with their numbers. -/
def Core.numbered (c : Core) (e : Ex) (g : Geom) : List ((Nat × Nat) × Nat) :=
  let ps := c.activeOf e g
  ps.zip (List.range ps.length)

/-- The run of VPACK (R312). -/
def packRun : Runner :=
  moveTile vMasks readA fun j c g =>
    let e := j.ex
    (c.numbered e g).map fun p => (p.2, tileElem (c.tile e.f2.toNat) (g.flat p.1) (typeWidth (vType e)))

/-- The unit's operand checks of VPACK (R385). -/
def checkVpack (e : Ex) : Core → List Word → Option FaultInfo :=
  fun c _ =>
    vecCheck (.vpack e) c (anyType (vType e) && (vMsk e)) [] [typeWidth (vType e)] true true

/-- VPACK (R312). -/
def execVpack (e : Ex) (s : State) : Out :=
  dispatch (.vpack e) e engVector (checkVpack e) packRun s

/-- The run of VUNPK (R312). -/
def unpackRun : Runner :=
  moveTile vMasks readA fun j c g =>
    let e := j.ex
    (c.numbered e g).map fun p => (g.flat p.1, tileElem (c.tile e.f2.toNat) p.2 (typeWidth (vType e)))

/-- The unit's operand checks of VUNPK (R385). -/
def checkVunpk (e : Ex) : Core → List Word → Option FaultInfo :=
  fun c _ =>
    vecCheck (.vunpk e) c (anyType (vType e) && (vMsk e)) [] [typeWidth (vType e)] true true

/-- VUNPK (R312). -/
def execVunpk (e : Ex) (s : State) : Out :=
  dispatch (.vunpk e) e engVector (checkVunpk e) unpackRun s

/-! ## Microscaling (R313, R314) -/

/-- Whether a type is an MX element type. -/
def mxType (t : Nat) : Bool := decide (4 ≤ t) && decide (t ≤ 6)

/-- The wide type of VMXQ and VMXD. -/
def vWide (e : Ex) : Nat := if e.x.getLsbD 1 then 2 else 1

/-- EMAX of an element type (R313). -/
def mxEmax (t : Nat) : Int := if t = 4 then 8 else if t = 5 then 15 else 2

/-- The scale of a block from its values (R313). -/
def blockScale (t : Nat) (xs : List Fp) : Nat :=
  if xs.any fun x => match x with | .fin _ _ _ => false | _ => true then 255
  else
    let lgs := xs.filterMap fun x => match x with
      | .fin _ m e => if m = 0 then none else some (fpExponent m e)
      | _ => none
    match lgs with
    | [] => 127
    | l :: ls =>
      let k := ls.foldl max l - mxEmax t + 127
      if k < 0 then 0 else if 254 < k then 254 else k.toNat

/-- The number of a block's scale (R313). -/
def Geom.block (g : Geom) (bi bj : Nat) : Nat := bi * ((g.cols + 31) / 32) + bj

/-- The run of VMXQ (R313). -/
def quantRun : Runner := fun j s =>
  let e := j.ex
  let g := Geom.of j.q.shape
  match s.vecBegin j [] [] [4096 + e.f1.toNat, 4096 + e.f3.toNat] [e.f2.toNat] [] with
  | (s, some r) => (s, r)
  | (s, none) =>
    let c := s.core j.core
    let t := (vType e)
    let src := c.tile e.f2.toNat
    let val (p : Nat × Nat) : Fp := decodeFp (fmtOf (vWide e)) (tileElem src (g.flat p) (typeWidth (vWide e)))
    let blocks := (List.range ((g.vrows + 31) / 32)).flatMap fun bi =>
      (List.range ((g.vcols + 31) / 32)).map fun bj => (bi, bj)
    let (c, fl) := blocks.foldl (fun acc b =>
      let v := g.valid.filter fun p => p.1 / 32 == b.1 && p.2 / 32 == b.2
      let sc := blockScale t (v.map val)
      let c := acc.1.setTile e.f3.toNat (tileSet (acc.1.tile e.f3.toNat) (g.block b.1 b.2) 8 sc)
      let rs := v.map fun p =>
        let x := match val p with
          | .fin n m k => if sc = 255 then .fin n m k else .fin n m (k + 127 - (sc : Int))
          | x => x
        (g.flat p, roundToFormat x (fmtOf t) .rne (e.x.getLsbD 0))
      (c.writeTile e.f1.toNat (typeWidth t) (rs.map fun r => (r.1, r.2.1)),
        rs.foldl (fun f r => f ||| r.2.2) acc.2)) (c, (0 : Flags))
    s.vecDone j c fl

/-- The unit's operand checks of VMXQ (R385). -/
def checkVmxq (e : Ex) : Core → List Word → Option FaultInfo :=
  fun c _ =>
    vecCheck (.vmxq e) c (mxType (vType e)) [] [typeWidth (vType e), typeWidth (vWide e)] false true

/-- VMXQ (R313). -/
def execVmxq (e : Ex) (s : State) : Out :=
  dispatch (.vmxq e) e engVector (checkVmxq e) quantRun s

/-- The run of VMXD (R314). -/
def expandRun : Runner := fun j s =>
  let e := j.ex
  let g := Geom.of j.q.shape
  match s.vecBegin j [] [] [4096 + e.f1.toNat] [e.f2.toNat, e.f3.toNat] [] with
  | (s, some r) => (s, r)
  | (s, none) =>
    let c := s.core j.core
    let t := (vType e)
    let rs := g.valid.map fun p =>
      let sc := tileElem (c.tile e.f3.toNat) (g.block (p.1 / 32) (p.2 / 32)) 8
      let x := decodeFp (fmtOf t) (tileElem (c.tile e.f2.toNat) (g.flat p) (typeWidth t))
      (g.flat p, roundToFormat (scaleFp x sc) (fmtOf (vWide e)) .rne false)
    s.vecDone j (c.writeTile e.f1.toNat (typeWidth (vWide e)) (rs.map fun r => (r.1, r.2.1)))
      (rs.foldl (fun f r => f ||| r.2.2) 0)

/-- The unit's operand checks of VMXD (R385). -/
def checkVmxd (e : Ex) : Core → List Word → Option FaultInfo :=
  fun c _ =>
    vecCheck (.vmxd e) c (mxType (vType e)) [] [typeWidth (vType e), typeWidth (vWide e)] false true

/-- VMXD (R314). -/
def execVmxd (e : Ex) (s : State) : Out :=
  dispatch (.vmxd e) e engVector (checkVmxd e) expandRun s

/-! ## Masks (R315) -/

/-- The run of VMASK. -/
def maskRun : Runner := fun j s =>
  let e := j.ex
  let g := Geom.of j.q.shape
  let op := (vType e)
  let bt := bitsOf e.ext.toNat 3 0
  match s.vecBegin j [] [] [] (if op = 6 then [e.f2.toNat] else [])
      (if op ≤ 3 then [e.f2.toNat, e.f3.toNat] else if op = 4 then [e.f2.toNat] else []) with
  | (s, some r) => (s, r)
  | (s, none) =>
    let c := s.core j.core
    let a := c.mask e.f2.toNat
    let b := c.mask e.f3.toNat
    let bit (p : Nat × Nat) : Nat × Bool :=
      let k := g.flat p
      (k, match op with
        | 0 => a.getLsbD k && b.getLsbD k
        | 1 => a.getLsbD k || b.getLsbD k
        | 2 => xor (a.getLsbD k) (b.getLsbD k)
        | 3 => a.getLsbD k && !b.getLsbD k
        | 4 => !a.getLsbD k
        | 5 => true
        | _ => tileElem (c.tile e.f2.toNat) k (typeWidth bt) != 0)
    let zeros := if op = 5 then (List.range (g.rows * g.cols)).map fun k => (k, false) else []
    s.vecDone j (c.writeMask e.f1.toNat (zeros ++ g.valid.map bit)) 0

/-- The unit's operand checks of VMASK (R385). -/
def checkVmask (e : Ex) : Core → List Word → Option FaultInfo :=
  fun c _ =>
    vecCheck (.vmask e) c true [] (if (vType e) = 6 then [typeWidth (bitsOf e.ext.toNat 3 0)] else []) true true

/-- VMASK (R315). -/
def execVmask (e : Ex) (s : State) : Out :=
  dispatch (.vmask e) e engVector (checkVmask e) maskRun s

/-! ## Sync forms (R168, R317) -/

/-- VSLW (R317). -/
def execVslw (g : BitVec 4) (l n : BitVec 6) (s : State) : Out :=
  dispatchSync (.vslw g l n) g engVector 0 (fun core => syncWait core engVector l n) s
/-- VSLS (R317). -/
def execVsls (g : BitVec 4) (l n : BitVec 6) (s : State) : Out :=
  dispatchSync (.vsls g l n) g engVector 0 (fun core => syncSignal core engVector l n) s
/-- VTLW (R317). -/
def execVtlw (g : BitVec 4) (t sr : BitVec 6) (s : State) : Out :=
  dispatchSync (.vtlw g t sr) g engVector sr (fun core => syncTimeline core engVector t) s

end Sys2Proof.Machine
end

