-- ==== Sys2Proof/Machine/Weave.lean ====
section
/-!
DEFINITION. The weave stream: weight loads and reads, streaming products, outer products, promotion, accumulation and
the moves of accumulators (R260 to R292).
-/
namespace Sys2Proof.Machine

/-! ## Format words (R269, R270) -/

/-- A format word (R269). -/
structure FmtWord where
  afmt : Nat
  wfmt : Nat
  dfmt : Nat
  rnd : Nat
  scl : Nat
  spr : Bool
  sat : Bool
  tag : BitVec 5
  gain : Nat
  deriving DecidableEq, Repr

/-- The fields of a format word (R269). -/
def FmtWord.of (w : Word) : FmtWord :=
  let v := w.toNat
  { afmt := bitsOf v 31 28, wfmt := bitsOf v 27 24, dfmt := bitsOf v 23 20, rnd := bitsOf v 19 17, scl := bitsOf v 16 15
    spr := w.getLsbD 14, sat := w.getLsbD 13, tag := BitVec.ofNat 5 (bitsOf v 12 8), gain := bitsOf v 63 32 }

/-- The floating-point formats of the FP32 view (R279, R282, R285, R286). -/
def viewFloats : List Nat := [1, 2, 3, 4, 5, 6]

/-- The views of accumulators and cell sums (R262). -/
inductive View where
  | fp64 | int32 | fp32
  deriving DecidableEq, Repr

/-- The view that AFMT chooses (R262). -/
def View.of (afmt : Nat) : View := if afmt = 0 then .fp64 else if afmt = 7 then .int32 else .fp32

/-- Columns of a view (R262). -/
def View.cols : View → Nat
  | .fp64 => 64 | _ => 128

/-- The format of a floating-point view. -/
def View.fmt : View → Fmt
  | .fp64 => .fp64 | _ => .fp32

/-- Whether an A and a W format go together (R279). -/
def pairOk (a w : Nat) : Bool :=
  (a == 0 && w == 0) || (a == 7 && w == 7) || (viewFloats.contains a && viewFloats.contains w)

/-- Whether a format takes block scales under a scale mode (R266, R273). -/
def takesScales (f scl : Nat) : Bool := (f == 4 || f == 5 || f == 6) && (scl == 1 || scl == 2)

/-- The fault of an invalid format word (R373, R385). -/
def badFmt (w : Word) : FaultInfo := { code := 0x0110, synd := w }

/-- The check of a format word whose combination is `ok`: [7:0] zero (R270, R385). -/
def fmtCheck (w : Word) (ok : Bool) : Option FaultInfo := faultIf (bitsOf w.toNat 7 0 != 0 || !ok) (badFmt w)

/-- What WLD and WLDS accept (R263, R267, R270). -/
def loadFmtOk (sparse : Bool) (w : Word) : Bool :=
  let f := FmtWord.of w
  (if sparse then decide (f.wfmt ∈ [2, 3, 4, 5, 6, 7]) else decide (f.wfmt ≤ 7)) && f.scl != 3 && f.spr == sparse

/-- What the streaming commands accept (R267, R270, R279). -/
def streamFmtOk (sparse : Bool) (w : Word) : Bool :=
  let f := FmtWord.of w
  pairOk f.afmt f.wfmt && (!sparse || decide (f.wfmt ∈ [2, 3, 4, 5, 6, 7])) && f.scl != 3 && f.spr == sparse

/-- What the outer products accept (R270, R282). -/
def outerFmtOk (sparse : Bool) (w : Word) : Bool :=
  let f := FmtWord.of w
  pairOk f.afmt f.wfmt && f.wfmt != 0 && f.scl != 3 && f.spr == sparse

/-- What WPROM accepts (R285, R385). -/
def promFmtOk (w : Word) : Bool :=
  let f := FmtWord.of w
  f.afmt != 15 && f.scl != 3 && decide (f.rnd ≤ 4) &&
    match View.of f.afmt with
    | .fp32 => viewFloats.contains f.dfmt && !(f.rnd == 4 && f.dfmt == 1)
    | .fp64 => decide (f.dfmt ≤ 1) && f.rnd != 4
    | .int32 => decide (f.dfmt ∈ [9, 7, 1, 2]) && f.rnd != 4 && f.scl != 2

/-- What WACC accepts (R286, R385). -/
def accFmtOk (w : Word) : Bool :=
  let f := FmtWord.of w
  f.afmt != 15 && decide (f.scl ≤ 1) &&
    match View.of f.afmt with
    | .fp32 => viewFloats.contains f.dfmt
    | .fp64 => decide (f.dfmt ≤ 1)
    | .int32 => decide (f.dfmt ∈ [9, 7])

/-! ## Shape words (R272) -/

/-- M, K and N of a weave shape word (R272). -/
def shapeM (w : Word) : Nat := bitsOf w.toNat 32 22
def shapeK (w : Word) : Nat := bitsOf w.toNat 21 11
def shapeN (w : Word) : Nat := bitsOf w.toNat 10 0

/-- The check of a weave shape word in operand field `field`: bits and fields that must be zero, then the limits
(R272, R385). -/
def shapeCheck (w : Word) (field : Nat) (zero ok : Bool) : Option FaultInfo :=
  firstFault [
    faultIf (bitsOf w.toNat 63 33 != 0 || !zero) (badWord w field),
    faultIf (!ok) { code := 0x010F, synd := w }]

/-! ## Slots, cells and weights (R260 to R268) -/

/-- The slots of an accumulator tile. -/
def slotsPerTile : Nat := 16384

/-- Element (i, j) of the slots from `base` on, under a view (R262). -/
def slotElem (t : Table (BitVec 32)) (v : View) (base i j : Nat) : Nat :=
  match v with
  | .fp64 =>
    (Table.get 0 t (base + 128 * i + 2 * j)).toNat + 2 ^ 32 * (Table.get 0 t (base + 128 * i + 2 * j + 1)).toNat
  | _ => (Table.get 0 t (base + 128 * i + j)).toNat

/-- Element (i, j) of the slots from `base` on, written under a view (R262). -/
def slotSet (t : Table (BitVec 32)) (v : View) (base i j x : Nat) : Table (BitVec 32) :=
  match v with
  | .fp64 =>
    Table.set 0 (Table.set 0 t (base + 128 * i + 2 * j) (BitVec.ofNat 32 x)) (base + 128 * i + 2 * j + 1)
      (BitVec.ofNat 32 (x / 2 ^ 32))
  | _ => Table.set 0 t (base + 128 * i + j) (BitVec.ofNat 32 x)

/-- Logical weights per cell (R263). -/
def perCell (f : Nat) : Nat := if f = 4 ∨ f = 5 ∨ f = 7 then 2 else if f = 6 then 4 else 1

/-- Dense K max of a weight format (R263). -/
def denseKMax (f : Nat) : Nat := 128 * perCell f

/-- N max of a weight format (R263). -/
def weightNMax (f : Nat) : Nat := if f = 0 then 64 else 128

/-- The fields of a buffer word (R261). -/
def WBuf.n (b : WBuf) : Nat := bitsOf b.word.toNat 10 0
def WBuf.k (b : WBuf) : Nat := bitsOf b.word.toNat 21 11
def WBuf.wfmt (b : WBuf) : Nat := bitsOf b.word.toNat 30 27
def WBuf.sparse (b : WBuf) : Bool := b.word.getLsbD 31
def WBuf.slabs (b : WBuf) : Nat := bitsOf b.word.toNat 63 32
/-- An empty buffer: K = 0 or N = 0 (R261). -/
def WBuf.empty (b : WBuf) : Bool := b.k == 0 || b.n == 0

/-- The buffer word of its fields (R261). -/
def bufferWord (slabs : Nat) (sparse : Bool) (f k n : Nat) : Word :=
  BitVec.ofNat 64 (slabs * 2 ^ 32 + (if sparse then 2 ^ 31 else 0) + f * 2 ^ 27 + k * 2 ^ 11 + n)

/-- The cells with the weight of row r, column n placed (R264). -/
def placeWeight (t : Table (BitVec 32)) (f r n x : Nat) : Table (BitVec 32) :=
  if f = 0 then
    Table.set 0 (Table.set 0 t (128 * r + 2 * n) (BitVec.ofNat 32 x)) (128 * r + 2 * n + 1) (BitVec.ofNat 32 (x / 2 ^ 32))
  else
    let p := perCell f
    let w := typeWidth f
    let key := 128 * (r / p) + n
    let old := (Table.get 0 t key).toNat
    let sh := 2 ^ (w * (r % p))
    Table.set 0 t key (BitVec.ofNat 32 (old - old / sh % 2 ^ w * sh + x % 2 ^ w * sh))

/-- The weight in row r, column n as it lies in the cells (R264, R265). -/
def WBuf.stored (b : WBuf) (r n : Nat) : Nat :=
  let f := b.wfmt
  if f = 0 then
    (Table.get 0 b.cells (128 * r + 2 * n)).toNat + 2 ^ 32 * (Table.get 0 b.cells (128 * r + 2 * n + 1)).toNat
  else
    let p := perCell f
    let w := typeWidth f
    (Table.get 0 b.cells (128 * (r / p) + n)).toNat / 2 ^ (w * (r % p)) % 2 ^ w

/-- Whether slab q is live (R267). -/
def slabLive (slabs q : Nat) : Bool := decide (slabs / 2 ^ q % 2 = 1)

/-- The live slabs below q. -/
def liveBelow (slabs q : Nat) : Nat := ((List.range q).filter (slabLive slabs)).length

/-- The live slabs in order. -/
def liveSlabs (slabs k : Nat) : List Nat := (List.range (k / 32)).filter (slabLive slabs)

/-- The 2-bit index of compressed row r, column n, in the side state of its cell (R267, R291). DESIGN CHOICE (log 89): of
the compressed rows of a cell the s-th has bits [2s+1:2s] of the cell's byte. -/
def WBuf.index (b : WBuf) (r n : Nat) : Nat :=
  let p := perCell b.wfmt
  (Table.get 0 b.indices (128 * (r / p) + n)).toNat / 4 ^ (r % p) % 4

/-- The compressed row that keeps W[k, n], none where the weight is dropped or its slab is dead (R267). DESIGN CHOICE
(log 89): beyond the buffer's K and N, as of a WOPAS whose N is the larger, no weight is kept. -/
def WBuf.keptRow (b : WBuf) (k n : Nat) : Option Nat :=
  if !slabLive b.slabs (k / 32) || decide (b.k ≤ k) || decide (b.n ≤ n) then none
  else
    let g := 8 * liveBelow b.slabs (k / 32) + k % 32 / 4
    if b.index (2 * g) n = k % 4 then some (2 * g)
    else if b.index (2 * g + 1) n = k % 4 then some (2 * g + 1) else none

/-- W[k, n], none for a dropped weight (R267, R268). -/
def WBuf.weight (b : WBuf) (k n : Nat) : Option Nat :=
  if b.sparse then (b.keptRow k n).map fun r => b.stored r n else some (b.stored k n)

/-- The scale of block (bk, bn) (R266, R291). -/
def WBuf.scaleOf (b : WBuf) (bk bn : Nat) : Nat := (Table.get 0 b.scales (4 * bk + bn)).toNat

/-! ## Soft errors of weave state (R408) -/

/-- The fault of an uncorrectable slot among those a command reads: `lo` to `lo + n` of the accumulators, with the cell
sums after them. -/
def Core.slotSoft (c : Core) (places : Nat → Bool) : Option Halt :=
  if c.soft.any fun e => e.1 == 4 && places e.2 then some (.fault (softFault 4)) else none

/-- The errors of slots that have been written gone (R408). -/
def Core.mendWhere (c : Core) (places : Nat → Bool) : Core :=
  { c with soft := c.soft.filter fun e => !(e.1 == 4 && places e.2) }

/-- Those of a whole accumulator tile, or of the cell sums. -/
def Core.mendSlots (c : Core) (lo : Nat) : Core := c.mendWhere fun p => decide (lo ≤ p) && decide (p < lo + slotsPerTile)

/-- The parity fault of the lowest bad cell that a command reads: code 5 marks the active buffer's cells and 6 the shadow
buffer's. -/
def Core.cellSoft (c : Core) (shadow : Bool) (rows cols : Nat) : Option Halt :=
  let bad := ((c.soft.filter fun e =>
    e.1 == (if shadow then 6 else 5) && decide (e.2 / 128 < rows) && decide (e.2 % 128 < cols)).map Prod.snd)
  match bad with
  | [] => none
  | k :: ks =>
    let m := ks.foldl min k
    some (.fault { code := 0x0404, synd := BitVec.ofNat 64 m, aux := if shadow then 1 else 0 })

/-- Cell rows and columns that a buffer's weights lie in. -/
def WBuf.cellSpan (b : WBuf) : Nat × Nat :=
  let rows := if b.sparse then 16 * (liveSlabs b.slabs b.k).length else b.k
  ((rows + perCell b.wfmt - 1) / perCell b.wfmt, if b.wfmt = 0 then 2 * b.n else b.n)

/-! ## Hulls of weave operands (R273) -/

/-- The descriptor hull of one tile (R87, R273). -/
def Desc.tileHull (d : Desc) (t rows len : Nat) : List Nat :=
  if len = 0 then [] else (List.range rows).flatMap fun i => d.rowGranules t i len

/-- The hull of an operand of rows × n elements, with tile 1 of its scales (R273). -/
def Desc.weaveHull (d : Desc) (rows n f : Nat) (scaled : Bool) : List Nat :=
  (d.tileHull 0 rows (rowBytes n (typeWidth f)) ++
    (if scaled then d.tileHull 1 ((rows + 31) / 32) ((n + 31) / 32) else [])).eraseDups

/-- The length conditions of such an operand (R86, R385). -/
def weaveLengths (field : Nat) (w0 w1 : Word) (rows n f : Nat) (scaled : Bool) : Option FaultInfo :=
  descLengths field w0 w1 (if scaled then 2 else 1) rows (rowBytes n (typeWidth f))

/-- The weave state of a core changed. -/
def State.mapWeave (s : State) (core : Nat) (f : Weave → Weave) : State :=
  let c := s.core core
  s.setCore core { c with weave := f c.weave }

/-- The scale byte of block (bi, be) of an A, X or dY operand; 127 without scales (R273). -/
def Core.operandScale (c : Core) (d : Desc) (scaled : Bool) (bi be : Nat) : Nat :=
  if scaled then (Table.get 0 c.spad (d.offset 1 bi be)).toNat else 127

/-! ## Loading weights (R275, R276) -/

/-- The shadow buffer cleared at the first row of a load (R275); its cells' parity is good again (R408). The scales of blocks
that the load does not read become 127 and its index bytes 0 (DESIGN CHOICE, log 89). -/
def State.clearShadow (s : State) (core : Nat) : State :=
  let c := s.core core
  let ones : Table Byte := (List.range 128).map fun k => (k, 127)
  s.setCore core { c with
    weave := { c.weave with shadow := { c.weave.shadow with cells := [], indices := [], scales := ones, scaled := false } }
    soft := c.soft.filter fun e => e.1 != 6 }

/-- One row of a load placed in the shadow buffer. -/
def placeRow (b : WBuf) (f r : Nat) (vs : List Nat) : WBuf :=
  let cells := (vs.zip (List.range vs.length)).foldl (fun t e => placeWeight t f r e.2 e.1) b.cells
  { b with cells := cells }

/-- Block scales of block row bk set in a buffer. -/
def setScales (b : WBuf) (bk : Nat) (vs : List Nat) : WBuf :=
  let scales := (vs.zip (List.range vs.length)).foldl
    (fun t e => Table.set 0 t (4 * bk + e.2) (BitVec.ofNat 8 e.1)) b.scales
  { b with scales := scales }

/-- The shadow buffer changed. -/
def State.mapShadow (s : State) (core : Nat) (f : WBuf → WBuf) : State :=
  s.mapWeave core fun w => { w with shadow := f w.shadow }

/-- The first halt of a list of checks. -/
def firstHalt : List (Option Halt) → Option Halt
  | [] => none
  | some h :: _ => some h
  | none :: hs => firstHalt hs

/-- The run of WLD (R275). -/
def wldRun : Runner := fun j s =>
  let f := FmtWord.of j.q.fmt
  let d := Desc.of (j.op 0) (j.op 1)
  let (k, n) := (shapeK (j.op 2), shapeN (j.op 2))
  let b := typeWidth f.wfmt
  let scaled := takesScales f.wfmt f.scl
  match s.begin j (d.weaveHull k n f.wfmt scaled) [] with
  | .error e => (s, .fault none e)
  | .ok s =>
    let s := if j.row = 0 then s.clearShadow j.core else s
    let row (r : Nat) (s : State) : State × Option Halt :=
      let block := scaled && r % 32 == 0
      match firstHalt [
          s.spadSoft j d 0 r (rowBytes n b),
          if block then s.spadSoft j d 1 (r / 32) ((n + 31) / 32) else none] with
      | some h => (s, some h)
      | none =>
        let c := s.core j.core
        let vs := c.row d 0 r n b
        (s.mapShadow j.core fun w =>
          let w := placeRow w f.wfmt r vs
          if block then setScales w (r / 32) (c.row d 1 (r / 32) ((n + 31) / 32) 8) else w, none)
    match weaveRows j row (k - j.row) j.row s with
    | (s, .done) =>
      (s.mapShadow j.core fun w => { w with word := bufferWord 0 false f.wfmt k n, scaled := scaled }, .done)
    | r => r

/-- The unit's operand checks of WLD (R385). -/
def checkWld (_e : Ex) : Core → Word → List Word → Option FaultInfo :=
  fun _ w ops =>
    let f := FmtWord.of w
    let sh := nthD 0 ops 2
    firstFault [
      fmtCheck w (loadFmtOk false w),
      shapeCheck sh 2 (shapeM sh == 0) (decide (shapeK sh ≤ denseKMax f.wfmt) && decide (shapeN sh ≤ weightNMax f.wfmt)),
      descCheck 1 (nthD 0 ops 0) (nthD 0 ops 1),
      weaveLengths 1 (nthD 0 ops 0) (nthD 0 ops 1) (shapeK sh) (shapeN sh) f.wfmt (takesScales f.wfmt f.scl)]

/-- WLD (R275). -/
def execWld (e : Ex) (s : State) : Out :=
  dispatchFmt (.wld e) e (checkWld e) wldRun s

/-- The rows, the longest row and the tiles of a sparse operand (R276). -/
def sparseLengths (field : Nat) (w0 w1 : Word) (live n f : Nat) (scaled : Bool) : Option FaultInfo :=
  descLengths field w0 w1 (if scaled then 3 else 2) (16 * live) (max (rowBytes n (typeWidth f)) n)

/-- The hulls of a sparse operand (R276). -/
def Desc.sparseHull (d : Desc) (live : List Nat) (n f : Nat) (scaled : Bool) : List Nat :=
  let l := live.length
  (d.tileHull 0 (16 * l) (rowBytes n (typeWidth f)) ++ d.tileHull 1 (8 * l) n ++
    (if scaled && n != 0 then live.flatMap fun bk => d.rowGranules 2 bk ((n + 31) / 32) else [])).eraseDups

/-- The fault of an invalid sparse tile (R373, R385). -/
def sparseFault (off : Nat) : FaultInfo := { code := 0x0112, addr := BitVec.ofNat 64 off }

/-- The two indices of a byte of tile 1 (R276). -/
def indexPair (b : Nat) : Nat × Nat := (b % 4, b / 4 % 4)

/-- The index of compressed row r, column n, put in the side state (R291), at the place that `WBuf.index` reads (log 89). -/
def setIndex (t : Table Byte) (f r n x : Nat) : Table Byte :=
  let p := perCell f
  let key := 128 * (r / p) + n
  let old := (Table.get 0 t key).toNat
  let sh := 4 ^ (r % p)
  Table.set 0 t key (BitVec.ofNat 8 (old - old / sh % 4 * sh + x * sh))

/-- The run of WLDS (R276). -/
def wldsRun : Runner := fun j s =>
  let f := FmtWord.of j.q.fmt
  let d := Desc.of (j.op 0) (j.op 1)
  let (k, n) := (shapeK (j.op 2), shapeN (j.op 2))
  let slabs := bitsOf (j.op 3).toNat 31 0
  let live := liveSlabs slabs k
  let rows := 16 * live.length
  let b := typeWidth f.wfmt
  let scaled := takesScales f.wfmt f.scl
  match s.begin j (d.sparseHull live n f.wfmt scaled) [] with
  | .error e => (s, .fault none e)
  | .ok s =>
    let s := if j.row = 0 then s.clearShadow j.core else s
    if slabs / 2 ^ (k / 32) != 0 || decide (128 * perCell f.wfmt < rows) then
      (s, .fault (some 0) (sparseFault (d.offset 0 0 0)))
    else
      let row (r : Nat) (s : State) : State × Option Halt :=
        let c := s.core j.core
        let block := scaled && r % 16 == 0
        let bk := nthD 0 live (r / 16)
        let idx := c.row d 1 (r / 2) n 8
        let bad := (List.range n).find? fun m =>
          decide ((indexPair (nthD 0 idx m)).2 ≤ (indexPair (nthD 0 idx m)).1)
        match firstHalt [
            s.spadSoft j d 0 r (rowBytes n b), s.spadSoft j d 1 (r / 2) n,
            if block then s.spadSoft j d 2 bk ((n + 31) / 32) else none,
            bad.map fun m => .fault (sparseFault (d.offset 1 (r / 2) m))] with
        | some h => (s, some h)
        | none =>
          let vs := c.row d 0 r n b
          let pick (m : Nat) : Nat := let q := indexPair (nthD 0 idx m); if r % 2 = 0 then q.1 else q.2
          (s.mapShadow j.core fun w =>
            let w := placeRow w f.wfmt r vs
            let w := { w with indices := (List.range n).foldl (fun t m => setIndex t f.wfmt r m (pick m)) w.indices }
            if block then setScales w bk (c.row d 2 bk ((n + 31) / 32) 8) else w, none)
      match weaveRows j row (rows - j.row) j.row s with
      | (s, .done) =>
        (s.mapShadow j.core fun w => { w with word := bufferWord slabs true f.wfmt k n, scaled := scaled }, .done)
      | r => r

/-- The unit's operand checks of WLDS (R385). -/
def checkWlds (_e : Ex) : Core → Word → List Word → Option FaultInfo :=
  fun _ w ops =>
    let f := FmtWord.of w
    let sh := nthD 0 ops 2
    let bm := nthD 0 ops 3
    let live := (liveSlabs (bitsOf bm.toNat 31 0) (shapeK sh)).length
    firstFault [
      fmtCheck w (loadFmtOk true w),
      shapeCheck sh 2 (shapeM sh == 0)
        (shapeK sh % 32 == 0 && decide (shapeK sh ≤ 1024) && decide (shapeN sh ≤ 128)),
      faultIf (bitsOf bm.toNat 63 32 != 0) (badWord bm 2),
      descCheck 1 (nthD 0 ops 0) (nthD 0 ops 1),
      sparseLengths 1 (nthD 0 ops 0) (nthD 0 ops 1) live (shapeN sh) f.wfmt (takesScales f.wfmt f.scl)]

/-- WLDS (R276). -/
def execWlds (e : Ex) (s : State) : Out :=
  dispatchFmt (.wlds e) e (checkWlds e) wldsRun s

/-! ## Exchange (R277) -/

/-- The run of WSWAP; the parity marks go with their buffers (R408). -/
def wswapRun : Runner := fun j s =>
  let s := s.mapWeave j.core fun w => { w with active := w.shadow, shadow := w.active }
  let c := s.core j.core
  (s.setCore j.core { c with soft := c.soft.map fun e =>
    if e.1 = 5 then (6, e.2) else if e.1 = 6 then (5, e.2) else e }, .done)

/-- A unit check that finds nothing. -/
def noCheck (_c : Core) (_ops : List Word) : Option FaultInfo := none

/-- WSWAP (R277). -/
def execWswap (e : Ex) (s : State) : Out := dispatch (.wswap e) e engWeave noCheck wswapRun s

/-! ## Streaming products (R279 to R281) -/

/-- Factor pairs as exact values; a dropped weight or an element past the extent is a pair of +0 (R38, R268). -/
def factorPairs (af wf : Nat) (ps : List (Option (Nat × Nat))) : List (Fp × Fp) :=
  ps.map fun p => match p with
    | some (a, w) =>
      (match typeFmt af with | some f => decodeFp f a | none => .fin false 0 0,
        match typeFmt wf with | some f => decodeFp f w | none => .fin false 0 0)
    | none => (.fin false 0 0, .fin false 0 0)

/-- One K-group added to an accumulator element under the FP32 or INT32 view (R38, R40). -/
def addGroup (v : View) (af wf : Nat) (ps : List (Option (Nat × Nat))) (sa sw : Nat) (t : Nat) : Nat × Flags :=
  match v with
  | .int32 =>
    let g := ps.foldl (fun acc p => match p with
      | some (a, w) => acc + decodeInt 7 a * decodeInt 7 w
      | none => acc) (0 : Int)
    (wrapInt 32 (decodeInt 9 t + g), 0)
  | _ =>
    let (g, f1) := weaveGroup (factorPairs af wf ps) sa sw
    let (r, f2) := (exactAdd .rne (decodeFp .fp32 t) (decodeFp .fp32 g)).round .fp32 .rne false
    (r, f1 ||| f2)

/-- One fused multiply-add of FP64 mode (R41). -/
def addFma (a w t : Nat) : Nat × Flags :=
  (exactFma .rne (decodeFp .fp64 a) (decodeFp .fp64 w) (decodeFp .fp64 t)).round .fp64 .rne false

/-- One element of a streaming product: the accumulator element `t` and all that its column adds (R280). `arow` is the
A row, `sa` its block scales, and `wgt r` the weight facing reduction index r, in output column o. DESIGN CHOICE (log 89):
of a sparse buffer under weft read a dead slab is skipped for the output columns that it holds. -/
def streamElem (v : View) (f : FmtWord) (b : WBuf) (weft : Bool) (kr o : Nat) (arow : List Nat) (sa : Nat → Nat)
    (t : Nat) : Nat × Flags :=
  let wgt (r : Nat) : Option Nat := if weft then b.weight o r else b.weight r o
  match v with
  | .fp64 =>
    (List.range kr).foldl (fun acc r =>
      let (x, fl) := addFma (nthD 0 arow r) ((wgt r).getD 0) acc.1
      (x, acc.2 ||| fl)) (t, 0)
  | _ =>
    (List.range ((kr + 31) / 32)).foldl (fun acc m =>
      let dead := b.sparse && !slabLive b.slabs (if weft then o / 32 else m)
      if dead then acc
      else
        let ps := (List.range 32).map fun u =>
          let r := 32 * m + u
          if r < kr then (wgt r).map fun w => (nthD 0 arow r, w) else none
        let sw := if weft then b.scaleOf (o / 32) m else b.scaleOf m (o / 32)
        let (x, fl) := addGroup v f.afmt f.wfmt ps (sa m) sw acc.1
        (x, acc.2 ||| fl)) (t, 0)

/-- The fault of a weight buffer that does not match (R373, R385). -/
def bufferFault (fmt : Word) (b : WBuf) : FaultInfo := { code := 0x0111, synd := fmt, aux := b.word }

/-- The run of a streaming command (R280, R281). DESIGN CHOICE (log 89): a warp read uses its one accumulator even in the
FP64 view of an empty buffer whose N exceeds 64 (R279); the columns past 63 are then nowhere. -/
def streamRun (weft sparse : Bool) : Runner := fun j s =>
  let f := FmtWord.of j.q.fmt
  let b := (s.core j.core).weave.active
  let d := Desc.of (j.op 0) (j.op 1)
  let m := shapeM (j.op 2)
  let v := View.of f.afmt
  let (kr, no) := if weft then (b.n, b.k) else (b.k, min b.n v.cols)
  let first := bitsOf j.ex.ext.toNat 2 0
  let clr := j.ex.ext.getLsbD 3
  let ascl := takesScales f.afmt f.scl
  match firstFault [
      faultIf (!b.empty && (b.wfmt != f.wfmt || b.sparse != sparse)) (bufferFault j.q.fmt b),
      faultIf (weft && decide (8 < first + (no + v.cols - 1) / v.cols)) { code := 0x010F, synd := b.word },
      weaveLengths 1 (j.op 0) (j.op 1) m kr f.afmt ascl] with
  | some e => (s, startHalt j (.fault e))
  | none =>
    match s.begin j (d.weaveHull m kr f.afmt ascl) [] with
    | .error e => (s, .fault none e)
    | .ok s =>
      let span := b.cellSpan
      let used (i p : Nat) : Bool :=
        (List.range ((no + v.cols - 1) / v.cols)).any fun a =>
          decide (p / 128 = 128 * (first + a) + i) &&
            decide (p % 128 < (if v = .fp64 then 2 else 1) * min v.cols (no - a * v.cols))
      let row (i : Nat) (s : State) : State × Option Halt :=
        let c := s.core j.core
        let base (o : Nat) : Nat := slotsPerTile * (first + o / v.cols)
        match firstHalt [
            s.spadSoft j d 0 i (rowBytes kr (typeWidth f.afmt)),
            if ascl then s.spadSoft j d 1 (i / 32) ((kr + 31) / 32) else none,
            if b.empty then none else c.cellSoft false span.1 span.2,
            if clr then none else c.slotSoft (used i)] with
        | some h => (s, some h)
        | none =>
          let arow := c.row d 0 i kr (typeWidth f.afmt)
          let sa (g : Nat) : Nat := c.operandScale d ascl (i / 32) g
          let (acc, fl) := (List.range no).foldl (fun x o =>
            let t := if clr then 0 else slotElem x.1 v (base o) i (o % v.cols)
            let (t, fl) := if b.empty then (t, 0) else streamElem v f b weft kr o arow sa t
            (slotSet x.1 v (base o) i (o % v.cols) t, x.2 ||| fl)) (c.weave.acc, (0 : Flags))
          let s := s.setCore j.core (c.mendWhere (used i))
          ((s.mapWeave j.core fun w => { w with acc := acc }).raiseCmd j fl, none)
      weaveRows j row (m - j.row) j.row s

/-- The unit's checks of a streaming command (R272, R279, R385). -/
def streamUnit (sparse : Bool) (_c : Core) (w : Word) (ops : List Word) : Option FaultInfo :=
  let sh := nthD 0 ops 2
  firstFault [
    fmtCheck w (streamFmtOk sparse w),
    shapeCheck sh 2 (shapeK sh == 0 && shapeN sh == 0) (decide (shapeM sh ≤ 128)),
    descCheck 1 (nthD 0 ops 0) (nthD 0 ops 1)]

/-- WMM (R280). -/
def execWmm (e : Ex) (s : State) : Out := dispatchFmt (.wmm e) e (streamUnit false) (streamRun false false) s
/-- WMMT (R280). -/
def execWmmt (e : Ex) (s : State) : Out := dispatchFmt (.wmmt e) e (streamUnit false) (streamRun true false) s
/-- WMMS (R280). -/
def execWmms (e : Ex) (s : State) : Out := dispatchFmt (.wmms e) e (streamUnit true) (streamRun false true) s
/-- WMMST (R280). -/
def execWmmst (e : Ex) (s : State) : Out := dispatchFmt (.wmmst e) e (streamUnit true) (streamRun true true) s

/-! ## Outer products (R282) -/

/-- A run's ending with its rows counted in groups of 32 (R290). -/
def RunEnd.groups : RunEnd → RunEnd
  | .fault (some r) f => .fault (some (32 * r)) f
  | .halt r h => .halt (32 * r) h
  | e => e

/-- The run of WOPA and WOPAS (R282). -/
def outerRun (sparse : Bool) : Runner := fun j s =>
  let f := FmtWord.of j.q.fmt
  let b := (s.core j.core).weave.active
  let dx := Desc.of (j.op 0) (j.op 1)
  let dy := Desc.of (j.op 2) (j.op 3)
  let sh := j.op 4
  let (m, k, n) := (shapeM sh, shapeK sh, shapeN sh)
  let v := View.of f.afmt
  let xs := takesScales f.afmt f.scl
  let ys := takesScales f.wfmt f.scl
  let clr := j.ex.ext.getLsbD 3
  if sparse && !b.sparse then (s, startHalt j (.fault (bufferFault j.q.fmt b)))
  else
    match s.begin j (dx.weaveHull m k f.afmt xs ++ dy.weaveHull m n f.wfmt ys).eraseDups [] with
    | .error e => (s, .fault none e)
    | .ok s =>
      let clear (s : State) : State :=
        let s := s.mapWeave j.core fun w => { w with sums := [] }
        s.setCore j.core ((s.core j.core).mendSlots (8 * slotsPerTile))
      let s := if clr ∧ m = 0 then clear s else s
      let group (g : Nat) (t : State) : State × Option Halt :=
        let s := if clr ∧ g = 0 then clear t else t
        let c := s.core j.core
        let rows := (List.range 32).filter fun u => decide (32 * g + u < m)
        match firstHalt ((rows.map fun u => firstHalt [
              s.spadSoft j dx 0 (32 * g + u) (rowBytes k (typeWidth f.afmt)),
              s.spadSoft j dy 0 (32 * g + u) (rowBytes n (typeWidth f.wfmt))]) ++ [
            if xs then s.spadSoft j dx 1 g ((k + 31) / 32) else none,
            if ys then s.spadSoft j dy 1 g ((n + 31) / 32) else none,
            c.slotSoft fun p =>
              let (kk, nn) := ((p - 8 * slotsPerTile) / 128, p % 128)
              decide (8 * slotsPerTile ≤ p) && decide (kk < k) && decide (nn < n) &&
                (!sparse || (b.keptRow kk nn).isSome)]) with
        | some h => (t, some h)
        | none =>
          let xr := rows.map fun u => c.row dx 0 (32 * g + u) k (typeWidth f.afmt)
          let yr := rows.map fun u => c.row dy 0 (32 * g + u) n (typeWidth f.wfmt)
          let (sums, fl) := (List.range k).foldl (fun acc kk =>
            (List.range n).foldl (fun acc nn =>
              if sparse && (b.keptRow kk nn).isNone then acc
              else
                let ps := (List.range 32).map fun u =>
                  if u < rows.length then some (nthD 0 (nthD [] xr u) kk, nthD 0 (nthD [] yr u) nn) else none
                let (t, fl) := addGroup v f.afmt f.wfmt ps (c.operandScale dx xs g (kk / 32))
                  (c.operandScale dy ys g (nn / 32)) (slotElem acc.1 v 0 kk nn)
                (slotSet acc.1 v 0 kk nn t, acc.2 ||| fl)) acc) (c.weave.sums, (0 : Flags))
          ((s.mapWeave j.core fun w => { w with sums := sums }).raiseCmd j fl, none)
      let (s, e) := weaveRows j group ((m + 31) / 32 - j.row / 32) (j.row / 32) s
      (s, e.groups)

/-- The unit's checks of an outer product (R272, R282, R385). -/
def outerUnit (sparse : Bool) (_c : Core) (w : Word) (ops : List Word) : Option FaultInfo :=
  let f := FmtWord.of w
  let sh := nthD 0 ops 4
  firstFault [
    fmtCheck w (outerFmtOk sparse w),
    shapeCheck sh 3 true (decide (shapeM sh ≤ 128) && decide (shapeK sh ≤ 128) && decide (shapeN sh ≤ 128)),
    descCheck 1 (nthD 0 ops 0) (nthD 0 ops 1),
    weaveLengths 1 (nthD 0 ops 0) (nthD 0 ops 1) (shapeM sh) (shapeK sh) f.afmt (takesScales f.afmt f.scl),
    descCheck 2 (nthD 0 ops 2) (nthD 0 ops 3),
    weaveLengths 2 (nthD 0 ops 2) (nthD 0 ops 3) (shapeM sh) (shapeN sh) f.wfmt (takesScales f.wfmt f.scl)]

/-- WOPA (R282). -/
def execWopa (e : Ex) (s : State) : Out := dispatchFmt (.wopa e) e (outerUnit false) (outerRun false) s
/-- WOPAS (R282). -/
def execWopas (e : Ex) (s : State) : Out := dispatchFmt (.wopas e) e (outerUnit true) (outerRun true) s

/-! ## Draining and clearing (R283, R284) -/

/-- The run of WDRAIN. -/
def wdrainRun : Runner := fun j s =>
  let a := bitsOf j.ex.ext.toNat 2 0
  let keep := j.ex.x.getLsbD 0
  match (s.core j.core).slotSoft fun p => decide (8 * slotsPerTile ≤ p) with
  | some h => (s, startHalt j h)
  | none =>
    let s := s.mapWeave j.core fun w =>
      { w with acc := Table.blit w.acc (slotsPerTile * a) w.sums 0 slotsPerTile, sums := if keep then w.sums else [] }
    (s.setCore j.core ((s.core j.core).mendSlots (slotsPerTile * a)), .done)

/-- The unit's operand checks of WDRAIN (R385). -/
def checkWdrain (_e : Ex) : Core → Word → List Word → Option FaultInfo :=
  fun _ w _ => fmtCheck w true

/-- WDRAIN (R283). -/
def execWdrain (e : Ex) (s : State) : Out :=
  dispatchFmt (.wdrain e) e (checkWdrain e) wdrainRun s

/-- The run of WACLR. -/
def waclrRun : Runner := fun j s =>
  let a := bitsOf j.ex.ext.toNat 2 0
  let sums := j.ex.x == 1
  let s := s.mapWeave j.core fun w =>
    if sums then { w with sums := [] } else { w with acc := Table.dropRange (slotsPerTile * a) slotsPerTile w.acc }
  (s.setCore j.core ((s.core j.core).mendSlots (slotsPerTile * (if sums then 8 else a))), .done)

/-- WACLR (R284). -/
def execWaclr (e : Ex) (s : State) : Out := dispatch (.waclr e) e engWeave noCheck waclrRun s

/-! ## Promotion and accumulation (R285, R286) -/

/-- The type code of a view's element. -/
def View.type : View → Nat
  | .fp64 => 0 | .int32 => 9 | .fp32 => 1

/-- The conversion of WPROM, without SR (R33, R285). -/
def promConvert (v : View) (f : FmtWord) (x : Nat) : Nat × Flags :=
  match v, typeFmt f.dfmt with
  | .int32, none =>
    if f.dfmt = 9 then (x, 0)
    else if f.sat then (wrapInt 8 (clampInt 7 (decodeInt 9 x)), 0) else (x % 256, 0)
  | _, _ => convertType v.type f.dfmt x (Round.of f.rnd) f.sat

/-- The gain of WPROM applied (R285). -/
def promGain (v : View) (f : FmtWord) (x : Nat) : Nat × Flags :=
  if f.scl = 2 ∧ v ≠ .int32 then
    (exactMul (decodeFp v.fmt x) (decodeFp .fp32 f.gain)).round v.fmt .rne false
  else (x, 0)

/-- One element of WPROM (R285): noise by its global coordinates under SR. -/
def promElem (v : View) (f : FmtWord) (seed : BitVec 128) (i j : BitVec 32) (x : Nat) : Nat × Flags :=
  let (x, f1) := promGain v f x
  let (y, f2) :=
    if f.rnd = 4 then
      match typeFmt f.dfmt with
      | some t => srRound x t f.sat seed i j f.tag
      | none => (x, 0)
    else promConvert v f x
  (y, f1 ||| f2)

/-- Whether a slot of accumulator `a`, row i, columns below n of a view is the place `p`. -/
def inRow (v : View) (a i n p : Nat) : Bool :=
  decide (p / 128 = 128 * a + i) && decide (p % 128 < (if v = .fp64 then 2 else 1) * n)

/-- The run of WPROM. -/
def wpromRun : Runner := fun j s =>
  let f := FmtWord.of j.q.fmt
  let v := View.of f.afmt
  let d := Desc.of (j.op 0) (j.op 1)
  let (m, n) := (shapeM (j.op 2), shapeN (j.op 2))
  let a := bitsOf j.ex.ext.toNat 2 0
  let bd := typeWidth f.dfmt
  let i0 : BitVec 32 := (j.op 3 >>> 32).setWidth 32
  let j0 : BitVec 32 := (j.op 3).setWidth 32
  match s.begin j [] (d.weaveHull m n f.dfmt false) with
  | .error e => (s, .fault none e)
  | .ok s =>
    let row (i : Nat) (s : State) : State × Option Halt :=
      let c := s.core j.core
      match c.slotSoft (inRow v a i n) with
      | some h => (s, some h)
      | none =>
        let (ys, fl) := joinFlags ((List.range n).map fun k =>
          promElem v f j.q.seed (i0 + BitVec.ofNat 32 i) (j0 + BitVec.ofNat 32 k)
            (slotElem c.weave.acc v (slotsPerTile * a) i k))
        match s.spadStore j d 0 i bd ys with
        | .error h => (s, some h)
        | .ok s => (s.raiseCmd j fl, none)
    weaveRows j row (m - j.row) j.row s

/-- The unit's checks of WPROM and WACC (R272, R385). -/
def promUnit (ok : Word → Bool) (_c : Core) (w : Word) (ops : List Word) : Option FaultInfo :=
  let f := FmtWord.of w
  let sh := nthD 0 ops 2
  firstFault [
    fmtCheck w (ok w),
    shapeCheck sh 2 (shapeK sh == 0) (decide (shapeM sh ≤ 128) && decide (shapeN sh ≤ (View.of f.afmt).cols)),
    descCheck 1 (nthD 0 ops 0) (nthD 0 ops 1),
    weaveLengths 1 (nthD 0 ops 0) (nthD 0 ops 1) (shapeM sh) (shapeN sh) f.dfmt false]

/-- WPROM (R285). -/
def execWprom (e : Ex) (s : State) : Out := dispatchFmt (.wprom e) e (promUnit promFmtOk) wpromRun s

/-- One element of WACC (R286). -/
def accElem (v : View) (t x : Nat) (dfmt : Nat) : Nat × Flags :=
  match v with
  | .int32 => (wrapInt 32 (decodeInt 9 t + decodeInt dfmt x), 0)
  | v =>
    match typeFmt dfmt with
    | some f => (exactAdd .rne (decodeFp v.fmt t) (decodeFp f x)).round v.fmt .rne false
    | none => (t, 0)

/-- The run of WACC. -/
def waccRun : Runner := fun j s =>
  let f := FmtWord.of j.q.fmt
  let v := View.of f.afmt
  let d := Desc.of (j.op 0) (j.op 1)
  let (m, n) := (shapeM (j.op 2), shapeN (j.op 2))
  let a := bitsOf j.ex.ext.toNat 2 0
  let bd := typeWidth f.dfmt
  match s.begin j (d.weaveHull m n f.dfmt false) [] with
  | .error e => (s, .fault none e)
  | .ok s =>
    let row (i : Nat) (s : State) : State × Option Halt :=
      let c := s.core j.core
      match firstHalt [s.spadSoft j d 0 i (rowBytes n bd), c.slotSoft (inRow v a i n)] with
      | some h => (s, some h)
      | none =>
        let xs := c.row d 0 i n bd
        let (acc, fl) := (List.range n).foldl (fun acc k =>
          let (t, fl) := accElem v (slotElem acc.1 v (slotsPerTile * a) i k) (nthD 0 xs k) f.dfmt
          (slotSet acc.1 v (slotsPerTile * a) i k t, acc.2 ||| fl)) (c.weave.acc, (0 : Flags))
        ((s.mapWeave j.core fun w => { w with acc := acc }).raiseCmd j fl, none)
    weaveRows j row (m - j.row) j.row s

/-- WACC (R286). -/
def execWacc (e : Ex) (s : State) : Out := dispatchFmt (.wacc e) e (promUnit accFmtOk) waccRun s

/-! ## Accumulators to vector tiles (R287) -/

/-- A run of slots as bits, the first lowest. -/
def slotsBits (t : Table (BitVec 32)) (lo : Nat) : Nat → Nat
  | 0 => 0
  | n + 1 => (Table.get 0 t lo).toNat + 2 ^ 32 * slotsBits t (lo + 1) n

/-- The run of WMVA. -/
def wmvaRun : Runner := fun j s =>
  let w := j.op 2
  let (first, count) := (bitsOf w.toNat 3 0, bitsOf w.toNat 8 4)
  let a := bitsOf j.ex.ext.toNat 2 0
  let v := j.ex.f1.toNat
  match s.begin j [] ((List.range count).map fun q => 4096 + v + q) with
  | .error e => (s, .fault none e)
  | .ok s =>
    let c := s.core j.core
    let base := slotsPerTile * a + 1024 * first
    match c.slotSoft fun p => decide (base ≤ p) && decide (p < base + 1024 * count) with
    | some h => (s, startHalt j h)
    | none =>
      let tiles := (List.range count).foldl (fun t q =>
        Table.set 0 t (v + q) (BitVec.ofNat 32768 (slotsBits c.weave.acc (base + 1024 * q) 1024))) c.tiles
      (s.setCore j.core { c with
        tiles := tiles
        soft := c.soft.filter fun e => !(e.1 == 2 && decide (v ≤ e.2) && decide (e.2 < v + count)) }, .done)

/-- The unit's operand checks of WMVA (R385). -/
def checkWmva (e : Ex) : Core → List Word → Option FaultInfo :=
  fun _ ops =>
    let w := nthD 0 ops 2
    firstFault [
      faultIf (bitsOf w.toNat 63 9 != 0) (badWord w 2),
      faultIf (decide (16 < bitsOf w.toNat 3 0 + bitsOf w.toNat 8 4) || decide (32 < e.f1.toNat + bitsOf w.toNat 8 4))
        { code := 0x010F, synd := w }]

/-- WMVA (R287). -/
def execWmva (e : Ex) (s : State) : Out :=
  dispatch (.wmva e) e engWeave (checkWmva e) wmvaRun s

/-! ## Reading weights (R278) -/

/-- The run of WREAD: the rows of tile 0, and with the last of them those of tiles 1 and 2, so that where the descriptor maps
two bytes to one place the higher tile's stands (R86). Its restart row counts the rows of tile 0: for a sparse buffer the
compressed rows, where the table of R290 says logical rows (DESIGN CHOICE, log 40). -/
def wreadRun : Runner := fun j s =>
  let f := FmtWord.of j.q.fmt
  let shadow := j.ex.x.getLsbD 0
  let w := (s.core j.core).weave
  let b := if shadow then w.shadow else w.active
  let d := Desc.of (j.op 0) (j.op 1)
  let (k, n) := (b.k, b.n)
  let live := liveSlabs b.slabs k
  let rows := if b.sparse then 16 * live.length else k
  let bw := typeWidth b.wfmt
  if b.empty then (s, .done)
  else
    match firstFault [
        faultIf (b.wfmt != f.wfmt) (bufferFault j.q.fmt b),
        if b.sparse then sparseLengths 1 (j.op 0) (j.op 1) live.length n b.wfmt b.scaled
        else weaveLengths 1 (j.op 0) (j.op 1) k n b.wfmt b.scaled] with
    | some e => (s, startHalt j (.fault e))
    | none =>
      let hull := if b.sparse then d.sparseHull live n b.wfmt b.scaled else d.weaveHull k n b.wfmt b.scaled
      match s.begin j [] hull with
      | .error e => (s, .fault none e)
      | .ok s =>
        let span := b.cellSpan
        let scales (bk : Nat) : List Nat := (List.range ((n + 31) / 32)).map fun bn => b.scaleOf bk bn
        let indexRow (r : Nat) : List Nat := (List.range n).map fun m => b.index (2 * r) m + 4 * b.index (2 * r + 1) m
        let upper : List (Nat × Nat × List Nat) :=
          (if b.sparse then (List.range (rows / 2)).map fun r => (1, r, indexRow r) else []) ++
            (if !b.scaled then []
             else if b.sparse then live.map fun bk => (2, bk, scales bk)
             else (List.range ((k + 31) / 32)).map fun bk => (1, bk, scales bk))
        let row (r : Nat) (s : State) : State × Option Halt :=
          match (s.core j.core).cellSoft shadow span.1 span.2 with
          | some h => (s, some h)
          | none =>
            let writes := (0, r, bw, (List.range n).map fun m => b.stored r m) ::
              (if r + 1 = rows then upper.map fun u => (u.1, u.2.1, 8, u.2.2) else [])
            match writes.foldlM (fun s w => s.spadStore j d w.1 w.2.1 w.2.2.1 w.2.2.2) s with
            | .error h => (s, some h)
            | .ok s => (s, none)
        weaveRows j row (rows - j.row) j.row s

/-- The unit's operand checks of WREAD (R385). -/
def checkWread (_e : Ex) : Core → Word → List Word → Option FaultInfo :=
  fun _ w ops =>
    firstFault [
      fmtCheck w ((FmtWord.of w).wfmt != 15),
      descCheck 1 (nthD 0 ops 0) (nthD 0 ops 1)]

/-- WREAD (R278). -/
def execWread (e : Ex) (s : State) : Out :=
  dispatchFmt (.wread e) e (checkWread e) wreadRun s

/-! ## Sync forms (R168, R288) -/

/-- WSLW (R288). -/
def execWslw (g : BitVec 4) (l n : BitVec 6) (s : State) : Out :=
  dispatchSync (.wslw g l n) g engWeave 0 (fun core => syncWait core engWeave l n) s
/-- WSLS (R288). -/
def execWsls (g : BitVec 4) (l n : BitVec 6) (s : State) : Out :=
  dispatchSync (.wsls g l n) g engWeave 0 (fun core => syncSignal core engWeave l n) s
/-- WTLW (R288). -/
def execWtlw (g : BitVec 4) (t sr : BitVec 6) (s : State) : Out :=
  dispatchSync (.wtlw g t sr) g engWeave sr (fun core => syncTimeline core engWeave t) s

end Sys2Proof.Machine
end

