-- ==== Sys2Proof/Machine/CoreEvents.lean ====
section
/-!
DEFINITION. The steps of a tile core beside its instructions: a line fetch, the late capture of an engine slot, the
completion of a command, an acknowledgement from a home, the entry to a user interrupt (R133, R148, R157, R161).
-/
namespace Sys2Proof.Machine

/-- A state acted on as if a core were the focused one, and the focus put back. -/
def State.onCore (s : State) (core : BitVec 8) (f : State → State) : State :=
  { f { s with focus := core } with focus := s.focus }

/-- LINE_FETCH: the line at the core's pc is fetched into its instruction cache and its header checked (R161, R373,
R394). -/
def execLineFetch (core : BitVec 8) (s : State) : Out :=
  let k := core.toNat
  if !(s.core k).active then .next s
  else
    match s.fetchLine k with
    | (s, .error h) => .next (s.fetchHalt k h)
    | (s, .ok line) =>
      let hdr := lineWord line 0
      let c := s.core k
      if headerLctl hdr ≠ 0 then
        .next (s.setCore k (c.faultAt { code := 0x0103, synd := hdr.setWidth 64, line := c.line, slot := 0 }))
      else .next s

/-- The dispatch of an engine slot's instruction on the focused core; none for a control instruction. -/
def dispatchEngine (i : Instr) (s : State) : Option Out :=
  match i with
  | .tld e => some (execTld e s)
  | .tst e => some (execTst e s)
  | .tldx e => some (execTldx e s)
  | .tstx e => some (execTstx e s)
  | .tldb e => some (execTldb e s)
  | .gath e => some (execGath e s)
  | .scat e => some (execScat e s)
  | .scopy e => some (execScopy e s)
  | .sfill e => some (execSfill e s)
  | .pref e => some (execPref e s)
  | .celladd e => some (execCelladd e s)
  | .cellclr e => some (execCellclr e s)
  | .cellrd e => some (execCellrd e s)
  | .cellxc e => some (execCellxc e s)
  | .brun e => some (execBrun e s)
  | .lput e => some (execLput e s)
  | .lget e => some (execLget e s)
  | .lsig e => some (execLsig e s)
  | .lcell e => some (execLcell e s)
  | .coll e => some (execColl e s)
  | .lwaitc e => some (execLwaitc e s)
  | .lbar e => some (execLbar e s)
  | .lfence e => some (execLfence e s)
  | .lnotify e => some (execLnotify e s)
  | .wld e => some (execWld e s)
  | .wlds e => some (execWlds e s)
  | .wswap e => some (execWswap e s)
  | .wmm e => some (execWmm e s)
  | .wmmt e => some (execWmmt e s)
  | .wmms e => some (execWmms e s)
  | .wmmst e => some (execWmmst e s)
  | .wopa e => some (execWopa e s)
  | .wopas e => some (execWopas e s)
  | .wdrain e => some (execWdrain e s)
  | .waclr e => some (execWaclr e s)
  | .wprom e => some (execWprom e s)
  | .wacc e => some (execWacc e s)
  | .wmva e => some (execWmva e s)
  | .wread e => some (execWread e s)
  | .vshape e => some (execVshape e s)
  | .vld e => some (execVld e s)
  | .vst e => some (execVst e s)
  | .vbcast e => some (execVbcast e s)
  | .vmov e => some (execVmov e s)
  | .vadd e => some (execVadd e s)
  | .vsub e => some (execVsub e s)
  | .vmul e => some (execVmul e s)
  | .vfma e => some (execVfma e s)
  | .vfms e => some (execVfms e s)
  | .vfnma e => some (execVfnma e s)
  | .vdiv e => some (execVdiv e s)
  | .vsqrt e => some (execVsqrt e s)
  | .vmin e => some (execVmin e s)
  | .vmax e => some (execVmax e s)
  | .vabs e => some (execVabs e s)
  | .vneg e => some (execVneg e s)
  | .vcmp e => some (execVcmp e s)
  | .vsel e => some (execVsel e s)
  | .vcvt e => some (execVcvt e s)
  | .vround e => some (execVround e s)
  | .vexp e => some (execVexp e s)
  | .vexp2 e => some (execVexp2 e s)
  | .vlog e => some (execVlog e s)
  | .vlog2 e => some (execVlog2 e s)
  | .vrcp e => some (execVrcp e s)
  | .vrsq e => some (execVrsq e s)
  | .vtanh e => some (execVtanh e s)
  | .vsigm e => some (execVsigm e s)
  | .vsin e => some (execVsin e s)
  | .vcos e => some (execVcos e s)
  | .verf e => some (execVerf e s)
  | .viadd e => some (execViadd e s)
  | .visub e => some (execVisub e s)
  | .vimul e => some (execVimul e s)
  | .vmulhi e => some (execVmulhi e s)
  | .vimin e => some (execVimin e s)
  | .vimax e => some (execVimax e s)
  | .viabs e => some (execViabs e s)
  | .vand e => some (execVand e s)
  | .vor e => some (execVor e s)
  | .vxor e => some (execVxor e s)
  | .vshl e => some (execVshl e s)
  | .vshr e => some (execVshr e s)
  | .vsar e => some (execVsar e s)
  | .vicmp e => some (execVicmp e s)
  | .vclz e => some (execVclz e s)
  | .vpopc e => some (execVpopc e s)
  | .vsat e => some (execVsat e s)
  | .vred e => some (execVred e s)
  | .vscan e => some (execVscan e s)
  | .vtrans e => some (execVtrans e s)
  | .vshift e => some (execVshift e s)
  | .vrowg e => some (execVrowg e s)
  | .vpack e => some (execVpack e s)
  | .vunpk e => some (execVunpk e s)
  | .vmxq e => some (execVmxq e s)
  | .vmxd e => some (execVmxd e s)
  | .vmask e => some (execVmask e s)
  | .vclass e => some (execVclass e s)
  | .vcopysgn e => some (execVcopysgn e s)
  | .vldexp e => some (execVldexp e s)
  | .vgetexp e => some (execVgetexp e s)
  | .aslw g l n => some (execAslw g l n s)
  | .asls g l n => some (execAsls g l n s)
  | .wslw g l n => some (execWslw g l n s)
  | .wsls g l n => some (execWsls g l n s)
  | .vslw g l n => some (execVslw g l n s)
  | .vsls g l n => some (execVsls g l n s)
  | .lslw g l n => some (execLslw g l n s)
  | .lsls g l n => some (execLsls g l n s)
  | .atlw g t sr => some (execAtlw g t sr s)
  | .wtlw g t sr => some (execWtlw g t sr s)
  | .vtlw g t sr => some (execVtlw g t sr s)
  | .ltlw g t sr => some (execLtlw g t sr s)
  | _ => none

/-- ENGINE_SLOT_DISPATCH: a core whose dispatch waits for an entry of an engine's queue captures that slot once the
queue has room (R157). -/
def execEngineSlotDispatch (core : BitVec 8) (s : State) : Out :=
  let k := core.toNat
  if (s.core k).blocked ≠ some .queueFull ∨ !(s.core k).active then .next s
  else
    match s.fetchLine k with
    | (_, .error _) => .next s
    | (s1, .ok line) =>
      let c := s1.core k
      let unit := takeUnit ((decodeLine line).filter fun x => decide (c.slot ≤ x.num))
      match (unit.filter slotEngine).drop c.unitDone with
      | [] => .next s
      | x :: _ =>
        match x.what with
        | .error _ => .next s
        | .ok i =>
          let t := { s1.setCore k { c with curSlot := x.num, blocked := none } with focus := core }
          match dispatchEngine i t with
          | some (.next t) =>
            let slotFaults : Bool := match t.here.pend with | some f => f.akind == 0 && !f.late | none => false
            if t.here.blocked.isSome || slotFaults then .next s
            else
              let d := { t.here with unitDone := c.unitDone + 1 }
              let single := decide (unit.length ≤ 1)
              let d := if single then
                  let n := unitEnd unit
                  let pc := if n ≤ 7 then (d.line, n) else (d.line + 32, 1)
                  { d with line := pc.1, slot := pc.2, unitDone := 0, held := [], entered := false }
                else d
              .next { t.setHere d with focus := s.focus }
          | _ => .next s

/-- Whether one of a completed command's flags traps (R386). -/
def State.traps (s : State) (core : Nat) (f : Flags) : Bool :=
  f &&& (s.ctx (((s.core core).ctx?.map BitVec.toNat).getD 0)).trapEn != 0

/-- The oldest command of an engine completes (R68, R128, R133, R167): its counter advances, it signals, its arms fire; then
the fault that its completion has, its signal's fault, or an enabled flag's trap is taken (R381, R386, R387). -/
def State.completeCommand (s : State) (core eng : Nat) : State :=
  let c := s.core core
  let g := c.engine eng
  match g.flight ++ g.started.toList with
  | [] => s
  | st :: _ =>
    if !st.complete then s
    else
      let j : Job := { core := core, eng := eng, q := st.entry }
      let g := match g.flight with
        | _ :: rest => { g with flight := rest }
        | [] => { g with started := none, fetched := [] }
      let s := s.setCore core (c.setEngine eng { g with tl := g.tl + 1 })
      let trap := s.traps core st.flags
      let fault (s : State) (f : FaultInfo) : State :=
        s.setCore core ((s.core core).faultAt { stamp j none f with once := true })
      let s := match st.entry.signal with
        | some (k, n) =>
          match s.signal core k n st.entry.sigVec (some (eng + 1)) with
          | .ok s => s
          | .error f => fault s f
        | none => s
      let s := s.fireCore core eng
      let s := match st.endFault with
        | some f => fault (s.found f) f
        | none => s
      if trap then fault s { code := 0x0201, synd := st.flags.setWidth 64, res := true } else s

/-- COMMAND_COMPLETE (R133). -/
def execCommandComplete (core : BitVec 8) (eng : BitVec 2) (s : State) : Out :=
  .next (s.completeCommand core.toNat eng.toNat)

/-- HOME_ACKNOWLEDGEMENT: this device's home has performed what a stream has written there (R63, R133); `eng` is an
engine, or 4 for the control stream, of the running or of the draining task. -/
def execHomeAcknowledgement (core : BitVec 8) (eng : BitVec 3) (draining : Bool) (s : State) : Out :=
  let k := core.toNat
  let e := eng.toNat
  let c := s.core k
  if draining then
    .next (s.mapDraining k fun w =>
      if w.stream = (if e < 4 then e + 1 else 0) then { w with homeAck := false } else w)
  else if 4 ≤ e then .next (s.setCore k { c with posted := false })
  else
    let g := c.engine e
    match (g.flight ++ g.started.toList).find? Started.homeAck with
    | some st => .next (s.mapCommand k e st.entry.num fun t => { t with homeAck := false })
    | none => .next s

/-- USER_INTERRUPT_ENTRY: a pending interrupt taken at a bundle boundary, an acquire of scope PACKAGE (R119, R148, R158). -/
def execUserInterruptEntry (core : BitVec 8) (s : State) : Out :=
  let c := s.core core.toNat
  if c.uintReady && s.atBoundary core.toNat then .next (s.setCore core.toNat (c.takeUint.acquire 2)) else .next s

end Sys2Proof.Machine
end

