-- ==== Sys2Proof/Machine/GraphEvents.lean ====
section
/-!
DEFINITION. The steps of the graph engine and the digest engine: triggers, runs, nodes, digests, uploads, and the writing
of fault records (R61, R73, R77 to R83, R254, R346, R347, R376, R377, R426 to R429).
-/
namespace Sys2Proof.Machine

/-! ## Triggers and runs (R79, R427) -/

/-- TRIG_WRITE (R78, R79, R427). -/
def execTrigWrite (ctx : BitVec 6) (queue : BitVec 4) (value : Word) (s : State) : Out :=
  .next (s.whenUp fun s => s.trig ctx.toNat queue.toNat value 7 none)

/-- A run that fails whole: its record kept and its queue halted (R427). -/
def State.failRun (s : State) (x q : Nat) (f : FaultInfo) : State :=
  let s := s.keepRecord x false fun n =>
    recordBits { f with akind := 7, res := false } x n false false false none q 0 []
  let s := s.mapQueue x q fun u => { u with
    pending := u.pending.drop 1, runNo := u.runNo + 1, fetched := [], halt := true, runf := true, failSeq := 0 }
  s.setCtx x (s.ctx x).tidy

/-- Whether an upload or drop of a run's graph that came before its trigger is not yet finished (R347). -/
def Ctx.uploading (c : Ctx) (t : Trigger) : Bool :=
  c.uploads.any fun u => decide (u.serial ≤ t.img) && (u.cmd.setWidth 16 : BitVec 16) == t.value.setWidth 16

/-- A run begun with its patches applied to the stored blocks, its kernel nodes numbered and its root nodes ready
(R79). -/
def State.beginRun (s : State) (x q : Nat) (t : Trigger) (img : GraphImg) (ps : List Patch) : State :=
  let c := s.ctx x
  let patched (i : GraphImg) : GraphImg :=
    if i.graph = img.graph ∧ i.serial = img.serial then ps.foldl GraphImg.patch i else i
  let c := { c with images := c.images.map patched }
  let s := s.setCtx x c
  match c.expand t.img 5 img.graph [] none 0 [] with
  | .error (k, g) => s.failRun x q { code := 0x0807, synd := BitVec.ofNat 64 k, aux := g.setWidth 64 }
  | .ok nodes =>
    let u := c.queue q
    let (nodes, next) := numberNodes u.nextSeq nodes
    (s.mapQueue x q fun u => { u with
      pending := u.pending.drop 1, runNo := u.runNo + 1, fetched := [], nextSeq := next
      run := some { graph := img.graph, img := t.img, nodes := nodes } }).settleRun x q

/-- RUN_START: the oldest pending run of a queue that runs nothing and is not halted starts, or fails whole (R79,
R427). -/
def execRunStart (ctx : BitVec 6) (queue : BitVec 4) (s : State) : Out :=
  let x := ctx.toNat
  let q := queue.toNat
  let c := s.ctx x
  let u := c.queue q
  match u.run, u.pending with
  | none, t :: _ =>
    if u.halt || c.uploading t then .next s
    else
      let g : BitVec 16 := t.value.setWidth 16
      match c.expand t.img 5 g [] none 0 [], c.imageAt g t.img with
      | .error (k, g), _ => .next (s.failRun x q { code := 0x0807, synd := BitVec.ofNat 64 k, aux := g.setWidth 64 })
      | .ok _, none => .next s
      | .ok _, some img =>
        let kinds := (List.range img.count).map fun k => nodeKind (Table.get 0 img.nodes k)
        match s.readPatches (s.graphAgent x q 7) (patchAddr t.value) kinds with
        | (s, .error (.fault f)) => .next (s.failRun x q f)
        | (s, .error h) => .next (s.graphAsk x q h)
        | (s, .ok ps) => .next (s.beginRun x q t img ps)
  | _, _ => .next s

/-- QFAIL_HALT_CLEAR (R426). -/
def execQfailHaltClear (ctx : BitVec 6) (queue : BitVec 4) (value : Word) (s : State) : Out :=
  .next (s.whenUp fun s => s.clearHalt ctx.toNat queue.toNat value)

/-! ## Nodes (R73, R77, R254, R346, R429) -/

/-- A node that holds an uncorrectable error of scheduler memory fails, and its graph is marked invalid (R429). -/
def State.loseNode (s : State) (x q n : Nat) (e : RunNode) : State :=
  let f : FaultInfo := { code := 0x0806, synd := BitVec.ofNat 64 e.idx, aux := e.graph.setWidth 64, akind := 7 }
  let s := s.keepRecord x false fun k => recordBits f x k false (e.kind == 0) false none q e.kseq []
  let c := s.ctx x
  let s := s.setCtx x { c with images := c.images.map fun i => if i.graph = e.graph then { i with invalid := true } else i }
  let s := if e.kind = 0 then
      let d : Chain := if (s.ctx x).lvl = 2 then .digest (failDigest 1) else .skip
      s.mapQueue x q fun u => (u.link e.kseq d).skipAll
    else s
  (((s.mapRun x q fun r => r.setState n .failed).noteFail x q e.kseq).doom x q n).settleGraph

/-- A node of a kind that is ready or at work, given to a step; a node lost to a memory error fails instead. -/
def State.withNode (s : State) (x q n kind : Nat) (f : RunNode → State) : State :=
  match s.node? x q n with
  | some e =>
    if e.kind ≠ kind ∨ (e.state ≠ .ready ∧ e.state ≠ .active) then s
    else if e.bad then s.loseNode x q n e
    else f e
  | none => s

/-- A node completed, and what its completion makes ready (R77). -/
def State.completeNode (s : State) (x q n : Nat) : State :=
  (s.mapRun x q fun r => r.setState n .completed).settleGraph

/-- KERNEL_RELEASE (R61, R73, R385). -/
def execKernelRelease (ctx : BitVec 6) (queue : BitVec 4) (node : Nat) (s : State) : Out :=
  let x := ctx.toNat
  let q := queue.toNat
  .next (s.withNode x q node 0 fun e => if e.state = .ready then s.releaseKernel x q node e else s)

/-- The counter and the 64-bit value of a timeline node (R77). -/
def nodeCounter (b : BitVec 4096) : Nat × Word := (nodeBits b 519 512, BitVec.ofNat 64 (nodeBits b 639 576))

/-- TIMELINE_WAIT_NODE (R77, R134). -/
def execTimelineWaitNode (ctx : BitVec 6) (queue : BitVec 4) (node : Nat) (s : State) : Out :=
  let x := ctx.toNat
  let q := queue.toNat
  .next (s.withNode x q node 2 fun e =>
    let (id, n) := nodeCounter e.body
    if n.toNat ≤ ((s.ctx x).counter id).toNat then s.completeNode x q node
    else s.mapRun x q fun r => r.setState node .active)

/-- The nodes that some nodes of a run wait for or call, with themselves: grown until it holds still. -/
def Run.before (r : Run) : Nat → List Nat → List Nat
  | 0, ns => ns
  | fuel + 1, ns =>
    let inner := (r.nodes.zipIdx.filter fun e => (e.1.parent.map ns.contains).getD false).map Prod.snd
    let more := ns.flatMap (fun n => (r.nodes[n]?.map RunNode.preds).getD []) ++ inner
    let fresh := (more.filter fun n => !ns.contains n).eraseDups
    if fresh.isEmpty then ns else Run.before r fuel (ns ++ fresh)

/-- The predecessors of a node, and of the calls it lies in. -/
def Run.outer (r : Run) : Nat → RunNode → List Nat
  | 0, e => e.preds
  | fuel + 1, e => e.preds ++ match e.parent.bind (r.nodes[·]?) with
    | some p => Run.outer r fuel p
    | none => []

/-- Whether H still lacks a kernel numbered up to the highest that a node fences (R83): a digest not yet chained, a D2
kernel at work, or, while the context is at D2, a kernel not yet released (DEDUCED, log 76). -/
def State.unchained (s : State) (x q : Nat) (e : RunNode) : Bool :=
  let c := s.ctx x
  let u := c.queue q
  match u.run with
  | none => false
  | some r =>
    let fenced := (r.before r.nodes.length (r.outer 5 e).eraseDups).filterMap fun n =>
      r.nodes[n]?.bind fun d => if d.kind = 0 then some d.kseq.toNat else none
    let top := fenced.foldl max 0
    u.chain.any (fun l => decide (l.1 ≤ top) && l.2 != .skip) ||
      s.kernels.any (fun k => k.ctx.toNat == x && k.queue == q && k.level == 2 && decide (k.kseq.toNat ≤ top)) ||
      (c.lvl == 2 && r.nodes.any fun d =>
        d.kind == 0 && decide (d.kseq.toNat ≤ top) && (d.state == .waiting || d.state == .ready))

/-- TIMELINE_SIGNAL_NODE: the increment added, after the digests of the kernels it fences are chained (R77, R83,
R137). -/
def execTimelineSignalNode (ctx : BitVec 6) (queue : BitVec 4) (node : Nat) (s : State) : Out :=
  let x := ctx.toNat
  let q := queue.toNat
  .next (s.withNode x q node 3 fun e =>
    if s.unchained x q e then s
    else
      let (id, n) := nodeCounter e.body
      (s.advance x id n).completeNode x q node)

/-- SET_LEVEL_NODE: CTXLVL written once every kernel that the queue released before the node has completed (R73); one that
only awaits its digest has completed (R64, R82). -/
def execSetLevelNode (ctx : BitVec 6) (queue : BitVec 4) (node : Nat) (s : State) : Out :=
  let x := ctx.toNat
  let q := queue.toNat
  .next (s.withNode x q node 4 fun e =>
    let live := (s.kernels.filter fun k => k.ctx == ctx && k.queue == q && !k.digesting).map Kernel.kseq
    let left := if e.state = .ready then live else e.drain.filter live.contains
    if left.isEmpty then
      (s.setCtx x { s.ctx x with lvl := BitVec.ofNat 2 (nodeBits e.body 513 512) }).completeNode x q node
    else
      s.mapRun x q fun r =>
        { r with nodes := setAt r.nodes node { e with state := .active, drain := left } })

/-- Vector `v` of every function bound to a context (R344, R346). -/
def State.vector (s : State) (x v : Nat) : State :=
  let fns := s.stew.vfbind.filter fun b => b.2.toNat == x + 64
  { s with out := s.out ++ fns.map fun b => .msix (b.1 / 64) (b.1 % 64) v }

/-- HOST_NOTIFY_NODE: NOTE written and the queue's vector raised, after the digests of the kernels it fences are chained
(R77, R83, R346). -/
def execHostNotifyNode (ctx : BitVec 6) (queue : BitVec 4) (node : Nat) (s : State) : Out :=
  let x := ctx.toNat
  let q := queue.toNat
  .next (s.withNode x q node 5 fun e =>
    if s.unchained x q e then s
    else
      let s := s.mapQueue x q fun u => { u with note := BitVec.ofNat 64 (nodeBits e.body 575 512) }
      (s.vector x q).completeNode x q node)

/-- SUBGRAPH_CALL_NODE: the called graph's nodes made ready, and the call completed when all of them have (R77). -/
def execSubgraphCallNode (ctx : BitVec 6) (queue : BitVec 4) (node : Nat) (s : State) : Out :=
  let x := ctx.toNat
  let q := queue.toNat
  .next (s.withNode x q node 6 fun e =>
    if e.state = .ready then (s.mapRun x q fun r => r.setState node .active).settleGraph
    else
      match ((s.ctx x).queue q).run with
      | some r => if (r.calls node).all fun c => c.state == .completed then s.completeNode x q node else s
      | none => s)

/-- COLLECTIVE_NODE: the collective held in a node checked and begun; a defect fails the node (R254, R425, R436). -/
def execCollectiveNode (ctx : BitVec 6) (queue : BitVec 4) (node : Nat) (s : State) : Out :=
  let x := ctx.toNat
  let q := queue.toNat
  .next (s.withNode x q node 1 fun e =>
    if e.state ≠ .ready then s
    else
      let a := { s.graphAgent x q 7 with sup := false }
      let d := nodeBits e.body 1023 512
      let pool : Pool := { addr := BitVec.ofNat 64 (dPool d), count := none }
      let fail (s : State) (f : FaultInfo) : State := ((s.found f).endNode x q node (some f)).settleGraph
      match s.checkColl a d 0 pool true with
      | (s, .error (.fault f)) => fail s f
      | (s, .error h) => s.graphAsk x q h
      | (s, .ok c) =>
        let (s, id) := s.newWait
        match s.beginColl a c (.node x q node) id with
        | (s, .error (.fault f)) => fail s f
        | (s, .error h) => s.graphAsk x q h
        | (s, .ok ()) =>
          let s := s.mapQueue x q fun u => { u with fetched := [] }
          let here := s.colls.any fun c => decide (c.issuer = .node x q node) && !c.ended
          (if here then s.mapRun x q fun r => r.setState node .active else s).settleGraph)

/-! ## Digests (R82, R83, R428) -/

/-- The kernel of a queue whose output is to be read next: the first to have completed at D2. -/
def State.digestKernel (s : State) (x q : Nat) : Option Kernel :=
  s.kernels.find? fun k => k.digesting && decide (k.ctx.toNat = x) && decide (k.queue = q)

/-- The bytes of a kernel's output regions, in list order (R55, R82). -/
def State.outputBytes (s : State) (a : Agent) (r : BitVec 1024) : State × Except Halt (List Byte) :=
  (List.range (kOutCnt r)).foldl (fun acc k =>
    match acc with
    | (s, .error h) => (s, .error h)
    | (s, .ok bs) =>
      match s.readBytes a (kOutAddr r + BitVec.ofNat 64 (16 * k)) 16 with
      | (s, .error h) => (s, .error h)
      | (s, .ok e) =>
        match s.readBytes a (BitVec.ofNat 64 (ofBytes (e.take 8))) (ofBytes (e.drop 8)) with
        | (s, .error h) => (s, .error h)
        | (s, .ok more) => (s, .ok (bs ++ more))) (s, .ok [])

/-- The fault of a failed output read: poison, or an unmapped page (R428). -/
def digestFault (f : FaultInfo) : FaultInfo :=
  if f.code = 0x0401 then { f with akind := 8 }
  else if f.code = 0x0406 then { f with code := 0x0401, synd := 0, aux := 0, akind := 8 }
  else if f.code = 0x0306 then { f with akind := 8 }
  else { f with code := 0x0306, synd := 0, aux := 0, akind := 8 }

/-- A kernel whose output has been read leaves the graph engine, completed with its digest or failed (R64, R82, R428). -/
def State.endDigest (s : State) (k : Kernel) (d : List Byte) (ok : Bool) : State :=
  let x := k.ctx.toNat
  let q := k.queue
  let s := { s with kernels := s.kernels.filter fun o => !o.is x q k.kseq }
  let s := s.mapQueue x q fun u =>
    let u := { u.link k.kseq (.digest d) with fetched := [], digesting := u.digesting.filter (· != k.kseq) }
    if ok then u.complete k.kseq else u
  (s.mapRun x q fun r =>
    match r.nodeOf k.kseq with
    | some n => r.setState n (if ok then .completed else .failed)
    | none => r).settleGraph

/-- A completed D2 kernel fails at its digest with a record (R428). -/
def State.failDigested (s : State) (k : Kernel) (f : FaultInfo) : State :=
  let x := k.ctx.toNat
  let s := s.kernelRecord x k.queue k.kseq f
  ((s.noteFail x k.queue k.kseq).doomKernel x k.queue k.kseq).endDigest k (failDigest 3) false

/-- DIGEST_COMPUTE: the output regions of a queue's completed D2 kernel read and hashed, unless a read fails or the digest
engine meets an error of its own (R82, R428). -/
def execDigestCompute (ctx : BitVec 6) (queue : BitVec 4) (s : State) : Out :=
  let x := ctx.toNat
  let q := queue.toNat
  match s.digestKernel x q with
  | none => .next s
  | some k =>
    match s.outputBytes (s.graphAgent x q 8) k.record with
    | (s, .ok bs) =>
      if s.digestBad then .next ({ s with digestBad := false }.failDigested k { code := 0x080B, akind := 8 })
      else .next (s.endDigest k (shake256 bs) true)
    | (s, .error (.fault f)) => .next ((s.found f).failDigested k (digestFault f))
    | (s, .error h) => .next (s.graphAsk x q h)

/-- HASH_CHAIN: the digest whose turn it is joins H (R82, R83). -/
def execHashChain (ctx : BitVec 6) (queue : BitVec 4) (s : State) : Out :=
  .next (s.mapQueue ctx.toNat queue.toNat Queue.chainOne)

/-- HASH0_READ: H and HSEQ kept for the reads that follow, and the low word answered (R83). -/
def execHash0Read (ctx : BitVec 6) (queue : BitVec 4) (s : State) : Out :=
  .next (s.readUp fun s =>
    let (v, u) := ((s.ctx ctx.toNat).queue queue.toNat).read 0x18
    (s.mapQueue ctx.toNat queue.toNat fun _ => u, v))

/-! ## Uploads (R347, R427) -/

/-- The notice of a refused upload (R377, R427). -/
def State.refuseUpload (s : State) (x : Nat) (cmd : Word) (port : Nat) : State :=
  s.notice x { code := 0x0807, aux := BitVec.ofNat 64 (cmd.toNat % 2 ^ 16), akind := 9, aidx := port }

/-- Nodes that a GUCMD value uploads. -/
def uploadNodes (cmd : Word) : Nat := bitsOf cmd.toNat 27 16 + 1

/-- Node slots that a context will hold once an image of a graph is replaced, and those of the whole device (R347). An upload
in progress counts in full, and an image that it replaces while a run still needs it (DESIGN CHOICE, log 97). -/
def State.slotsWith (s : State) (x : Nat) (cmd : Word) : Nat × Nat :=
  let c := s.ctx x
  let g : BitVec 16 := cmd.setWidth 16
  let after : Ctx := { c with images := c.images ++ [{ graph := g, serial := c.nextImg + 1, count := uploadNodes cmd }] }
  let coming (c : Ctx) : Nat := ((c.uploads.filter fun u => !u.cmd.getLsbD 28).map fun u => uploadNodes u.cmd).foldl (· + ·) 0
  let mine := after.collect.slots + coming c
  let others := (s.ctxs.filter fun e => e.1 != x).map fun e => e.2.slots + coming e.2
  (mine, mine + others.foldl (· + ·) 0)

/-- An upload or drop accepted in GUCMD write order (R347). -/
def State.acceptUpload (s : State) (x : Nat) : State :=
  let c := s.ctx x
  let u : Upload := { src := c.gusrc, cmd := c.gucmd, serial := c.nextImg + 1, port := c.guPort }
  let c := { c with nextImg := c.nextImg + 1, uploads := c.uploads ++ [u] }
  s.setCtx x c.tidy

/-- The GUCMD value just written begins an upload, or is refused (R347, R427). -/
def State.beginUpload (s : State) (x : Nat) : State :=
  let c := s.ctx x
  let cmd := c.gucmd
  let (mine, all) := s.slotsWith x cmd
  if bitsOf cmd.toNat 63 29 ≠ 0 ∨ c.gusrc.toNat % 512 ≠ 0 ∨ c.gquota < mine ∨ 65536 < all then s.refuseUpload x cmd c.guPort
  else s.acceptUpload x

/-- GRAPH_UPLOAD (R347). -/
def execGraphUpload (ctx : BitVec 6) (s : State) : Out := .next (s.whenUp fun s => s.beginUpload ctx.toNat)

/-- The GUCMD value just written, with DROP, removes a graph once the runs that need it have ended (R347). -/
def State.beginDrop (s : State) (x : Nat) : State :=
  let c := s.ctx x
  if bitsOf c.gucmd.toNat 63 29 ≠ 0 then s.refuseUpload x c.gucmd c.guPort
  else if c.gucmd.getLsbD 28 then s.acceptUpload x
  else s

/-- GRAPH_DROP (R347). -/
def execGraphDrop (ctx : BitVec 6) (s : State) : Out := .next (s.whenUp fun s => s.beginDrop ctx.toNat)

/-- The nodes that bytes hold, 512 bytes each. -/
def nodesOf : Nat → List Byte → Table (BitVec 4096)
  | 0, _ => []
  | n + 1, bs => nodesOf n bs ++ (
    let b := BitVec.ofNat 4096 (ofBytes ((bs.drop (512 * n)).take 512))
    if b = 0 then [] else [(n, b)])

/-- GRAPH_UPLOAD_COMPLETE: the oldest upload's nodes copied into scheduler memory, or the upload refused when they
cannot be read (R347, R427). -/
def execGraphUploadComplete (ctx : BitVec 6) (s : State) : Out :=
  let x := ctx.toNat
  match (s.ctx x).uploads with
  | u :: rest =>
    if u.cmd.getLsbD 28 then .next s
    else
      let n := uploadNodes u.cmd
      let done (s : State) (f : Ctx → Ctx) : State :=
        let c := f { s.ctx x with uploads := rest }
        (s.setCtx x c.tidy).mapQueue x 0 fun q => { q with fetched := [] }
      match s.readBytes { s.graphAgent x 0 9 with sup := true } u.src (512 * n) with
      | (s, .ok bs) =>
        .next (done s fun c => { c with images := c.images ++ [{
          graph := u.cmd.setWidth 16, serial := u.serial, count := n, nodes := nodesOf n bs }] })
      | (s, .error (.fault f)) => .next ((done (s.found f) fun c => c).refuseUpload x u.cmd u.port)
      | (s, .error h) => .next (s.graphAsk x 0 h)
  | [] => .next s

/-! ## The fault queue (R376, R377) -/

/-- FAULT_RECORD_WRITE: the oldest record held for a context written to its fault queue, when that is enabled and has
room; vector 16 when the queue was empty (R377). -/
def execFaultRecordWrite (ctx : BitVec 6) (s : State) : Out :=
  let x := ctx.toNat
  let c := s.ctx x
  match c.held with
  | [] => .next s
  | r :: rest =>
    if !c.fqen || decide (2 ^ c.fqlog ≤ (c.fqtail - c.fqhead).toNat) then .next s
    else
      let gpa := (c.fqbase.toNat / 64 * 64 + 64 * (c.fqtail.toNat % 2 ^ c.fqlog)) % 2 ^ 64
      let s := match s.place gpa with
        | .mem la => s.homeWrite 0 x la (toBytes 64 r.bits.toNat)
        | _ => s
      let s := s.setCtx x { s.ctx x with held := rest, fqtail := c.fqtail + 1 }
      .next (if c.fqhead = c.fqtail then s.vector x 16 else s)

end Sys2Proof.Machine
end

