-- ==== Sys2Proof/Machine/Image.lean ====
section
/-!
DEFINITION. Save images: the parts that R76 lays out, the bytes of each, which parts a save writes, and their restoring
(R74 to R76, R291, R292, R396). Parts whose byte layout the spec does not give hold free bytes.
-/
namespace Sys2Proof.Machine

/-! ## Bytes of stored values -/

/-- The bytes of values of `w` bytes at consecutive places, zero bytes left out. -/
def bytesOfTable (w : Nat) (t : Table Nat) : Table Byte :=
  t.flatMap fun e => ((List.range w).map fun k => (w * e.1 + k, BitVec.ofNat 8 (e.2 / 256 ^ k))).filter fun b => b.2 != 0

/-- The values of `w` bytes that bytes make up; zero values left out. -/
def tableOfBytes (w : Nat) : Table Byte → Table Nat
  | [] => []
  | (k, b) :: t =>
    let v := b.toNat * 256 ^ (k % w)
    match tableOfBytes w t with
    | (j, u) :: r => if j = k / w then (j, u + v) :: r else (k / w, v) :: (j, u) :: r
    | [] => [(k / w, v)]

/-- A table of words as numbers. -/
def natTable {n : Nat} (t : Table (BitVec n)) : Table Nat := t.map fun e => (e.1, e.2.toNat)

/-- A table of numbers as words. -/
def wordTable (n : Nat) (t : Table Nat) : Table (BitVec n) := t.map fun e => (e.1, BitVec.ofNat n e.2)

/-- A byte list from an offset, zero bytes left out. -/
def sparseFrom : Nat → List Byte → Table Byte
  | _, [] => []
  | k, b :: bs => if b = 0 then sparseFrom (k + 1) bs else (k, b) :: sparseFrom (k + 1) bs

/-- A byte list from offset 0, zero bytes left out. -/
def sparse (bs : List Byte) : Table Byte := sparseFrom 0 bs

/-- Bytes moved up by an offset. -/
def moveUp (off : Nat) (t : Table Byte) : Table Byte := t.map fun e => (off + e.1, e.2)

/-- Free bytes of a number, from counter `f` (log 6). -/
def freeBytes (f n : Nat) : Table Byte := sparse ((List.range n).map fun k => Config.freeByte (f + k))

/-! ## Parts (R76) -/

/-- A part of a save image. -/
inductive Part where
  | blank (off size : Nat)
  | scalar (k : Nat)
  | shadows
  | sluices
  | queue (k : Nat)
  | formats
  | restart
  | checker
  | vtile (k : Nat)
  | mtile (k : Nat)
  | acc (k : Nat)
  | weights (shadow : Bool)
  | side (shadow : Bool)
  | sums
  | spad (off size : Nat)
  deriving DecidableEq, Repr

/-- The offset and size of a part (R76, R291). -/
def Part.place : Part → Nat × Nat
  | .blank off size => (off, size)
  | .scalar k => (0x100 + 8 * k, 8)
  | .shadows => (0x300, 64)
  | .sluices => (0x800, 384)
  | .queue k => (0xA80 + 72 * k, 72)
  | .formats => (0xCC0, 136)
  | .restart => (0xE40, 64)
  | .checker => (0x12000, 165120)
  | .vtile k => (0x40000 + 4096 * k, 4096)
  | .mtile k => (0x60000 + 512 * k, 512)
  | .acc k => (0x80000 + 0x10000 * k, 0x10000)
  | .weights b => (if b then 0x110000 else 0x100000, 0x10000)
  | .side b => (if b then 0x128000 else 0x120000, 0x8000)
  | .sums => (0x130000, 0x10000)
  | .spad off size => (0x400000 + off, size)

/-- A queue of words as its image: the entries, then the count at entry `n`. -/
def queueBytes (n : Nat) (q : List Word) : Table Byte :=
  sparse ((q ++ List.replicate (n - q.length) 0 ++ [BitVec.ofNat 64 q.length]).flatMap fun (w : Word) => toBytes 8 w.toNat)

/-- A weight buffer. -/
def Core.buffer (c : Core) (shadow : Bool) : WBuf := if shadow then c.weave.shadow else c.weave.active

/-- A weight buffer changed. -/
def Core.mapBuffer (c : Core) (shadow : Bool) (f : WBuf → WBuf) : Core :=
  if shadow then { c with weave := { c.weave with shadow := f c.weave.shadow } }
  else { c with weave := { c.weave with active := f c.weave.active } }

/-- The weave stream's restart record (R291). -/
def Core.restartBytes (c : Core) : Table Byte :=
  match (c.engine engWeave).started with
  | some st =>
    if st.done then []
    else sparse (toBytes 64 (st.entry.num.toNat + 2 ^ 64 + st.row % 2 ^ 16 * 2 ^ 96))
  | none => []

/-- The checker records in the order of R76: the five write records of a granule, then its read records. -/
def Core.checkerTable (c : Core) : Table Nat :=
  let w := c.checkW.map fun e => (10 * (e.1 / 5) + e.1 % 5, e.2.toNat)
  let r := c.checkR.map fun e => (10 * (e.1 / 5) + 5 + e.1 % 5, e.2.toNat)
  r.foldl (fun t e => Table.set 0 t e.1 e.2) w

/-- The bytes of a part, from the part's own offset 0; `f` is the free counter. -/
def State.partBytes (s : State) (core f : Nat) : Part → Table Byte
  | .blank off size => freeBytes (f + off) size
  | .scalar k => sparse (toBytes 8 (Table.get 0 (s.core core).regs.s k).toNat)
  | .shadows => bytesOfTable 8 (natTable (s.core core).regs.h)
  | .sluices => sparse ((List.range 48).flatMap fun k => toBytes 8 (s.slst core k).toNat)
  | .queue k => queueBytes 8 ((s.core core).queueReg k)
  | .formats => queueBytes 16 (s.core core).fmtq
  | .restart => (s.core core).restartBytes
  | .checker => bytesOfTable 4 (s.core core).checkerTable
  | .vtile k => sparse (toBytes 4096 (Table.get 0 (s.core core).tiles k).toNat)
  | .mtile k => sparse (toBytes 512 (Table.get 0 (s.core core).masks k).toNat)
  | .acc k => bytesOfTable 4 (Table.takeRange (16384 * k) 16384 0 (natTable (s.core core).weave.acc))
  | .weights b => bytesOfTable 4 (natTable ((s.core core).buffer b).cells)
  | .side b =>
    let u := (s.core core).buffer b
    sparse (toBytes 8 u.word.toNat) ++ moveUp 0x100 u.scales ++ moveUp 0x1000 u.indices
  | .sums => bytesOfTable 4 (natTable (s.core core).weave.sums)
  | .spad off size => Table.takeRange off size 0 (s.core core).spad

/-- The words of a queue's image: as many as its count word says. -/
def queueOfBytes (n : Nat) (t : Table Byte) : List Word :=
  let w := tableOfBytes 8 t
  (List.range (min n (Table.get 0 w n))).map fun k => BitVec.ofNat 64 (Table.get 0 w k)

/-- A sluice's word placed back; a barrier's count, arrivals and phase stay with its barrier unit (R125, R129). -/
def Sluice.ofWord (l : Sluice) (w : Nat) : Sluice :=
  if bitsOf w 32 32 = 1 then { l with barrier := true, ceil := BitVec.ofNat 16 (bitsOf w 31 16), gen := BitVec.ofNat 10 (bitsOf w 42 33) }
  else { l with
    barrier := false, count := BitVec.ofNat 16 w, ceil := BitVec.ofNat 16 (bitsOf w 31 16)
    gen := BitVec.ofNat 10 (bitsOf w 42 33), arrive := BitVec.ofNat 10 (bitsOf w 52 43)
    phase := BitVec.ofNat 10 (bitsOf w 62 53) }

/-- The weave stream's stopped command set to go on at the row that its restart record gives (R291). -/
def Core.loadRestart (c : Core) (t : Table Byte) : Core :=
  let w := Table.get 0 (tableOfBytes 64 t) 0
  let g := c.engine engWeave
  let restarted (st : Started) : Started :=
    if bitsOf w 71 64 = 1 ∧ bitsOf w 63 0 = st.entry.num.toNat then { st with row := bitsOf w 111 96 } else st
  c.setEngine engWeave { g with started := g.started.map restarted }

/-- A core with a part taken from its image's bytes. Parts of no stated layout come from the machine's own copy. -/
def Core.loadPart (c : Core) (p : Part) (t : Table Byte) : Core :=
  match p with
  | .blank _ _ => c
  | .restart => c.loadRestart t
  | .scalar k => { c with regs := { c.regs with s := Table.set 0 c.regs.s k (BitVec.ofNat 64 (Table.get 0 (tableOfBytes 8 t) 0)) } }
  | .shadows => { c with regs := { c.regs with h := wordTable 64 (tableOfBytes 8 t) } }
  | .sluices =>
    let w := tableOfBytes 8 t
    (List.range 48).foldl (fun c k => c.setSluice k ((c.sluice k).ofWord (Table.get 0 w k))) c
  | .queue k => c.setQueueReg k (queueOfBytes 8 t)
  | .formats => { c with fmtq := queueOfBytes 16 t }
  | .checker =>
    let w := tableOfBytes 4 t
    { c with
      checkW := (w.filter fun e => e.1 % 10 < 5).map fun e => (5 * (e.1 / 10) + e.1 % 10, BitVec.ofNat 32 e.2)
      checkR := (w.filter fun e => 5 ≤ e.1 % 10).map fun e => (5 * (e.1 / 10) + e.1 % 10 - 5, BitVec.ofNat 32 e.2) }
  | .vtile k => { c with tiles := Table.set 0 c.tiles k (BitVec.ofNat 32768 (Table.get 0 (tableOfBytes 4096 t) 0)) }
  | .mtile k => { c with masks := Table.set 0 c.masks k (BitVec.ofNat 4096 (Table.get 0 (tableOfBytes 512 t) 0)) }
  | .acc k =>
    let a := wordTable 32 (tableOfBytes 4 t)
    { c with weave := { c.weave with acc := Table.blit c.weave.acc (16384 * k) a 0 16384 } }
  | .weights b => c.mapBuffer b fun u => { u with cells := wordTable 32 (tableOfBytes 4 t) }
  | .side b => c.mapBuffer b fun u => { u with
      word := BitVec.ofNat 64 (Table.get 0 (tableOfBytes 8 t) 0), scales := Table.takeRange 0x100 128 0 t
      indices := Table.takeRange 0x1000 16384 0 t }
  | .sums => { c with weave := { c.weave with sums := wordTable 32 (tableOfBytes 4 t) } }
  | .spad off size => { c with spad := Table.blit c.spad off t 0 size }

/-! ## Which parts a save writes (R75, R76, R292) -/

/-- The weave state that a command names (R292): accumulators, active weights, shadow weights, cell sums. -/
def weaveNames (i : Instr) : List Nat × Bool × Bool × Bool :=
  match i with
  | .wmm e | .wmms e => ([e.ext.toNat % 8], true, true, false)
  | .wmmt e | .wmmst e => ((List.range 8).filter (fun k => decide (e.ext.toNat % 8 ≤ k)), true, true, false)
  | .wprom e | .wacc e | .wmva e => ([e.ext.toNat % 8], false, false, false)
  | .wdrain e => ([e.ext.toNat % 8], false, false, true)
  | .waclr e => if e.x = 0 then ([e.ext.toNat % 8], false, false, false) else ([], false, false, true)
  | .wopa _ => ([], false, false, true)
  | .wopas _ => ([], true, false, true)
  | .wswap _ => ([], true, true, false)
  | .wld _ | .wlds _ => ([], false, true, false)
  | .wread e => ([], e.x.getLsbD 0 = false, e.x.getLsbD 0, false)
  | _ => ([], false, false, false)

/-- The weave commands stopped or queued on a core. -/
def Core.weaveLeft (c : Core) : List Instr :=
  let g := c.engine engWeave
  (g.started.toList.map fun t => t.entry.instr) ++ g.queue.map QEntry.instr

/-- The regions of the scratchpad that a live-map entry names, cut at the scratchpad's end (R75). -/
def liveRegions (m : Nat) : List Part :=
  let one (valid off : Nat) : List Part :=
    if bitsOf m valid valid = 0 then []
    else
      let lo := 64 * bitsOf m (off + 15) off % 2 ^ 22
      let n := min (2 ^ 22) (64 * (bitsOf m (off + 31) (off + 16) + 1))
      if lo + n ≤ 2 ^ 22 then [.spad lo n] else [.spad lo (2 ^ 22 - lo), .spad 0 (lo + n - 2 ^ 22)]
  one 140 144 ++ one 141 176

/-- The parts that every save writes (R76). -/
def partsAlways : List Part :=
  [.blank 0 0x100, .shadows, .blank 0x340 192, .blank 0x400 0x400, .sluices, .blank 0x980 256, .blank 0xE00 64, .restart,
    .blank 0xE80 128, .blank 0x1000 0x2000]

/-- The parts written at D1 and D2. -/
def partsOrder : List Part := [.blank 0x3000 0xF000, .checker]

/-- Every part (R76). -/
def partsAll : List Part :=
  partsAlways ++ partsOrder ++ (List.range 64).map .scalar ++ (List.range 8).map .queue ++ [.formats] ++
    (List.range 32).map .vtile ++ (List.range 8).map .mtile ++ (List.range 8).map .acc ++
    [.weights false, .weights true, .side false, .side true, .sums, .spad 0 (2 ^ 22)]

/-- The parts that a save at a safe point writes: those always saved, those that live-map entry `m` names, and the weave
state that a stopped or queued command names (R75, R76, R292). -/
def Core.partsLive (c : Core) (m : Nat) : List Part :=
  let bit (k : Nat) : Bool := m.testBit k
  let names := c.weaveLeft.map weaveNames
  let act := bit 137 || names.any fun n => n.2.1
  let shd := bit 138 || names.any fun n => n.2.2.1
  partsAlways ++ (if c.determinate then partsOrder else []) ++
    ((List.range 64).filter bit).map .scalar ++
    ((List.range 8).filter fun k => bit (128 + k)).map .queue ++ (if bit 136 then [.formats] else []) ++
    ((List.range 32).filter fun k => bit (80 + k)).map .vtile ++
    ((List.range 8).filter fun k => bit (112 + k)).map .mtile ++
    ((List.range 8).filter fun k => bit (120 + k) || names.any fun n => n.1.contains k).map .acc ++
    (if act then [.weights false, .side false] else []) ++ (if shd then [.weights true, .side true] else []) ++
    (if bit 139 || names.any (fun n => n.2.2.2) then [.sums] else []) ++ liveRegions m

/-- The scratchpad bytes that some parts keep. -/
def keepSpad (ps : List Part) (t : Table Byte) : Table Byte :=
  t.filter fun e => ps.any fun p => match p with | .spad off size => decide (off ≤ e.1 ∧ e.1 < off + size) | _ => false

/-- Whether some saved parts hold an uncorrectable error of a core's state, by its code and place (`Core.softHit`); the
engine queues and sluices are always saved (R76, R408). -/
def keepSoft (ps : List Part) (e : Nat × Nat) : Bool :=
  match e.1 with
  | 1 => ps.any fun p => match p with | .spad off size => decide (off ≤ 8 * e.2 ∧ 8 * e.2 < off + size) | _ => false
  | 2 => ps.contains (if e.2 < 32 then .vtile e.2 else .mtile (e.2 - 32))
  | 3 => if e.2 < 8 then ps.contains (.queue e.2) else e.2 != softFmt || ps.contains .formats
  | 4 => ps.contains (if e.2 / 16384 < 8 then .acc (e.2 / 16384) else .sums)
  | 5 => ps.contains (.weights false)
  | 6 => ps.contains (.weights true)
  | _ => true

/-- A core with everything zero, and without errors, that a save at a safe point leaves out, as at task start (R75). -/
def Core.dropDead (c : Core) (ps : List Part) (m : Nat) : Core :=
  let has (p : Part) : Bool := ps.contains p
  let keepBuf (b : Bool) (u : WBuf) : WBuf := if has (.weights b) then u else {}
  let r := c.regs
  let regs := { r with
    s := r.s.filter fun e => m.testBit e.1
    p := r.p &&& (BitVec.ofNat 16 (m / 2 ^ 64) ||| 1) }
  let wv := c.weave
  let weave : Weave := {
    active := keepBuf false wv.active, shadow := keepBuf true wv.shadow
    acc := wv.acc.filter fun e => has (.acc (e.1 / 16384))
    sums := if has .sums then wv.sums else [] }
  { c with
    regs := regs, weave := weave
    queues := c.queues.filter fun e => has (.queue e.1)
    fmtq := if has .formats then c.fmtq else []
    tiles := c.tiles.filter fun e => has (.vtile e.1)
    masks := c.masks.filter fun e => has (.mtile e.1)
    spad := keepSpad ps c.spad
    soft := c.soft.filter (keepSoft ps) }

/-! ## Writing and reading an image (R76, R396, R465) -/

/-- The byte ranges of parts in ascending order, touching ranges joined. -/
def partRanges (ps : List Part) : List (Nat × Nat) :=
  let rec put (a : Nat × Nat) : List (Nat × Nat) → List (Nat × Nat)
    | [] => [a]
    | b :: bs => if b.1 < a.1 then b :: put a bs else a :: b :: bs
  let sorted := (ps.map Part.place).foldr put []
  sorted.foldr (fun a acc =>
    match acc with
    | b :: bs => if b.1 ≤ a.1 + a.2 then (a.1, max (a.1 + a.2) (b.1 + b.2) - a.1) :: bs else a :: b :: bs
    | [] => [a]) []

/-- The base of a core's save image (R76). -/
def State.imageBase (s : State) (x core : Nat) : Word := (s.ctx x).saveBase + BitVec.ofNat 64 (0x800000 * core)

/-- The agent that saves and restores task images: it acts for the supervisor (R465). -/
def State.saver (_s : State) (x core : Nat) : Agent :=
  { ctx := x, akind := 7, die := some (core / 64), sup := true, got := [], issuer := none }

/-- A piece of an image on one page: its offset, its length and its page. -/
structure ImagePiece where
  off : Nat
  len : Nat
  va : Word
  page : Page
  deriving DecidableEq, Repr

/-- The first byte of a piece that lies in a poisoned unit which the piece does not cover whole (R396, R410). -/
def State.pieceStuck (s : State) (p : ImagePiece) : Option Word :=
  match s.place p.page.gpa with
  | .mem la =>
    let ends := (blocksOf 32 la p.len).filter fun b =>
      (decide (32 * b < la) || decide (la + p.len < 32 * b + 32)) && decide (2 ≤ s.mark (s.memr.resolve (32 * b)))
    ends.head?.map fun b => p.va + BitVec.ofNat 64 (32 * b - la)
  | _ => none

/-- The pages of an image's ranges; or the fault of the first byte that cannot be accessed: its translation fails, its
place is no memory, or a write of it would leave poison (R396, R465). -/
def State.imagePieces (s : State) (a : Agent) (need : Need) (base : Word) (rs : List (Nat × Nat)) :
    State × Except FaultInfo (List ImagePiece) :=
  (rs.flatMap fun r => piecesOf (2 ^ 16) r.1 r.2).foldl (fun acc p =>
    match acc with
    | (s, .error e) => (s, .error e)
    | (s, .ok is) =>
      let va := base + BitVec.ofNat 64 p.1
      match s.translate a need va (noPolder a va 0) with
      | (s, .error f) => (s, .error { f with addr := va })
      | (s, .ok q) =>
        let piece : ImagePiece := { off := p.1, len := p.2, va := va, page := q }
        match s.place q.gpa with
        | .mem _ | .peer _ =>
          match (if need.wr then s.pieceStuck piece else none) with
          | some v => (s, .error (a.flt 0x0402 v))
          | none => (s, .ok (is ++ [piece]))
        | _ => (s, .error (a.flt 0x0306 va (a.synd need.acc 4) (BitVec.ofNat 64 q.gpa)))) (s, .ok [])

/-- One piece of an image written at its home, or sent to its peer. -/
def State.writePiece (s : State) (a : Agent) (p : ImagePiece) (t : Table Byte) : State :=
  match s.place p.page.gpa with
  | .mem la =>
    -- the transfer takes no place in the memory-side cache (log 71)
    let attr : Word := p.page.lo &&& ~~~(0x300 : Word) ||| 0x200
    let s := (piecesOf 256 la p.len).foldl (fun s g => 
      s.readyGranule attr g.1 g.2 (some { ctx := BitVec.ofNat 6 a.ctx, mask := rangeMask g.1 g.2, stamp := s.now })) s
    let bs := Table.canon 0 (Table.takeRange p.off p.len 0 t)
    let cut := if s.memr.migs.isEmpty then [(la, p.len)] else piecesOf 256 la p.len
    cut.foldl (fun s c =>
      let at' := s.memr.resolve c.1
      let whole (u : Nat) : Bool := decide (at' ≤ 32 * u) && decide (32 * u + 32 ≤ at' + c.2)
      { s with
        mem := Table.blit s.mem at' bs (c.1 - la) c.2
        merr := s.merr.filter fun e => !whole e.1 }) s
  | pl => (s.put a (.node a.ctx 0 0) { va := p.va, place := pl, gpa := p.page.gpa, lo := p.page.lo
                                       bytes := (Table.getList 0 t p.off p.len).map some }).1

/-- The bytes of a piece read back, or the fault of poison; nothing of a piece that lies at a peer (log 27). -/
def State.readPiece (s : State) (a : Agent) (p : ImagePiece) : State × Except FaultInfo (Option (Table Byte)) :=
  match s.place p.page.gpa with
  | .mem la =>
    match s.homeRead p.page.lo la p.len with
    | (s, .ok _) =>
      let cut := if s.memr.migs.isEmpty then [(la, p.len)] else piecesOf 256 la p.len
      (s, .ok (some (cut.flatMap fun c => Table.takeRange (s.memr.resolve c.1) c.2 (p.off + (c.1 - la)) s.mem)))
    | (s, .error b) => (s, .error (s.poisonFault a 0x0401 (p.va + BitVec.ofNat 64 (b - la)) b))
  | _ => (s, .ok none)

/-- A save image written for a core (R76, R396): every page first checked, then every byte; or the first byte that
failed. -/
def State.writeImage (s : State) (x core : Nat) (ps : List Part) : State × Option Word :=
  let a := s.saver x core
  match s.imagePieces a Need.write (s.imageBase x core) (partRanges ps) with
  | (s, .error f) => (s, some f.addr)
  | (s, .ok is) =>
    let t := ps.foldl (fun t p =>
      let (off, size) := p.place
      Table.blit t off (s.partBytes core s.fresh p) 0 size) []
    (is.foldl (fun s p => s.writePiece a p t) { s with fresh := s.fresh + 0x12000 }, none)

/-- The bytes of an image's pieces; none when one of them lies at a peer. -/
def State.readPieces (s : State) (a : Agent) : List ImagePiece → State × Except FaultInfo (Option (Table Byte))
  | [] => (s, .ok (some []))
  | p :: ps =>
    match s.readPiece a p with
    | (s, .error f) => (s, .error f)
    | (s, .ok t) =>
      match State.readPieces s a ps with
      | (s, .ok u) => (s, .ok (t.bind fun t => u.map (t ++ ·)))
      | r => r

/-- The state that a core's image restores, part by part (R76), or the fault of a byte that a leaf refuses or that is
poisoned (R410, R465). A part that lies at a peer comes from the machine's own copy (log 27). -/
def State.readImage (s : State) (x core : Nat) (c : Core) : List Part → State × Except FaultInfo Core
  | [] => (s, .ok c)
  | .blank _ _ :: ps => State.readImage s x core c ps
  | p :: ps =>
    let a := s.saver x core
    match s.imagePieces a Need.read (s.imageBase x core) [p.place] with
    | (s, .error f) => (s, .error f)
    | (s, .ok is) =>
      match s.readPieces a is with
      | (s, .error f) => (s, .error f)
      | (s, .ok t) =>
        let c := match t with
          | some t => c.loadPart p (t.map fun e => (e.1 - p.place.1, e.2))
          | none => c
        State.readImage s x core c ps

end Sys2Proof.Machine
end

