-- ==== Sys2Proof/Machine/TaskEvents.lean ====
section
/-!
DEFINITION. The steps of the die schedulers and of a task's life: start, gangs, draining, retiring, stopping on a fault,
pre-emption, resuming and discarding (R60 to R66, R74 to R81, R378 to R383, R395, R396, R430 to R432).
-/
namespace Sys2Proof.Machine

/-! ## Starting (R62, R65, R66, R431, R432) -/

/-- TASK_START: the die scheduler's first candidate started on this core, when it is a task and this its core (R58,
R62, R80). -/
def execTaskStart (core : BitVec 8) (s : State) : Out :=
  let die := core.toNat / 64
  match s.choice die with
  | some (.task k n, c) =>
    if c = core.toNat then
      let s := s.startTask c k n 0 0 0
      .next (s.mapKernel k.ctx.toNat k.queue k.kseq fun k => { k with
        next := Table.set 0 k.next (k.lane die) (n + 1), home := if k.hasDies then none else some die })
    else .next s
  | _ => .next s

/-- A gang that no die can hold fails its kernel with 0x0805 (R432). -/
def State.failHopeless (s : State) (die : Nat) : State :=
  match (s.gangsFor die).find? (s.gangHopeless die) with
  | none => s
  | some k =>
    let f : FaultInfo := { code := 0x0805, synd := BitVec.ofNat 64 (k.gangDies die).length, akind := 7 }
    let s := s.kernelRecord k.ctx.toNat k.queue k.kseq f
    ((s.failKernel k.ctx.toNat k.queue k.kseq).reserveCores die).settleGraph

/-- The gang that a die would place now. -/
def State.gangChoice (s : State) (die : Nat) : Option Kernel :=
  match s.choice die with
  | some (.gang k, _) => some k
  | _ => none

/-- GANG_PLACE: the die scheduler's first candidate placed, when it is a gang that has not run (R65); a gang that no
eligible die can hold fails its kernel (R432). -/
def execGangPlace (die : BitVec 2) (s : State) : Out :=
  let d := die.toNat
  match s.gangChoice d with
  | some k => if k.relaunch.contains (k.lane d) then .next s else .next (s.placeGang d k)
  | none => .next (s.failHopeless d)

/-- GANG_RELAUNCH: an aborted gang of a node's kernel placed again once nothing of it is left at work (R431). -/
def execGangRelaunch (ctx : BitVec 6) (queue : BitVec 4) (node : Nat) (s : State) : Out :=
  let go (d : Nat) : Option (Nat × Kernel) :=
    (s.gangChoice d).bind fun k =>
      if k.relaunch.contains (k.lane d) ∧ k.ctx = ctx ∧ k.queue = queue.toNat ∧ k.node = node then some (d, k) else none
  match [0, 1, 2, 3].findSome? go with
  | some (d, k) => .next (s.placeGang d k)
  | none => .next s

/-- GANG_RESERVE: the gang that is first in a die's selection order and has waited RESV cycles gets the die's free
cores reserved (R66). -/
def execGangReserve (die : BitVec 2) (s : State) : Out :=
  let d := die.toNat
  match s.cands d with
  | (_, .gang k) :: _ =>
    let placed := decide (k.count d ≤ (s.gangFree d k).length)
    let taken := (s.reserving d).isSome || [0, 1, 2, 3].any fun e => s.reservesFor e k
    if placed ∨ taken ∨ s.now - k.readyAt < kResv k.record ∨ s.reservingDie d k ≠ d then .next s
    else
      let s := { s with gangReserve := Table.set none s.gangReserve d (some (k.ctx, k.queue, k.kseq)) }
      .next (s.reserveCores d)
  | _ => .next s

/-! ## Leaving the running slot -/

/-- A core without a task in its running slot: what the task owned is gone, what the core owns stays. A running task loses its
core here alone: on EXIT, on a save, or when it stops (R67). -/
def Core.vacate (c : Core) : Core :=
  { draining := c.draining, l1d := c.l1d, l1i := c.l1i, lastKernel := c.lastKernel, tlb := c.tlb, soft := c.soft
    reserved := c.reserved, frozen := c.frozen }

/-- The running slot of a core freed; its die may reserve it (R66). -/
def State.vacate (s : State) (core : Nat) : State :=
  (s.setCore core (s.core core).vacate).reserveCores (core / 64)

/-- A task of a kernel counted retired or aborted (R64, R425). -/
def State.leaveKernel (s : State) (t : Task) : State :=
  (s.mapKernel t.ctx.toNat t.queue t.kseq fun k => { k with live := k.live - 1 }).settleGraph

/-- Whether an engine has no command left whose effects are to come: none queued, none at work unfinished; and no
signal form left to take (R63, R168). -/
def Engine.localDone (g : Engine) : Bool :=
  (g.queue.all fun q => q.num == 0 && match q.instr with
    | .asls .. | .wsls .. | .vsls .. | .lsls .. => false
    | _ => true) && (match g.started with | some t => t.done && t.fault.isNone | none => true)

/-- Whether a command in flight still has to complete on the core: a flag of it traps, or it signals a barrier (R129,
R386). -/
def State.staysFor (s : State) (core : Nat) (t : Started) : Bool :=
  let c := s.core core
  let x := (c.ctx?.map BitVec.toNat).getD 0
  (t.flags &&& (s.ctx x).trapEn != 0) || t.endFault.isSome || t.fault.isSome ||
    match t.entry.signal with
    | some (k, n) => n != 0 && (c.sluice k).barrier
    | none => false

/-- The commands of a core whose effects are made and that are not complete. -/
def Core.inFlight (c : Core) : List (Nat × Started) :=
  [0, 1, 2, 3].flatMap fun e => ((c.engine e).flight ++ (c.engine e).started.toList).map fun t => (e, t)

/-- The work of an exiting task that memory has not acknowledged (R63). -/
def Core.outstanding (c : Core) : List Outstanding :=
  let cs := c.inFlight.map fun e =>
    ({ stream := e.1 + 1, num := e.2.entry.num, homeAck := e.2.homeAck, tags := e.2.tags, waits := e.2.waits } : Outstanding)
  cs ++ [{ stream := 0, num := 0, homeAck := c.posted, tags := c.postedTags }]

/-- TASK_ENTER_DRAINING: an exiting task that has completed locally moves to the draining slot once that is free; its
posted stores still dirty in the L1 data cache go home, and draining awaits their acknowledgement (R63, log 9). The
core's arm table is emptied with this move: until then its arms still fire (R135, DESIGN CHOICE, log 82). -/
def execTaskEnterDraining (core : BitVec 8) (s : State) : Out :=
  let k := core.toNat
  let c := s.core k
  match c.task with
  | none => .next s
  | some t =>
    let ready := c.exiting && c.active && c.stopping == .no && c.draining.isNone && [0, 1, 2, 3].all (fun e => (c.engine e).localDone) &&
      c.inFlight.all fun e => !s.staysFor k e.2
    if !ready then .next s
    else
      let s := s.writeBackAll k
      let d := s.core k
      let s := s.setCore k { d with draining := some { task := t, work := d.outstanding } }
      .next (s.vacate k)

/-- Whether a piece of outstanding work is acknowledged. -/
def Outstanding.done (w : Outstanding) : Bool := !w.homeAck && w.tags.isEmpty && w.waits.isEmpty

/-- TASK_RETIRE: a draining task whose work is all acknowledged retires (R63, R64). -/
def execTaskRetire (core : BitVec 8) (s : State) : Out :=
  let k := core.toNat
  let c := s.core k
  match c.draining with
  | none => .next s
  | some d =>
    if d.work.all Outstanding.done && !c.frozen then
      .next ((s.setCore k { c with draining := none }).leaveKernel d.task)
    else .next s

/-! ## Stopping (R74, R379, R395) -/

/-- Whether requests of a core's running task are unanswered: those of its streams but not of its draining task. -/
def State.asking (s : State) (core : Nat) : Bool :=
  let old := (((s.core core).draining.map Draining.work).getD []).flatMap Outstanding.tags
  s.fab.requests.any fun r =>
    match r.issuer with
    | .stream k _ => k == core && !old.contains r.tag
    | _ => false

/-- Whether a wait is a collective's that has every delivery of this device acknowledged: a stop or a save does not await
its counters (R440, R451). -/
def State.collWaits (s : State) (id : Nat) : Bool :=
  s.colls.any fun c => c.wait == id && c.tags.isEmpty && match c.issuer with | .stream .. => true | _ => false

/-- Whether PREDL cycles have passed since a core's pre-emption request (R74). -/
def State.overdue (s : State) (core : Nat) : Bool :=
  let c := s.core core
  match c.task, c.preemptAt with
  | some t, some at' => decide ((s.ctx t.ctx.toNat).predl.toNat ≤ s.now - at')
  | _, _ => false

/-- Whether everything that a stopping task has issued is acknowledged, its commands stand at their restart points or are
complete, and its control stream stands still (R74, R379). At a safe point a command that waits without restart rows holds
the save off until PREDL has passed; then it counts as stopped, as in a full save (R395, R440, log 85). -/
def State.settled (s : State) (core : Nat) : Bool :=
  let c := s.core core
  let quiet (e : Nat) : Bool :=
    let g := c.engine e
    let all := g.flight ++ g.started.toList
    (all.all fun t => !t.homeAck && t.tags.isEmpty && (t.waits.all s.collWaits || t.fault.isSome)) &&
      !((all.head?.map Started.complete).getD false) &&
      (c.stopping != .safePoint || c.pend.isSome || s.overdue core || all.all fun t => t.restarts && !t.done)
  !c.frozen && c.blocked != some .hold && !c.posted && c.comb.isNone && !s.asking core && [0, 1, 2, 3].all quiet

/-- A command as the image holds it: a fault that arises again by itself is gone, a late one stays, so that the command never
completes (R381). -/
def Started.parked (t : Started) : Started :=
  { t with fault := t.fault.bind fun f => if f.late then some f else none }

/-- An engine as its image holds it: a waiting LWAITC, an LBAR before its add and a TLDB before its match stand again
at the head of their queue, their wait taken; a stopped command will run again from its row (R381, R395, R420). -/
def Engine.parked (g : Engine) : Engine :=
  let g := { g with fetched := [], flight := g.flight.map Started.parked }
  match g.started with
  | none => g
  | some t =>
    let back := match t.entry.instr with
      | .lwaitc _ => !t.done
      | .lbar _ => t.phase == 0 && !t.done
      | .tldb _ => decide (t.phase < 2) && !t.done
      | _ => false
    if back then { g with started := none, queue := { t.entry with waited := true } :: g.queue }
    else { g with started := some t.parked }

/-- The state of a stopped task as its image holds it: nothing pending, its control stream at the boundary where it
stands (R379, R395). Uncorrectable errors of its state stay with it: no save makes a struck word or weight good (R408,
log 96). -/
def Core.parked (c : Core) : Core :=
  let c := [0, 1, 2, 3].foldl (fun c e => c.setEngine e (c.engine e).parked) c
  { c with
    pend := none, more := false, stopping := .no, blocked := none, held := [], snap := none, npc := none
    exiting := false, preemptAt := none, flagsRaised := 0, posted := false, postedTags := [], draining := none
    l1d := [], l1i := [], tlb := [], reserved := none, lastKernel := none }

/-- The members of a gang that still await their 0x0804 record, with the core of a running one (R430). -/
def State.awaitAbort (s : State) (x gang : Nat) : List (Nat × Option Nat) :=
  let aborted (c : Core) : Bool := match c.pend with | some f => f.code == 0x0804 | none => false
  let run := (s.gangCores gang).filterMap fun k =>
    if aborted (s.core k) then some (((s.core k).task.map Task.member).getD 0, some k) else none
  let kept := (s.ctx x).saved.filterMap fun v =>
    if gang != 0 && v.state.gang == gang && aborted v.state then some ((v.state.task.map Task.member).getD 0, none) else none
  run ++ kept

/-- The records of gang members that were saved when their gang aborted, as far as no running member of a lower index
comes first (R430, R431). -/
def State.abortSaved (s : State) (x gang : Nat) : Nat → State
  | 0 => s
  | n + 1 =>
    let ws := s.awaitAbort x gang
    match leastOf (ws.map Prod.fst) with
    | none => s
    | some m =>
      if ws.any fun w => w.1 == m && w.2.isSome then s
      else
        match (s.ctx x).saved.find? fun v => v.state.gang == gang && ((v.state.task.map Task.member) == some m) with
        | none => s
        | some v =>
          match v.state.task, v.state.pend with
          | some t, some f =>
            let fseq := (s.ctx x).fqnext
            let again := s.relaunching t
            let s := s.taskRecord v.core t f false false
            let c := s.ctx x
            let stay (o : SavedTask) : SavedTask :=
              if o = v then { o with state := { o.state with pend := none }, faulted := true, res := false, fseq := fseq }
              else o
            let s := s.setCtx x { c with saved := if again then c.saved.filter (· != v) else c.saved.map stay }
            let s := if again then s.leaveKernel t else s
            State.abortSaved s x gang n
          | _, _ => s

/-- A stop ended: the image written, the record kept, the slot freed; a task whose image cannot be written is lost
(R379, R396, R418, R430, R431). -/
def State.stopTask (s : State) (core : Nat) (t : Task) (f : FaultInfo) : State :=
  let c := s.core core
  let x := t.ctx.toNat
  let state := c.parked
  let (s, bad) := (s.setCore core { c with pend := none }).writeImage x core partsAll
  let fseq := (s.ctx x).fqnext
  let f' : FaultInfo := match bad with
    | some va => { code := 0x0801, addr := va }
    | none => f
  let s := s.taskRecord core t f' c.more false
  let again := t.gang != 0 && s.relaunching t
  let s := s.vacate core
  let s :=
    if bad.isSome || again then s.leaveKernel t
    else
      let d := s.ctx x
      s.setCtx x { d with saved := d.saved ++ [{ core := core, state := state, fseq := fseq, res := f'.res, faulted := true }] }
  s.settleGraph

/-- The records of every saved member whose gang has aborted, where their turn has come (R430). -/
def State.settleAborts (s : State) : State :=
  s.ctxs.foldl (fun s e =>
    e.2.saved.foldl (fun s v => if v.state.pend.isSome && v.state.gang != 0 then s.abortSaved e.1 v.state.gang 64 else s) s) s

/-- Every die's reserved cores looked at again (R66). -/
def State.settleReserves (s : State) : State := s.gangReserve.foldl (fun s e => s.reserveCores e.1) s

/-- Whether the 0x0804 record of a lower member has still to come (R430). -/
def State.abortTurn (s : State) (t : Task) (f : FaultInfo) : Bool :=
  f.code != 0x0804 || !(s.awaitAbort t.ctx.toNat t.gang).any fun w => decide (w.1 < t.member)

/-- TASK_STOP: the task that a fault stops, with its dirty bytes written back and everything it issued acknowledged, is
saved in full and recorded (R379, R418). -/
def execTaskStop (core : BitVec 8) (s : State) : Out :=
  let k := core.toNat
  let c := s.core k
  match c.task, c.pend with
  | some t, some f =>
    if !s.settled k || !s.abortTurn t f then .next s
    else
      let s := s.writeBackAll k
      let d := s.core k
      if d.postedTags.isEmpty then .next ((s.setCore k { d with posted := false }).stopTask k t f)
      else .next s
  | _, _ => .next s

/-! ## Pre-emption (R74, R81) -/

/-- A pre-emption request to a core's running task. -/
def State.requestPreempt (s : State) (core : Nat) : State :=
  let c := s.core core
  if c.task.isSome ∧ c.preemptAt.isNone ∧ c.stopping = .no then s.setCore core { c with preemptAt := some s.now } else s

/-- A write of PREEMPT: 1 requests pre-emption of all the context's running tasks (R74, R81). -/
def State.writePreempt (s : State) (x : Nat) (value : Word) : State :=
  let s := s.setCtx x { s.ctx x with preempt := value }
  if value = 1 then ((List.range 256).filter fun k => (s.core k).runs x).foldl State.requestPreempt s else s

/-- PREEMPT_WRITE (R74, R81). -/
def execPreemptWrite (ctx : BitVec 6) (value : Word) (s : State) : Out := .next (s.whenUp fun s => s.writePreempt ctx.toNat value)

/-- Whether a candidate is of another context. -/
def Cand.foreign (x : Nat) : Cand → Bool
  | .task k _ => k.ctx.toNat != x
  | .gang k => k.ctx.toNat != x
  | .saved t => (t.state.ctx?.map BitVec.toNat) != some x

/-- SLICE_EXPIRY: a task that has held its core for SLICE cycles, while a ready task of another context waits for the
die, is asked to leave (R81). -/
def execSliceExpiry (core : BitVec 8) (s : State) : Out :=
  let k := core.toNat
  match (s.core k).task with
  | none => .next s
  | some t =>
    let slice := (s.ctx t.ctx.toNat).slice
    if slice ≠ 0 ∧ slice.toNat ≤ s.now - t.since ∧ (s.cands (k / 64)).any (fun c => c.2.foreign t.ctx.toNat) then
      .next (s.requestPreempt k)
    else .next s

/-- Whether a control stream stalls at a full queue while nothing of its core is at work: every command there waits for a
push, a counter, a barrier or a collective, and nothing awaits an answer. Only slots not yet dispatched, or another agent,
can then relieve it; R397 lets pre-emption act (R157, R397). -/
def State.stalled (s : State) (core : Nat) : Bool :=
  let c := s.core core
  let idle (t : Started) : Bool :=
    !t.homeAck && t.tags.isEmpty && if t.done then !t.waits.isEmpty && t.waits.all s.collWaits else !t.restarts
  c.blocked == some .queueFull && !s.asking core && [0, 1, 2, 3].all fun e =>
    ((c.engine e).flight ++ (c.engine e).started.toList).all idle

/-- Whether PREDL cycles have passed since a core's pre-emption request, with no safe point taken, and its control stream
stands at a bundle boundary (R74, R158), or stalls for good (R397, log 85). -/
def State.deadlineDue (s : State) (core : Nat) : Bool :=
  let c := s.core core
  s.overdue core &&
    ((c.stopping == .no && s.atBoundary core) || ((c.stopping == .no || c.stopping == .soon) && s.stalled core))

/-- PREEMPT_DEADLINE: a full save begins at the bundle boundary after the deadline, or at a stall for good (R74, R397). -/
def execPreemptDeadline (core : BitVec 8) (s : State) : Out :=
  let k := core.toNat
  .next (if s.deadlineDue k then s.setCore k { s.core k with stopping := .full } else s)

/-- PREEMPT_SAVE: a pre-empted task whose commands stand at their restart points, all acknowledged, is saved and leaves
its slot; a save that cannot be written loses the task with 0x0801 (R74 to R76, R396). A safe point that has been executed is
taken at the bundle boundary after it (R224). -/
def execPreemptSave (core : BitVec 8) (s : State) : Out :=
  let k := core.toNat
  let c := s.core k
  match c.task with
  | none => .next s
  | some t =>
    if c.stopping = .soon then .next (if s.atBoundary k then s.setCore k { c with stopping := .safePoint } else s)
    else if (c.stopping ≠ .safePoint ∧ c.stopping ≠ .full) ∨ c.pend.isSome ∨ !s.settled k ∨ !c.postedTags.isEmpty then .next s
    else
      let x := t.ctx.toNat
      let safe := c.stopping == .safePoint
      let m := c.liveEntry.toNat
      let state := c.parked
      let parts := if safe then state.partsLive m else partsAll
      let (s, bad) := (s.setCore k { c with posted := false }).writeImage x k parts
      match bad with
      | some va =>
        let s := s.taskRecord k t { code := 0x0801, addr := va } false false
        .next ((s.vacate k).leaveKernel t)
      | none =>
        let state := if safe then state.dropDead parts m else state
        let s := s.vacate k
        let d := s.ctx x
        .next (s.setCtx x { d with saved := d.saved ++ [{ core := k, state := state, safe := safe }] })

/-! ## Resuming (R76, R81, R378, R394) -/

/-- A restore that a leaf or poison refuses: the image stays, the refusal is recorded, and the task waits for FQRESUME
(R465, log 27). -/
def State.restoreFails (s : State) (x : Nat) (v : SavedTask) (t : Task) (f : FaultInfo) : State :=
  let fseq := (s.ctx x).fqnext
  let s := (s.found f).taskRecord v.core t f false false
  let d := s.ctx x
  s.setCtx x { d with saved := d.saved.filter (· != v) ++
    [{ v with fseq := fseq, res := f.res, faulted := true, released := none }] }

/-- A saved task restored on its own core (R76). -/
def State.restore (s : State) (x : Nat) (v : SavedTask) : State :=
  match v.state.task with
  | none => s
  | some t =>
  let parts := if v.safe then v.state.partsLive v.state.liveEntry.toNat else partsAll
  match s.readImage x v.core v.state parts with
  | (s, .error f) => s.restoreFails x v t f
  | (s, .ok c) =>
    let d := s.ctx x
    let s := s.setCtx x { d with saved := d.saved.filter (· != v) }
    let now := s.core v.core
    let c : Core := { c.oweAgain with
      entered := true, task := some { t with since := s.now }, draining := now.draining, l1d := now.l1d, l1i := now.l1i, tlb := now.tlb
      lastKernel := now.lastKernel }
    s.setCore v.core (c.enterKernel t.ctx t.queue t.kseq)

/-- Whether a candidate may take a core; a gang that can be placed now takes the first of its free cores (R65, R81). -/
def State.fits (s : State) (core : Nat) : Cand → Bool
  | .task k _ => !s.holdsSaved k.ctx.toNat core
  | .gang k =>
    let free := s.gangFree (core / 64) k
    let n := k.count (core / 64)
    decide (n ≤ free.length) && (free.take n).contains core
  | .saved t => t.core == core

/-- TASK_RESUME: a task saved by pre-emption that ranks first among those eligible for its free core resumes there
(R81). -/
def execTaskResume (core : BitVec 8) (s : State) : Out :=
  let k := core.toNat
  if !s.coreFree k || (s.core k).reserved.isSome then .next s
  else
    match ((s.cands (k / 64)).map Prod.snd).find? (s.fits k) with
    | some (.saved v) => .next (s.restore ((v.state.ctx?.map BitVec.toNat).getD 0) v)
    | _ => .next s

/-! ## Released tasks (R378, R425) -/

/-- The stopped task of a context with the lowest FSEQ (R378). -/
def Ctx.firstStopped (c : Ctx) : Option SavedTask :=
  (c.saved.filter SavedTask.faulted).foldl (fun acc v => match acc with
    | none => some v
    | some u => if v.fseq.toNat < u.fseq.toNat then some v else some u) none

/-- A stopped task released (R378): its image kept for RESUME, discarded for ABORT. -/
def State.releaseStopped (s : State) (x : Nat) (fseq : BitVec 32) (resume : Bool) : State :=
  let c := s.ctx x
  let c := { c with fqresume := BitVec.ofNat 64 (fseq.toNat * 2 ^ 32 + (if resume then 1 else 2)) }
  s.setCtx x { c with saved := c.saved.map fun v =>
    if v.faulted && v.fseq == fseq && v.released.isNone then { v with released := some resume } else v }

/-- FQRESUME_RESUME (R378). -/
def execFqresumeResume (ctx : BitVec 6) (fseq : BitVec 32) (s : State) : Out :=
  .next (s.whenUp fun s => s.releaseStopped ctx.toNat fseq true)

/-- FQRESUME_ABORT (R378). -/
def execFqresumeAbort (ctx : BitVec 6) (fseq : BitVec 32) (s : State) : Out :=
  .next (s.whenUp fun s => s.releaseStopped ctx.toNat fseq false)

/-- Whether a released task resumes: RESUME of a record with RES = 1 whose kernel has not failed (R378, R425). -/
def State.resumes (s : State) (v : SavedTask) : Bool :=
  v.released == some true && v.res && match v.state.task with
    | some t => match s.kernel? t.ctx.toNat t.queue t.kseq with | some k => !k.failed | none => true
    | none => false

/-- STOPPED_TASK_RESUME: the context's first stopped task, released to resume, restored on its free core (R378). -/
def execStoppedTaskResume (ctx : BitVec 6) (s : State) : Out :=
  let x := ctx.toNat
  match (s.ctx x).firstStopped with
  | some v =>
    if s.resumes v && s.coreFree v.core && (s.core v.core).reserved.isNone then .next (s.restore x v) else .next s
  | none => .next s

/-- STOPPED_TASK_DISCARD: the context's first stopped task, released and not resumable, is dropped and counts retired, and
its kernel fails (R378, R425). -/
def execStoppedTaskDiscard (ctx : BitVec 6) (s : State) : Out :=
  let x := ctx.toNat
  let c := s.ctx x
  match c.firstStopped with
  | some v =>
    if v.released.isNone || s.resumes v then .next s
    else
      let s := s.setCtx x { c with saved := c.saved.filter (· != v) }
      match v.state.task with
      | some t => .next ((s.failKernel x t.queue t.kseq).leaveKernel t)
      | none => .next s
  | none => .next s

end Sys2Proof.Machine
end

