-- ==== Sys2Proof/Machine/Registers.lean ====
section
/-!
DEFINITION. The device control space as the host and the steward read and write it: the register map, what each
register returns and what a write of it does, and the release and reset of frozen masters (R6, R338 to R347, R351,
R376, R444 to R446).
-/
namespace Sys2Proof.Machine

/-! ## Frozen masters (R444 to R446) -/

/-- The notice of a release or reset: the held request, with the master in SYND (R377, R446). -/
def Frozen.notice (f : Frozen) : FaultInfo :=
  let m := f.master.toNat
  { code := 0x0802, addr := f.addr, synd := BitVec.ofNat 64 m, akind := m / 2 ^ 12
    aidx := if m / 2 ^ 12 = 9 then m % 2 ^ 12 / 64 else if m / 2 ^ 12 = 0 then 0 else m % 16 }

/-- The fault of a task whose core a violation froze (R446). -/
def Frozen.fault (f : Frozen) : FaultInfo :=
  { code := 0x0802, addr := f.addr, synd := BitVec.ofNat 64 f.master.toNat }

/-- The requests of a core's streams forgotten: their answers will come late (R435, R446). -/
def State.dropRequests (s : State) (core : Nat) : State :=
  { s with
    fab := { s.fab with requests := s.fab.requests.filter fun r =>
      match r.issuer with | .stream k _ => k != core | _ => true }
    colls := s.colls.filter fun c => match c.issuer with | .stream k _ => k != core | _ => true }

/-- A frozen core released: its task stops with 0x0802 (R446). -/
def State.thawCore (s : State) (core : Nat) (f : Frozen) : State :=
  let c := s.core core
  let c := { c with frozen := false, blocked := none }
  s.setCore core (if c.task.isSome then c.faultAt { f.fault with line := c.line, slot := c.curSlot } else c)

/-- A frozen core reset: both its tasks are discarded and counted retired, and its state is zeroed (R446). -/
def State.resetCore (s : State) (core : Nat) (f : Frozen) : State :=
  let c := s.core core
  let s := match c.task with
    | some t => s.taskRecord core t { f.fault with line := c.line, slot := c.curSlot } false false
    | none => s
  let s := match c.draining with
    | some d => s.taskRecord core d.task f.fault false true
    | none => s
  let s := (s.dropRequests core).setCore core { reserved := c.reserved }
  let s := match c.task with | some t => s.leaveKernel t | none => s
  let s := match c.draining with | some d => s.leaveKernel d.task | none => s
  s.reserveCores (core / 64)

/-- The runs of a berm engine abandoned with 0x0802: the first, or all (R446). -/
def State.dropBerm (s : State) (k : Nat) (f : Frozen) : Nat → State
  | 0 => s
  | n + 1 =>
    match s.berm k with
    | [] => s
    | r :: _ =>
      let flt : FaultInfo := { f.fault with akind := 6, aidx := k, res := false }
      State.dropBerm (s.finishBerm k { r with fault := some flt }) k f n

/-- The first packet held at a port taken from its buffer. -/
def State.takeHeld (s : State) (port : Nat) : State :=
  { s with fab := { s.fab with heldPkts := s.fab.heldPkts.eraseP fun e => e.1 == port } }

/-- The packets held at a port served in turn, each freeing its room (R332): one that freezes the port again stays the first
of those held. -/
def State.serveHeld (s : State) (port : Nat) : List Packet → State
  | [] => s
  | p :: rest =>
    let s := s.takeHeld port
    let t := if p.dst.toNat ≠ s.myIndex then s.emit p else s.serve port p
    if t.isFrozen (portMaster port) then { t with fab := { t.fab with heldPkts := (port, p) :: s.fab.heldPkts } }
    else (t.flow port).serveHeld port rest

/-- The packets held at a port served again: the first is refused, with `all` every one is (R446). -/
def State.servePort (s : State) (port : Nat) (all : Bool) : State :=
  let refuse (s : State) (p : Packet) : State := ((s.takeHeld port).nak p 0x0802).flow port
  match (s.fab.heldPkts.filter fun e => e.1 == port).map Prod.snd with
  | [] => s
  | p :: rest => if all then (p :: rest).foldl refuse s else (refuse s p).serveHeld port rest

/-- A frozen master released, or reset (R446). -/
def State.thaw (s : State) (m : BitVec 16) (reset : Bool) : State :=
  match s.stew.frozen.find? fun f => f.master == m with
  | none => s
  | some f =>
    let s := { s with stew := { s.stew with frozen := s.stew.frozen.filter fun g => g.master != m } }
    let k := m.toNat % 2 ^ 12
    let s := match m.toNat / 2 ^ 12 with
      | 0 => if reset then s.resetCore k f else s.thawCore k f
      | 6 => s.dropBerm k f (if reset then (s.berm k).length else 1)
      | 9 =>
        let s := if f.read then { s with out := s.out ++ [Output.hostAbort (k / 64) (k % 64)] } else s
        if reset then
          { s with hostq := s.hostq.filter fun e =>
              !(e.1 == k && match e.2 with | .write .. | .reg _ (.store _) | .reg _ (.bytes _) => true | _ => false) }
        else s
      | 10 => s.servePort k reset
      | _ => s
    s.notice f.ctx.toNat f.notice

/-- A write of FRZCTL (R445, R446). -/
def State.writeFrzctl (s : State) (v : Word) : State :=
  let s := { s with stew := { s.stew with frzctl := v } }
  let m : BitVec 16 := v.setWidth 16
  match bitsOf v.toNat 17 16 with
  | 1 => s.thaw m false
  | 2 => s.thaw m true
  | _ => s

/-- A read of FRZPOP: the oldest frozen master not yet popped (R445). -/
def State.readFrzpop (s : State) : State × Word :=
  match s.stew.frzList with
  | [] => (s, 0)
  | m :: rest => ({ s with stew := { s.stew with frzList := rest } }, BitVec.ofNat 64 (m.toNat * 2 ^ 48 + 1))

/-! ## Clock steps and gates (R357, R358) -/

/-- The clock step in force on a die (R357, R359, R448, R450). -/
def Steward.step (w : Steward) (die : Nat) : Nat := if w.hot.getLsbD die || w.restarting then 3 else Table.get 0 w.clkStep die

/-- A write of CLKSTEP (R357). -/
def State.writeClkstep (s : State) (die : Nat) (v : Word) : State :=
  { s with stew := { s.stew with
      clkWritten := Table.set 0 s.stew.clkWritten die (v.toNat % 4)
      clkStep := Table.set 0 s.stew.clkStep die (v.toNat % 4) } }

/-- A write of CLGATE: a cleared bit ungates its cluster (R358). -/
def State.writeClgate (s : State) (die : Nat) (v : Word) : State :=
  let b : BitVec 16 := v.setWidth 16
  { s with stew := { s.stew with
      clgate := Table.set 0 s.stew.clgate die b
      gated := Table.set 0 s.stew.gated die (Table.get 0 s.stew.gated die &&& b) } }

/-! ## Bindings (R344) -/

/-- The byte of VFBIND that a function has: zero for PF0 (R344). -/
def Steward.binding (w : Steward) (k : Nat) : Nat := (Table.get 0 w.vfbind k).toNat

/-- The context that a function's accesses reach: PFWIN's for PF0, the bound one for a VF (R344). -/
def Steward.context? (w : Steward) (fn : Nat) : Option Nat :=
  if fn % 64 = 0 then some w.pfwin.toNat
  else
    let b := w.binding fn
    if 64 ≤ b ∧ b < 128 then some (b - 64) else none

/-- A write of a VFBIND word: only bytes that differ act; reserved values and the bytes of PF0 are ignored (R344). -/
def State.writeVfbind (s : State) (k : Nat) (v : Word) : State :=
  (List.range 8).foldl (fun s j =>
    let fn := 8 * k + j
    let b : Byte := BitVec.ofNat 8 (v.toNat / 2 ^ (8 * j))
    if fn % 64 = 0 ∨ (b ≠ 0 ∧ (b.toNat < 64 ∨ 128 ≤ b.toNat)) then s
    else { s with stew := { s.stew with vfbind := Table.set 0 s.stew.vfbind fn b } }) s

/-! ## Attestation requests (R356) -/

/-- A write of ATTREQ: a request queued behind the one in progress, up to 8 of them (R356). -/
def State.writeAttreq (s : State) (v : Word) : State :=
  let a := v &&& ~~~(63 : Word)
  let q := s.stew.attQueue
  { s with stew := { s.stew with attreq := a, attQueue := if q.length ≤ 8 then q ++ [a] else q } }

/-! ## Reads (R6, R339 to R341, R351, R376) -/

/-- The identity registers and BUSTAT, which answer before bring-up is complete (R351, R352). -/
def State.readIdentity (s : State) (off : Nat) : Word :=
  match off with
  | 0x000 => 0x0000E2C000006144
  | 0x008 => BitVec.ofNat 64 (Config.stepId.toNat % 2 ^ 16)
  | 0x010 => Config.serial0
  | 0x018 => Config.serial1
  | 0x020 => BitVec.ofNat 64 (s.stew.phase * 2 + if s.stew.up then 1 else 0)
  | _ => 0

/-- A read of the status block (R351, R356 to R359, R432, R445, R448, R449). -/
def State.readStatus (s : State) (off : Nat) : State × Word :=
  let w := s.stew
  if off < 0x40 then (s, s.readIdentity off)
  else if off < 0x80 then (s, hashWord w.fwdig ((off - 0x40) / 8))
  else if off < 0xC0 then (s, hashWord w.cfgdig ((off - 0x80) / 8))
  else if 0x210 ≤ off ∧ off < 0x230 then (s, BitVec.ofNat 64 (w.step ((off - 0x210) / 8)))
  else if 0x230 ≤ off ∧ off < 0x250 then (s, (Table.get 0 w.clgate ((off - 0x230) / 8)).setWidth 64)
  else if 0x250 ≤ off ∧ off < 0x270 then (s, (Table.get 0 w.temp ((off - 0x250) / 8)).setWidth 64)
  else if 0x280 ≤ off ∧ off < 0x2A0 then (s, Table.get 0 w.corestat ((off - 0x280) / 8))
  else
    match off with
    | 0x100 => (s, w.attreq)
    | 0x108 => (s, BitVec.ofNat 64 (w.attDone.toNat * 2 ^ 32 + if w.attQueue.isEmpty then 0 else 1))
    | 0x110 => (s, w.devevt)
    | 0x130 => s.readFrzpop
    | 0x138 => (s, w.frzctl)
    | 0x200 => (s, w.pcap.setWidth 64)
    | 0x208 => (s, w.pwrnow.setWidth 64)
    | 0x270 => (s, w.lastoff.setWidth 64)
    | _ => (s, 0)

/-- A read of the memory block (R101, R108 to R112, R411, R412). -/
def State.readMemBlock (s : State) (off : Nat) : State × Word :=
  let m := s.memr
  if 0x1000 ≤ off ∧ off < 0x1000 + 8 * 384 then (s, BitVec.ofNat 64 (nthD 0 m.live ((off - 0x1000) / 8)))
  else if 0x8000 ≤ off ∧ off < 0x8000 + 8 * 384 then s.readCherr ((off - 0x8000) / 8)
  else if 0x9000 ≤ off ∧ off < 0x9020 then s.readSramerr ((off - 0x9000) / 8)
  else
    match off with
    | 0x00 => (s, BitVec.ofNat 64 m.live.length)
    | 0x08 => (s, m.chret)
    | 0x10 => (s, BitVec.ofNat 64 (m.retired % 256 * 2 ^ 8 + if m.chBusy then 1 else 0))
    | 0x20 => (s, m.migSubL)
    | 0x28 => (s, m.migSubH)
    | 0x30 => (s, BitVec.ofNat 64 (m.migDone.toNat * 2 ^ 32 + m.migRefused.toNat * 2 ^ 16 + m.migs.length))
    | 0x40 => (s, m.hpctl)
    | 0x48 => s.readHppop
    | 0x50 => (s, m.hpSkPin)
    | 0x58 => (s, m.hpSkCell)
    | 0x9020 => s.readMigerr
    | _ => (s, 0)

/-- A read of the fabric block (R115, R327, R332, R337, R433, R435). -/
def State.readFabric (s : State) (off : Nat) : State × Word :=
  let f := s.fab
  if 0x100 ≤ off ∧ off < 0x130 then (s, Table.get nyfcReset f.nyfc ((off - 0x100) / 8))
  else if 0x200 ≤ off ∧ off < 0x230 then
    let k := (off - 0x200) / 8
    (s, putField (Table.get 0 f.weirst k) 19 0 (s.weirHeld k))
  else if 0x8000 ≤ off ∧ off < 0x8030 then s.readNyerr ((off - 0x8000) / 8)
  else
    match off with
    | 0x0000 => (s, f.topo)
    | 0x0008 => (s, f.scopetab)
    | 0x8040 => (s, f.fabto.setWidth 64)
    | _ => (s, 0)

/-- A read of the far memory block (R339, R349). -/
def State.readFar (s : State) (off : Nat) : Word :=
  if off < 0x2000 then
    let e := s.memr.extent (off / 0x1000) (off % 0x1000 / 16)
    if off % 16 = 8 then BitVec.ofNat 64 e.base else BitVec.ofNat 64 (e.len * 16 + e.state)
  else if off = 0x2000 then s.memr.extctl
  else 0

/-- A read of the host port block (R339, R343, R344). -/
def State.readPorts (s : State) (off : Nat) : Word :=
  let w := s.stew
  if 0x100 ≤ off ∧ off < 0x180 then
    BitVec.ofNat 64 (ofBytes ((List.range 8).map fun j => Table.get 0 w.vfbind (off - 0x100 + j)))
  else
    match off with
    | 0x000 => if w.pmode.getLsbD 0 then 1 else 0
    | 0x008 => if w.pmode.getLsbD 1 then 1 else 0
    | 0x200 => w.pfwin.setWidth 64
    | _ => 0

/-- A read of a context's fault queue block (R376). NEXT is the FSEQ of the record that will be written next: of the oldest
held, else of the next detected (DESIGN CHOICE, log 98). -/
def Ctx.readFaultQueue (c : Ctx) (off : Nat) : Word :=
  match off with
  | 0x00 => c.fqbase
  | 0x08 => BitVec.ofNat 64 ((if c.fqen then 256 else 0) + c.fqlog)
  | 0x10 => c.fqhead.setWidth 64
  | 0x18 =>
    let next := match c.held with | r :: _ => r.fseq | [] => c.fqnext
    BitVec.ofNat 64 (next.toNat * 2 ^ 32 + c.fqtail.toNat)
  | 0x20 =>
    BitVec.ofNat 64 (c.fqlost.toNat * 2 ^ 32 + (c.saved.filter SavedTask.faulted).length % 2 ^ 16 * 2 ^ 16 +
      c.held.length % 2 ^ 15 * 2)
  | 0x28 => c.fqresume
  | 0x30 => BitVec.ofNat 64 (c.flagsBerm.toNat * 2 ^ 8 + c.flagsTask.toNat)
  | 0x38 => c.trapEn.setWidth 64
  | _ => 0

/-- A read of a context's own registers and graph window (R81, R98, R138, R341, R347). -/
def Ctx.readOwn (c : Ctx) (off : Nat) : Word :=
  match off with
  | 0x0000 => c.lvl.setWidth 64
  | 0x0008 => c.preempt
  | 0x0010 => c.predl
  | 0x0018 => c.slice
  | 0x0020 => c.saveBase
  | 0x0028 => c.ptbase
  | 0x0030 => c.tlbinv
  | 0x0038 => if c.tlbinvQueue.isEmpty then 0 else 1
  | 0x0040 => c.armDrop
  | 0x0048 => c.hwbase
  | 0x0050 => BitVec.ofNat 64 c.gquota
  | 0x1000 => c.gusrc
  | 0x1008 => c.gucmd
  | 0x1010 => BitVec.ofNat 64 (c.slots * 2 ^ 32 + if c.uploads.isEmpty then 0 else 1)
  | _ => 0

/-- A read within a context block (R340). -/
def State.readCtxBlock (s : State) (x off : Nat) : State × Word :=
  let c := s.ctx x
  if off < 0x10000 then (s, c.readOwn off)
  else if off < 0x20000 then
    let q := (off - 0x10000) / 0x1000
    let (v, u) := (c.queue q).read (off % 0x1000)
    (s.setCtx x (c.setQueue q u), v)
  else if off < 0x20000 + 8 * 0x3C then (s, c.counterReg (off - 0x20000))
  else if 0x80000 ≤ off then (s, c.readFaultQueue (off - 0x80000))
  else (s, 0)

/-- A read of the device control space by the host through PF0 or by the steward: reserved offsets read zero, and so does
everything but the identity before bring-up is complete (R338, R352, R405). -/
def State.readReg (s : State) (off : Nat) : State × Word :=
  if !s.stew.up then (s, s.readIdentity off)
  else if off % 8 ≠ 0 then (s, 0)
  else if off < 0x10000 then s.readStatus off
  else if off < 0x20000 then s.readMemBlock (off - 0x10000)
  else if off < 0x30000 then s.readFabric (off - 0x20000)
  else if off < 0x40000 then (s, s.readFar (off - 0x30000))
  else if off < 0x50000 then (s, s.readPorts (off - 0x40000))
  else if ctxBlock 0 ≤ off ∧ off < ctxBlock 64 then
    s.readCtxBlock ((off - ctxBlock 0) / 0x100000) ((off - ctxBlock 0) % 0x100000)
  else (s, 0)

/-! ## Writes (R6, R339 to R341, R351, R376, R405) -/

/-- Bits of a register cleared by a write of ones (R6). -/
def clearOnes (old v : Word) : Word := old &&& ~~~v

/-- A write of the status block (R356 to R359, R432, R445). -/
def State.writeStatus (s : State) (off : Nat) (v : Word) : State :=
  let w := s.stew
  if 0x210 ≤ off ∧ off < 0x230 then s.writeClkstep ((off - 0x210) / 8) v
  else if 0x230 ≤ off ∧ off < 0x250 then s.writeClgate ((off - 0x230) / 8) v
  else if 0x280 ≤ off ∧ off < 0x2A0 then
    let d := (off - 0x280) / 8
    { s with stew := { w with corestat := Table.set 0 w.corestat d (clearOnes (Table.get 0 w.corestat d) v) } }
  else
    match off with
    | 0x100 => s.writeAttreq v
    | 0x110 => { s with stew := { w with devevt := clearOnes w.devevt v } }
    | 0x138 => s.writeFrzctl v
    | 0x200 => { s with stew := { w with pcap := v.setWidth 16 } }
    | _ => s

/-- Whether an HPCTL or EXTCTL value has only legal bits (R111, R339, R405). -/
def hpctlOk (v : Word) : Bool := bitsOf v.toNat 15 1 == 0

/-- A write of the memory block (R108, R110, R111). -/
def State.writeMemBlock (s : State) (off : Nat) (v : Word) : State :=
  match off with
  | 0x08 => s.retireChannel v
  | 0x20 => s.mapMem fun m => { m with migSubL := v }
  | 0x28 => s.submitMigration v
  | 0x40 => if hpctlOk v then s.mapMem fun m => { m with hpctl := v } else s
  | _ => s

/-- A write of the fabric block (R332, R435). -/
def State.writeFabric (s : State) (off : Nat) (v : Word) : State :=
  if 0x100 ≤ off ∧ off < 0x130 then
    { s with fab := { s.fab with nyfc := Table.set nyfcReset s.fab.nyfc ((off - 0x100) / 8) v } }
  else if off = 0x8040 then { s with fab := { s.fab with fabto := v.setWidth 32 } }
  else s

/-- A write of EXTCTL: ignored whole for a bit that must be zero (R339, R350, R405). -/
def State.writeExtent (s : State) (v : Word) : State :=
  if bitsOf v.toNat 63 11 ≠ 0 then s
  else s.extentAct (bitsOf v.toNat 10 9) (bitsOf v.toNat 8 8) (bitsOf v.toNat 7 0)

/-- A write of the host port block (R339, R344). -/
def State.writePorts (s : State) (off : Nat) (v : Word) : State :=
  if 0x100 ≤ off ∧ off < 0x180 then s.writeVfbind ((off - 0x100) / 8) v
  else if off = 0x200 then { s with stew := { s.stew with pfwin := v.setWidth 6 } }
  else s

/-- A write of FQRESUME: ignored whole for a bit that must be zero (R376, R378). -/
def State.writeFqresume (s : State) (x : Nat) (v : Word) : State :=
  if bitsOf v.toNat 31 2 ≠ 0 then s
  else
    let s := s.setCtx x { s.ctx x with fqresume := v }
    match v.toNat % 4 with
    | 1 => s.releaseStopped x (BitVec.ofNat 32 (v.toNat / 2 ^ 32)) true
    | 2 => s.releaseStopped x (BitVec.ofNat 32 (v.toNat / 2 ^ 32)) false
    | _ => s

/-- A write of a context's fault queue block (R376). -/
def State.writeFaultQueue (s : State) (x off : Nat) (v : Word) : State :=
  let c := s.ctx x
  match off with
  | 0x00 => s.setCtx x { c with fqbase := v &&& ~~~(63 : Word) }
  | 0x08 =>
    let n := v.toNat % 32
    if 4 ≤ n ∧ n ≤ 16 then s.setCtx x { c with fqlog := n, fqen := v.getLsbD 8 } else s
  | 0x10 => s.setCtx x { c with fqhead := v.setWidth 32 }
  | 0x28 => s.writeFqresume x v
  | 0x30 =>
    s.setCtx x { c with flagsTask := c.flagsTask &&& ~~~(v.setWidth 5 : Flags)
                        flagsBerm := c.flagsBerm &&& ~~~(BitVec.ofNat 5 (v.toNat / 256) : Flags) }
  | 0x38 => s.setCtx x { c with trapEn := v.setWidth 5 }
  | _ => s

/-- A write of GUCMD: kept, then an upload or a drop (R347). -/
def State.writeGucmd (s : State) (x : Nat) (v : Word) : State :=
  let s := s.setCtx x { s.ctx x with gucmd := v }
  if v.getLsbD 28 then s.beginDrop x else s.beginUpload x

/-- A write of a context's own registers and graph window; `pf` says that GQUOTA accepts it (R81, R98, R341, R347). -/
def State.writeOwn (s : State) (x off : Nat) (v : Word) (pf : Bool) : State :=
  let c := s.ctx x
  match off with
  | 0x0000 => if v.toNat < 3 then s.setCtx x { c with lvl := v.setWidth 2 } else s
  | 0x0008 => s.writePreempt x v
  | 0x0010 => s.setCtx x { c with predl := v }
  | 0x0018 => s.setCtx x { c with slice := v }
  | 0x0020 => s.setCtx x { c with saveBase := v }
  | 0x0028 => s.setCtx x { c with ptbase := v }
  | 0x0030 => s.writeTlbinv x v
  | 0x0048 => s.setCtx x { c with hwbase := BitVec.ofNat 64 (bitsOf v.toNat 56 34 * 2 ^ 34) }
  | 0x0050 =>
    let n := v.toNat % 2 ^ 17
    if pf ∧ n ≤ 65536 then s.setCtx x { c with gquota := n } else s
  | 0x1000 => s.setCtx x { c with gusrc := v }
  | 0x1008 => s.writeGucmd x v
  | _ => s

/-- A write within a context block (R340). -/
def State.writeCtxBlock (s : State) (x off : Nat) (v : Word) (pf : Bool) : State :=
  if off < 0x10000 then s.writeOwn x off v pf
  else if off < 0x20000 then s.writeQueueReg x ((off - 0x10000) / 0x1000) (off % 0x1000) v 7 none
  else if 0x80000 ≤ off then s.writeFaultQueue x (off - 0x80000) v
  else s

/-- A write of the device control space by the host through PF0 or by the steward: an aligned 8-byte store; reserved and
read-only registers ignore it, and before bring-up is complete every register does (R338, R352, R405). -/
def State.writeReg (s : State) (off : Nat) (v : Word) : State :=
  if !s.stew.up ∨ off % 8 ≠ 0 then s
  else if off < 0x10000 then s.writeStatus off v
  else if off < 0x20000 then s.writeMemBlock (off - 0x10000) v
  else if off < 0x30000 then s.writeFabric (off - 0x20000) v
  else if off = 0x32000 then s.writeExtent v
  else if 0x40000 ≤ off ∧ off < 0x50000 then s.writePorts (off - 0x40000) v
  else if ctxBlock 0 ≤ off ∧ off < ctxBlock 64 then
    s.writeCtxBlock ((off - ctxBlock 0) / 0x100000) ((off - ctxBlock 0) % 0x100000) v true
  else s

/-! ## Rows -/

/-- VFBIND_WRITE (R344). -/
def execVfbindWrite (k : BitVec 4) (value : Word) (s : State) : Out :=
  .next (s.whenUp fun s => s.writeVfbind k.toNat value)

/-- CLOCK_STEP_WRITE (R357). -/
def execClockStepWrite (die : BitVec 2) (value : Word) (s : State) : Out :=
  .next (s.whenUp fun s => s.writeClkstep die.toNat value)

/-- CLUSTER_GATE_WRITE (R358). -/
def execClusterGateWrite (die : BitVec 2) (value : Word) (s : State) : Out :=
  .next (s.whenUp fun s => s.writeClgate die.toNat value)

/-- FREEZE_RELEASE: FRZCTL written with OP 1 (R446). -/
def execFreezeRelease (value : Word) (s : State) : Out :=
  .next (s.whenUp fun s => if bitsOf value.toNat 17 16 = 1 then s.writeFrzctl value else s)

/-- FREEZE_RESET: FRZCTL written with OP 2 (R446). -/
def execFreezeReset (value : Word) (s : State) : Out :=
  .next (s.whenUp fun s => if bitsOf value.toNat 17 16 = 2 then s.writeFrzctl value else s)

/-- FRZPOP_READ (R445). -/
def execFrzpopRead (s : State) : Out := .next (s.readUp State.readFrzpop)

/-- ATTESTATION_REQUEST: ATTREQ written (R356). -/
def execAttestationRequest (value : Word) (s : State) : Out :=
  .next (s.whenUp fun s => s.writeAttreq value)

end Sys2Proof.Machine
end

