-- ==== Sys2Proof/Machine/HostPort.lean ====
section
/-!
DEFINITION. What the functions of the host ports do: registers through BAR0, and the virtual addresses of a context
through BAR2, each function in the order its port receives (R341, R344, R345, R406, R410, R417, R444, R445).
-/
namespace Sys2Proof.Machine

/-- The master id of a host function (R444). -/
def hostMaster (fn : Nat) : BitVec 16 := masterId 9 fn

/-- The agent that a function's BAR2 accesses are: PF0 acts for the supervisor (R113, R465). -/
def hostAgent (fn x : Nat) : Agent :=
  { ctx := x, akind := 9, aidx := fn / 64, sup := decide (fn % 64 = 0), issuer := some (.host fn) }

/-- Something that a function's port sends out. -/
def State.put? (s : State) (o : Output) : State := { s with out := s.out ++ [o] }

/-- A function's completion with Unsupported Request. -/
def State.hostUr (s : State) (fn : Nat) : State := s.put? (.hostUnsupported (fn / 64) (fn % 64))

/-- A function's completion with Completer Abort. -/
def State.hostCa (s : State) (fn : Nat) : State := s.put? (.hostAbort (fn / 64) (fn % 64))

/-- The notice of a host access that fails (R417). -/
def State.hostNotice (s : State) (x fn : Nat) (f : FaultInfo) : State :=
  s.notice x { f with akind := 9, aidx := fn / 64, res := false }

/-- The virtual address that a BAR2 offset of a context presents (R341, R344). -/
def State.bar2 (s : State) (x off : Nat) : Word := (s.ctx x).hwbase + BitVec.ofNat 64 (off % 2 ^ 34)

/-- Whether a BAR2 address or its physical address is one that BAR2 may not reach (R444). -/
def bar2Violates (va : Word) (gpa : Option Nat) : Bool :=
  (window? va).isSome || (gpa.map fun g => decide (controlBase ≤ g % 2 ^ 51)).getD false

/-- One piece of a host read; whether the rest goes on (R344, R406, R410, R417). -/
def State.hostReadPiece (s : State) (fn x : Nat) (va : Word) (n : Nat) : State × Bool :=
  let a := hostAgent fn x
  if bar2Violates va none then (s.freeze (hostMaster fn) x va true, false)
  else
    match s.translate a Need.read va (fun _ => none) with
    | (s, .error f) => (((s.found f).hostNotice x fn f).hostUr fn, false)
    | (s, .ok p) =>
      if bar2Violates va (some p.gpa) then (s.freeze (hostMaster fn) x va true, false)
      else if (polderLoadCheck a va n 0 p).isSome then (s.hostCa fn, false)
      else
        match s.place p.gpa with
        | .mem la =>
          let (s, bs, bad, _) := s.serveBytes p.lo la n
          (s.put? (.hostData (fn / 64) (fn % 64) bs (!bad.isEmpty)), true)
        | .peer dev =>
          let (s, _) := s.send (.host fn) va (s.request a 0 dev p.gpa n p.lo [])
          (s, true)
        | _ => (s.hostUr fn, false)

/-- One piece of a host write; whether the rest goes on (R344, R406, R417). -/
def State.hostWritePiece (s : State) (fn x : Nat) (va : Word) (bs : List Byte) : State × Bool :=
  let a := hostAgent fn x
  if bar2Violates va none then (s.freeze (hostMaster fn) x va, false)
  else
    match s.translate a Need.write va (noPolder a va 0) with
    | (s, .error f) => ((s.found f).hostNotice x fn f, false)
    | (s, .ok p) =>
      if bar2Violates va (some p.gpa) then (s.freeze (hostMaster fn) x va, false)
      else
        match s.place p.gpa with
        | .mem la => (s.homeWrite p.lo x la bs, true)
        | .peer dev =>
          let (s, _) := s.send (.host fn) va (s.request a 1 dev p.gpa bs.length p.lo bs)
          (s, true)
        | _ => (s, false)

/-- A register store of a function through BAR0: the control space for PF0, the bound context's block for a VF
(R344). -/
def State.hostStore (s : State) (fn addr : Nat) (v : Word) : State :=
  if !s.stew.up then s
  else if fn % 64 = 0 then
    let port (s : State) (x : Nat) : State := s.setCtx x { s.ctx x with guPort := fn / 64 }
    let s := if ctxBlock 0 ≤ addr ∧ addr < ctxBlock 64 then port s ((addr - ctxBlock 0) / 0x100000) else s
    s.writeReg addr v
  else
    match s.stew.context? fn with
    | some x =>
      if addr < 0x100000 ∧ addr % 8 = 0 then
        (s.setCtx x { s.ctx x with guPort := fn / 64 }).writeCtxBlock x addr v false
      else s
    | none => s

/-- A register load of a function through BAR0 (R341, R344, R352): a VF that is not bound, or that its port does not expose
yet, has no register. -/
def State.hostLoad (s : State) (fn addr : Nat) : State :=
  let data (p : State × Word) : State := p.1.put? (.hostData (fn / 64) (fn % 64) (toBytes 8 p.2.toNat) false)
  if fn % 64 = 0 then (if addr < 2 ^ 27 then data (s.readReg addr) else s.hostUr fn)
  else
    match s.stew.up, s.stew.context? fn with
    | true, some x => if addr < 0x100000 then data (s.readCtxBlock x addr) else s.hostUr fn
    | _, _ => s.hostUr fn

/-- A function's access through BAR0: what is no aligned 8-byte load or store completes with Unsupported Request (R342,
R405). -/
def State.hostReg (s : State) (fn addr : Nat) (acc : RegAccess) : State :=
  match acc with
  | .store v => if addr % 8 = 0 then s.hostStore fn addr v else s.hostUr fn
  | .load len => if addr % 8 = 0 ∧ len = 8 then s.hostLoad fn addr else s.hostUr fn
  | .bytes data =>
    if addr % 8 = 0 ∧ data.length = 8 then s.hostStore fn addr (BitVec.ofNat 64 (ofBytes data)) else s.hostUr fn
  | .atomic => s.hostUr fn

/-- One access of a function performed; those of a frozen function are turned away (R445). -/
def State.hostPerform (s : State) (fn : Nat) (op : HostOp) : State :=
  if s.isFrozen (hostMaster fn) then
    match op with
    | .read .. | .reg _ (.load _) | .reg _ .atomic => s.hostCa fn
    | _ => s
  else
    match op with
    | .reg addr acc => s.hostReg fn addr acc
    | .read off len =>
      match s.stew.up, s.stew.context? fn with
      | true, some x =>
        ((piecesOf 4096 (s.bar2 x off).toNat len).foldl (fun (acc : State × Bool) pc =>
          if acc.2 then acc.1.hostReadPiece fn x (BitVec.ofNat 64 pc.1) pc.2 else acc) (s, true)).1
      | _, _ => s.hostUr fn
    | .write off data =>
      match s.stew.up, s.stew.context? fn with
      | true, some x =>
        let va := s.bar2 x off
        ((piecesOf 4096 va.toNat data.length).foldl (fun (acc : State × Bool) pc =>
          if acc.2 then acc.1.hostWritePiece fn x (BitVec.ofNat 64 pc.1) ((data.drop (pc.1 - va.toNat)).take pc.2)
          else acc) (s, true)).1
      | _, _ => s

/-- Whether a function awaits an answer from a peer, which its later accesses must not pass (R345). -/
def State.hostWaits (s : State) (fn : Nat) : Bool := s.fab.requests.any fun r => decide (r.issuer = .host fn)

/-- A list without its first element of a function. -/
def dropFirstOf (fn : Nat) : List (Nat × HostOp) → List (Nat × HostOp)
  | [] => []
  | e :: es => if e.1 = fn then es else e :: dropFirstOf fn es

/-- A function's accesses performed in order, as far as none waits for a peer (R345). -/
def State.pumpHost (s : State) (fn : Nat) : Nat → State
  | 0 => s
  | n + 1 =>
    if s.hostWaits fn then s
    else
      match s.hostq.find? fun e => e.1 == fn with
      | none => s
      | some e => State.pumpHost ({ s with hostq := dropFirstOf fn s.hostq }.hostPerform fn e.2) fn n

/-- Every function's accesses performed as far as they go. -/
def State.pumpHosts (s : State) : State :=
  ((s.hostq.map Prod.fst).eraseDups).foldl (fun s fn => s.pumpHost fn s.hostq.length) s

/-- An access of a function, after those it made before (R345). -/
def State.hostAsk (s : State) (port : BitVec 1) (fn : BitVec 6) (op : HostOp) : State :=
  let k := 64 * port.toNat + fn.toNat
  let s := { s with hostq := s.hostq ++ [(k, op)] }
  s.pumpHost k s.hostq.length

/-- REGISTER_WRITE: a register written by the steward or by a function of a host port (R6, R339 to R341, R351, R376);
and the accesses of BAR0 that the table gives no row, loads and those of other shapes (R344, R405). -/
def execRegisterWrite (who : Master) (addr : Nat) (acc : RegAccess) (s : State) : Out :=
  match who, acc with
  | .steward, .store value => .next (s.writeReg addr value)
  | .steward, .load _ => .next ((s.readReg addr).1.answer (s.readReg addr).2)
  | .steward, _ => .next s
  | .host port fn, acc => .next (s.hostAsk port fn (.reg addr acc))

/-- HOST_BAR2_READ (R344). -/
def execHostBar2Read (port : BitVec 1) (fn : BitVec 6) (off len : Nat) (s : State) : Out :=
  .next (s.hostAsk port fn (.read off len))

/-- HOST_BAR2_WRITE (R344). -/
def execHostBar2Write (port : BitVec 1) (fn : BitVec 6) (off : Nat) (data : List Byte) (s : State) : Out :=
  .next (s.hostAsk port fn (.write off data))

end Sys2Proof.Machine
end

