-- ==== Sys2Proof/Machine/Integer.lean ====
section
/-!
DEFINITION. Integer arithmetic, immediates, compare, select, predicate logic and addresses (R194 to R200).
-/
namespace Sys2Proof.Machine

/-- The shape of an instruction that writes one scalar under its guard. -/
def setS (g : BitVec 4) (d : BitVec 6) (s : State) (v : Core → Word) : Out := ctl g s fun c => c.writeS d (v c)

/-- The shape of an instruction that writes one predicate under its guard. -/
def setP (g d : BitVec 4) (s : State) (v : Core → Bool) : Out := ctl g s fun c => c.writeP d (v c)

/-- The high half of the exact product, signed for x = 0 (R194). -/
def mulHigh (u : BitVec 1) (a b : Word) : Word :=
  if u = 0 then BitVec.ofInt 64 (a.toInt * b.toInt / 2 ^ 64) else BitVec.ofNat 64 (a.toNat * b.toNat / 2 ^ 64)

/-- The quotient rounded toward zero, all ones for a zero divisor (R194, R195). -/
def quotient (u : BitVec 1) (a b : Word) : Word :=
  if b = 0 then BitVec.allOnes 64
  else if u = 0 then BitVec.ofInt 64 (a.toInt.tdiv b.toInt) else BitVec.ofNat 64 (a.toNat / b.toNat)

/-- The remainder: s[a] less the quotient's multiple of s[b]; s[a] for a zero divisor (R194, R195). -/
def remainder (u : BitVec 1) (a b : Word) : Word := if b = 0 then a else a - quotient u a b * b

/-- Less-than, signed for x = 0 (R194). -/
def lessU (u : BitVec 1) (a b : Word) : Bool := if u = 0 then a.slt b else a.ult b

/-- The number of one bits. -/
def popCount (n v : Nat) : Nat := ((List.range n).filter fun k => v.testBit k).length

/-- Leading zeros of an `n`-bit value; `n` for zero (R194). -/
def countLeading (n v : Nat) : Nat := if v = 0 then n else n - 1 - Nat.log2 v

/-- Trailing zeros of an `n`-bit value; `n` for zero (R194). -/
def countTrailing (n v : Nat) : Nat := ((List.range n).find? fun k => v.testBit k).getD n

/-- BITC's operations (R194). -/
def bitCount (k : BitVec 2) (a : Word) : Word :=
  match k with
  | 0 => BitVec.ofNat 64 (popCount 64 a.toNat)
  | 1 => BitVec.ofNat 64 (countLeading 64 a.toNat)
  | 2 => BitVec.ofNat 64 (countTrailing 64 a.toNat)
  | _ => BitVec.ofNat 64 (ofBytes (toBytes 8 a.toNat).reverse)

/-- LOGI's operations and PLOG's, bit by bit: AND, OR, XOR, AND NOT (R196, R199). -/
def logic (o : BitVec 2) (a b : Word) : Word :=
  match o with | 0 => a &&& b | 1 => a ||| b | 2 => a ^^^ b | _ => a &&& ~~~b

/-- SHI's operations: SHL, SHR, SAR, ROR (R196). -/
def shiftBy (o : BitVec 2) (a : Word) (n : Nat) : Word :=
  match o with | 0 => a <<< n | 1 => a >>> n | 2 => a.sshiftRight n | _ => a.rotateRight n

/-- The comparison of R197. -/
def compare (c : BitVec 2) (a v : Word) : Bool :=
  match c with | 0 => a == v | 1 => a.slt v | 2 => a.ult v | _ => (a &&& v) != 0

/-- ADD: s[d] := s[a] + s[b] (R194). -/
def execAdd (g : BitVec 4) (d a b : BitVec 6) (s : State) : Out := setS g d s fun c => c.readS a + c.readS b
/-- SUB (R194). -/
def execSub (g : BitVec 4) (d a b : BitVec 6) (s : State) : Out := setS g d s fun c => c.readS a - c.readS b
/-- MUL: the low 64 bits of the product (R194). -/
def execMul (g : BitVec 4) (d a b : BitVec 6) (s : State) : Out := setS g d s fun c => c.readS a * c.readS b
/-- MULH (R194). -/
def execMulh (g : BitVec 4) (d a b : BitVec 6) (u : BitVec 1) (s : State) : Out :=
  setS g d s fun c => mulHigh u (c.readS a) (c.readS b)
/-- DIV (R194, R195). -/
def execDiv (g : BitVec 4) (d a b : BitVec 6) (u : BitVec 1) (s : State) : Out :=
  setS g d s fun c => quotient u (c.readS a) (c.readS b)
/-- REM (R194, R195). -/
def execRem (g : BitVec 4) (d a b : BitVec 6) (u : BitVec 1) (s : State) : Out :=
  setS g d s fun c => remainder u (c.readS a) (c.readS b)
/-- AND (R194). -/
def execAnd (g : BitVec 4) (d a b : BitVec 6) (s : State) : Out := setS g d s fun c => c.readS a &&& c.readS b
/-- OR (R194). -/
def execOr (g : BitVec 4) (d a b : BitVec 6) (s : State) : Out := setS g d s fun c => c.readS a ||| c.readS b
/-- XOR (R194). -/
def execXor (g : BitVec 4) (d a b : BitVec 6) (s : State) : Out := setS g d s fun c => c.readS a ^^^ c.readS b
/-- ANDN: s[a] AND NOT s[b] (R194). -/
def execAndn (g : BitVec 4) (d a b : BitVec 6) (s : State) : Out := setS g d s fun c => c.readS a &&& ~~~(c.readS b)
/-- SHL by s[b][5:0] (R194). -/
def execShl (g : BitVec 4) (d a b : BitVec 6) (s : State) : Out :=
  setS g d s fun c => c.readS a <<< ((c.readS b).toNat % 64)
/-- SHR by s[b][5:0], zeros in (R194). -/
def execShr (g : BitVec 4) (d a b : BitVec 6) (s : State) : Out :=
  setS g d s fun c => c.readS a >>> ((c.readS b).toNat % 64)
/-- SAR by s[b][5:0], bit 63 in (R194). -/
def execSar (g : BitVec 4) (d a b : BitVec 6) (s : State) : Out :=
  setS g d s fun c => (c.readS a).sshiftRight ((c.readS b).toNat % 64)
/-- MIN (R194). -/
def execMin (g : BitVec 4) (d a b : BitVec 6) (u : BitVec 1) (s : State) : Out :=
  setS g d s fun c => if lessU u (c.readS b) (c.readS a) then c.readS b else c.readS a
/-- MAX (R194). -/
def execMax (g : BitVec 4) (d a b : BitVec 6) (u : BitVec 1) (s : State) : Out :=
  setS g d s fun c => if lessU u (c.readS a) (c.readS b) then c.readS b else c.readS a
/-- BITC (R194). -/
def execBitc (g : BitVec 4) (d a : BitVec 6) (k : BitVec 2) (s : State) : Out :=
  setS g d s fun c => bitCount k (c.readS a)
/-- ADDI, 32-bit form (R196). -/
def execAddi (g : BitVec 4) (d a : BitVec 6) (i : BitVec 8) (s : State) : Out :=
  setS g d s fun c => c.readS a + i.signExtend 64
/-- ADDI, 64-bit form (R196). -/
def execAddiImm32 (g : BitVec 4) (d a : BitVec 6) (i : BitVec 32) (s : State) : Out :=
  setS g d s fun c => c.readS a + i.signExtend 64
/-- LOGI, 32-bit form: v is imm8[5:0], sign-extended (R196). -/
def execLogi (g : BitVec 4) (d a : BitVec 6) (o : BitVec 2) (v : BitVec 6) (s : State) : Out :=
  setS g d s fun c => logic o (c.readS a) (v.signExtend 64)
/-- LOGI, 64-bit form: v is imm32[29:0], sign-extended (R196). -/
def execLogiImm32 (g : BitVec 4) (d a : BitVec 6) (o : BitVec 2) (v : BitVec 30) (s : State) : Out :=
  setS g d s fun c => logic o (c.readS a) (v.signExtend 64)
/-- SHI, 32-bit form (R196). -/
def execShi (g : BitVec 4) (d a : BitVec 6) (o : BitVec 2) (n : BitVec 6) (s : State) : Out :=
  setS g d s fun c => shiftBy o (c.readS a) n.toNat
/-- SHI, 64-bit form (R196). -/
def execShiImm32 (g : BitVec 4) (d a : BitVec 6) (o : BitVec 2) (n : BitVec 6) (s : State) : Out :=
  setS g d s fun c => shiftBy o (c.readS a) n.toNat
/-- LDI, 32-bit form (R196). -/
def execLdi (g : BitVec 4) (d : BitVec 6) (i : BitVec 8) (s : State) : Out := setS g d s fun _ => i.signExtend 64
/-- LDI, 64-bit form (R196). -/
def execLdiImm32 (g : BitVec 4) (d : BitVec 6) (i : BitVec 32) (s : State) : Out := setS g d s fun _ => i.signExtend 64
/-- LDIH: imm32 above s[a][31:0] (R196). -/
def execLdih (g : BitVec 4) (d a : BitVec 6) (i : BitVec 32) (s : State) : Out :=
  setS g d s fun c => i ++ (c.readS a).setWidth 32
/-- CMP (R197). -/
def execCmp (g d : BitVec 4) (a b : BitVec 6) (c : BitVec 2) (s : State) : Out :=
  setP g d s fun k => compare c (k.readS a) (k.readS b)
/-- CMPI, 32-bit form (R197). -/
def execCmpi (g d : BitVec 4) (a : BitVec 6) (c : BitVec 2) (v : BitVec 6) (s : State) : Out :=
  setP g d s fun k => compare c (k.readS a) (v.signExtend 64)
/-- CMPI, 64-bit form (R197). -/
def execCmpiImm32 (g d : BitVec 4) (a : BitVec 6) (c : BitVec 2) (v : BitVec 30) (s : State) : Out :=
  setP g d s fun k => compare c (k.readS a) (v.signExtend 64)
/-- SEL (R198). -/
def execSel (g : BitVec 4) (d : BitVec 6) (p : BitVec 4) (b : BitVec 6) (x : BitVec 2) (s : State) : Out :=
  setS g d s fun c =>
    match x with
    | 0 => if c.readP p then c.readS b else c.readS d
    | 1 => if c.readP p then c.readS d else c.readS b
    | _ => if c.readP p then c.readS b else 0
/-- PLOG (R199). -/
def execPlog (g d a b : BitVec 4) (o : BitVec 2) (s : State) : Out :=
  setP g d s fun c =>
    match o with
    | 0 => c.readP a && c.readP b
    | 1 => c.readP a || c.readP b
    | 2 => c.readP a != c.readP b
    | _ => c.readP a && !c.readP b
/-- LEA, 32-bit form (R200). -/
def execLea (g : BitVec 4) (d a b : BitVec 6) (h : BitVec 2) (s : State) : Out :=
  setS g d s fun c => c.readS a + (c.readS b <<< h.toNat)
/-- LEA, 64-bit form (R200). -/
def execLeaImm32 (g : BitVec 4) (d a b : BitVec 6) (h : BitVec 2) (i : BitVec 32) (s : State) : Out :=
  setS g d s fun c => c.readS a + (c.readS b <<< h.toNat) + i.signExtend 64

end Sys2Proof.Machine
end

