-- ==== Sys2Proof/Machine/ScalarFp.lean ====
section
/-!
DEFINITION. Scalar FP64 arithmetic and conversions (R208 to R210).
-/
namespace Sys2Proof.Machine

/-- The rounding mode of FPCTL as it stood before the bundle (R156, R208). -/
def Core.rm (c : Core) : Round := Round.of ((c.snap.map Before.fpctl).getD c.fpctl).toNat

/-- A scalar read as FP64. -/
def Core.readF (c : Core) (f : BitVec 6) : Fp := decodeFp .fp64 (c.readS f).toNat

/-- The shape of a scalar floating-point instruction: its result written and its flags raised (R32, R209). -/
def setF (g : BitVec 4) (d : BitVec 6) (s : State) (v : Core → Nat × Flags) : Out :=
  ctlS g s fun s => (s.mapHere fun c => c.writeS d (BitVec.ofNat 64 (v c).1)).raise (v s.here).2

/-- An exact value rounded to FP64 in FPCTL's mode (R209). -/
def Core.round64 (c : Core) (x : Exact) : Nat × Flags := x.round .fp64 c.rm false

/-- FP64 bits with the sign reversed; a NaN stays the NaN of its class (R27). -/
def flip64 (v : Nat) : Nat := if (decodeFp .fp64 v).isNan then v else v ^^^ 2 ^ 63

/-- FADD: sum, difference, minimum or maximum (R209). -/
def execFadd (g : BitVec 4) (d a b : BitVec 6) (x : BitVec 2) (s : State) : Out :=
  setF g d s fun c =>
    match x with
    | 0 => c.round64 (exactAdd c.rm (c.readF a) (c.readF b))
    | 1 => c.round64 (exactAdd c.rm (c.readF a) (c.readF b).negate)
    | 2 => c.round64 (fpMinMax false (c.readF a) (c.readF b))
    | _ => c.round64 (fpMinMax true (c.readF a) (c.readF b))

/-- FMUL: the product, or its negation after rounding (R209). -/
def execFmul (g : BitVec 4) (d a b : BitVec 6) (x : BitVec 1) (s : State) : Out :=
  setF g d s fun c =>
    let r := c.round64 (exactMul (c.readF a) (c.readF b))
    if x = 0 then r else (flip64 r.1, r.2)

/-- FFMA: plus or minus the product, plus or minus s[d], rounded once (R209). -/
def execFfma (g : BitVec 4) (d a b : BitVec 6) (x : BitVec 2) (s : State) : Out :=
  setF g d s fun c =>
    let p := if x = 2 ∨ x = 3 then (c.readF a).negate else c.readF a
    let z := if x = 1 ∨ x = 3 then (c.readF d).negate else c.readF d
    c.round64 (exactFma c.rm p (c.readF b) z)

/-- FCMP (R209). -/
def execFcmp (g d : BitVec 4) (a b : BitVec 6) (x : BitVec 2) (s : State) : Out :=
  ctlS g s fun s =>
    let r := fpRelation x.toNat (s.here.readF a) (s.here.readF b)
    (s.mapHere fun c => c.writeP d r.1).raise r.2

/-- FCVT between FP64 and a type (R210). -/
def execFcvt (g : BitVec 4) (d a : BitVec 6) (t : BitVec 4) (x : BitVec 1) (s : State) : Out :=
  setF g d s fun c =>
    let v := (c.readS a).toNat
    if x = 0 then convertType t.toNat 0 (v % 2 ^ typeWidth t.toNat) c.rm false
    else
      let r := convertType 0 t.toNat v c.rm false
      (if typeSigned t.toNat then wrapInt 64 (decodeInt t.toNat r.1) else r.1, r.2)

/-- FDSQ: quotient or square root (R209). -/
def execFdsq (g : BitVec 4) (d a b : BitVec 6) (x : BitVec 1) (s : State) : Out :=
  setF g d s fun c =>
    c.round64 (if x = 0 then exactDiv (c.readF a) (c.readF b) else exactSqrt (c.readF a))

end Sys2Proof.Machine
end

