-- ==== Sys2Proof/Machine/Steward.lean ====
section
/-!
DEFINITION. The steward: bring-up and its failures, attestation, gates, the power cap, heat and supply, and the
management port (R327, R328, R351 to R359, R447 to R450).
-/
namespace Sys2Proof.Machine

/-! ## Power (R449) -/

/-- The package as power leaves it: only the module flash and the cause of the last power-off stay (R353, R449). -/
def State.unpowered (s : State) (cause : BitVec 8) (powered : Bool) : State :=
  { now := s.now, inbox := s.inbox, fresh := s.fresh, out := s.out
    stew := { firmware := s.stew.firmware, record := s.stew.record, lastoff := cause, powered := powered } }

/-- POWER_OFF: a normal power-off (R449). -/
def execPowerOff (s : State) : Out := .next (if s.stew.powered then s.unpowered 0 false else s)

/-- The cause of the emergency stop that a measurement demands, 0 where it demands none (R449). -/
def readingCause (r : Reading) : Nat :=
  match r with
  | .die _ t => if 1760 < t.toNat then 1 else 0
  | .inlet t => if 800 < t then 2 else 0
  | .flow q => if q < 1000 then 3 else 0
  | .supply v us => if (v < 40000 ∨ 60000 < v) ∧ 1000 < us then 4 else 0

/-- A die's temperature noted. -/
def State.setTemp (s : State) (die : Nat) (t : BitVec 16) : State :=
  { s with stew := { s.stew with temp := Table.set 0 s.stew.temp die t } }

/-- A measurement taken: one out of its bounds stops every clock, signals a fault on the management port and removes the
power, with its cause for LASTOFF (R449); none where the package goes on. -/
def State.measureStop (s : State) (r : Reading) : Option State :=
  if s.stew.powered ∧ readingCause r ≠ 0 then some ((s.unpowered (BitVec.ofNat 8 (readingCause r)) false).put? .powerFault) else none

/-! ## Bring-up (R353 to R355, R447) -/

/-- Bring-up stops at its step and the management port learns why (R447). -/
def State.haltBringUp (s : State) (code : Nat) : State :=
  { s with stew := { s.stew with halted := true } }.put? (.manage code)

/-- Byte `k` of the configuration record (R354). -/
def recByte (r : List Byte) (k : Nat) : Nat := (nthD 0 r k).toNat

/-- Bytes of the configuration record as a number. -/
def recField (r : List Byte) (k n : Nat) : Nat := ofBytes ((r.drop k).take n)

/-- The channels that a record retires (R354). -/
def recRetired (r : List Byte) (p : Nat) : Bool := (nthD 0 r (48 + p / 8)).getLsbD (p % 8)

/-- The live channels under a record (R101). -/
def recLive (r : List Byte) : List Nat := (List.range 384).filter fun p => !recRetired r p

/-- Whether a record is well formed (R354, R447). -/
def recordWf (r : List Byte) : Bool :=
  let zero (k n : Nat) : Bool := (List.range n).all fun j => recByte r (k + j) == 0
  let idx := recField r 28 2
  r.length == 320 && recField r 0 4 == 0x46434B53 && recField r 4 2 == 1 && zero 6 2 &&
    recField r 8 8 == Config.serial0.toNat && recField r 16 8 == Config.serial1.toNat &&
    decide (recByte r 24 < 4) && decide (idx % 16 ≤ recByte r 25) && decide (idx / 16 % 16 ≤ recByte r 26) &&
    decide (idx / 256 ≤ recByte r 27) && decide (idx < 2 ^ 13) && decide (recByte r 30 < 16) && zero 38 10 &&
    zero 96 96 && zero 306 14 && !(recLive r).isEmpty

/-- TOPO as a record gives it (R327). -/
def recTopo (r : List Byte) : Word :=
  BitVec.ofNat 64 (recByte r 27 % 32 * 2 ^ 40 + recByte r 26 % 16 * 2 ^ 36 + recByte r 25 % 16 * 2 ^ 32 + recField r 28 2 % 2 ^ 13)

/-- SCOPETAB as a record gives it (R115, R354). -/
def recScope (r : List Byte) : Word :=
  let hop (k : Nat) (d : Nat) : Nat := if (nthD 0 r 30).getLsbD (k - 3) then recByte r (28 + k) else d
  BitVec.ofNat 64 (hop 6 8 * 2 ^ 24 + hop 5 4 * 2 ^ 16 + hop 4 2 * 2 ^ 8 + hop 3 1)

/-- The ports connected to a neighbour in a torus: those of the dimensions larger than 1 (R328). -/
def connectedPorts (topo : Word) : List Nat :=
  let t := topo.toNat
  (List.range 6).filter fun k =>
    decide (0 < if k / 2 = 0 then bitsOf t 35 32 else if k / 2 = 1 then bitsOf t 39 36 else bitsOf t 44 40)

/-- The neighbour's index at a port (R328). -/
def neighbour (topo : Word) (port : Nat) : Nat :=
  let t := topo.toNat
  let size (k : Nat) : Nat := (if k = 0 then bitsOf t 35 32 else if k = 1 then bitsOf t 39 36 else bitsOf t 44 40) + 1
  let c := deviceCoords (t % 2 ^ 13)
  let move (k : Nat) : Nat :=
    let u := nthD 0 c k
    if port / 2 ≠ k then u else if port % 2 = 0 then (u + 1) % size k else (u + size k - 1) % size k
  move 0 + 16 * move 1 + 256 * move 2

/-- The management packet by which a device tells a neighbour its index and sizes (R330, R331, R355); the order of its payload bytes
is the model's (log 25). -/
def helloPacket (topo : Word) (port : Nat) : Packet :=
  let t := topo.toNat
  { dst := BitVec.ofNat 13 (neighbour topo port), src := BitVec.ofNat 13 t, lane := 3, kind := 10, len := 5
    data := toBytes 2 (t % 2 ^ 13) ++ [BitVec.ofNat 8 (bitsOf t 35 32), BitVec.ofNat 8 (bitsOf t 39 36),
      BitVec.ofNat 8 (bitsOf t 44 40)] }

/-- Steps 1 to 3 of bring-up, and the packets that step 4 sends (R353, R355, R447). -/
def State.bringUp (s : State) (badChannels : List Nat) : State :=
  let s := s.unpowered s.stew.lastoff true
  let fw := s.stew.firmware
  let r := s.stew.record
  if fw.isEmpty ∨ !Config.firmwareOk fw then s.haltBringUp 1
  else
    let s := { s with stew := { s.stew with fwdig := shakeWords 8 fw, phase := 1 } }
    if !Config.recordOk fw r then s.haltBringUp 2
    else if !recordWf r then s.haltBringUp 3
    else
      let s := { s with
        stew := { s.stew with cfgdig := shakeWords 8 r, inForce := r, pmode := BitVec.ofNat 2 (recByte r 24), phase := 2 }
        memr := { s.memr with live := recLive r } }
      if badChannels.any fun p => (recLive r).contains p then s.haltBringUp 4
      else
        let s := { s with stew := { s.stew with phase := 3 } }
        let hello := (connectedPorts (recTopo r)).map fun k => (k, helloPacket (recTopo r) k)
        { s with fab := { s.fab with outbox := hello } }

/-- BRING_UP: power-on or a module reset (R353). -/
def execBringUp (badChannels : List Nat) (s : State) : Out := .next (s.bringUp badChannels)

/-- Whether bring-up stands at step 4. -/
def Steward.discovering (w : Steward) : Bool := w.powered && w.phase == 3 && !w.halted

/-- MANAGEMENT_PACKET: what a neighbour reports at step 4 (R331, R355). -/
def execManagementPacket (port : BitVec 3) (index : BitVec 13) (sx sy sz : BitVec 8) (s : State) : Out :=
  let k := port.toNat
  if 6 ≤ k ∨ s.fab.down.getLsbD k ∨ !s.stew.powered then .next s
  else .next { s with stew := { s.stew with reports := Table.set none s.stew.reports k (some (index, sx, sy, sz)) } }

/-- Steps 4 and 5 of bring-up completed (R327, R353, R357). Of a CLKSTEP above 3 the low two bits count (DESIGN CHOICE, log
53). -/
def State.finishBringUp (s : State) : State :=
  let r := s.stew.inForce
  let step := recByte r 35 % 4
  let steps : Table Nat := if step = 0 then [] else [(0, step), (1, step), (2, step), (3, step)]
  { s with
    fab := { s.fab with topo := recTopo r, scopetab := recScope r }
    stew := { s.stew with
      phase := 5, up := true, pcap := BitVec.ofNat 16 (recField r 36 2), clkWritten := steps, clkStep := steps } }

/-- TORUS_DISCOVERY: once every connected port that is up has its neighbour's report, bring-up completes; a report that
does not match halts it (R355, R447). -/
def execTorusDiscovery (s : State) : Out :=
  if !s.stew.discovering then .next s
  else
    let topo := recTopo s.stew.inForce
    let t := topo.toNat
    let ports := (connectedPorts topo).filter fun k => !s.fab.down.getLsbD k
    let report (k : Nat) := Table.get none s.stew.reports k
    let good (k : Nat) : Bool := report k == some (BitVec.ofNat 13 (neighbour topo k), BitVec.ofNat 8 (bitsOf t 35 32),
      BitVec.ofNat 8 (bitsOf t 39 36), BitVec.ofNat 8 (bitsOf t 44 40))
    if ports.any fun k => (report k).isSome && !good k then .next (s.haltBringUp 5)
    else if ports.all good then .next s.finishBringUp
    else .next s

/-- PORT_TRAIN_TIMEOUT: a connected port that has not trained within 10 s of the start of step 4 is marked down (R447). -/
def execPortTrainTimeout (port : BitVec 3) (s : State) : Out :=
  if s.stew.discovering ∧ (connectedPorts (recTopo s.stew.inForce)).contains port.toNat then
    .next (s.portDown port.toNat)
  else .next s

/-! ## Attestation (R356) -/

/-- The measured pages of a context: those whose leaf has ATT, in ascending virtual address order (R95, R356). -/
def State.measured (s : State) (x : Nat) : Nat → Nat → Nat → List (Nat × Nat)
  | fuel, table, va =>
    (List.range (walkEntries fuel)).flatMap fun k =>
      let bs := s.bytesAt (table % 2 ^ 51 + 16 * k) 16
      let lo := BitVec.ofNat 64 (ofBytes (bs.take 8))
      let hi := BitVec.ofNat 64 (ofBytes (bs.drop 8))
      let va := va + k * 2 ^ walkShift fuel
      if !lo.getLsbD 0 then []
      else if lo.getLsbD 1 then
        if leafOk fuel lo hi && attrBit lo 18 then [(va, frameBytes (leafSize fuel))] else []
      else
        match fuel with
        | 0 => []
        | next + 1 => if s.tableOk hi.toNat next then State.measured s x next hi.toNat va else []

/-- The pages of a context that attestation measures. -/
def State.measuredPages (s : State) (x : Nat) : List (Nat × Nat) :=
  let root := (s.ctx x).ptbase.toNat
  if s.tableOk root 3 then s.measured x 3 root 0 else []

/-- A measured read that no other rule bounds: attestation reads whatever RD holds (R465). -/
def Need.measure : Need := { acc := 0 }

/-- The bytes of a measured page; what a failing part of it holds is free (log 26). -/
def State.measurePage (s : State) (a : Agent) (va n : Nat) : State × Except Halt (List Byte) :=
  (piecesOf 4096 va n).foldl (fun acc pc =>
    match acc with
    | (s, .error h) => (s, .error h)
    | (s, .ok bs) =>
      let v := BitVec.ofNat 64 pc.1
      match s.readSpan a Need.measure v pc.2 (fun v k p => polderLoadCheck a v k 0 p) with
      | (s, .ok more) => (s, .ok (bs ++ more))
      | (s, .error (.fault _)) =>
        let more := (List.range pc.2).map fun k => Config.freeByte (s.fresh + k)
        ({ s with fresh := s.fresh + pc.2 }, .ok (bs ++ more))
      | (s, .error h) => (s, .error h)) (s, .ok [])

/-- The steward at work for a report (R356): it reads as the digest engine reads outputs. -/
def State.stewardAgent (s : State) (x : Nat) : Agent :=
  { ctx := x, akind := 8, sup := true, got := s.stew.attFetched, issuer := some .steward }

/-- What the steward does when a read needs a peer's bytes: it sends the request, once, and waits. -/
def State.stewardAsk (s : State) (h : Halt) : State :=
  match h with
  | .ask pkt va =>
    if s.stew.attFetched.any fun f => f.addr == pkt.addr.toNat && f.len == pkt.len then s
    else
      let (s, tag) := s.send .steward va pkt
      { s with stew := { s.stew with
          attFetched := s.stew.attFetched ++ [{ tag := tag, addr := pkt.addr.toNat, len := pkt.len }] } }
  | _ => s

/-- The bytes of every measured page of a context. -/
def State.measure (s : State) (x : Nat) : State × Except Halt (List Byte) :=
  let a := s.stewardAgent x
  (s.measuredPages x).foldl (fun acc pg =>
    match acc with
    | (s, .error h) => (s, .error h)
    | (s, .ok bs) =>
      match s.measurePage a pg.1 pg.2 with
      | (s, .ok more) => (s, .ok (bs ++ more))
      | (s, .error h) => (s, .error h)) (s, .ok [])

/-- Exactly `n` bytes: the list cut, or followed by zeros. -/
def fitBytes (n : Nat) (bs : List Byte) : List Byte := (bs ++ List.replicate n 0).take n

/-- The queue entries of a report (R356). -/
def Ctx.reportQueues (c : Ctx) (mask : Nat) : List Byte :=
  fitBytes 640 (((List.range 16).filter fun q => mask.testBit q).flatMap fun q =>
    fitBytes 32 (c.queue q).hash ++ toBytes 8 (c.queue q).hseq.toNat)

/-- The bytes of a report before its signature (R356). -/
def State.reportBody (s : State) (x : Nat) (req pages : List Byte) : List Byte :=
  let mask := recField req 34 2
  req.take 32 ++ (List.range 4).flatMap (fun k => toBytes 8 (s.readIdentity (8 * k)).toNat) ++ fitBytes 64 s.stew.fwdig ++
    fitBytes 64 s.stew.cfgdig ++ fitBytes 32 (shake256 pages) ++ [BitVec.ofNat 8 x, 0] ++ toBytes 2 mask ++
    List.replicate 28 0 ++ (s.ctx x).reportQueues mask ++ List.replicate 14 0

/-- A report's bytes placed at a physical address: here, which ends the request, or at a peer, whose answer ends it
(R356). -/
def State.placeReport (s : State) (x gpa : Nat) (bs : List Byte) : State :=
  match s.place gpa with
  | .mem la => (s.homeWrite 0 x la bs).endReport
  | .peer dev =>
    let (s, tag) := s.send .steward (BitVec.ofNat 64 gpa)
      { dst := BitVec.ofNat 13 dev, kind := 1, ctx := BitVec.ofNat 6 x, len := bs.length
        addr := BitVec.ofNat 64 gpa, data := bs }
    { s with stew := { s.stew with attTags := [tag] } }
  | _ => s.endReport

/-- The 64 bytes of a request block, here or from a peer (R356). -/
def State.requestBlock (s : State) (gpa : Nat) : State × Except Halt (List Byte) :=
  let fail : Halt := .fault { code := 0x0306, addr := BitVec.ofNat 64 gpa }
  match s.place gpa with
  | .mem la =>
    match s.homeRead 0 la 64 with
    | (s, .error _) => (s, .error fail)
    | (s, .ok req) => (s, .ok req)
  | .peer dev =>
    let a := s.stewardAgent 0
    match a.received gpa 64 (BitVec.ofNat 64 gpa) 0 with
    | some r => (s, r)
    | none => (s, .error (.ask (s.request a 0 dev gpa 64 0 []) (BitVec.ofNat 64 gpa)))
  | _ => (s, .error fail)

/-- ATTESTATION_REPORT: the oldest request served, unless the steward restarts or its report awaits a peer (R356, R450); a
request block that cannot be read gives no report (log 26). A context byte above 63 is taken mod 64 and a report address is
rounded down to a multiple of 64 (DESIGN CHOICE, log 53). -/
def execAttestationReport (s : State) : Out :=
  match s.stew.attQueue with
  | [] => .next s
  | g :: _ =>
    if s.stew.restarting || !s.stew.attTags.isEmpty then .next s
    else
      match s.requestBlock g.toNat with
      | (s, .error (.fault _)) => .next s.endReport
      | (s, .error h) => .next (s.stewardAsk h)
      | (s, .ok req) =>
        let x := recByte req 32 % 64
        match s.measure x with
        | (s, .error h) => .next (s.stewardAsk h)
        | (s, .ok pages) =>
          let body := s.reportBody x req pages
          .next (s.placeReport x (recField req 40 8 / 64 * 64) (body ++ fitBytes 114 (Config.sign body)))

/-! ## Gates, the power cap and heat (R357 to R359, R448) -/

/-- CLUSTER_GATE_ENTRY: a marked cluster whose cores hold no task is gated (R358). -/
def execClusterGateEntry (die : BitVec 2) (cluster : BitVec 4) (s : State) : Out :=
  let d := die.toNat
  let k := cluster.toNat
  let idle := (List.range 4).all fun j =>
    let c := s.core (64 * d + 4 * k + j)
    c.task.isNone && c.draining.isNone
  if (Table.get 0 s.stew.clgate d).getLsbD k && idle then
    .next { s with stew := { s.stew with gated := Table.set 0 s.stew.gated d (setBit (Table.get 0 s.stew.gated d) k true) } }
  else .next s

/-- POWER_CAP_TICK: once a millisecond the steward raises every die's step above the cap, or lowers it below 95% of it, and
notes a change (R359). With its first tick a restart of the steward is over (R450, DESIGN CHOICE, log 54). -/
def execPowerCapTick (measured : BitVec 16) (s : State) : Out :=
  let w := s.stew
  let p := measured.toNat
  let cap := w.pcap.toNat
  let next (d : Nat) : Nat :=
    let k := Table.get 0 w.clkStep d
    if cap < p then min 3 (k + 1)
    else if p * 100 < cap * 95 then max (Table.get 0 w.clkWritten d) (k - 1)
    else k
  let steps := [0, 1, 2, 3].foldl (fun t d => Table.set 0 t d (next d)) w.clkStep
  if !w.up then .next s
  else
    let s := { s with stew := { w with pwrnow := measured, clkStep := steps, restarting := false } }
    .next (if steps = w.clkStep then s else s.devEvent 2)

/-- A die's temperature taken: above 100 °C the die is held at step 3, below 95 °C it is released (R448), above 110 °C the
package stops (R449). -/
def State.takeTemp (s : State) (die : BitVec 2) (temp : BitVec 16) : State :=
  match s.measureStop (.die die temp) with
  | some t => t
  | none =>
    let s := s.setTemp die.toNat temp
    if 1600 < temp.toNat ∧ s.stew.hot.getLsbD die.toNat = false then
      { s with stew := { s.stew with hot := setBit s.stew.hot die.toNat true } }.devEvent 4
    else if temp.toNat < 1520 then { s with stew := { s.stew with hot := setBit s.stew.hot die.toNat false } }
    else s

/-- EMERGENCY_STOP: a measurement out of its bounds stops the package (R449); a die's within them is one like any other (R448). -/
def execEmergencyStop (reading : Reading) (s : State) : Out :=
  .next (match reading with
    | .die d t => s.takeTemp d t
    | r => (s.measureStop r).getD s)

/-- THERMAL_THROTTLE (R448). -/
def execThermalThrottle (die : BitVec 2) (temp : BitVec 16) (s : State) : Out := .next (s.takeTemp die temp)

/-- THERMAL_RELEASE (R448). -/
def execThermalRelease (die : BitVec 2) (temp : BitVec 16) (s : State) : Out := .next (s.takeTemp die temp)

/-- STEWARD_WATCHDOG_EXPIRY (R450). -/
def execStewardWatchdogExpiry (s : State) : Out := .next (if s.stew.powered then s.stewardRestart else s)

/-! ## The management port (R352, R353) -/

/-- MANAGEMENT_PORT_ACCESS: a register read or written, new firmware or a new record placed in the module flash, or a
module reset (R352, R353, R447). -/
def execManagementPortAccess (acc : MgmtAccess) (s : State) : Out :=
  if !s.stew.powered then .next s
  else
    match acc with
    | .read addr => let (s, v) := s.readReg addr; .next (s.answer v)
    | .write addr value => .next (s.writeReg addr value)
    | .flashFirmware image => .next { s with stew := { s.stew with firmware := image } }
    | .flashRecord record => .next { s with stew := { s.stew with record := record } }
    | .moduleReset => .next (s.unpowered s.stew.lastoff true)

end Sys2Proof.Machine
end

