-- ==== Sys2Proof/Machine/System.lean ====
section
/-!
DEFINITION. Format words, safe points, launch, exit, CSRs and system operations (R223 to R231).
-/
namespace Sys2Proof.Machine

/-- FMT (R223, R388). -/
def execFmt (g : BitVec 4) (a : BitVec 6) (s : State) : Out :=
  ctlS g s fun s =>
    let c := s.here
    if 16 ≤ c.fmtq.length then s.fault { code := 0x0504, synd := BitVec.ofNat 64 c.fmtBefore }
    else s.setHere { c with fmtq := c.fmtq ++ [c.readS a] }

/-- A safe point (R74, R75, R224, R385): the live-map entry checked, its index kept, and the core to stop for a pending
pre-emption request at the bundle boundary that follows; no effect in a handler (R149). -/
def State.safePoint (s : State) (idx : Nat) : State :=
  let c := s.here
  let r := c.kernel
  if c.inHandler then s
  else if kLiveCnt r ≤ idx then s.fault { code := 0x0122, synd := BitVec.ofNat 64 idx }
  else
    match s.readBytes (s.control s.focus.toNat) (kLiveAddr r + BitVec.ofNat 64 (32 * idx)) 32 with
    | (s, .error h) => s.haltHere h
    | (s, .ok bs) =>
      if !liveOk (ofBytes bs) then s.fault { code := 0x0122, synd := BitVec.ofNat 64 idx }
      else
        s.mapHere fun c =>
          let c := { c with livemap := BitVec.ofNat 12 idx, liveEntry := BitVec.ofNat 256 (ofBytes bs) }
          if c.preemptAt.isSome && c.stopping == .no then { c with stopping := .soon } else c

/-- SAFEPT, 32-bit form (R224). -/
def execSafept (g : BitVec 4) (i : BitVec 8) (s : State) : Out := ctlS g s fun s => s.safePoint i.toNat

/-- SAFEPT, 64-bit form (R224). -/
def execSafeptImm32 (g : BitVec 4) (i : BitVec 32) (s : State) : Out := ctlS g s fun s => s.safePoint i.toNat

/-- LAUNCH: a release of scope PACKAGE, then a run appended (R79, R225). -/
def execLaunch (g : BitVec 4) (a b : BitVec 6) (s : State) : Out :=
  ctlS g s fun s => s.release 2 fun s =>
    let c := s.here
    s.trig ((c.ctx?.map BitVec.toNat).getD 0) ((c.readS b).toNat % 16) (c.readS a) 7 (some s.focus.toNat)

/-- EXIT: the control stream dispatches nothing further; the task leaves the running slot by R63 (R226). -/
def execExit (s : State) : Out :=
  .next (s.mapHere fun c => { c with
    exiting := true, npc := some (c.line, c.curSlot), exitAt := some (c.line, c.curSlot) })

/-- CORENUM (R229). -/
def coreNum (core : Nat) (x : Nat) : Word := BitVec.ofNat 64 (x * 2 ^ 8 + core)

/-- UISTAT (R147). -/
def UserInt.stat (u : UserInt) : Word :=
  BitVec.ofNat 64 (u.code.toNat * 2 ^ 32 + u.lost.toNat * 2 ^ 12 + u.pending.length % 16 * 2 ^ 8 +
    (if u.act then 2 else 0) + (if u.en then 1 else 0))

/-- How a CSR may be accessed (R6, R228). -/
inductive CsrKind where
  | reserved | ro | rw
  deriving DecidableEq, Repr

/-- The access of a CSR number (R228). -/
def csrKind (n : Nat) : CsrKind :=
  if n ≤ 5 ∨ n = 0x21 ∨ n = 0x22 ∨ (0x40 ≤ n ∧ n ≤ 0x43) ∨ (0x100 ≤ n ∧ n ≤ 0x12F) then .ro
  else if n ∈ [0x08, 0x10, 0x11, 0x18, 0x20, 0x28, 0x30, 0x31] then .rw
  else .reserved

/-- The value a CSR reads (R228). -/
def State.csrValue (s : State) (n : Nat) : Word :=
  let c := s.here
  let x := (c.ctx?.map BitVec.toNat).getD 0
  if n < 4 then (nthD 0 ((c.task.map Task.coords).getD []) n).setWidth 64
  else if n = 4 then BitVec.ofNat 64 c.level
  else if n = 5 then coreNum s.focus.toNat x
  else if n = 0x08 then c.fpctl.setWidth 64
  else if n = 0x10 then c.seed.setWidth 64
  else if n = 0x11 then (c.seed >>> 64).setWidth 64
  else if n = 0x18 then c.shape
  else if n = 0x20 then c.qcfg
  else if n = 0x21 then BitVec.ofNat 64 c.fmtq.length
  else if n = 0x22 then c.livemap.setWidth 64
  else if n = 0x28 then c.slset
  else if n = 0x30 then c.ui.vec
  else if n = 0x31 then c.ui.stat
  else if n < 0x44 then (c.engine (n - 0x40)).tl
  else s.slst s.focus.toNat (n - 0x100)

/-- A QCFG write: each queue whose field it changes is emptied (R130, R131). -/
def Core.writeQcfg (c : Core) (v : Word) : Core :=
  let v : Word := v &&& 0x0000FFFFFFFFFFFF
  let c' := { c with qcfg := v }
  (List.range 8).foldl (fun k q =>
    if bitsOf v.toNat (6 * q + 5) (6 * q) = bitsOf c.qcfg.toNat (6 * q + 5) (6 * q) then k else k.setQueueReg q []) c'

/-- An SLSET write (R127), checked by R385, R389 and R392. The barrier unit's count of the current phase, which COUNT
shows in barrier mode (R125), stays as it was (DESIGN CHOICE, log 81). An error in the sluice is written over (R408). -/
def State.writeSlset (s : State) (v : Word) : State :=
  let c := s.here
  let k := v.toNat % 64
  let barrier := v.getLsbD 15
  let ceil := bitsOf v.toNat 31 16
  if 48 ≤ k then s.fault { code := 0x010D, synd := v, aux := 2 }
  else if barrier && !kGang c.kernel then s.fault { code := 0x0505, synd := s.slst s.focus.toNat k }
  else if c.determinate && !barrier && decide (32 < ceil) then s.fault { code := 0x0606, synd := v }
  else
    s.setHere ((({ c with slset := v &&& 0xFFFF803F } : Core).softMend 3 [softSluice k]).setSluice k
      { ceil := BitVec.ofNat 16 ceil, barrier := barrier, gen := (c.sluice k).gen + 1 })

/-- A CSR given its new value, field by field (R6, R228). -/
def State.csrWrite (s : State) (n : Nat) (v : Word) : State :=
  if n = 0x08 then s.mapHere fun c => { c with fpctl := v.setWidth 2 }
  else if n = 0x10 then s.mapHere fun c => { c with seed := (c.seed.extractLsb' 64 64) ++ (v &&& ~~~(31 : Word)) }
  else if n = 0x11 then s.mapHere fun c => { c with seed := v ++ (c.seed.setWidth 64 : Word) }
  else if n = 0x18 then s.mapHere fun c => { c with shape := v &&& 0x0003FFFFFFFFFFFF }
  else if n = 0x20 then s.mapHere fun c => c.writeQcfg v
  else if n = 0x28 then s.writeSlset v
  else if n = 0x30 then s.mapHere fun c => { c with ui := { c.ui with vec := v &&& 0x01FFFFFFFFFFFFE0 } }
  else if n = 0x31 then s.mapHere fun c => { c with ui := { c.ui with en := v.getLsbD 0 } }
  else s

/-- The value of a CSR that an instruction reads: in a bundle, the one before it (R156, R227). -/
def State.csrOld (s : State) (n : Nat) : Word :=
  (((s.here.snap.map Before.csrs).getD []).find? fun e => e.1 == n).map Prod.snd |>.getD (s.csrValue n)

/-- What reading a CSR does: UISTAT.LOST is cleared (R147). -/
def State.csrRead (s : State) (n : Nat) : State :=
  if n = 0x31 then s.mapHere fun c => { c with ui := { c.ui with lost := 0 } } else s

/-- CSR (R227, R385, R408): the old value to s[d], and the new value that x selects; SLSTk of a sluice that holds an error
faults. -/
def execCsr (g : BitVec 4) (d a : BitVec 6) (x : BitVec 2) (n : BitVec 12) (s : State) : Out :=
  ctlS g s fun s =>
    let kind := csrKind n.toNat
    if kind = .reserved ∨ (kind = .ro ∧ x ≠ 0) then
      s.fault { code := 0x010C, synd := n.setWidth 64, aux := x.setWidth 64 }
    else if 0x100 ≤ n.toNat ∧ s.here.softHit 3 [softSluice (n.toNat - 0x100)] then s.fault (softFault 3)
    else
      let old := s.csrOld n.toNat
      let v := s.here.readS a
      let s := s.csrRead n.toNat
      let s := match x with
        | 0 => s
        | 1 => s.csrWrite n.toNat v
        | 2 => s.csrWrite n.toNat (old ||| v)
        | _ => s.csrWrite n.toNat (old &&& ~~~v)
      s.mapHere fun c => c.writeS d old

/-- SYS NOP: no effect (R231). -/
def execSysNop (_g : BitVec 4) (s : State) : Out := .next s

/-- SYS UIRET (R150, R231). -/
def execSysUiret (g : BitVec 4) (s : State) : Out := ctl g s fun c => c.leaveUint

/-- SYS PAUSE: a delay, and no other effect (R231). -/
def execSysPause (_g : BitVec 4) (s : State) : Out := .next s

end Sys2Proof.Machine
end

