-- ==== Sys2Proof/Machine/Dispatch.lean ====
section
/-!
DEFINITION. What each instruction and each step does: one arm per constructor, one direct call of its meaning.
-/
namespace Sys2Proof.Machine

/-- The meaning of every row of the opcode table. -/
def exec (i : Instr) (s : State) : Host.Outcome State Fault Refusal :=
  match i with
  | .add g d a b => Sys2Proof.Machine.execAdd g d a b s
  | .sub g d a b => Sys2Proof.Machine.execSub g d a b s
  | .mul g d a b => Sys2Proof.Machine.execMul g d a b s
  | .mulh g d a b u => Sys2Proof.Machine.execMulh g d a b u s
  | .div g d a b u => Sys2Proof.Machine.execDiv g d a b u s
  | .rem g d a b u => Sys2Proof.Machine.execRem g d a b u s
  | .and g d a b => Sys2Proof.Machine.execAnd g d a b s
  | .or g d a b => Sys2Proof.Machine.execOr g d a b s
  | .xor g d a b => Sys2Proof.Machine.execXor g d a b s
  | .andn g d a b => Sys2Proof.Machine.execAndn g d a b s
  | .shl g d a b => Sys2Proof.Machine.execShl g d a b s
  | .shr g d a b => Sys2Proof.Machine.execShr g d a b s
  | .sar g d a b => Sys2Proof.Machine.execSar g d a b s
  | .min g d a b u => Sys2Proof.Machine.execMin g d a b u s
  | .max g d a b u => Sys2Proof.Machine.execMax g d a b u s
  | .bitc g d a k => Sys2Proof.Machine.execBitc g d a k s
  | .addi g d a im => Sys2Proof.Machine.execAddi g d a im s
  | .addiImm32 g d a im => Sys2Proof.Machine.execAddiImm32 g d a im s
  | .logi g d a o v => Sys2Proof.Machine.execLogi g d a o v s
  | .logiImm32 g d a o v => Sys2Proof.Machine.execLogiImm32 g d a o v s
  | .shi g d a o n => Sys2Proof.Machine.execShi g d a o n s
  | .shiImm32 g d a o n => Sys2Proof.Machine.execShiImm32 g d a o n s
  | .ldi g d im => Sys2Proof.Machine.execLdi g d im s
  | .ldiImm32 g d im => Sys2Proof.Machine.execLdiImm32 g d im s
  | .ldih g d a im => Sys2Proof.Machine.execLdih g d a im s
  | .cmp g d a b c => Sys2Proof.Machine.execCmp g d a b c s
  | .cmpi g d a c v => Sys2Proof.Machine.execCmpi g d a c v s
  | .cmpiImm32 g d a c v => Sys2Proof.Machine.execCmpiImm32 g d a c v s
  | .sel g d p b x => Sys2Proof.Machine.execSel g d p b x s
  | .plog g d a b o => Sys2Proof.Machine.execPlog g d a b o s
  | .lea g d a b h => Sys2Proof.Machine.execLea g d a b h s
  | .leaImm32 g d a b h im => Sys2Proof.Machine.execLeaImm32 g d a b h im s
  | .br c n f => Sys2Proof.Machine.execBr c n f s
  | .jmp g a => Sys2Proof.Machine.execJmp g a s
  | .call c n f => Sys2Proof.Machine.execCall c n f s
  | .ret g a => Sys2Proof.Machine.execRet g a s
  | .loop g d a src k trip off => Sys2Proof.Machine.execLoop g d a src k trip off s
  | .pipeStart g a stages src k trip => Sys2Proof.Machine.execPipeStart g a stages src k trip s
  | .pipeTurn g off => Sys2Proof.Machine.execPipeTurn g off s
  | .fadd g d a b x => Sys2Proof.Machine.execFadd g d a b x s
  | .fmul g d a b x => Sys2Proof.Machine.execFmul g d a b x s
  | .ffma g d a b x => Sys2Proof.Machine.execFfma g d a b x s
  | .fcmp g d a b x => Sys2Proof.Machine.execFcmp g d a b x s
  | .fcvt g d a t x => Sys2Proof.Machine.execFcvt g d a t x s
  | .fdsq g d a b x => Sys2Proof.Machine.execFdsq g d a b x s
  | .ld g d a im => Sys2Proof.Machine.execLd g d a im s
  | .ldImm32 g d a im => Sys2Proof.Machine.execLdImm32 g d a im s
  | .ldx g d a b z => Sys2Proof.Machine.execLdx g d a b z s
  | .st g d a im => Sys2Proof.Machine.execSt g d a im s
  | .stImm32 g d a im => Sys2Proof.Machine.execStImm32 g d a im s
  | .lda g d a im sc => Sys2Proof.Machine.execLda g d a im sc s
  | .ldaImm32 g d a im sc => Sys2Proof.Machine.execLdaImm32 g d a im sc s
  | .stl g d a im sc => Sys2Proof.Machine.execStl g d a im sc s
  | .stlImm32 g d a im sc => Sys2Proof.Machine.execStlImm32 g d a im sc s
  | .amo g d a b opc sc ord size => Sys2Proof.Machine.execAmo g d a b opc sc ord size s
  | .amon g a b opc sc ord size => Sys2Proof.Machine.execAmon g a b opc sc ord size s
  | .cas g d a b sc ord size => Sys2Proof.Machine.execCas g d a b sc ord size s
  | .cadd g a b sc ord ft => Sys2Proof.Machine.execCadd g a b sc ord ft s
  | .fence g k sc => Sys2Proof.Machine.execFence g k sc s
  | .slwait g sc l n => Sys2Proof.Machine.execSlwait g sc l n s
  | .slsig g sc l n => Sys2Proof.Machine.execSlsig g sc l n s
  | .tlwait g a id sc => Sys2Proof.Machine.execTlwait g a id sc s
  | .tlarm g a b id => Sys2Proof.Machine.execTlarm g a b id s
  | .qrd g d q => Sys2Proof.Machine.execQrd g d q s
  | .qwr g q b => Sys2Proof.Machine.execQwr g q b s
  | .wfe g d => Sys2Proof.Machine.execWfe g d s
  | .sev g a x => Sys2Proof.Machine.execSev g a x s
  | .fmt g a => Sys2Proof.Machine.execFmt g a s
  | .safept g im => Sys2Proof.Machine.execSafept g im s
  | .safeptImm32 g im => Sys2Proof.Machine.execSafeptImm32 g im s
  | .launch g a b => Sys2Proof.Machine.execLaunch g a b s
  | .exit => Sys2Proof.Machine.execExit s
  | .csr g d a x n => Sys2Proof.Machine.execCsr g d a x n s
  | .sysNop g => Sys2Proof.Machine.execSysNop g s
  | .sysUiret g => Sys2Proof.Machine.execSysUiret g s
  | .sysPause g => Sys2Proof.Machine.execSysPause g s
  | .tld e => Sys2Proof.Machine.execTld e s
  | .tst e => Sys2Proof.Machine.execTst e s
  | .tldx e => Sys2Proof.Machine.execTldx e s
  | .tstx e => Sys2Proof.Machine.execTstx e s
  | .tldb e => Sys2Proof.Machine.execTldb e s
  | .gath e => Sys2Proof.Machine.execGath e s
  | .scat e => Sys2Proof.Machine.execScat e s
  | .scopy e => Sys2Proof.Machine.execScopy e s
  | .sfill e => Sys2Proof.Machine.execSfill e s
  | .pref e => Sys2Proof.Machine.execPref e s
  | .celladd e => Sys2Proof.Machine.execCelladd e s
  | .cellclr e => Sys2Proof.Machine.execCellclr e s
  | .cellrd e => Sys2Proof.Machine.execCellrd e s
  | .cellxc e => Sys2Proof.Machine.execCellxc e s
  | .brun e => Sys2Proof.Machine.execBrun e s
  | .aslw g l n => Sys2Proof.Machine.execAslw g l n s
  | .asls g l n => Sys2Proof.Machine.execAsls g l n s
  | .atlw g t sr => Sys2Proof.Machine.execAtlw g t sr s
  | .lput e => Sys2Proof.Machine.execLput e s
  | .lget e => Sys2Proof.Machine.execLget e s
  | .lsig e => Sys2Proof.Machine.execLsig e s
  | .lcell e => Sys2Proof.Machine.execLcell e s
  | .coll e => Sys2Proof.Machine.execColl e s
  | .lwaitc e => Sys2Proof.Machine.execLwaitc e s
  | .lbar e => Sys2Proof.Machine.execLbar e s
  | .lfence e => Sys2Proof.Machine.execLfence e s
  | .lnotify e => Sys2Proof.Machine.execLnotify e s
  | .lslw g l n => Sys2Proof.Machine.execLslw g l n s
  | .lsls g l n => Sys2Proof.Machine.execLsls g l n s
  | .ltlw g t sr => Sys2Proof.Machine.execLtlw g t sr s
  | .wld e => Sys2Proof.Machine.execWld e s
  | .wlds e => Sys2Proof.Machine.execWlds e s
  | .wswap e => Sys2Proof.Machine.execWswap e s
  | .wmm e => Sys2Proof.Machine.execWmm e s
  | .wmmt e => Sys2Proof.Machine.execWmmt e s
  | .wmms e => Sys2Proof.Machine.execWmms e s
  | .wmmst e => Sys2Proof.Machine.execWmmst e s
  | .wopa e => Sys2Proof.Machine.execWopa e s
  | .wopas e => Sys2Proof.Machine.execWopas e s
  | .wdrain e => Sys2Proof.Machine.execWdrain e s
  | .waclr e => Sys2Proof.Machine.execWaclr e s
  | .wprom e => Sys2Proof.Machine.execWprom e s
  | .wacc e => Sys2Proof.Machine.execWacc e s
  | .wmva e => Sys2Proof.Machine.execWmva e s
  | .wread e => Sys2Proof.Machine.execWread e s
  | .wslw g l n => Sys2Proof.Machine.execWslw g l n s
  | .wsls g l n => Sys2Proof.Machine.execWsls g l n s
  | .wtlw g t sr => Sys2Proof.Machine.execWtlw g t sr s
  | .vshape e => Sys2Proof.Machine.execVshape e s
  | .vld e => Sys2Proof.Machine.execVld e s
  | .vst e => Sys2Proof.Machine.execVst e s
  | .vbcast e => Sys2Proof.Machine.execVbcast e s
  | .vmov e => Sys2Proof.Machine.execVmov e s
  | .vadd e => Sys2Proof.Machine.execVadd e s
  | .vsub e => Sys2Proof.Machine.execVsub e s
  | .vmul e => Sys2Proof.Machine.execVmul e s
  | .vfma e => Sys2Proof.Machine.execVfma e s
  | .vfms e => Sys2Proof.Machine.execVfms e s
  | .vfnma e => Sys2Proof.Machine.execVfnma e s
  | .vdiv e => Sys2Proof.Machine.execVdiv e s
  | .vsqrt e => Sys2Proof.Machine.execVsqrt e s
  | .vmin e => Sys2Proof.Machine.execVmin e s
  | .vmax e => Sys2Proof.Machine.execVmax e s
  | .vabs e => Sys2Proof.Machine.execVabs e s
  | .vneg e => Sys2Proof.Machine.execVneg e s
  | .vcmp e => Sys2Proof.Machine.execVcmp e s
  | .vsel e => Sys2Proof.Machine.execVsel e s
  | .vcvt e => Sys2Proof.Machine.execVcvt e s
  | .vround e => Sys2Proof.Machine.execVround e s
  | .vexp e => Sys2Proof.Machine.execVexp e s
  | .vexp2 e => Sys2Proof.Machine.execVexp2 e s
  | .vlog e => Sys2Proof.Machine.execVlog e s
  | .vlog2 e => Sys2Proof.Machine.execVlog2 e s
  | .vrcp e => Sys2Proof.Machine.execVrcp e s
  | .vrsq e => Sys2Proof.Machine.execVrsq e s
  | .vtanh e => Sys2Proof.Machine.execVtanh e s
  | .vsigm e => Sys2Proof.Machine.execVsigm e s
  | .vsin e => Sys2Proof.Machine.execVsin e s
  | .vcos e => Sys2Proof.Machine.execVcos e s
  | .verf e => Sys2Proof.Machine.execVerf e s
  | .viadd e => Sys2Proof.Machine.execViadd e s
  | .visub e => Sys2Proof.Machine.execVisub e s
  | .vimul e => Sys2Proof.Machine.execVimul e s
  | .vmulhi e => Sys2Proof.Machine.execVmulhi e s
  | .vimin e => Sys2Proof.Machine.execVimin e s
  | .vimax e => Sys2Proof.Machine.execVimax e s
  | .viabs e => Sys2Proof.Machine.execViabs e s
  | .vand e => Sys2Proof.Machine.execVand e s
  | .vor e => Sys2Proof.Machine.execVor e s
  | .vxor e => Sys2Proof.Machine.execVxor e s
  | .vshl e => Sys2Proof.Machine.execVshl e s
  | .vshr e => Sys2Proof.Machine.execVshr e s
  | .vsar e => Sys2Proof.Machine.execVsar e s
  | .vicmp e => Sys2Proof.Machine.execVicmp e s
  | .vclz e => Sys2Proof.Machine.execVclz e s
  | .vpopc e => Sys2Proof.Machine.execVpopc e s
  | .vsat e => Sys2Proof.Machine.execVsat e s
  | .vred e => Sys2Proof.Machine.execVred e s
  | .vscan e => Sys2Proof.Machine.execVscan e s
  | .vtrans e => Sys2Proof.Machine.execVtrans e s
  | .vshift e => Sys2Proof.Machine.execVshift e s
  | .vrowg e => Sys2Proof.Machine.execVrowg e s
  | .vpack e => Sys2Proof.Machine.execVpack e s
  | .vunpk e => Sys2Proof.Machine.execVunpk e s
  | .vmxq e => Sys2Proof.Machine.execVmxq e s
  | .vmxd e => Sys2Proof.Machine.execVmxd e s
  | .vmask e => Sys2Proof.Machine.execVmask e s
  | .vclass e => Sys2Proof.Machine.execVclass e s
  | .vcopysgn e => Sys2Proof.Machine.execVcopysgn e s
  | .vldexp e => Sys2Proof.Machine.execVldexp e s
  | .vgetexp e => Sys2Proof.Machine.execVgetexp e s
  | .vslw g l n => Sys2Proof.Machine.execVslw g l n s
  | .vsls g l n => Sys2Proof.Machine.execVsls g l n s
  | .vtlw g t sr => Sys2Proof.Machine.execVtlw g t sr s
  | .lineFetch core => Sys2Proof.Machine.execLineFetch core s
  | .engineSlotDispatch core => Sys2Proof.Machine.execEngineSlotDispatch core s
  | .commandComplete core eng => Sys2Proof.Machine.execCommandComplete core eng s
  | .homeAcknowledgement core eng draining => Sys2Proof.Machine.execHomeAcknowledgement core eng draining s
  | .userInterruptEntry core => Sys2Proof.Machine.execUserInterruptEntry core s
  | .registerWrite who addr acc => Sys2Proof.Machine.execRegisterWrite who addr acc s
  | .trigWrite ctx queue value => Sys2Proof.Machine.execTrigWrite ctx queue value s
  | .runStart ctx queue => Sys2Proof.Machine.execRunStart ctx queue s
  | .kernelRelease ctx queue node => Sys2Proof.Machine.execKernelRelease ctx queue node s
  | .taskStart core => Sys2Proof.Machine.execTaskStart core s
  | .gangPlace die => Sys2Proof.Machine.execGangPlace die s
  | .gangReserve die => Sys2Proof.Machine.execGangReserve die s
  | .taskEnterDraining core => Sys2Proof.Machine.execTaskEnterDraining core s
  | .taskRetire core => Sys2Proof.Machine.execTaskRetire core s
  | .taskStop core => Sys2Proof.Machine.execTaskStop core s
  | .digestCompute ctx queue => Sys2Proof.Machine.execDigestCompute ctx queue s
  | .hashChain ctx queue => Sys2Proof.Machine.execHashChain ctx queue s
  | .hash0Read ctx queue => Sys2Proof.Machine.execHash0Read ctx queue s
  | .timelineWaitNode ctx queue node => Sys2Proof.Machine.execTimelineWaitNode ctx queue node s
  | .timelineSignalNode ctx queue node => Sys2Proof.Machine.execTimelineSignalNode ctx queue node s
  | .setLevelNode ctx queue node => Sys2Proof.Machine.execSetLevelNode ctx queue node s
  | .hostNotifyNode ctx queue node => Sys2Proof.Machine.execHostNotifyNode ctx queue node s
  | .subgraphCallNode ctx queue node => Sys2Proof.Machine.execSubgraphCallNode ctx queue node s
  | .collectiveNode ctx queue node => Sys2Proof.Machine.execCollectiveNode ctx queue node s
  | .preemptWrite ctx value => Sys2Proof.Machine.execPreemptWrite ctx value s
  | .sliceExpiry core => Sys2Proof.Machine.execSliceExpiry core s
  | .preemptDeadline core => Sys2Proof.Machine.execPreemptDeadline core s
  | .preemptSave core => Sys2Proof.Machine.execPreemptSave core s
  | .taskResume core => Sys2Proof.Machine.execTaskResume core s
  | .tlbinvWrite ctx value => Sys2Proof.Machine.execTlbinvWrite ctx value s
  | .tlbInvalidationComplete ctx => Sys2Proof.Machine.execTlbInvalidationComplete ctx s
  | .migrationSubmit value => Sys2Proof.Machine.execMigrationSubmit value s
  | .migrationBackgroundCopy slot granule => Sys2Proof.Machine.execMigrationBackgroundCopy slot granule s
  | .channelRetire value => Sys2Proof.Machine.execChannelRetire value s
  | .retirementFill => Sys2Proof.Machine.execRetirementFill s
  | .hotPageEpochEnd => Sys2Proof.Machine.execHotPageEpochEnd s
  | .hppopRead => Sys2Proof.Machine.execHppopRead s
  | .extentAdd pt entry base units => Sys2Proof.Machine.execExtentAdd pt entry base units s
  | .extentAccept pt entry => Sys2Proof.Machine.execExtentAccept pt entry s
  | .extentRelease pt entry => Sys2Proof.Machine.execExtentRelease pt entry s
  | .extentReleaseComplete pt entry => Sys2Proof.Machine.execExtentReleaseComplete pt entry s
  | .extentReleaseRequest pt entry => Sys2Proof.Machine.execExtentReleaseRequest pt entry s
  | .extentForcedRemoval pt entry => Sys2Proof.Machine.execExtentForcedRemoval pt entry s
  | .cxlLinkFailure pt => Sys2Proof.Machine.execCxlLinkFailure pt s
  | .extentReleaseTimeout pt entry => Sys2Proof.Machine.execExtentReleaseTimeout pt entry s
  | .vfbindWrite k value => Sys2Proof.Machine.execVfbindWrite k value s
  | .hostBar2Read port fn off len => Sys2Proof.Machine.execHostBar2Read port fn off len s
  | .hostBar2Write port fn off data => Sys2Proof.Machine.execHostBar2Write port fn off data s
  | .graphUpload ctx => Sys2Proof.Machine.execGraphUpload ctx s
  | .graphUploadComplete ctx => Sys2Proof.Machine.execGraphUploadComplete ctx s
  | .graphDrop ctx => Sys2Proof.Machine.execGraphDrop ctx s
  | .attestationRequest value => Sys2Proof.Machine.execAttestationRequest value s
  | .attestationReport => Sys2Proof.Machine.execAttestationReport s
  | .clockStepWrite die value => Sys2Proof.Machine.execClockStepWrite die value s
  | .clusterGateWrite die value => Sys2Proof.Machine.execClusterGateWrite die value s
  | .clusterGateEntry die cluster => Sys2Proof.Machine.execClusterGateEntry die cluster s
  | .powerCapTick measured => Sys2Proof.Machine.execPowerCapTick measured s
  | .thermalThrottle die temp => Sys2Proof.Machine.execThermalThrottle die temp s
  | .thermalRelease die temp => Sys2Proof.Machine.execThermalRelease die temp s
  | .emergencyStop reading => Sys2Proof.Machine.execEmergencyStop reading s
  | .stewardWatchdogExpiry => Sys2Proof.Machine.execStewardWatchdogExpiry s
  | .bringUp badChannels => Sys2Proof.Machine.execBringUp badChannels s
  | .torusDiscovery => Sys2Proof.Machine.execTorusDiscovery s
  | .portTrainTimeout port => Sys2Proof.Machine.execPortTrainTimeout port s
  | .managementPortAccess acc => Sys2Proof.Machine.execManagementPortAccess acc s
  | .gangRelaunch ctx queue node => Sys2Proof.Machine.execGangRelaunch ctx queue node s
  | .faultRecordWrite ctx => Sys2Proof.Machine.execFaultRecordWrite ctx s
  | .fqresumeResume ctx fseq => Sys2Proof.Machine.execFqresumeResume ctx fseq s
  | .fqresumeAbort ctx fseq => Sys2Proof.Machine.execFqresumeAbort ctx fseq s
  | .stoppedTaskResume ctx => Sys2Proof.Machine.execStoppedTaskResume ctx s
  | .stoppedTaskDiscard ctx => Sys2Proof.Machine.execStoppedTaskDiscard ctx s
  | .qfailHaltClear ctx queue value => Sys2Proof.Machine.execQfailHaltClear ctx queue value s
  | .freezeRelease value => Sys2Proof.Machine.execFreezeRelease value s
  | .freezeReset value => Sys2Proof.Machine.execFreezeReset value s
  | .frzpopRead => Sys2Proof.Machine.execFrzpopRead s
  | .cherrRead chan => Sys2Proof.Machine.execCherrRead chan s
  | .sramerrRead die => Sys2Proof.Machine.execSramerrRead die s
  | .migerrRead => Sys2Proof.Machine.execMigerrRead s
  | .nyerrRead port => Sys2Proof.Machine.execNyerrRead port s
  | .packetHop port pkt => Sys2Proof.Machine.execPacketHop port pkt s
  | .readRequest port pkt => Sys2Proof.Machine.execReadRequest port pkt s
  | .writeRequest port pkt => Sys2Proof.Machine.execWriteRequest port pkt s
  | .atomicRequest port pkt => Sys2Proof.Machine.execAtomicRequest port pkt s
  | .cellAddRequest port pkt => Sys2Proof.Machine.execCellAddRequest port pkt s
  | .counterAddRequest port pkt => Sys2Proof.Machine.execCounterAddRequest port pkt s
  | .notifyRequest port pkt => Sys2Proof.Machine.execNotifyRequest port pkt s
  | .readResponse port pkt => Sys2Proof.Machine.execReadResponse port pkt s
  | .acknowledgement port pkt => Sys2Proof.Machine.execAcknowledgement port pkt s
  | .negativeAcknowledgement port pkt => Sys2Proof.Machine.execNegativeAcknowledgement port pkt s
  | .reduceTerm port pkt => Sys2Proof.Machine.execReduceTerm port pkt s
  | .heldTermApply ctx cnt => Sys2Proof.Machine.execHeldTermApply ctx cnt s
  | .reduceForward port pkt => Sys2Proof.Machine.execReduceForward port pkt s
  | .managementPacket port index sx sy sz => Sys2Proof.Machine.execManagementPacket port index sx sy sz s
  | .reservedKindPacket port pkt => Sys2Proof.Machine.execReservedKindPacket port pkt s
  | .laneStop port lane => Sys2Proof.Machine.execLaneStop port lane s
  | .laneGo port lane => Sys2Proof.Machine.execLaneGo port lane s
  | .linkRetry flit => Sys2Proof.Machine.execLinkRetry flit s
  | .portDown port => Sys2Proof.Machine.execPortDown port s
  | .ackTimeout tag => Sys2Proof.Machine.execAckTimeout tag s
  | .bermRun ctrl => Sys2Proof.Machine.execBermRun ctrl s
  | .bermRunFinish ctrl => Sys2Proof.Machine.execBermRunFinish ctrl s
  | .powerOff => Sys2Proof.Machine.execPowerOff s

end Sys2Proof.Machine
end

