-- ==== Sys2Proof/Machine/Sram.lean ====
section
/-!
DEFINITION. Errors of the SRAMs outside a task's own state: caches, TLBs, and the tags and directories of the memory-side
caches (R408, R411, R429).
-/
namespace Sys2Proof.Machine

/-- A clean copy or a refetchable entry dropped, counted in DROP (R408, R411). -/
def State.sramDrop (s : State) (die : Nat) : State := s.sramCount die 31 16

/-- A 32-byte granule of memory poisoned by an SRAM that held it dirty, counted in UNC (R408, R411). -/
def State.sramPoison (s : State) (die la : Nat) : State := (s.setMark (s.memr.resolve la) 3).sramCount die 15 0

/-- A dirty 32-byte granule of a core's L1 data cache that an error has struck: written back poisoned, the bytes gone
(R408, R409). -/
def State.l1Poison (s : State) (core gpa : Nat) : State :=
  let base := gpa / 32 * 32
  let c := s.core core
  let (x, attr) := ((List.range 32).findSome? fun k => (c.l1 (base + k)).bind fun b =>
    if b.dirty then some (b.ctx, b.attr) else none).getD (0, 0)
  let s := (s.setCore core (c.dropRange base 32)).sramCount (core / 64) 15 0
  match s.place base with
  | .mem la => s.setMark (s.memr.resolve la) 3
  | .peer dev =>
    let (s, tag) := s.sendAfter (.stream core 0) (BitVec.ofNat 64 base)
      { dst := BitVec.ofNat 13 dev, kind := 1, ctx := x, len := 32, addr := BitVec.ofNat 64 base
        attr := attr, data := List.replicate 32 0, bad := [0] }
    s.setCore core { s.core core with postedTags := (s.core core).postedTags ++ [tag] }
  | _ => s

/-- One line of a memory-side cache lost with its tag: what it tracked as dirty is poisoned, and every L2 copy of it is
gone (R429). -/
def State.tagLost (s : State) (la : Nat) : State :=
  let key := s.memr.mscKey la
  match (Table.get [] s.memr.msc key).find? fun l => l.line == la / 256 with
  | none => s
  | some l =>
    let base := la / 256 * 256
    let m := { s.memr with msc := Table.set [] s.memr.msc key ((Table.get [] s.memr.msc key).filter (· != l)) }
    let m := [0, 1, 2, 3].foldl (fun m d =>
      [base, base + 128].foldl (fun m b =>
        let k := l2Key d b
        { m with l2 := Table.set [] m.l2 k ((Table.get [] m.l2 k).filter fun e => e.line != b / 128) }) m) m
    let s := { s with memr := m }
    let s := ((List.range 8).filter fun u => l.dirty.getLsbD u).foldl
      (fun s u => s.setMark (s.memr.resolve (base + 32 * u)) 3) s
    s.sramCount (s.memr.homeDie la) 15 0

/-- An SRAM error met (R408, R411, R429, R450): of a line of L2 or of a memory-side cache only the struck 32-byte granule is
lost, so a line whose other granules are dirty stays. -/
def State.sramMeet (s : State) (p : SramPlace) : State :=
  match p with
  | .single die => s.sramCount die 63 32
  | .l1i core gpa =>
    let c := s.core core
    (s.setCore core { c with l1i := c.l1i.filter fun e => e.1 != gpa }).sramDrop (core / 64)
  | .l1tlb core va =>
    let c := s.core core
    (s.setCore core { c with tlb := c.tlb.filter fun e => !(decide (e.base ≤ va) && decide (va < e.base + frameBytes e.size)) }).sramDrop
      (core / 64)
  | .l2tlb die va =>
    ({ s with l2tlb := Table.set [] s.l2tlb die ((s.l2 die).filter fun e =>
        !(decide (e.base ≤ va) && decide (va < e.base + frameBytes e.size))) }).sramDrop die
  | .walker die => s.sramDrop die
  | .l1d core gpa =>
    let c := s.core core
    let base := gpa / 32 * 32
    if !(c.dirtyIn base 32).isEmpty then s.l1Poison core gpa
    else if (List.range 32).any fun k => (c.l1 (base + k)).isSome then
      (s.setCore core (c.dropRange base 32)).sramDrop (core / 64)
    else s
  | .l2 die la =>
    match s.memr.l2Find die la with
    | none => s
    | some l =>
      let key := l2Key die la
      let rest := (Table.get [] s.memr.l2 key).filter (· != l)
      let unit := BitVec.ofNat 128 ((2 ^ 32 - 1) * 2 ^ (la % 128 / 32 * 32))
      let keep (ls : List L2Line) : State := { s with memr := { s.memr with l2 := Table.set [] s.memr.l2 key ls } }
      if l.dirty &&& unit ≠ 0 then (keep ({ l with dirty := l.dirty &&& ~~~unit } :: rest)).sramPoison die la
      else (keep (if l.dirty = 0 then rest else l :: rest)).sramDrop die
  | .msc la =>
    let key := s.memr.mscKey la
    match (Table.get [] s.memr.msc key).find? fun l => l.line == la / 256 with
    | none => s
    | some l =>
      let rest := (Table.get [] s.memr.msc key).filter (· != l)
      let u := la / 32 % 8
      let keep (ls : List MscLine) : State := { s with memr := { s.memr with msc := Table.set [] s.memr.msc key ls } }
      if l.dirty.getLsbD u then (keep ({ l with dirty := setBit l.dirty u false } :: rest)).sramPoison (s.memr.homeDie la) la
      else (keep (if l.dirty = 0 then rest else l :: rest)).sramDrop (s.memr.homeDie la)
  | .tag la => s.tagLost la
  | .steward => if s.stew.powered then s.stewardRestart else s

/-- The SRAM errors that stand, met (R408). -/
def State.sweepSram (s : State) : State := s.sram.foldl State.sramMeet { s with sram := [] }

end Sys2Proof.Machine
end

