-- ==== Sys2Proof/Machine/Start.lean ====
section
/-!
DEFINITION. Which run each engine instruction has, and the settling of every engine after a step: each idle engine
whose head is ready starts it, each started command that can go on goes on.
-/
namespace Sys2Proof.Machine

/-- The run of an engine command. -/
def runnerOf (i : Instr) : Option Runner :=
  match i with
  | .tld _ | .lget _ => some (loadRun false)
  | .tldx _ => some (loadRun true)
  | .tst _ => some (storeRun false)
  | .tstx _ => some (storeRun true)
  | .tldb _ => some multicastRun
  | .gath _ => some gatherRun
  | .scat _ => some scatterRun
  | .scopy _ => some scopyRun
  | .sfill _ => some sfillRun
  | .pref _ => some prefRun
  | .celladd _ => some cellAddRun
  | .cellclr _ => some cellClrRun
  | .cellrd _ => some (cellReadRun false)
  | .cellxc _ => some (cellReadRun true)
  | .brun _ => some brunRun
  | .lput _ => some lputRun
  | .lsig _ => some lsigRun
  | .lcell _ => some lcellRun
  | .coll _ => some collRun
  | .lwaitc _ => some lwaitcRun
  | .lbar _ => some lbarRun
  | .lfence _ => some lfenceRun
  | .lnotify _ => some lnotifyRun
  | .wld _ => some wldRun
  | .wlds _ => some wldsRun
  | .wswap _ => some wswapRun
  | .wmm _ => some (streamRun false false)
  | .wmmt _ => some (streamRun true false)
  | .wmms _ => some (streamRun false true)
  | .wmmst _ => some (streamRun true true)
  | .wopa _ => some (outerRun false)
  | .wopas _ => some (outerRun true)
  | .wdrain _ => some wdrainRun
  | .waclr _ => some waclrRun
  | .wprom _ => some wpromRun
  | .wacc _ => some waccRun
  | .wmva _ => some wmvaRun
  | .wread _ => some wreadRun
  | .vshape _ => some shapeRun
  | .vld _ => some vldRun
  | .vst _ => some vstRun
  | .vbcast _ => some broadcastRun
  | .vmov _ => some moveRun
  | .vsel _ => some selectRun
  | .vcvt _ => some convertRun
  | .vred _ => some reduceRun
  | .vscan _ => some scanRun
  | .vtrans _ => some transposeRun
  | .vshift _ => some shiftRun
  | .vrowg _ => some rowGatherRun
  | .vpack _ => some packRun
  | .vunpk _ => some unpackRun
  | .vmxq _ => some quantRun
  | .vmxd _ => some expandRun
  | .vmask _ => some maskRun
  | .vadd _ => some (elementRun (elementOf 0x95))
  | .vsub _ => some (elementRun (elementOf 0x96))
  | .vmul _ => some (elementRun (elementOf 0x97))
  | .vfma _ => some (elementRun (elementOf 0x98))
  | .vfms _ => some (elementRun (elementOf 0x99))
  | .vfnma _ => some (elementRun (elementOf 0x9A))
  | .vdiv _ => some (elementRun (elementOf 0x9B))
  | .vsqrt _ => some (elementRun (elementOf 0x9C))
  | .vmin _ => some (elementRun (elementOf 0x9D))
  | .vmax _ => some (elementRun (elementOf 0x9E))
  | .vabs _ => some (elementRun (elementOf 0x9F))
  | .vneg _ => some (elementRun (elementOf 0xA0))
  | .vcmp _ => some (elementRun (elementOf 0xA1))
  | .vround _ => some (elementRun (elementOf 0xA4))
  | .vexp _ => some (elementRun (elementOf 0xA5))
  | .vexp2 _ => some (elementRun (elementOf 0xA6))
  | .vlog _ => some (elementRun (elementOf 0xA7))
  | .vlog2 _ => some (elementRun (elementOf 0xA8))
  | .vrcp _ => some (elementRun (elementOf 0xA9))
  | .vrsq _ => some (elementRun (elementOf 0xAA))
  | .vtanh _ => some (elementRun (elementOf 0xAB))
  | .vsigm _ => some (elementRun (elementOf 0xAC))
  | .vsin _ => some (elementRun (elementOf 0xAD))
  | .vcos _ => some (elementRun (elementOf 0xAE))
  | .verf _ => some (elementRun (elementOf 0xAF))
  | .viadd _ => some (elementRun (elementOf 0xB0))
  | .visub _ => some (elementRun (elementOf 0xB1))
  | .vimul _ => some (elementRun (elementOf 0xB2))
  | .vmulhi _ => some (elementRun (elementOf 0xB3))
  | .vimin _ => some (elementRun (elementOf 0xB4))
  | .vimax _ => some (elementRun (elementOf 0xB5))
  | .viabs _ => some (elementRun (elementOf 0xB6))
  | .vand _ => some (elementRun (elementOf 0xB7))
  | .vor _ => some (elementRun (elementOf 0xB8))
  | .vxor _ => some (elementRun (elementOf 0xB9))
  | .vshl _ => some (elementRun (elementOf 0xBA))
  | .vshr _ => some (elementRun (elementOf 0xBB))
  | .vsar _ => some (elementRun (elementOf 0xBC))
  | .vicmp _ => some (elementRun (elementOf 0xBD))
  | .vclz _ => some (elementRun (elementOf 0xBE))
  | .vpopc _ => some (elementRun (elementOf 0xBF))
  | .vsat _ => some (elementRun (elementOf 0xC0))
  | .vclass _ => some (elementRun (elementOf 0xCB))
  | .vcopysgn _ => some (elementRun (elementOf 0xCC))
  | .vldexp _ => some (elementRun (elementOf 0xCD))
  | .vgetexp _ => some (elementRun (elementOf 0xCE))
  | _ => none

/-- The act of a standalone sync form (R168). -/
def syncAct (i : Instr) : Option (Nat → Nat → State → QEntry → Option (Except FaultInfo State)) :=
  match i with
  | .aslw _ l n | .wslw _ l n | .vslw _ l n | .lslw _ l n => some fun core eng => syncWait core eng l n
  | .asls _ l n | .wsls _ l n | .vsls _ l n | .lsls _ l n => some fun core eng => syncSignal core eng l n
  | .atlw _ t _ | .wtlw _ t _ | .vtlw _ t _ | .ltlw _ t _ => some fun core eng => syncTimeline core eng t
  | _ => none

/-- A command whose work is all issued leaves the engine free for the next (R133, R167), but an LWAITC or LBAR holds
the link stream until it has completed (R245). -/
def Engine.release (g : Engine) : Engine :=
  match g.started with
  | some st =>
    let holds := match st.entry.instr with
      | .lwaitc _ | .lbar _ => true
      | _ => false
    if st.done && st.fault.isNone && !holds then { g with started := none, flight := g.flight ++ [st] } else g
  | none => g

/-- One engine looked at once: its started command goes on, or its head starts. -/
def State.settleEngine (s : State) (core eng : Nat) : State :=
  let s := if (s.core core).active then
      s.setCore core ((s.core core).setEngine eng ((s.core core).engine eng).release) else s
  let c := s.core core
  let g := c.engine eng
  match g.started, g.queue with
  | some st, _ =>
    if st.done || st.fault.isSome || !(c.active || c.finishes st) then s
    else
      match runnerOf st.entry.instr with
      | some run => s.runStarted core eng run
      | none => s
  | none, q :: _ =>
    match syncAct q.instr, runnerOf q.instr with
    | some act, _ => s.takeSync core eng (act core eng)
    | none, some run => s.startHead core eng run
    | none, none => s
  | none, [] => s

/-- The engines of a core looked at in stream order (R128), as often as `fuel` says. -/
def State.settleCore (s : State) (core : Nat) : Nat → State
  | 0 => s
  | fuel + 1 =>
    let t := [0, 1, 2, 3].foldl (fun s e => s.settleEngine core e) s
    let left (s : State) : Nat := ([0, 1, 2, 3].map fun e => ((s.core core).engine e).queue.length).foldl (· + ·) 0
    if left t < left s then State.settleCore t core fuel else t

/-- Every core's engines settled, at the end of every step: so an engine always makes progress on a command whose sluice wait
is satisfied (R67). -/
def State.settle (s : State) : State :=
  s.cores.foldl (fun t e => if e.2.task.isSome && !e.2.frozen then t.settleCore e.1 (4 * queueDepth) else t) s

end Sys2Proof.Machine
end

