-- ==== Sys2Proof/Machine/Unit.lean ====
section
/-!
DEFINITION. Running one dispatch unit (R155 to R160, R192, R380), what a core's control stream does next, and which
step of the machine follows when it cannot move.
-/
namespace Sys2Proof.Machine

/-- A unit as far as its slots have run: the state, the fault of the lowest slot, whether a slot waits before the unit
or the queue is full, the slots that hold completion, those of them whose request for a value is unanswered, and the engine
slots dispatched. -/
structure UnitRun where
  s : State
  fault : Option FaultInfo := none
  before : Bool := false
  full : Bool := false
  holds : List Slot := []
  asks : List Slot := []
  sent : Nat := 0

/-- The acting core made ready for a slot. -/
def slotStart (s : State) (x : Slot) : State :=
  s.mapHere fun c => { c with curSlot := x.num, blocked := none }

/-- The fault of the lower slot. -/
def lowerFault (a : Option FaultInfo) (f : FaultInfo) : Option FaultInfo :=
  match a with
  | none => some f
  | some g => if f.slot < g.slot then some f else some g

/-- A core given back the fault that was pending before a slot ran; the slot's own stands after it (R381). -/
def Core.keepPend (c : Core) (kept : Option FaultInfo) : Core :=
  match kept, c.pend with
  | some f, some g => { c with pend := some f }.faultAt g
  | some f, none => { c with pend := some f }
  | none, _ => c

/-- Whether a slot has been executed before its unit completes. -/
def Core.isEarly (c : Core) (x : Slot) : Bool := c.early.any fun e => e.slot == x.num

/-- A slot that has executed early: its registers are as before the unit, and the value of its scalar is kept until the
unit completes (R156, R192). -/
def Core.keepEarly (c : Core) (old : Core) (x : Slot) (i : Instr) : Core :=
  let v := ({ c with snap := none } : Core).readS (earlyDest i).2
  { c with
    regs := old.regs, blocked := none
    early := c.early ++ [{ slot := x.num, value := v, access := c.accesses != old.accesses }] }

/-- What an early slot has left to do when its unit completes: its scalar is written, in slot order (R156). -/
def Core.writeEarly (c : Core) (x : Slot) : Core :=
  match x.what, c.early.find? fun e => e.slot == x.num with
  | .ok i, some e => if c.readP (earlyDest i).1 then c.writeS (earlyDest i).2 e.value else c
  | _, _ => c

/-- Whether a slot's request for a value is unanswered. -/
def Core.asks (c : Core) (x : Slot) : Bool :=
  c.held.any fun h => h.slot == x.num && h.ask.got.isNone && h.ask.err.isNone

/-- One slot of a unit run: its effect joins the unit unless it faults, waits or holds. With `early` its register write
waits for the unit's completion. -/
def UnitRun.slot (r : UnitRun) (x : Slot) (early : Bool := false) : Host.Outcome UnitRun Fault Refusal :=
  match x.what with
  | .error _ => .next r
  | .ok i =>
    let c0 := r.s.here
    match exec i (slotStart (r.s.mapHere fun c => { c with pend := none }) x) with
    | .fault f => .fault f
    | .refused f => .refused f
    | .next t =>
      let c := t.here
      let unitFault := match c.pend with | some f => f.akind == 0 && !f.late | none => false
      if unitFault then .next { r with fault := match c.pend with | some f => lowerFault r.fault f | none => r.fault }
      else if c.frozen then .next { r with holds := r.holds ++ [x] }
      else
        match c.blocked with
        | some .before => .next { r with before := true }
        | some .queueFull => .next { r with s := t.mapHere fun c => c.keepPend c0.pend, full := true }
        | some .hold =>
          .next { r with holds := r.holds ++ [x], asks := if awaitsValue i && c.asks x then r.asks ++ [x] else r.asks }
        | none =>
          let d := c.keepPend c0.pend
          .next { r with
            s := t.setHere (if early then d.keepEarly c0 x i else d)
            sent := if slotEngine x then r.sent + 1 else r.sent }

/-- Slots of a unit run in address order, while `go` admits them; a full queue stops the dispatch of the rest (R157). -/
def UnitRun.slots (go : UnitRun → Slot → Option Bool) (r : UnitRun) : List Slot → Host.Outcome UnitRun Fault Refusal
  | [] => .next r
  | x :: xs =>
    if r.full then .next r
    else
      match go r x with
      | none => UnitRun.slots go r xs
      | some early =>
        match r.slot x early with
        | .next r => UnitRun.slots go r xs
        | .fault f => .fault f
        | .refused f => .refused f

/-- Whether a slot waits before its unit and has not been taken (R192). -/
def goWait (r : UnitRun) (x : Slot) : Option Bool :=
  if r.s.here.isEarly x then none
  else match x.what with | .ok i => if waitsBefore i then some true else none | .error _ => none

/-- The waits of a unit, all of which must hold in one cycle (R192): one that another of them satisfies is looked at again, as
a push precedes a pop of the same cycle and a pop frees an entry for a push (R131). -/
def UnitRun.waits : Nat → UnitRun → List Slot → Host.Outcome UnitRun Fault Refusal
  | 0, r, _ => .next r
  | n + 1, r, xs =>
    match UnitRun.slots goWait { r with before := false } xs with
    | .next r => if r.before then UnitRun.waits n r xs else .next r
    | o => o

/-- What every slot of a unit sees: the state as it stood before the unit, which a split or held unit keeps until it ends
(R156, R170, R227). -/
def State.unitBefore (s : State) (unit : List Slot) : Before :=
  let c := s.here
  let csrs := unit.filterMap fun x =>
    match x.what with
    | .ok (.csr _ _ _ _ n) => some (n.toNat, s.csrValue n.toNat)
    | _ => none
  let now : Before := { regs := c.regs, act := c.ui.act, fpctl := c.fpctl, latch := c.latch, csrs := csrs }
  if c.unitDone = 0 ∧ c.early = [] then now else { c.unitSnap.getD now with regs := c.regs }

/-- Whether a slot is dispatched, or is a control access to the scratchpad, which completes before any later slot
dispatches (R68, R157): the access number shows it. -/
def goDispatch (r : UnitRun) (x : Slot) : Option Bool :=
  if slotEngine x then some false
  else if r.s.here.isEarly x then none
  else
    match x.what with
    | .error _ => none
    | .ok i =>
      if !isLoadStore i then none
      else
        match exec i (slotStart (r.s.mapHere fun c => { c with pend := none }) x) with
        | .next t => if t.here.accesses != r.s.here.accesses then some true else none
        | _ => none

/-- The completion of a unit's control slots, in slot address order (R156, R192). -/
def UnitRun.complete (r : UnitRun) : List Slot → Host.Outcome UnitRun Fault Refusal
  | [] => .next r
  | x :: xs =>
    if r.s.here.isEarly x then UnitRun.complete { r with s := r.s.mapHere fun c => c.writeEarly x } xs
    else
      match r.slot x with
      | .next r => UnitRun.complete r xs
      | .fault f => .fault f
      | .refused f => .refused f

/-- The end of a unit that has taken its effect: the pc moves on, and an enabled flag traps (R160, R386); `act` is
UISTAT.ACT before it. Where empty slots follow, the slot number that h0, a record or an image then holds is that of the slot
right after the unit (DESIGN CHOICE, log 94). -/
def State.endUnit (s : State) (next : Nat) (act : Bool := false) : State :=
  let c := s.here
  let x := (c.ctx?.map BitVec.toNat).getD 0
  let pc := match c.npc with
    | some p => p
    | none => if next ≤ 7 then (c.line, next) else (c.line + 32, 1)
  let trap := c.flagsRaised &&& (s.ctx x).trapEn
  let d := { c with npc := none, line := pc.1, slot := pc.2, snap := none, unitSnap := none, blocked := none, held := []
                    unitDone := 0
                    early := [], entered := c.npc.isSome, exitAt := if c.exiting || act then c.exitAt else none
                    flagsRaised := 0 }
  let d := if trap = 0 then d
    else d.faultAt { code := 0x0201, synd := c.flagsRaised.setWidth 64, res := true, line := c.line, slot := c.flagSlot
                     once := true }
  s.setHere d

/-- A unit whose completion is held (R192): its posted slots are issued and stay done; the slots that hold have sent their
requests, with nothing else of them done; every other slot waits for the completion. -/
def issueSlots (s : State) (holds : List Slot) : List Slot → State
  | [] => s
  | x :: xs =>
    let posted := match x.what with | .ok i => isPosted i | .error _ => false
    if s.here.isEarly x || !(posted || holds.any fun h => h.num == x.num) then issueSlots s holds xs
    else
      match x.what with
      | .error _ => issueSlots s holds xs
      | .ok i =>
        match exec i (slotStart s x) with
        | .next t =>
          if t.here.blocked.isSome || t.here.frozen then
            issueSlots (t.mapHere fun c => { c with regs := s.here.regs, blocked := none }) holds xs
          else if posted then issueSlots (t.setHere (t.here.keepEarly s.here x i)) holds xs
          else issueSlots s holds xs
        | _ => issueSlots s holds xs

/-- What a slot leaves that only sends the request for its value: its registers are as they were. `alone` is the slot executed
on the state before its unit. -/
def State.sendRead (s : State) (x : Slot) : State :=
  let alone (s : State) : Option State :=
    match x.what with
    | .error _ => none
    | .ok i =>
      match exec i (slotStart s x) with
      | .next t =>
        if t.here.blocked = some .hold ∨ t.here.frozen then
          some (t.mapHere fun c => { c with regs := s.here.regs, blocked := none })
        else none
      | _ => none
  -- an acquire of the unit's own waits may have dropped the bytes that would answer the read here
  ((alone s).orElse fun _ => alone (s.mapHere Core.dropClean)).getD s

/-- Whether a slot, alone on the state before its unit, is held without a request: it waits for something of an earlier
unit. -/
def State.heldAlone (s : State) (x : Slot) : Bool :=
  match x.what with
  | .error _ => false
  | .ok i =>
    match exec i (slotStart s x) with
    | .next t => (t.here.blocked == some .hold || t.here.frozen) && !t.here.asks x
    | _ => false

/-- Whether a slot is an atomic that returns a value. -/
def slotReturns (x : Slot) : Bool := match x.what with | .ok i => returnsOld i | .error _ => false

/-- Whether a slot awaits a value from memory. -/
def slotAwaits (x : Slot) : Bool := match x.what with | .ok i => awaitsValue i | .error _ => false

/-- The slots that await values from peers and wait for no other slot of their unit. -/
def UnitRun.free (r : UnitRun) (s : State) : List Slot :=
  r.holds.filter fun x => slotAwaits x && (r.asks.any (fun y => y.num == x.num) || s.heldAlone x)

/-- The look ahead of a slot: its answer, or that it is under way. -/
def Core.look (c : Core) (x : Slot) : Option Fetched := (c.held.find? fun h => h.slot == x.num + 8).map HeldLoad.ask

/-- What a unit asks of peers before any of its slots takes effect, so that a refusal leaves it undone (R380, DEDUCED, log
86): first its loads, all at once; then a look at the bytes of every other slot that awaits a value, a load that waits for a
store of its own unit or an atomic but the first; then one atomic after the other, once every queue has room. -/
inductive Reads where
  | loads (xs : List Slot)
  | looks (xs : List Slot)
  | atomic (x : Slot)
  | none

/-- What a unit asks next, `full` when a queue has no room. -/
def UnitRun.reads (r : UnitRun) (s : State) (full : Bool) : Reads :=
  let free := r.free s
  let loads := free.filter fun x => !slotReturns x
  let atomics := free.filter slotReturns
  let later := (r.holds.filter fun x => slotAwaits x && !free.any fun y => y.num == x.num) ++
    if full then atomics else atomics.drop 1
  let looks := later.filter fun x => match s.here.look x with | some a => a.got.isNone | none => true
  if !loads.isEmpty then .loads loads
  else if !looks.isEmpty then .looks looks
  else match full, atomics with
    | false, x :: _ => .atomic x
    | _, _ => .none

/-- A look at the bytes that a slot will ask a peer for: a read of just those, sent once; a load in a peer's control space,
which may change what it reads, is not looked at (R380, log 86). -/
def State.lookAt (s : State) (x : Slot) : State :=
  let note (s : State) (f : Fetched) : State := s.mapHere fun c => { c with held := c.held ++ [{ slot := x.num + 8, ask := f }] }
  let t := s.sendRead x
  match x.what, (if t.fab.nextTag = s.fab.nextTag then none else t.fab.requests.getLast?) with
  | .error _, _ => s
  | .ok i, some r =>
    if (s.here.look x).isSome then s
    else if !returnsOld i && inControl r.addr then note s { tag := r.tag, addr := r.addr, len := r.len, got := some [] }
    else
      let line : Bool := r.len = 128
      let (u, tag) := (slotStart s x).send (.stream s.focus.toNat 0) r.va {
        dst := BitVec.ofNat 13 r.dst, kind := 0, ctx := BitVec.ofNat 6 r.ctx, attr := r.attr
        addr := BitVec.ofNat 64 (r.addr + if line then r.va.toNat % 128 else 0)
        len := if returnsOld i then r.span else if line then loadBytes i else r.len
        beside := { plain := !returnsOld i } }
      note u { tag := tag, addr := r.addr, len := r.len }
  | .ok _, none => if s.heldAlone x || (s.here.look x).isSome then s else note s { tag := 0, addr := 0, len := 0, got := some [] }

/-- The acting core with every engine's queue emptied, on which a whole unit is checked (R380). -/
def State.roomy (s : State) : State :=
  s.mapHere fun c => { c with eng := c.eng.map fun e => (e.1, { e.2 with queue := [] }) }

/-- The waits and dispatches of a unit (R68, R157, R192): the waits before it, then in address order its engine slots and
control accesses. -/
def UnitRun.dispatch (s : State) (unit : List Slot) : Host.Outcome UnitRun Fault Refusal :=
  let c := s.here
  let s := s.setHere { c with snap := none, fmtBefore := if c.unitDone = 0 then c.fmtq.length else c.fmtBefore }
  let s := if unit.length ≤ 1 then s
    else s.mapHere fun c => { c with snap := some (s.unitBefore unit), unitSnap := some (s.unitBefore unit) }
  match UnitRun.waits 3 { s := s } (unit.filter slotControl) with
  | .fault f => .fault f
  | .refused f => .refused f
  | .next r => UnitRun.slots goDispatch r (skipSent c.unitDone unit)
where
  /-- The slots of a unit without the first `n` engine slots. -/
  skipSent : Nat → List Slot → List Slot
    | _, [] => []
    | 0, xs => xs
    | n + 1, x :: xs => if slotEngine x then skipSent n xs else x :: skipSent (n + 1) xs

/-- The fault of a unit's lowest faulting slot: `enc` of an encoding, `f` of an operand or condition (R380). -/
def unitFault (enc f : Option FaultInfo) : Option FaultInfo :=
  match enc, f with
  | some e, some g => if e.slot ≤ g.slot then some e else some g
  | some e, none => some e
  | none, g => g

/-- A unit that waits before it runs gives up the values that its loads have received, which it asks for again; one whose
atomic has been performed stays held (R192, log 86). -/
def State.waitUnit (s : State) (unit : List Slot) : State :=
  let performed := unit.any fun x => slotReturns x && s.here.held.any fun h => h.slot == x.num
  if performed then s.block .hold else (s.mapHere fun c => { c with held := [] }).block .before

/-- A dispatch unit (R380): every slot checked on the state it would see, then all of it done or none. What it reads from
peers it asks for first. A full queue splits its dispatch; every slot has then been checked as if the queue had room
(R157). -/
def runUnit (s : State) (hdr : BitVec 32) (unit : List Slot) : Out :=
  let controls := unit.filter fun x => !slotEngine x
  let enc := (unit.filterMap (slotFault hdr unit)).head?
  let finish (r : UnitRun) : Host.Outcome UnitRun Fault Refusal := if r.full then .next r else r.complete controls
  match UnitRun.dispatch s unit with
  | .fault f => .fault f
  | .refused f => .refused f
  | .next r1 =>
    let whole := if r1.full then
        match UnitRun.dispatch s.roomy unit with
        | .next r => finish r
        | o => o
      else finish r1
    match whole with
    | .fault f => .fault f
    | .refused f => .refused f
    | .next r =>
      let waiting := r.before && enc.isNone && !(match r.fault with | some f => waitSlot unit f.slot | none => false)
      if waiting then .next (s.waitUnit unit)
      else
        match unitFault enc r.fault with
        | some f =>
          let f := { f with line := s.here.line }
          .next ((s.found f).mapHere fun c => { c with blocked := none }.faultAt f)
        | none =>
          let held (s : State) : Out := .next (s.mapHere fun c => { c with snap := none, blocked := some .hold })
          match r.reads s r1.full with
          | .loads xs => held (xs.foldl State.sendRead s)
          | .looks xs => held (xs.foldl State.lookAt s)
          | .atomic x => held (s.sendRead x)
          | .none =>
          if r1.full then
            .next (r1.s.mapHere fun c => { c with
              snap := none, blocked := some .queueFull, unitDone := c.unitDone + r1.sent })
          else if r.holds.isEmpty then .next (r.s.endUnit (unitEnd unit) s.here.ui.act)
          else
            .next ((issueSlots r1.s r.holds controls).mapHere fun c => { c with
              snap := none, blocked := some .hold, unitDone := (unit.filter slotEngine).length })
where
  /-- Whether the slot of a fault is one of the instructions that wait before their unit (R192). -/
  waitSlot (unit : List Slot) (k : Nat) : Bool :=
    unit.any fun x => x.num == k && decide ((CR.unpack x.word).op.toNat ∈ [0x31, 0x33, 0x35, 0x36, 0x37])

/-- The unit that a core's control stream runs next: an EXIT whose bundle has run otherwise runs alone (R192). -/
def Core.nextUnit (c : Core) (line : List Byte) : List Slot :=
  let xs := (decodeLine line).filter fun x => decide (c.slot ≤ x.num)
  if c.exitAt = some (c.line, c.slot) then xs.take 1 else takeUnit xs

/-- What the focused core's control stream does: at a bundle boundary it stops for a safe point executed before it, takes an
interrupt, or stops for a pre-emption whose deadline has passed (R74, R148, R158, R224); else it fetches its line and runs the next unit. Where SYS UIRET left slot
number 0 or that of a continuation, it goes on at the first instruction slot at or after that number (DESIGN CHOICE,
log 80). -/
def stepControl (s : State) : Out :=
  let k := s.focus.toNat
  if s.here.stopping == .soon && s.here.preemptAt.isSome && s.atBoundary k then exec (.preemptSave s.focus) s
  else if s.here.uintReady && s.atBoundary k then exec (.userInterruptEntry s.focus) s
  else if s.deadlineDue k then exec (.preemptDeadline s.focus) s
  else
    match s.fetchLine k with
    | (s, .error h) => .next (s.fetchHalt k h)
    | (s, .ok line) =>
      let hdr := lineWord line 0
      let c := s.here
      if headerLctl hdr ≠ 0 then
        .next (s.setHere (c.faultAt { code := 0x0103, synd := hdr.setWidth 64, line := c.line, slot := 0 }))
      else
        match c.nextUnit line with
        | [] => .next (s.setHere { c with line := c.line + 32, slot := 1, entered := false })
        | u => runUnit s hdr u

/-- Something that the machine does beside a control stream. -/
abbrev Move := State → Out

/-- The first of some moves that changes the state; none of them leaves it as it is. -/
def firstMove (s : State) : List Move → Out
  | [] => .next s
  | m :: ms =>
    match m s with
    | .next t => if t = s then firstMove s ms else .next t
    | r => r

/-- What a core does beside its control stream: acknowledgements arrive, commands complete, and its task stops, is
saved, drains or retires (R63, R74, R81, R133, R379). A frozen core does nothing (R445). -/
def coreMoves (k : BitVec 8) (c : Core) : List Move :=
  let eng (e : Nat) : List Move :=
    let g := c.engine e
    let all := g.flight ++ g.started.toList
    (if all.any Started.homeAck then [execHomeAcknowledgement k (BitVec.ofNat 3 e) false] else []) ++
      (if (all.head?.map Started.complete).getD false then [execCommandComplete k (BitVec.ofNat 2 e)] else [])
  let old := ((c.draining.map Draining.work).getD []).filter Outstanding.homeAck
  if c.frozen then []
  else
    [0, 1, 2, 3].flatMap eng ++
      (if c.posted then [execHomeAcknowledgement k 4 false] else []) ++
      old.map (fun w => execHomeAcknowledgement k (BitVec.ofNat 3 (if w.stream = 0 then 4 else w.stream - 1)) true) ++
      (if c.pend.isSome then [execTaskStop k] else if c.stopping != .no then [execPreemptSave k] else []) ++
      (if c.exiting then [execUserInterruptEntry k, execTaskEnterDraining k] else []) ++
      (if c.draining.isSome then [execTaskRetire k] else []) ++
      (if c.preemptAt.isSome then [execPreemptDeadline k] else []) ++
      (if c.task.isSome then [execSliceExpiry k] else [])

/-- What the graph engine does for a node that is ready or at work (R77). -/
def nodeMoves (x : BitVec 6) (q : BitVec 4) (n : Nat) (e : RunNode) : List Move :=
  if e.state ≠ .ready ∧ e.state ≠ .active then []
  else
    match e.kind with
    | 0 => [execKernelRelease x q n]
    | 1 => [execCollectiveNode x q n]
    | 2 => [execTimelineWaitNode x q n]
    | 3 => [execTimelineSignalNode x q n]
    | 4 => [execSetLevelNode x q n]
    | 5 => [execHostNotifyNode x q n]
    | 6 => [execSubgraphCallNode x q n]
    | _ => []

/-- What the graph engine does for a queue (R79, R82, R83). -/
def queueMoves (x : BitVec 6) (q : BitVec 4) (u : Queue) : List Move :=
  let nodes := ((u.run.map Run.nodes).getD []).zipIdx
  nodes.flatMap (fun e => nodeMoves x q e.2 e.1) ++ (if u.chain.isEmpty then [] else [execHashChain x q]) ++
    (if u.pending.isEmpty then [] else [execRunStart x q])

/-- What the device does for a context (R98, R347, R377, R378). -/
def ctxMoves (x : BitVec 6) (c : Ctx) : List Move :=
  c.queues.flatMap (fun u => queueMoves x (BitVec.ofNat 4 u.1) u.2) ++
    (if c.tlbinvQueue.isEmpty then [] else [execTlbInvalidationComplete x]) ++
    (if c.uploads.isEmpty then [] else [execGraphUploadComplete x]) ++
    (if c.held.isEmpty then [] else [execFaultRecordWrite x]) ++
    (if c.saved.isEmpty then [] else [execStoppedTaskResume x, execStoppedTaskDiscard x])

/-- What a die's scheduler does (R62, R65, R66, R81, R431). -/
def dieMoves (s : State) (d : Nat) : List Move :=
  let k := BitVec.ofNat 2 d
  let first : List Move := match s.choice d with
    | some (.task _ _, c) => [execTaskStart (BitVec.ofNat 8 c)]
    | some (.gang g, _) => [execGangRelaunch g.ctx (BitVec.ofNat 4 g.queue) g.node, execGangPlace k]
    | some (.saved _, c) => [execTaskResume (BitVec.ofNat 8 c)]
    | none => [execGangPlace k]
  first ++ [execGangReserve k]

/-- The clusters of a die that are marked for gating and not yet gated (R358). -/
def gateMoves (s : State) (d : Nat) : List Move :=
  let marked := Table.get 0 s.stew.clgate d &&& ~~~(Table.get 0 s.stew.gated d)
  ((List.range 16).filter fun k => marked.getLsbD k).map fun k => execClusterGateEntry (BitVec.ofNat 2 d) (BitVec.ofNat 4 k)

/-- Cycles of an epoch of the hot-page tracker (R111); an EPOCH of 0, whose length R111 does not state, counts as 1
(DESIGN CHOICE, log 79). -/
def MemRegs.epoch (m : MemRegs) : Nat := max 1 (bitsOf m.hpctl.toNat 47 16) * 1024

/-- What the rest of the device does by itself: contexts, schedulers, migrations, berm engines, held terms, timeouts and
the steward's requests. -/
def deviceMoves (s : State) : List Move :=
  let busy := !s.kernels.isEmpty || s.ctxs.any fun e => !e.2.saved.isEmpty
  s.ctxs.flatMap (fun e => ctxMoves (BitVec.ofNat 6 e.1) e.2) ++
    (s.kernels.filter Kernel.digesting).map (fun k => execDigestCompute k.ctx (BitVec.ofNat 4 k.queue)) ++
    (if busy then [0, 1, 2, 3].flatMap (dieMoves s) else []) ++
    s.berms.flatMap (fun e => [execBermRun (BitVec.ofNat 4 e.1), execBermRunFinish (BitVec.ofNat 4 e.1)]) ++
    (s.fab.chunks.filter fun e => !e.2.held.isEmpty).map (fun e =>
      execHeldTermApply (BitVec.ofNat 6 (e.1 / 2 ^ 64)) (BitVec.ofNat 64 e.1)) ++
    s.fab.requests.map (fun r => execAckTimeout (BitVec.ofNat 16 r.tag)) ++
    s.memr.migs.zipIdx.map (fun g => execMigrationBackgroundCopy g.2 g.1.nextGranule) ++
    (if s.memr.chBusy then [execRetirementFill] else []) ++
    (s.memr.extents.filter fun e => e.2.state == 3).map (fun e =>
      execExtentReleaseComplete (BitVec.ofNat 1 (e.1 / 256)) (BitVec.ofNat 8 e.1)) ++
    (if s.stew.attQueue.isEmpty then [] else [execAttestationReport]) ++
    (if s.stew.discovering then [execTorusDiscovery] else []) ++ [0, 1, 2, 3].flatMap (gateMoves s)

/-- The move that a state makes when no event has come and the focused core's control stream does not act: one of that
core first, except that in every fourth step all cores and the device come first in turn, so that none of them waits for
ever (R67). -/
def idle (s : State) : Out :=
  let all := s.cores.flatMap (fun e => coreMoves (BitVec.ofNat 8 e.1) e.2) ++ deviceMoves s
  let n := s.now / 4 % (all.length + 1)
  let turn := all.drop n ++ all.take n
  firstMove s (if s.now % 4 = 3 then turn else coreMoves s.focus s.here ++ turn)

/-- Whether the focused core's control stream may run: a task stands there that nothing stops, or that still holds its
unit's completion (R74, R192, R379). -/
def State.controlReady (s : State) : Bool :=
  let c := s.here
  (c.active && !c.exiting) || (c.task.isSome && !c.frozen && c.blocked == some .hold)

/-- What one step does before the engines settle and the clock moves: the oldest event; else, three times in four, the
next unit of the focused core's control stream; else, or when that waits, another move. -/
def stepBody (s : State) : Out :=
  match s.inbox with
  | i :: rest => exec i { s with inbox := rest }
  | [] =>
    if s.controlReady && s.now % 4 != 3 then
      match stepControl s with
      | .next t => if t.here.blocked.isSome then idle t else .next t
      | r => r
    else idle s

/-- Whether a core has a task at work or draining. -/
def Core.busy (c : Core) : Bool := (c.task.isSome || c.draining.isSome) && !c.frozen

/-- The core that acts next: the next busy one. -/
def State.nextFocus (s : State) : BitVec 8 :=
  let ks := (s.cores.filter fun e => e.2.busy).map Prod.fst
  match ks.find? fun k => decide (s.focus.toNat < k), ks with
  | some k, _ => BitVec.ofNat 8 k
  | none, k :: _ => BitVec.ofNat 8 k
  | none, [] => s.focus

/-- The combined streaming stores of every core sent on, which happens every 64 cycles (R92, log 71). -/
def State.flushCombs (s : State) : State :=
  s.cores.foldl (fun s e => if e.2.comb.isSome then s.flushComb e.1 else s) s

/-- The end of a step: the engines, the fabric's refusals, aborted gangs, the graph engine, the dies' reservations and
the host functions settle; SRAM errors are met (R408), and combined stores leave their cores; the reference clock moves
by one cycle, which may end an epoch of the hot-page tracker (R111), and the next busy core takes its turn. -/
def State.endStep (s : State) : State :=
  let t := s.settle.denyLost.sendLater.settleAborts.settleGraph.settleReserves.pumpHosts.sweepSram.confirmWire
  let t := if t.now % 64 = 0 then t.flushCombs else t
  let t := { t with now := t.now + 1, focus := if t.now % 4 = 3 then t.focus else t.nextFocus }
  if t.now % t.memr.epoch = 0 then t.endEpoch else t

/-- The code line that holds one instruction in slot 1, with the tags of its stream, and its continuation in slot 2
when it has one (R151 to R153). -/
def wordLine (w : Nat) (long : Bool) : List Byte :=
  let w0 := BitVec.ofNat 32 w
  let tag := (wordStream w0).tag
  toBytes 4 (tag * 16 + if long then 7 * 256 else 0) ++ toBytes 4 w ++ toBytes 4 (if long then w / 2 ^ 32 else 0) ++
    List.replicate 20 0

end Sys2Proof.Machine
end

