-- ==== Sys2Proof/Machine/Step.lean ====
section
/-!
DEFINITION. One step of the machine, and the placing of an instruction where the next step fetches it.
-/
namespace Sys2Proof.Machine

/-- One step: the oldest event of the inbox, or the next dispatch unit of the focused core, or the machine's own
progress; then the engines settle and the clock moves. -/
def step (s : State) : Host.Outcome State Fault Refusal :=
  match stepBody s with
  | .next t => .next t.endStep
  | .fault f => .fault f
  | .refused r => .refused r

/-- The state with one instruction placed in slot 1 of the line at the focused core's pc: a task of context 0 runs
there if none does, its page is the first 64 KiB of HBM4E by an entry of the core's TLB, and nothing else comes
first. -/
def State.withFetchWord (s : State) (nbits w : Nat) : State :=
  let c := s.here
  let t : Task := c.task.getD { ctx := 0, queue := 0, kseq := 0, node := 0, coords := [], linear := 0, member := 0
                                gang := 0, gangSize := 0, level := 0, kernel := 0 }
  let line := c.line.toNat % 2 ^ 57 / 32 * 32
  let long := decide (32 < nbits) || !lengthOk (CR.unpack (BitVec.ofNat 32 w)).op.toNat false
  let la := s.memr.resolve (line % 2 ^ 16)
  let e : TlbEntry := { ctx := t.ctx, base := line / 2 ^ 16 * 2 ^ 16, size := 0, lo := 0x1F
                        hi := BitVec.ofNat 64 (s.global 0) }
  let d : Core := { c with
    task := some t, line := BitVec.ofNat 64 line, slot := 1, npc := none, unitDone := 0, early := [], snap := none, blocked := none
    held := [], exiting := false, exitAt := none, pend := none, stopping := .no, preemptAt := none, frozen := false
    ui := { c.ui with pending := [] }, l1i := [], tlb := [e] }
  { s.setHere d with
    inbox := [], now := s.now / 8 * 8, mem := Table.setList 0 s.mem la (wordLine w long)
    merr := Table.set 0 s.merr (la / 32) 0 }

end Sys2Proof.Machine
end

