-- ==== Sys2Proof/Safety.lean ====
section
/-!
DEFINITION. The terms in which statements about the machine speak: what a step leaves alone, an instruction's guard,
and an engine command with its operand checks and its entry in the queue.
-/
namespace Sys2Proof.Machine

/-! ## What a step leaves alone -/

/-- The byte of this device's memory at a device-local address. -/
def State.byte (s : State) (a : Nat) : Byte := Table.get 0 s.mem a

/-- Every byte of memory reads as before. -/
def SameMemory (s t : State) : Prop := ∀ a, t.byte a = s.byte a

/-- Nothing but the acting core differs. -/
def OnlyHere (s t : State) : Prop :=
  { t with cores := s.cores } = s ∧ ∀ k, k ≠ s.focus.toNat → t.core k = s.core k

/-- Nothing but the acting core's registers (scalars, predicates, shadow scalars, loop counters, coil) differs. -/
def OnlyRegs (s t : State) : Prop := OnlyHere s t ∧ { t.here with regs := s.here.regs } = s.here

/-- Every scalar but the one that field `d` names, every predicate, loop counter and the coil are as before. -/
def OnlyScalar (d : BitVec 6) (s t : State) : Prop :=
  OnlyRegs s t ∧ (∀ f, f ≠ d → t.here.readS f = s.here.readS f) ∧ t.here.regs.p = s.here.regs.p ∧
    t.here.regs.loops = s.here.regs.loops ∧ t.here.regs.coil = s.here.regs.coil

/-- Every predicate but the one that field `d` names, every scalar, loop counter and the coil are as before. -/
def OnlyPredicate (d : BitVec 4) (s t : State) : Prop :=
  OnlyRegs s t ∧ (∀ f, f ≠ d → t.here.readP f = s.here.readP f) ∧ t.here.regs.s = s.here.regs.s ∧
    t.here.regs.h = s.here.regs.h ∧ t.here.regs.loops = s.here.regs.loops ∧ t.here.regs.coil = s.here.regs.coil

/-! ## Guards and destinations -/

/-- The guard field of an instruction (R159); none for BR, CALL and EXIT, which have no guard, and for steps that are not
instructions. -/
def guardOf (i : Instr) : Option (BitVec 4) :=
  match i.ex? with
  | some e => some e.g
  | none =>
    match i with
    | .add g _ _ _ => some g
    | .sub g _ _ _ => some g
    | .mul g _ _ _ => some g
    | .mulh g _ _ _ _ => some g
    | .div g _ _ _ _ => some g
    | .rem g _ _ _ _ => some g
    | .and g _ _ _ => some g
    | .or g _ _ _ => some g
    | .xor g _ _ _ => some g
    | .andn g _ _ _ => some g
    | .shl g _ _ _ => some g
    | .shr g _ _ _ => some g
    | .sar g _ _ _ => some g
    | .min g _ _ _ _ => some g
    | .max g _ _ _ _ => some g
    | .bitc g _ _ _ => some g
    | .addi g _ _ _ => some g
    | .addiImm32 g _ _ _ => some g
    | .logi g _ _ _ _ => some g
    | .logiImm32 g _ _ _ _ => some g
    | .shi g _ _ _ _ => some g
    | .shiImm32 g _ _ _ _ => some g
    | .ldi g _ _ => some g
    | .ldiImm32 g _ _ => some g
    | .ldih g _ _ _ => some g
    | .cmp g _ _ _ _ => some g
    | .cmpi g _ _ _ _ => some g
    | .cmpiImm32 g _ _ _ _ => some g
    | .sel g _ _ _ _ => some g
    | .plog g _ _ _ _ => some g
    | .lea g _ _ _ _ => some g
    | .leaImm32 g _ _ _ _ _ => some g
    | .jmp g _ => some g
    | .ret g _ => some g
    | .loop g _ _ _ _ _ _ => some g
    | .pipeStart g _ _ _ _ _ => some g
    | .pipeTurn g _ => some g
    | .fadd g _ _ _ _ => some g
    | .fmul g _ _ _ _ => some g
    | .ffma g _ _ _ _ => some g
    | .fcmp g _ _ _ _ => some g
    | .fcvt g _ _ _ _ => some g
    | .fdsq g _ _ _ _ => some g
    | .ld g _ _ _ => some g
    | .ldImm32 g _ _ _ => some g
    | .ldx g _ _ _ _ => some g
    | .st g _ _ _ => some g
    | .stImm32 g _ _ _ => some g
    | .lda g _ _ _ _ => some g
    | .ldaImm32 g _ _ _ _ => some g
    | .stl g _ _ _ _ => some g
    | .stlImm32 g _ _ _ _ => some g
    | .amo g _ _ _ _ _ _ _ => some g
    | .amon g _ _ _ _ _ _ => some g
    | .cas g _ _ _ _ _ _ => some g
    | .cadd g _ _ _ _ _ => some g
    | .fence g _ _ => some g
    | .slwait g _ _ _ => some g
    | .slsig g _ _ _ => some g
    | .tlwait g _ _ _ => some g
    | .tlarm g _ _ _ => some g
    | .qrd g _ _ => some g
    | .qwr g _ _ => some g
    | .wfe g _ => some g
    | .sev g _ _ => some g
    | .fmt g _ => some g
    | .safept g _ => some g
    | .safeptImm32 g _ => some g
    | .launch g _ _ => some g
    | .csr g _ _ _ _ => some g
    | .sysNop g => some g
    | .sysUiret g => some g
    | .sysPause g => some g
    | .aslw g _ _ => some g
    | .asls g _ _ => some g
    | .atlw g _ _ => some g
    | .lslw g _ _ => some g
    | .lsls g _ _ => some g
    | .ltlw g _ _ => some g
    | .wslw g _ _ => some g
    | .wsls g _ _ => some g
    | .wtlw g _ _ => some g
    | .vslw g _ _ => some g
    | .vsls g _ _ => some g
    | .vtlw g _ _ => some g
    | _ => none

/-- The scalar that an instruction of the register families writes (R194, R196, R198, R200). -/
def scalarDest : Instr → Option (BitVec 6)
  | .add _ d _ _ => some d
  | .sub _ d _ _ => some d
  | .mul _ d _ _ => some d
  | .mulh _ d _ _ _ => some d
  | .div _ d _ _ _ => some d
  | .rem _ d _ _ _ => some d
  | .and _ d _ _ => some d
  | .or _ d _ _ => some d
  | .xor _ d _ _ => some d
  | .andn _ d _ _ => some d
  | .shl _ d _ _ => some d
  | .shr _ d _ _ => some d
  | .sar _ d _ _ => some d
  | .min _ d _ _ _ => some d
  | .max _ d _ _ _ => some d
  | .bitc _ d _ _ => some d
  | .addi _ d _ _ => some d
  | .addiImm32 _ d _ _ => some d
  | .logi _ d _ _ _ => some d
  | .logiImm32 _ d _ _ _ => some d
  | .shi _ d _ _ _ => some d
  | .shiImm32 _ d _ _ _ => some d
  | .ldi _ d _ => some d
  | .ldiImm32 _ d _ => some d
  | .ldih _ d _ _ => some d
  | .sel _ d _ _ _ => some d
  | .lea _ d _ _ _ => some d
  | .leaImm32 _ d _ _ _ _ => some d
  | _ => none

/-- A control instruction's next state: `t` under a true guard, else the state as it was (R159). -/
def guarded (g : BitVec 4) (s t : State) : Out := .next (if s.here.readP g then t else s)

/-- The state with the scalar that field `d` names written on the acting core. -/
def State.withScalar (s : State) (d : BitVec 6) (v : Word) : State := s.setHere (s.here.writeS d v)

/-- The state with the predicate that field `d` names written on the acting core. -/
def State.withPredicate (s : State) (d : BitVec 4) (b : Bool) : State := s.setHere (s.here.writeP d b)

/-- The state with the acting core's control transfer taken to a line (R160). -/
def State.transfer (s : State) (line : Word) : State := s.setHere (s.here.jump line)

/-- Whether a core holds back a byte that its stores have written: dirty in its L1 data cache, or combined (R88, R92). -/
def Core.unsent (c : Core) (gpa : Nat) : Bool :=
  ((c.l1 gpa).map L1Byte.dirty).getD false ||
    match c.comb with
    | some g => decide (g.granule = gpa / 256) && (Table.get none g.bytes (gpa % 256)).isSome
    | none => false

/-- The device-local address that a store of the acting core reaches at its home; none for a store that faults, goes to the
scratchpad, a register or a peer, or stays in the L1 data cache or the combined granule while no release of DIE or wider
sends it on (R88, R92, R94, R118, R211). -/
def storeHome (s : State) (i : Instr) (ea : Word) (released : Bool := false) : Option Nat :=
  let a := s.control s.focus.toNat
  if ea.toNat % 8 ≠ 0 ∨ (window? ea).isSome then none
  else
    match s.translate a Need.write ea (noPolder a ea (slotWord i)) with
    | (u, .ok p) =>
      match u.place p.gpa with
      | .mem la =>
        let stays := cacheable p.lo && attrWpol p.lo == 0 || attrWpol p.lo == 2
        if stays && !inControl p.gpa && !released then none else some la
      | _ => none
    | _ => none

/-- The state after `n` runs of one instruction of the acting core, with no transfer left from the run before. -/
def State.loops (s : State) (i : Instr) : Nat → State
  | 0 => s
  | n + 1 =>
    match exec i ((State.loops s i n).mapHere fun c => { c with npc := none }) with
    | .next t => t
    | _ => State.loops s i n

/-- The state after `n` turns of the acting core's coil (R207). -/
def State.turns (s : State) (off : BitVec 19) (n : Nat) : State := s.loops (.pipeTurn 0 off) n

/-! ## Engine commands -/

/-- An engine command: its fields, its engine, whether it pops a format word, and the unit's checks of its operands, given
the core, the format word (0 for a command that pops none) and the captured scalars (R157, R385). -/
structure Command where
  ex : Ex
  eng : Nat
  fmt : Bool := false
  check : Core → Word → List Word → Option FaultInfo

/-- The engine command that an instruction is; none for a control instruction, a sync form, LFENCE and VSHAPE, which do
more at their dispatch, and a step that is not an instruction. -/
def command? : Instr → Option Command
  | .tld e => some ⟨e, engCopy, false, fun c _ ops => tileUnit (.tld e) e false c ops⟩
  | .tst e => some ⟨e, engCopy, false, fun c _ ops => tileUnit (.tst e) e false c ops⟩
  | .tldx e => some ⟨e, engCopy, false, fun c _ ops => tileUnit (.tldx e) e true c ops⟩
  | .tstx e => some ⟨e, engCopy, false, fun c _ ops => tileUnit (.tstx e) e true c ops⟩
  | .tldb e => some ⟨e, engCopy, false, fun c _ ops => tileUnit (.tldb e) { e with x := e.x &&& 2 } false c ops⟩
  | .gath e => some ⟨e, engCopy, false, fun c _ ops => tileUnit (.gath e) e false c ops⟩
  | .scat e => some ⟨e, engCopy, false, fun c _ ops => tileUnit (.scat e) e false c ops⟩
  | .scopy e => some ⟨e, engCopy, false, fun c _ ops => checkScopy e c ops⟩
  | .sfill e => some ⟨e, engCopy, false, fun c _ ops => checkSfill e c ops⟩
  | .pref e => some ⟨e, engCopy, false, fun c _ ops => checkPref e c ops⟩
  | .celladd e => some ⟨e, engCopy, false, fun c _ ops => addUnit e c ops⟩
  | .cellclr e => some ⟨e, engCopy, false, fun c _ ops => checkCellclr e c ops⟩
  | .cellrd e => some ⟨e, engCopy, false, fun c _ ops => cellUnit c ops⟩
  | .cellxc e => some ⟨e, engCopy, false, fun c _ ops => cellUnit c ops⟩
  | .brun e => some ⟨e, engCopy, false, fun c _ ops => checkBrun e c ops⟩
  | .lput e => some ⟨e, engLink, false, fun c _ ops => checkLput e c ops⟩
  | .lget e => some ⟨e, engLink, false, fun c _ ops => tileUnit (.lget e) e false c ops⟩
  | .lcell e => some ⟨e, engLink, false, fun c _ ops => checkLcell e c ops⟩
  | .lsig e => some ⟨e, engLink, false, fun c _ ops => checkLsig e c ops⟩
  | .lwaitc e => some ⟨e, engLink, false, fun c _ ops => checkLwaitc e c ops⟩
  | .lbar e => some ⟨e, engLink, false, fun c _ ops => checkLbar e c ops⟩
  | .coll e => some ⟨e, engLink, false, fun c _ ops => checkColl e c ops⟩
  | .lnotify e => some ⟨e, engLink, false, fun c _ ops => checkLnotify e c ops⟩
  | .wld e => some ⟨e, engWeave, true, checkWld e⟩
  | .wlds e => some ⟨e, engWeave, true, checkWlds e⟩
  | .wswap e => some ⟨e, engWeave, false, fun c _ ops => noCheck c ops⟩
  | .wmm e => some ⟨e, engWeave, true, streamUnit false⟩
  | .wmmt e => some ⟨e, engWeave, true, streamUnit false⟩
  | .wmms e => some ⟨e, engWeave, true, streamUnit true⟩
  | .wmmst e => some ⟨e, engWeave, true, streamUnit true⟩
  | .wopa e => some ⟨e, engWeave, true, outerUnit false⟩
  | .wopas e => some ⟨e, engWeave, true, outerUnit true⟩
  | .wdrain e => some ⟨e, engWeave, true, checkWdrain e⟩
  | .waclr e => some ⟨e, engWeave, false, fun c _ ops => noCheck c ops⟩
  | .wprom e => some ⟨e, engWeave, true, promUnit promFmtOk⟩
  | .wacc e => some ⟨e, engWeave, true, promUnit accFmtOk⟩
  | .wmva e => some ⟨e, engWeave, false, fun c _ ops => checkWmva e c ops⟩
  | .wread e => some ⟨e, engWeave, true, checkWread e⟩
  | .vadd e => some ⟨e, engVector, false, fun c _ ops => checkElement (.vadd e) e (elementOf 0x95) fpType true c ops⟩
  | .vsub e => some ⟨e, engVector, false, fun c _ ops => checkElement (.vsub e) e (elementOf 0x96) fpType true c ops⟩
  | .vmul e => some ⟨e, engVector, false, fun c _ ops => checkElement (.vmul e) e (elementOf 0x97) fpType true c ops⟩
  | .vfma e => some ⟨e, engVector, false, fun c _ ops => checkElement (.vfma e) e (elementOf 0x98) fpType true c ops⟩
  | .vfms e => some ⟨e, engVector, false, fun c _ ops => checkElement (.vfms e) e (elementOf 0x99) fpType true c ops⟩
  | .vfnma e => some ⟨e, engVector, false, fun c _ ops => checkElement (.vfnma e) e (elementOf 0x9A) fpType true c ops⟩
  | .vdiv e => some ⟨e, engVector, false, fun c _ ops => checkElement (.vdiv e) e (elementOf 0x9B) fpType true c ops⟩
  | .vsqrt e => some ⟨e, engVector, false, fun c _ ops => checkElement (.vsqrt e) e (elementOf 0x9C) fpType true c ops⟩
  | .vmin e => some ⟨e, engVector, false, fun c _ ops => checkElement (.vmin e) e (elementOf 0x9D) fpType true c ops⟩
  | .vmax e => some ⟨e, engVector, false, fun c _ ops => checkElement (.vmax e) e (elementOf 0x9E) fpType true c ops⟩
  | .vabs e => some ⟨e, engVector, false, fun c _ ops => checkElement (.vabs e) e (elementOf 0x9F) fpType true c ops⟩
  | .vneg e => some ⟨e, engVector, false, fun c _ ops => checkElement (.vneg e) e (elementOf 0xA0) fpType true c ops⟩
  | .vcmp e => some ⟨e, engVector, false, fun c _ ops => checkElement (.vcmp e) e (elementOf 0xA1) fpType true c ops⟩
  | .vround e => some ⟨e, engVector, false, fun c _ ops => checkElement (.vround e) e (elementOf 0xA4) fpType true c ops⟩
  | .vexp e => some ⟨e, engVector, false, fun c _ ops => checkElement (.vexp e) e (elementOf 0xA5) fnType true c ops⟩
  | .vexp2 e => some ⟨e, engVector, false, fun c _ ops => checkElement (.vexp2 e) e (elementOf 0xA6) fnType true c ops⟩
  | .vlog e => some ⟨e, engVector, false, fun c _ ops => checkElement (.vlog e) e (elementOf 0xA7) fnType true c ops⟩
  | .vlog2 e => some ⟨e, engVector, false, fun c _ ops => checkElement (.vlog2 e) e (elementOf 0xA8) fnType true c ops⟩
  | .vrcp e => some ⟨e, engVector, false, fun c _ ops => checkElement (.vrcp e) e (elementOf 0xA9) fpType true c ops⟩
  | .vrsq e => some ⟨e, engVector, false, fun c _ ops => checkElement (.vrsq e) e (elementOf 0xAA) fnType true c ops⟩
  | .vtanh e => some ⟨e, engVector, false, fun c _ ops => checkElement (.vtanh e) e (elementOf 0xAB) fnType true c ops⟩
  | .vsigm e => some ⟨e, engVector, false, fun c _ ops => checkElement (.vsigm e) e (elementOf 0xAC) fnType true c ops⟩
  | .vsin e => some ⟨e, engVector, false, fun c _ ops => checkElement (.vsin e) e (elementOf 0xAD) fnType true c ops⟩
  | .vcos e => some ⟨e, engVector, false, fun c _ ops => checkElement (.vcos e) e (elementOf 0xAE) fnType true c ops⟩
  | .verf e => some ⟨e, engVector, false, fun c _ ops => checkElement (.verf e) e (elementOf 0xAF) fnType true c ops⟩
  | .viadd e => some ⟨e, engVector, false, fun c _ ops => checkElement (.viadd e) e (elementOf 0xB0) intType true c ops⟩
  | .visub e => some ⟨e, engVector, false, fun c _ ops => checkElement (.visub e) e (elementOf 0xB1) intType true c ops⟩
  | .vimul e => some ⟨e, engVector, false, fun c _ ops => checkElement (.vimul e) e (elementOf 0xB2) intType true c ops⟩
  | .vmulhi e => some ⟨e, engVector, false, fun c _ ops => checkElement (.vmulhi e) e (elementOf 0xB3) intType true c ops⟩
  | .vimin e => some ⟨e, engVector, false, fun c _ ops => checkElement (.vimin e) e (elementOf 0xB4) intType true c ops⟩
  | .vimax e => some ⟨e, engVector, false, fun c _ ops => checkElement (.vimax e) e (elementOf 0xB5) intType true c ops⟩
  | .viabs e => some ⟨e, engVector, false, fun c _ ops => checkElement (.viabs e) e (elementOf 0xB6) intType true c ops⟩
  | .vand e => some ⟨e, engVector, false, fun c _ ops => checkElement (.vand e) e (elementOf 0xB7) intType true c ops⟩
  | .vor e => some ⟨e, engVector, false, fun c _ ops => checkElement (.vor e) e (elementOf 0xB8) intType true c ops⟩
  | .vxor e => some ⟨e, engVector, false, fun c _ ops => checkElement (.vxor e) e (elementOf 0xB9) intType true c ops⟩
  | .vshl e => some ⟨e, engVector, false, fun c _ ops => checkElement (.vshl e) e (elementOf 0xBA) intType true c ops⟩
  | .vshr e => some ⟨e, engVector, false, fun c _ ops => checkElement (.vshr e) e (elementOf 0xBB) intType true c ops⟩
  | .vsar e => some ⟨e, engVector, false, fun c _ ops => checkElement (.vsar e) e (elementOf 0xBC) intType true c ops⟩
  | .vicmp e => some ⟨e, engVector, false, fun c _ ops => checkElement (.vicmp e) e (elementOf 0xBD) intType true c ops⟩
  | .vclz e => some ⟨e, engVector, false, fun c _ ops => checkElement (.vclz e) e (elementOf 0xBE) intType true c ops⟩
  | .vpopc e => some ⟨e, engVector, false, fun c _ ops => checkElement (.vpopc e) e (elementOf 0xBF) intType true c ops⟩
  | .vsat e => some ⟨e, engVector, false, fun c _ ops => checkElement (.vsat e) e (elementOf 0xC0) intType (decide (e.f3.toNat + 1 ≤ typeWidth (vType e))) c ops⟩
  | .vclass e => some ⟨e, engVector, false, fun c _ ops => checkElement (.vclass e) e (elementOf 0xCB) fpType true c ops⟩
  | .vcopysgn e => some ⟨e, engVector, false, fun c _ ops => checkElement (.vcopysgn e) e (elementOf 0xCC) fpType true c ops⟩
  | .vldexp e => some ⟨e, engVector, false, fun c _ ops => checkElement (.vldexp e) e (elementOf 0xCD) fpType true c ops⟩
  | .vgetexp e => some ⟨e, engVector, false, fun c _ ops => checkElement (.vgetexp e) e (elementOf 0xCE) fpType true c ops⟩
  | .vsel e => some ⟨e, engVector, false, fun c _ ops => checkVsel e c ops⟩
  | .vbcast e => some ⟨e, engVector, false, fun c _ ops => checkVbcast e c ops⟩
  | .vmov e => some ⟨e, engVector, false, fun c _ ops => checkVmov e c ops⟩
  | .vld e => some ⟨e, engVector, false, fun c _ ops => checkVld e c ops⟩
  | .vst e => some ⟨e, engVector, false, fun c _ ops => checkVst e c ops⟩
  | .vcvt e => some ⟨e, engVector, false, fun c _ ops => checkVcvt e c ops⟩
  | .vred e => some ⟨e, engVector, false, fun c _ ops => checkVred e c ops⟩
  | .vscan e => some ⟨e, engVector, false, fun c _ ops => checkVscan e c ops⟩
  | .vtrans e => some ⟨e, engVector, false, fun c _ ops => checkVtrans e c ops⟩
  | .vshift e => some ⟨e, engVector, false, fun c _ ops => checkVshift e c ops⟩
  | .vrowg e => some ⟨e, engVector, false, fun c _ ops => checkVrowg e c ops⟩
  | .vpack e => some ⟨e, engVector, false, fun c _ ops => checkVpack e c ops⟩
  | .vunpk e => some ⟨e, engVector, false, fun c _ ops => checkVunpk e c ops⟩
  | .vmxq e => some ⟨e, engVector, false, fun c _ ops => checkVmxq e c ops⟩
  | .vmxd e => some ⟨e, engVector, false, fun c _ ops => checkVmxd e c ops⟩
  | .vmask e => some ⟨e, engVector, false, fun c _ ops => checkVmask e c ops⟩
  | _ => none

/-- The fault that a command's slot has before it dispatches: no format word to pop, an error in the format queue, or an
operand that its checks refuse (R385, R388, R408). -/
def Command.fault (m : Command) (c : Core) : Option FaultInfo :=
  if m.fmt then
    match c.fmtq with
    | [] => some { code := 0x0503, synd := BitVec.ofNat 64 c.fmtBefore }
    | w :: _ => if c.softHit 3 [softFmt] then some (softFault 3) else m.check c w (c.capture m.ex)
  else m.check c 0 (c.capture m.ex)

/-- A core with a command entered at the end of its engine's queue, its format word popped (R157). -/
def Command.enter (m : Command) (i : Instr) (c : Core) : Core :=
  if m.fmt then ({ c with fmtq := c.fmtq.drop 1 } : Core).enqueue i m.eng (c.capture m.ex) (c.fmtq.headD 0)
  else c.enqueue i m.eng (c.capture m.ex) 0

/-- The state after a command's dispatch: it starts at once when it is alone in its engine's queue and that engine and the
command's wait let it (R157, R167). -/
def Command.dispatched (m : Command) (i : Instr) (s : State) : State :=
  let t := s.setHere (m.enter i s.here)
  if (s.here.engine m.eng).queue.isEmpty then
    match runnerOf i with
    | some run => t.startHead s.focus.toNat m.eng run
    | none => t
  else t

end Sys2Proof.Machine
end

