-- ==== Sys2Proof/Certificates/Slice0/Obligations.lean ====
section
/-!
DEFINITION. The statements about the machine, for the provers. Each docstring names the rules of spec/ that the statement
formalises.
-/
open Sys2Proof Sys2Proof.Machine

/-! ## Registers -/

/-- R170, R193: s0 reads zero and p0 reads true whatever the registers hold, and a write to s0 or p0 changes nothing.
R170, R193, R206, R149: with no bundle open, a scalar reads back the value written to it under any rotation and in a
handler, and every other scalar is unchanged; the same of predicates. R156: while a bundle is open its slots read the
values from before it, whatever they write, and are decoded in a handler exactly when UISTAT.ACT was set before it.
R149, R170: in a handler the scalar numbers 56 to 63 name h0 to h7: a write to one leaves every s register as it is, and
outside a handler a write leaves every h register as it is. R206: one step of rotation moves the value of logical s(32 +
k) to logical s(32 + k + 1), and of logical p(8 + k) to logical p(8 + k + 1). -/
def Obligations.RegisterFile : Prop :=
  (∀ c : Core, c.readS 0 = 0 ∧ c.readP 0 = true ∧ (∀ v, c.writeS 0 v = c) ∧ (∀ b, c.writeP 0 b = c)) ∧
  (∀ c : Core, c.snap = none →
    (∀ d v, d ≠ 0 → (c.writeS d v).readS d = v) ∧
    (∀ d f v, f ≠ d → (c.writeS d v).readS f = c.readS f) ∧
    (∀ d b, d ≠ 0 → (c.writeP d b).readP d = b) ∧
    (∀ d f b, f ≠ d → (c.writeP d b).readP f = c.readP f)) ∧
  (∀ (c : Core) (r : Before), c.snap = some r → c.view = r.regs ∧ c.inHandler = r.act ∧
    (∀ d v f, (c.writeS d v).readS f = c.readS f) ∧ (∀ d b f, (c.writeP d b).readP f = c.readP f)) ∧
  (∀ (c : Core) (d : BitVec 6) (v : Word),
    (c.inHandler = true → 56 ≤ d.toNat →
      (c.writeS d v).regs.s = c.regs.s ∧ Table.get 0 (c.writeS d v).regs.h (d.toNat - 56) = v) ∧
    (c.inHandler = false → (c.writeS d v).regs.h = c.regs.h) ∧
    (c.snap = none → c.inHandler = c.ui.act)) ∧
  (∀ (c : Core) (k : Nat),
    let r := c.regs
    let turned : Regs := { r with coil := { r.coil with srot := r.coil.srot + 1, prot := r.coil.prot + 1 } }
    (k < 31 → rotS turned (BitVec.ofNat 6 (32 + k + 1)) = rotS r (BitVec.ofNat 6 (32 + k))) ∧
    (k < 7 → rotP turned (BitVec.ofNat 4 (8 + k + 1)) = rotP r (BitVec.ofNat 4 (8 + k))))

/-- R90, R99, R109, R110, R415, log 3: memory's canonical form (addresses rise strictly, no listed byte is zero, so that
equal memories are equal data) is an invariant of the machine: every step from a state that has it, reached by a run or
not, ends in one that has it. -/
def Obligations.EveryStepKeepsMemoryCanonical : Prop :=
  ∀ s t : State, Memory.wf s.mem = true → step s = .next t → Memory.wf t.mem = true

/-- R159: p0 is always true, and an instruction whose guard is false changes nothing at all: it writes and transfers
nothing, and an engine slot takes no queue entry, no command number and no format word. -/
def Obligations.FalseGuardHasNoEffect : Prop :=
  (∀ s : State, s.here.readP 0 = true) ∧
  ∀ (i : Instr) (g : BitVec 4) (s : State), guardOf i = some g → s.here.readP g = false → exec i s = .next s

/-! ## Integer instructions -/

/-- R194: what each integer instruction writes to s[d] under a true guard: the sixteen rows of the table. -/
def Obligations.IntegerArithmeticResults : Prop :=
  ∀ (s : State) (g : BitVec 4) (d a b : BitVec 6),
    let x := s.here.readS a
    let y := s.here.readS b
    let n := (y.setWidth 6 : BitVec 6).toNat
    let sets (v : Word) : Out := guarded g s (s.withScalar d v)
    exec (.add g d a b) s = sets (x + y) ∧
    exec (.sub g d a b) s = sets (x - y) ∧
    exec (.mul g d a b) s = sets (x * y) ∧
    exec (.mulh g d a b 0) s = sets (BitVec.ofInt 64 (x.toInt * y.toInt / 2 ^ 64)) ∧
    exec (.mulh g d a b 1) s = sets (BitVec.ofNat 64 (x.toNat * y.toNat / 2 ^ 64)) ∧
    (y ≠ 0 → exec (.div g d a b 0) s = sets (BitVec.ofInt 64 (x.toInt.tdiv y.toInt))) ∧
    (y ≠ 0 → exec (.div g d a b 1) s = sets (x / y)) ∧
    (y ≠ 0 → exec (.rem g d a b 0) s = sets (BitVec.ofInt 64 (x.toInt.tmod y.toInt))) ∧
    (y ≠ 0 → exec (.rem g d a b 1) s = sets (x % y)) ∧
    exec (.and g d a b) s = sets (x &&& y) ∧
    exec (.or g d a b) s = sets (x ||| y) ∧
    exec (.xor g d a b) s = sets (x ^^^ y) ∧
    exec (.andn g d a b) s = sets (x &&& ~~~y) ∧
    exec (.shl g d a b) s = sets (x <<< n) ∧
    exec (.shr g d a b) s = sets (x >>> n) ∧
    exec (.sar g d a b) s = sets (x.sshiftRight n) ∧
    exec (.min g d a b 0) s = sets (if x.toInt ≤ y.toInt then x else y) ∧
    exec (.min g d a b 1) s = sets (if x.toNat ≤ y.toNat then x else y) ∧
    exec (.max g d a b 0) s = sets (if x.toInt ≤ y.toInt then y else x) ∧
    exec (.max g d a b 1) s = sets (if x.toNat ≤ y.toNat then y else x) ∧
    (∀ k : BitVec 2, exec (.bitc g d a k) s = sets (bitCount k x))

/-- R195: DIV and REM never fault: they write s[d] whatever the operands; by zero the quotient is all ones and the
remainder s[a]; −2^63 by −1 gives −2^63 and 0. -/
def Obligations.DivisionNeverFaults : Prop :=
  ∀ (s : State) (g : BitVec 4) (d a b : BitVec 6),
    let x := s.here.readS a
    let y := s.here.readS b
    let sets (v : Word) : Out := guarded g s (s.withScalar d v)
    (∀ u : BitVec 1, ∃ v w, exec (.div g d a b u) s = sets v ∧ exec (.rem g d a b u) s = sets w) ∧
    (y = 0 → ∀ u : BitVec 1,
      exec (.div g d a b u) s = sets 0xFFFFFFFFFFFFFFFF ∧ exec (.rem g d a b u) s = sets x) ∧
    (x.toInt = -2 ^ 63 → y.toInt = -1 →
      exec (.div g d a b 0) s = sets 0x8000000000000000 ∧ exec (.rem g d a b 0) s = sets 0)

/-- R194: MUL and MULH together are the exact 128-bit product, signed or unsigned. R194: BITC counts one bits, leading
zeros and trailing zeros, with 64 for both of zero, and reverses bytes. R214: the operations of AMO and AMON on 4-byte
and 8-byte values. -/
def Obligations.IntegerOperationsAreExact : Prop :=
  (∀ x y : Word,
    (mulHigh 0 x y ++ x * y : BitVec 128) = x.signExtend 128 * y.signExtend 128 ∧
    (mulHigh 1 x y ++ x * y : BitVec 128) = x.setWidth 128 * y.setWidth 128) ∧
  (∀ v : Word,
    (bitCount 0 v).toNat = ((List.range 64).filter fun k => v.getLsbD k).length ∧
    (v = 0 → bitCount 1 v = 64 ∧ bitCount 2 v = 64) ∧
    (v ≠ 0 → (bitCount 1 v).toNat < 64 ∧ v.getLsbD (63 - (bitCount 1 v).toNat) = true ∧
      ∀ k, 63 - (bitCount 1 v).toNat < k → v.getLsbD k = false) ∧
    (v ≠ 0 → (bitCount 2 v).toNat < 64 ∧ v.getLsbD (bitCount 2 v).toNat = true ∧
      ∀ k, k < (bitCount 2 v).toNat → v.getLsbD k = false) ∧
    ∀ j, j < 8 → ∀ k, k < 8 → (bitCount 3 v).getLsbD (8 * j + k) = v.getLsbD (8 * (7 - j) + k)) ∧
  (∀ n ∈ [4, 8], ∀ old v : BitVec (8 * n),
    let op (k : Nat) : Nat := amoOp k n old.toNat v.toNat
    op 0 = (old + v).toNat ∧ op 1 = (old &&& v).toNat ∧ op 2 = (old ||| v).toNat ∧ op 3 = (old ^^^ v).toNat ∧
    op 4 = (if v.toInt < old.toInt then v else old).toNat ∧ op 5 = (if old.toInt < v.toInt then v else old).toNat ∧
    op 6 = (if v.toNat < old.toNat then v else old).toNat ∧ op 7 = (if old.toNat < v.toNat then v else old).toNat ∧
    op 8 = v.toNat)

/-- R196: what ADDI, LOGI, SHI, LDI and LDIH write to s[d], in both lengths. -/
def Obligations.ImmediateResults : Prop :=
  ∀ (s : State) (g : BitVec 4) (d a : BitVec 6),
    let x := s.here.readS a
    let sets (v : Word) : Out := guarded g s (s.withScalar d v)
    (∀ i : BitVec 8, exec (.addi g d a i) s = sets (x + i.signExtend 64)) ∧
    (∀ i : BitVec 32, exec (.addiImm32 g d a i) s = sets (x + i.signExtend 64)) ∧
    (∀ v : BitVec 6,
      exec (.logi g d a 0 v) s = sets (x &&& v.signExtend 64) ∧
      exec (.logi g d a 1 v) s = sets (x ||| v.signExtend 64) ∧
      exec (.logi g d a 2 v) s = sets (x ^^^ v.signExtend 64) ∧
      exec (.logi g d a 3 v) s = sets (x &&& ~~~(v.signExtend 64))) ∧
    (∀ v : BitVec 30,
      exec (.logiImm32 g d a 0 v) s = sets (x &&& v.signExtend 64) ∧
      exec (.logiImm32 g d a 1 v) s = sets (x ||| v.signExtend 64) ∧
      exec (.logiImm32 g d a 2 v) s = sets (x ^^^ v.signExtend 64) ∧
      exec (.logiImm32 g d a 3 v) s = sets (x &&& ~~~(v.signExtend 64))) ∧
    (∀ n : BitVec 6, ∀ i ∈ [Instr.shi, Instr.shiImm32],
      exec (i g d a 0 n) s = sets (x <<< n.toNat) ∧
      exec (i g d a 1 n) s = sets (x >>> n.toNat) ∧
      exec (i g d a 2 n) s = sets (x.sshiftRight n.toNat) ∧
      exec (i g d a 3 n) s = sets (x.rotateRight n.toNat)) ∧
    (∀ i : BitVec 8, exec (.ldi g d i) s = sets (i.signExtend 64)) ∧
    (∀ i : BitVec 32, exec (.ldiImm32 g d i) s = sets (i.signExtend 64)) ∧
    (∀ i : BitVec 32, exec (.ldih g d a i) s = sets (i ++ (x.setWidth 32 : BitVec 32)))

/-- R197, R198, R199, R200: what CMP, CMPI, SEL, PLOG and LEA write. -/
def Obligations.CompareSelectAddressResults : Prop :=
  ∀ (s : State) (g : BitVec 4),
    let r := s.here.readS
    let q := s.here.readP
    let sets (d : BitVec 6) (v : Word) : Out := guarded g s (s.withScalar d v)
    let tests (d : BitVec 4) (b : Bool) : Out := guarded g s (s.withPredicate d b)
    (∀ d a b,
      exec (.cmp g d a b 0) s = tests d (decide (r a = r b)) ∧
      exec (.cmp g d a b 1) s = tests d (decide ((r a).toInt < (r b).toInt)) ∧
      exec (.cmp g d a b 2) s = tests d (decide ((r a).toNat < (r b).toNat)) ∧
      exec (.cmp g d a b 3) s = tests d (decide (r a &&& r b ≠ 0))) ∧
    (∀ d a (v : BitVec 6),
      exec (.cmpi g d a 0 v) s = tests d (decide (r a = v.signExtend 64)) ∧
      exec (.cmpi g d a 1 v) s = tests d (decide ((r a).toInt < v.toInt)) ∧
      exec (.cmpi g d a 2 v) s = tests d (decide ((r a).toNat < (v.signExtend 64).toNat)) ∧
      exec (.cmpi g d a 3 v) s = tests d (decide (r a &&& v.signExtend 64 ≠ 0))) ∧
    (∀ d a (v : BitVec 30),
      exec (.cmpiImm32 g d a 0 v) s = tests d (decide (r a = v.signExtend 64)) ∧
      exec (.cmpiImm32 g d a 1 v) s = tests d (decide ((r a).toInt < v.toInt)) ∧
      exec (.cmpiImm32 g d a 2 v) s = tests d (decide ((r a).toNat < (v.signExtend 64).toNat)) ∧
      exec (.cmpiImm32 g d a 3 v) s = tests d (decide (r a &&& v.signExtend 64 ≠ 0))) ∧
    (∀ d (p : BitVec 4) b,
      exec (.sel g d p b 0) s = sets d (if q p then r b else r d) ∧
      exec (.sel g d p b 1) s = sets d (if q p then r d else r b) ∧
      exec (.sel g d p b 2) s = sets d (if q p then r b else 0)) ∧
    (∀ d a b : BitVec 4,
      exec (.plog g d a b 0) s = tests d (q a && q b) ∧
      exec (.plog g d a b 1) s = tests d (q a || q b) ∧
      exec (.plog g d a b 2) s = tests d (q a ^^ q b) ∧
      exec (.plog g d a b 3) s = tests d (q a && !q b)) ∧
    (∀ d a b (h : BitVec 2), exec (.lea g d a b h) s = sets d (r a + r b <<< h.toNat)) ∧
    (∀ d a b (h : BitVec 2) (i : BitVec 32),
      exec (.leaImm32 g d a b h i) s = sets d (r a + r b <<< h.toNat + i.signExtend 64))

/-- R193, R194 to R200: the frame of the instructions that write one scalar: nothing but that scalar changes, neither
another scalar, a predicate, a loop counter, the coil, a flag, a special register, an engine, another core, a context
nor any byte of memory. R193, R197, R199: the frame of CMP, CMPI and PLOG: nothing but the predicate they name changes.
-/
def Obligations.IntegerFrames : Prop :=
  (∀ (i : Instr) (d : BitVec 6) (s t : State), scalarDest i = some d → exec i s = .next t →
    OnlyScalar d s t ∧ SameMemory s t) ∧
  (∀ (i : Instr) (g d : BitVec 4) (s t : State),
    ((∃ a b c, i = .cmp g d a b c) ∨ (∃ a c v, i = .cmpi g d a c v) ∨ (∃ a c v, i = .cmpiImm32 g d a c v) ∨
      (∃ a b o, i = .plog g d a b o)) →
    exec i s = .next t → OnlyPredicate d s t ∧ SameMemory s t)

/-! ## Scalar floating point -/

/-- R209, R210: what the scalar floating-point instructions write, rounded once in FPCTL's mode with sat = 0, and the
flags that they raise. -/
def Obligations.ScalarFloatResults : Prop :=
  ∀ (s : State) (g : BitVec 4) (d a b : BitVec 6),
    let c := s.here
    let rm := Round.of ((c.snap.map Before.fpctl).getD c.fpctl).toNat
    let x := decodeFp .fp64 (c.readS a).toNat
    let y := decodeFp .fp64 (c.readS b).toNat
    let z := decodeFp .fp64 (c.readS d).toNat
    let sets (r : Nat × Flags) : Out := guarded g s ((s.withScalar d (BitVec.ofNat 64 r.1)).raise r.2)
    let rounds (e : Exact) : Out := sets (e.round .fp64 rm false)
    exec (.fadd g d a b 0) s = rounds (exactAdd rm x y) ∧
    exec (.fadd g d a b 1) s = rounds (exactAdd rm x y.negate) ∧
    exec (.fadd g d a b 2) s = rounds (fpMinMax false x y) ∧
    exec (.fadd g d a b 3) s = rounds (fpMinMax true x y) ∧
    exec (.fmul g d a b 0) s = rounds (exactMul x y) ∧
    (let r := (exactMul x y).round .fp64 rm false
     exec (.fmul g d a b 1) s = sets (if (decodeFp .fp64 r.1).isNan then r.1 else r.1 ^^^ 2 ^ 63, r.2)) ∧
    exec (.ffma g d a b 0) s = rounds (exactFma rm x y z) ∧
    exec (.ffma g d a b 1) s = rounds (exactFma rm x y z.negate) ∧
    exec (.ffma g d a b 2) s = rounds (exactFma rm x.negate y z) ∧
    exec (.ffma g d a b 3) s = rounds (exactFma rm x.negate y z.negate) ∧
    (∀ (p : BitVec 4) (k : BitVec 2),
      exec (.fcmp g p a b k) s =
        guarded g s ((s.withPredicate p (fpRelation k.toNat x y).1).raise (fpRelation k.toNat x y).2)) ∧
    exec (.fdsq g d a b 0) s = rounds (exactDiv x y) ∧
    exec (.fdsq g d a b 1) s = rounds (exactSqrt x) ∧
    (∀ t : BitVec 4, exec (.fcvt g d a t 0) s =
      sets (convertType t.toNat 0 ((c.readS a).toNat % 2 ^ typeWidth t.toNat) rm false)) ∧
    (∀ t : BitVec 4, typeSigned t.toNat = false →
      exec (.fcvt g d a t 1) s = sets (convertType 0 t.toNat (c.readS a).toNat rm false)) ∧
    (∀ t : BitVec 4, typeSigned t.toNat = true →
      let r := convertType 0 t.toNat (c.readS a).toNat rm false
      exec (.fcvt g d a t 1) s = sets (wrapInt 64 (decodeInt t.toNat r.1), r.2))

/-- R32, R209, R210: the frame of the scalar floating-point instructions: in the registers nothing but s[d], or p[d] for
FCMP, changes; beside them only the flags of the acting slot and FPFLAGS.TASK of the task's context do, where a flag
once raised stays. -/
def Obligations.ScalarFloatFrame : Prop :=
  ∀ (i : Instr) (s t : State), exec i s = .next t →
    let x := (s.here.ctx?.map BitVec.toNat).getD 0
    let wrote (d : BitVec 6) : Prop := t.here.regs = s.here.regs ∨ ∃ v, t.here.regs = (s.here.writeS d v).regs
    let tested (d : BitVec 4) : Prop := t.here.regs = s.here.regs ∨ ∃ b, t.here.regs = (s.here.writeP d b).regs
    let rest : Prop :=
      { t with cores := s.cores, ctxs := s.ctxs } = s ∧
      (∀ k, k ≠ s.focus.toNat → t.core k = s.core k) ∧
      { t.here with regs := s.here.regs, flagsRaised := s.here.flagsRaised, flagSlot := s.here.flagSlot } = s.here ∧
      (∀ y, y ≠ x → t.ctx y = s.ctx y) ∧
      { t.ctx x with flagsTask := (s.ctx x).flagsTask } = s.ctx x ∧
      (s.ctx x).flagsTask &&& (t.ctx x).flagsTask = (s.ctx x).flagsTask ∧
      SameMemory s t
    (∀ g d a b k, i = .fadd g d a b k → wrote d ∧ rest) ∧
    (∀ g d a b k, i = .fmul g d a b k → wrote d ∧ rest) ∧
    (∀ g d a b k, i = .ffma g d a b k → wrote d ∧ rest) ∧
    (∀ g d a b k, i = .fdsq g d a b k → wrote d ∧ rest) ∧
    (∀ g d a u k, i = .fcvt g d a u k → wrote d ∧ rest) ∧
    (∀ g d a b k, i = .fcmp g d a b k → tested d ∧ rest)

/-! ## Control transfers, loops and coils -/

/-- R163, R201: BR and CALL transfer exactly when the condition predicate equals the sense, to the line `off` lines
away; a taken CALL also writes the line after its own to s31, and one that is not taken writes nothing. R160, R202,
R373: JMP and RET transfer to the line that s[a] holds, or fault with 0x010B when its bits [4:0] and [63:57] are not all
zero. -/
def Obligations.ControlTransfers : Prop :=
  (∀ (s : State) (c : BitVec 4) (n : BitVec 1) (off : BitVec 19),
    let target := s.here.line + 32 * off.signExtend 64
    exec (.br c n off) s = .next (if s.here.readP c = decide (n = 1) then s.transfer target else s) ∧
    exec (.call c n off) s = .next (if s.here.readP c = decide (n = 1) then
      (s.withScalar 31 (s.here.line + 32)).transfer target else s)) ∧
  (∀ (s : State) (g : BitVec 4) (a : BitVec 6), ∀ i ∈ [Instr.jmp, Instr.ret],
    let t := s.here.readS a
    (t.toNat % 32 = 0 → t.toNat < 2 ^ 57 → exec (i g a) s = guarded g s (s.transfer t)) ∧
    ((t.toNat % 32 ≠ 0 ∨ 2 ^ 57 ≤ t.toNat) → exec (i g a) s = guarded g s (s.fault { code := 0x010B, addr := t })))

/-- R203, R204: LOOP: the first of an entry takes the trip count of SRC 0, 1 or 2; below it the index goes to s[d] and
the loop transfers; at it the counter is released, s[d] becomes 0 and nothing transfers. R205, R207: PIPE START sets the
coil and clears logical p9 to p15, and p8 says whether the trip is nonzero; PIPE TURN advances a coil that has passes
left, writes logical p8 under the new offsets and transfers while passes remain; else it has no effect. -/
def Obligations.LoopAndPipeSteps : Prop :=
  (∀ (s : State) (g : BitVec 4) (d a : BitVec 6) (src : BitVec 2) (k : BitVec 3) (trip : BitVec 8) (off : BitVec 19),
    let c := s.here
    let l := c.loopCtr k.toNat
    let first : BitVec 32 :=
      if src = 0 then BitVec.ofNat 32 (kTemporal c.kernel k.toNat)
      else if src = 1 then (c.readS a).setWidth 32 else trip.setWidth 32
    let n := if l.act then l.n else first
    let i := (if l.act then l.i else 0) + 1
    exec (.loop g d a src k trip off) s = guarded g s (
      if i.toNat < n.toNat then
        ((s.setHere (c.setLoop k.toNat { act := true, n := n, i := i })).withScalar d (i.setWidth 64)).transfer
          (c.line + 32 * off.signExtend 64)
      else (s.setHere (c.setLoop k.toNat { act := false, n := n, i := i })).withScalar d 0)) ∧
  (∀ (s : State) (g : BitVec 4) (a : BitVec 6) (stages : BitVec 3) (src : BitVec 2) (k : BitVec 3) (trip : BitVec 8)
    (off : BitVec 19),
    let c := s.here
    let n : BitVec 32 :=
      if src = 0 then BitVec.ofNat 32 (kTemporal c.kernel k.toNat)
      else if src = 1 then (c.readS a).setWidth 32 else trip.setWidth 32
    let coil := c.regs.coil
    let total := max coil.cpt.toNat 1 + coil.cps.toNat - 1
    let on : Coil := { coil with cpn := coil.cpn + 1, srot := coil.srot + 1, prot := coil.prot + 1 }
    (∃ t, exec (.pipeStart g a stages src k trip) s = guarded g s t ∧ OnlyRegs s t ∧
      t.here.regs.coil = { cpn := 0, cpt := n, cps := stages.setWidth 4 + 1, srot := 0, prot := 0 } ∧
      t.here.regs.s = c.regs.s ∧ t.here.regs.h = c.regs.h ∧ t.here.regs.loops = c.regs.loops ∧
      (∀ j, t.here.regs.p.getLsbD j = if j = 8 then n != 0 else if 8 < j then false else c.regs.p.getLsbD j)) ∧
    (coil.cps = 0 ∨ total ≤ coil.cpn.toNat → exec (.pipeTurn g off) s = .next s) ∧
    (coil.cps ≠ 0 → coil.cpn.toNat < total →
      ∃ t, exec (.pipeTurn g off) s = guarded g s t ∧ OnlyHere s t ∧
        t.here.npc = (if coil.cpn.toNat + 1 < total then some (c.line + 32 * off.signExtend 64, 1) else c.npc) ∧
        { t.here with regs := c.regs, npc := c.npc } = c ∧
        t.here.regs.coil = on ∧ t.here.regs.s = c.regs.s ∧ t.here.regs.h = c.regs.h ∧ t.here.regs.loops = c.regs.loops ∧
        ∀ j, t.here.regs.p.getLsbD j =
          if j = rotP { c.regs with coil := on } 8 then decide (coil.cpn.toNat + 1 < coil.cpt.toNat)
          else c.regs.p.getLsbD j))

/-- R207: a coil of trip T and S stages runs max(T, 1) + S − 1 passes and then falls through, and in pass q logical p(8
+ k) is true exactly when an iteration is in stage k, that is when 0 ≤ q − k < T. -/
def Obligations.CoilRunsItsPasses : Prop :=
  ∀ (s : State) (stages : BitVec 3) (trip : BitVec 8) (off : BitVec 19), s.here.snap = none →
    let total := max trip.toNat 1 + stages.toNat
    let target := s.here.line + 32 * off.signExtend 64
    ∀ t, exec (.pipeStart 0 0 stages 2 0 trip) s = .next t →
      (∀ q, q < total → ∀ k, k < 8 →
        (t.turns off q).here.readP (BitVec.ofNat 4 (8 + k)) = decide (k ≤ q ∧ q - k < trip.toNat)) ∧
      (∀ q, q + 1 < total → (t.turns off (q + 1)).here.npc = some (target, 1)) ∧
      (t.turns off total).here.npc = none ∧
      ∀ q, total ≤ q → (t.turns off (q + 1)).here.regs = (t.turns off q).here.regs

/-- R204: the body of a loop runs max(trip, 1) times: after each of the first of them LOOP transfers with its number in
s[d], and after the last it falls through with s[d] = 0. -/
def Obligations.LoopRunsItsTrip : Prop :=
  ∀ (s : State) (d : BitVec 6) (k : BitVec 3) (trip : BitVec 8) (off : BitVec 19),
    s.here.snap = none → (s.here.loopCtr k.toNat).act = false → d ≠ 0 →
    let total := max trip.toNat 1
    let target := s.here.line + 32 * off.signExtend 64
    let after (j : Nat) : State := s.loops (.loop 0 d 0 2 k trip off) j
    (∀ j, 0 < j → j < total →
      (after j).here.npc = some (target, 1) ∧ (after j).here.readS d = BitVec.ofNat 64 j) ∧
    (after total).here.npc = none ∧ (after total).here.readS d = 0 ∧ ((after total).here.loopCtr k.toNat).act = false

/-! ## Loads, stores and atomics -/

/-- R84, R94, R211, R212: loads from the scratchpad window are control accesses: an aligned load that the ordering check
lets pass puts the scratchpad's bytes, zero-extended, into s[d]; LDA then acquires. R84, R94, R118, R211: stores to the
scratchpad window: an aligned store that the ordering check lets pass writes the 8 bytes of s[d] there, which mends an
error in the word (R408); STL does so when its release has nothing to write back and no answer to await. -/
def Obligations.ScratchpadAccesses : Prop :=
  (∀ (s : State) (g : BitVec 4) (d a b : BitVec 6) (sc : BitVec 3) (ea : Word) (n off : Nat) (c : Core),
    ea.toNat % n = 0 → window? ea = some off → s.here.softHit 1 (blocksOf 8 off n) = false → s.here.controlAccess off n false = .ok c →
    let got : State := (s.setHere c).withScalar d (BitVec.ofNat 64 (ofBytes (c.spadRead off n)))
    (∀ i : BitVec 5, n = 8 → ea = s.here.ea5 a i →
      exec (.ld g d a i) s = guarded g s got ∧
      exec (.lda g d a i sc) s = guarded g s (got.mapHere fun k => k.acquire sc.toNat)) ∧
    (∀ i : BitVec 29, n = 8 → ea = s.here.ea29 a i →
      exec (.ldImm32 g d a i) s = guarded g s got ∧
      exec (.ldaImm32 g d a i sc) s = guarded g s (got.mapHere fun k => k.acquire sc.toNat)) ∧
    (∀ z : BitVec 2, n = 2 ^ z.toNat → ea = s.here.readS a + s.here.readS b →
      exec (.ldx g d a b z) s = guarded g s got)) ∧
  (∀ (s : State) (g : BitVec 4) (d a : BitVec 6) (sc : BitVec 3) (ea : Word) (off : Nat) (c : Core),
    ea.toNat % 8 = 0 → window? ea = some off → s.here.controlAccess off 8 true = .ok c →
    let bs := toBytes 8 (s.here.readS d).toNat
    let put : State := s.setHere ((c.softMend 1 (blocksOf 8 off 8)).spadWrite off bs)
    let clean : Prop := s.here.dirtyLines = [] ∧ s.here.comb = none ∧ s.here.answered sc.toNat = true
    (∀ i : BitVec 5, ea = s.here.ea5 a i →
      exec (.st g d a i) s = guarded g s put ∧ (clean → exec (.stl g d a i sc) s = guarded g s put)) ∧
    (∀ i : BitVec 29, ea = s.here.ea29 a i →
      exec (.stImm32 g d a i) s = guarded g s put ∧ (clean → exec (.stlImm32 g d a i sc) s = guarded g s put)))

/-- R88, R91, R107, R117, R211, R212: what a load finds, by the place of its address: past the L1 data cache the bytes
at this device's home, with the core's own dirty bytes over them; on a polder page the values of its cells, with the
flags that reading them raises (R32); on a page held in the cache the bytes there, after a miss has fetched the whole
line; of a peer the bytes held or those of its answer; of a register its value. They go, zero-extended, to s[d], and LDA
then acquires; a load of a peer's bytes that no answer has brought sends its request and holds its unit. R88, R92, R117,
R211, R342: what a store does, by the policy and the place of its page: on a write-back page it makes room for its line
and the 8 bytes stand dirty in the L1 data cache; on a streaming page they join the core's combined granule; else they
are written at their home, whose acknowledgement is awaited, sent to the peer that holds it, or written to a register.
ST does that; STL first makes its release, and its own store too leaves the L1 data cache (R118, log 10). -/
def Obligations.MemoryAccesses : Prop :=
  (∀ (s u v : State) (i : Instr) (g : BitVec 4) (d : BitVec 6) (ea : Word) (n : Nat) (p : Page) (bs : List Byte),
    let k := s.focus.toNat
    let a := s.control k
    ea.toNat % n = 0 → window? ea = none →
    s.translate a Need.read ea (polderLoadCheck a ea n (slotWord i)) = (u, .ok p) →
    let w := u.flushOver k p.gpa n
    let zeros : List Byte := List.replicate n 0
    let held : Bool := cacheable p.lo && (w.core k).holds p.gpa n
    let lines : Bool := cacheable p.lo && !inControl p.gpa && !(w.core k).lineSpoilt a p.gpa n
    let at' := if lines then p.gpa / 128 * 128 else p.gpa
    let len := if lines then 128 else n
    let plain : Prop :=
      (∃ b j, i = .ld g d b j ∧ n = 8 ∧ ea = s.here.ea5 b j) ∨ (∃ b j, i = .ldImm32 g d b j ∧ n = 8 ∧ ea = s.here.ea29 b j) ∨
        ∃ b c z, i = .ldx g d b c z ∧ n = 2 ^ z.toNat ∧ ea = s.here.readS b + s.here.readS c
    let acquires (sc : BitVec 3) : Prop :=
      n = 8 ∧ ((∃ b j, i = .lda g d b j sc ∧ ea = s.here.ea5 b j) ∨ ∃ b j, i = .ldaImm32 g d b j sc ∧ ea = s.here.ea29 b j)
    let own (la : Nat) : Prop :=
      (cacheable p.lo = false ∧ p.params = none ∧ ∃ raw, w.homeRead p.lo la n = (v, .ok raw) ∧
        bs = (v.core k).overlayDirty p.gpa raw) ∨
      (∃ q, p.params = some q ∧
        ∃ u' fl, w.polderRead q p.lo la n = (u', .ok (bs, fl)) ∧ v = u'.raiseBy a fl) ∨
      (held = true ∧ v = w ∧ bs = (w.core k).overlay p.gpa zeros) ∨
      (cacheable p.lo = true ∧ held = false ∧ (v.core k).holds p.gpa n = true ∧ bs = (v.core k).overlay p.gpa zeros ∧
        let m := (w.roomL1 k p.gpa).touch p.lo (la / 128 * 128) 128 (some (k / 64))
        v = m.setCore k ((m.core k).fillL1 (p.gpa / 128 * 128) (m.lineBytes (la / 128 * 128))))
    let peers : Prop :=
      (held = true ∧ v = w ∧ bs = (w.core k).overlay p.gpa zeros) ∨
      (held = false ∧ (cacheable p.lo = false ∨ inControl p.gpa = true) ∧ v = w.raiseBy a (a.flagsOf p.gpa n) ∧
        ∃ raw, a.received p.gpa n ea 0 = some (.ok raw) ∧ bs = (w.core k).overlayDirty p.gpa raw) ∨
      (held = false ∧ cacheable p.lo = true ∧ inControl p.gpa = false ∧
        ∃ raw, a.received at' len ea 0 = some (.ok raw) ∧
          let m := w.roomL1 k p.gpa
          v = m.setCore k ((m.core k).fillL1 at' (raw.map some)) ∧
            bs = (v.core k).overlay p.gpa ((raw.drop (p.gpa - at')).take n))
    let finds : Prop :=
      (∃ la, w.place p.gpa = .mem la ∧ own la) ∨ (∃ dev, w.place p.gpa = .peer dev ∧ peers) ∨
        ∃ off x, w.place p.gpa = .regs off ∧ n = 8 ∧ w.taskRegRead a.ctx off = some (x, v) ∧ bs = toBytes 8 x.toNat
    let got : State := v.withScalar d (BitVec.ofNat 64 (ofBytes bs))
    (finds → (plain → exec i s = guarded g s got) ∧
      ∀ sc, acquires sc → exec i s = guarded g s (got.mapHere fun c => c.acquire sc.toNat)) ∧
    ∀ dev, w.place p.gpa = .peer dev → held = false → (plain ∨ ∃ sc, acquires sc) →
      a.received at' len ea 0 = none → w.peerHeld (.stream k 0) at' (p.span len) false = false →
      exec i s = guarded g s
        (w.haltHere (.ask { w.request a 0 dev at' len p.lo [] with beside := { plain := true } } ea))) ∧
  ((∀ (s u : State) (i : Instr) (v ea : Word) (p : Page),
    let k := s.focus.toNat
    let a := s.control k
    let bs := toBytes 8 v.toNat
    let x := BitVec.ofNat 6 a.ctx
    ea.toNat % 8 = 0 → window? ea = none → s.translate a Need.write ea (noPolder a ea (slotWord i)) = (u, .ok p) →
    let w := if attrWpol p.lo = 2 then u else u.flushOver k p.gpa 8
    let back : Bool := cacheable p.lo && attrWpol p.lo == 0 && !inControl p.gpa
    let streams : Bool := attrWpol p.lo == 2 && !inControl p.gpa
    let does (t : State) : Prop := s.store i ea bs = (t, none)
    (∀ la, w.place p.gpa = .mem la →
      (back = true → does (w.storeBack p x bs)) ∧
      (streams = true → does (w.combine p x bs)) ∧
      (back = false → streams = false →
        let r := if cacheable p.lo then w.roomL1 k p.gpa else w
        does ((r.homeWrite p.lo a.ctx la bs (if cacheable p.lo then some (k / 64) else none)).mapHere fun c =>
          { c.storeThrough p x bs with posted := true }))) ∧
    (∀ dev, w.place p.gpa = .peer dev →
      (back = true → does (w.storeBack p x bs)) ∧
      (streams = true → w.pendingOver (.stream k 0) (p.gpa / 256 * 256) 256 true = false → does (w.combine p x bs)) ∧
      (back = false → streams = false → w.peerHeld (.stream k 0) p.gpa 8 true = false →
        let keeps : Bool := cacheable p.lo && !inControl p.gpa
        let r := if keeps then w.roomL1 k p.gpa else w
        let sent := r.send (.stream k 0) ea { r.request a 1 dev p.gpa 8 p.lo bs with beside := { plain := true } }
        does (sent.1.mapHere fun c =>
          { (if keeps then c.storeThrough p x bs else c) with postedTags := c.postedTags ++ [sent.2] }))) ∧
    (∀ off t, w.place p.gpa = .regs off → w.taskRegWrite a.ctx off v 7 (some k) = some t → does t)) ∧
  (∀ (s t : State) (i : Instr) (g : BitVec 4) (d : BitVec 6) (ea : Word),
    let bs := toBytes 8 (s.here.readS d).toNat
    ((∃ b j, i = .st g d b j ∧ ea = s.here.ea5 b j) ∨ (∃ b j, i = .stImm32 g d b j ∧ ea = s.here.ea29 b j) →
      s.store i ea bs = (t, none) → exec i s = guarded g s t) ∧
    (∀ sc : BitVec 3,
      (∃ b j, i = .stl g d b j sc ∧ ea = s.here.ea5 b j) ∨ (∃ b j, i = .stlImm32 g d b j sc ∧ ea = s.here.ea29 b j) →
      let r := s.releaseBack s.focus.toNat sc.toNat
      (s.store i ea bs).2 = none → r.here.answered sc.toNat = true → r.store i ea bs = (t, none) →
      exec i s = guarded g s (t.releaseBack t.focus.toNat sc.toNat))))

/-- R84, R88, R92, R211: the frame of ST and STL: with no migration in progress every byte of memory outside the eight
at the home address that the instruction stores to reads as before, but for bytes that the core's L1 data cache held
dirty or that it had combined, which an eviction, a new granule or a release sends on; and every byte of the scratchpad
outside the eight at the offset that it stores to reads as before. -/
def Obligations.StoreFrame : Prop :=
  ∀ (s t : State) (i : Instr) (ea : Word) (sc : BitVec 3),
    ((∃ g d a j, (i = .st g d a j ∧ sc = 0 ∨ i = .stl g d a j sc) ∧ ea = s.here.ea5 a j) ∨
      (∃ g d a j, (i = .stImm32 g d a j ∧ sc = 0 ∨ i = .stlImm32 g d a j sc) ∧ ea = s.here.ea29 a j)) →
    s.memr.migs = [] → exec i s = .next t →
    (∀ x, (∀ la, storeHome s i ea (sc != 0) = some la → x < la ∨ la + 8 ≤ x) →
      (∀ gpa, gpa % 2 ^ 51 = x → s.here.unsent gpa = false) → t.byte x = s.byte x) ∧
    (∀ x, x < 2 ^ 22 → (∀ off, window? ea = some off → x < off ∨ off + 8 ≤ x) →
      Table.get 0 t.here.spad x = Table.get 0 s.here.spad x)

/-- R143, R213, R215: AMO, AMON and CAS at this device's memory, one indivisible update at the home: AMO and CAS put the
old value, zero-extended, into s[d]; ORD's release comes before and its acquire after. R213, R216: CADD at this device's
memory: one add at the cell of the element, or one floating-point add of the ordinary element; ORD's release comes
before and its acquire after. -/
def Obligations.AtomicsAtTheHome : Prop :=
  (∀ (s t u : State) (g : BitVec 4) (d a b : BitVec 6) (opc : BitVec 4) (sc : BitVec 3) (ord size : BitVec 2)
    (i : Instr) (p : Page) (la old : Nat),
    let c := s.here
    let ag := s.control s.focus.toNat
    let ea := c.readS a
    let n := 4 * 2 ^ size.toNat
    let r := if ord.getLsbD 1 then t.releaseBack t.focus.toNat sc.toNat else t
    let low (x : Word) : Nat := x.toNat % 2 ^ (8 * n)
    let fin (v : State) : State := if ord.getLsbD 0 then v.mapHere fun k => k.acquire sc.toNat else v
    let at' (need : Need) (f : Nat → Nat) : Prop :=
      ea.toNat % n = 0 ∧ window? ea = none ∧
      s.translate ag need ea (noPolder ag ea (slotWord i)) = (t, .ok p) ∧ t.place p.gpa = .mem la ∧
      (ord.getLsbD 1 = true → r.here.answered sc.toNat = true) ∧
      (r.flushRange s.focus.toNat p.gpa n).place p.gpa = .mem la ∧
      (r.flushRange s.focus.toNat p.gpa n).homeUpdate p.lo ag.ctx la n f = (u, .ok old)
    (i = .amo g d a b opc sc ord size → c.determinate = false →
      at' Need.atomic (fun o => amoOp opc.toNat n o (low (c.readS b))) →
      exec i s = guarded g s (fin (u.withScalar d (BitVec.ofNat 64 old)))) ∧
    (i = .amon g a b opc sc ord size → (c.determinate = false ∨ opc ≠ 8) →
      at' Need.add (fun o => amoOp opc.toNat n o (low (c.readS b))) →
      exec i s = guarded g s (fin (u.mapHere fun k => { k with posted := true }))) ∧
    (i = .cas g d a b sc ord size → c.determinate = false →
      at' Need.atomic (fun o => if o = low (c.readS d) then low (c.readS b) else o) →
      exec i s = guarded g s (fin (u.withScalar d (BitVec.ofNat 64 old))))) ∧
  (∀ (s t u : State) (g : BitVec 4) (a b : BitVec 6) (sc : BitVec 3) (ord : BitVec 2) (ft : BitVec 4) (p : Page)
    (la : Nat),
    let ag := s.control s.focus.toNat
    let ea := s.here.readS a
    let n := match p.params with | some q => q.size | none => typeWidth ft.toNat / 8
    let r := if ord.getLsbD 1 then t.releaseBack t.focus.toNat sc.toNat else t
    window? ea = none → s.translate ag Need.add ea (caddCheck s.here ea ft) = (t, .ok p) → t.place p.gpa = .mem la →
    (ord.getLsbD 1 = true → r.here.answered sc.toNat = true) →
    (r.flushRange s.focus.toNat p.gpa n).place p.gpa = .mem la →
    (r.flushRange s.focus.toNat p.gpa n).homeAdd p ag.ctx la ft.toNat
      ((s.here.readS b).toNat % 2 ^ typeWidth ft.toNat) = (u, .ok ()) →
    exec (.cadd g a b sc ord ft) s =
      guarded g s (let v := u.mapHere fun k => { k with posted := true }
                   if ord.getLsbD 0 then v.mapHere fun k => k.acquire sc.toNat else v))

/-- R211, R212, R213, R216, R373: an access that is not aligned to its size, and an atomic in the scratchpad window,
fault with 0x0115 and its address, and do nothing else. R72, R391: at D1 and D2 an integer atomic that returns a value
faults with 0x0601, and AMON SWAP with 0x0602, before any translation. R216, R391, R403: CADD on a page that its leaf
lets it write: an address that is not a multiple of the element's size on a polder page, or of FT's width on an ordinary
one, faults with 0x0115 after the walk; and at D1 and D2 an ordinary page with 0x0603. -/
def Obligations.AccessFaults : Prop :=
  (∀ (s : State) (g : BitVec 4) (d a b : BitVec 6) (sc : BitVec 3),
    let bad (ea : Word) : Out := guarded g s (s.fault { code := 0x0115, addr := ea })
    (∀ i : BitVec 5, let ea := s.here.ea5 a i
      ea.toNat % 8 ≠ 0 → exec (.ld g d a i) s = bad ea ∧ exec (.st g d a i) s = bad ea ∧
        exec (.lda g d a i sc) s = bad ea ∧ exec (.stl g d a i sc) s = bad ea) ∧
    (∀ i : BitVec 29, let ea := s.here.ea29 a i
      ea.toNat % 8 ≠ 0 → exec (.ldImm32 g d a i) s = bad ea ∧ exec (.stImm32 g d a i) s = bad ea ∧
        exec (.ldaImm32 g d a i sc) s = bad ea ∧ exec (.stlImm32 g d a i sc) s = bad ea) ∧
    (∀ z : BitVec 2, let ea := s.here.readS a + s.here.readS b
      ea.toNat % 2 ^ z.toNat ≠ 0 → exec (.ldx g d a b z) s = bad ea) ∧
    (∀ opc ord size, let ea := s.here.readS a
      (ea.toNat % (4 * 2 ^ size.toNat) ≠ 0 ∨ (window? ea).isSome) →
        exec (.amo g d a b opc sc ord size) s = bad ea ∧ exec (.amon g a b opc sc ord size) s = bad ea ∧
        exec (.cas g d a b sc ord size) s = bad ea) ∧
    (∀ ord ft, let ea := s.here.readS a
      (window? ea).isSome → exec (.cadd g a b sc ord ft) s = bad ea)) ∧
  ((∀ (s : State) (g : BitVec 4) (d a b : BitVec 6) (opc : BitVec 4) (sc : BitVec 3) (ord size : BitVec 2),
    let ea := s.here.readS a
    let bad (code : Nat) : Out := guarded g s (s.fault { code := code, addr := ea })
    s.here.determinate = true → ea.toNat % (4 * 2 ^ size.toNat) = 0 → window? ea = none →
    exec (.amo g d a b opc sc ord size) s = bad 0x0601 ∧ exec (.cas g d a b sc ord size) s = bad 0x0601 ∧
    exec (.amon g a b 8 sc ord size) s = bad 0x0602) ∧
  (∀ (s u : State) (g : BitVec 4) (a b : BitVec 6) (sc : BitVec 3) (ord : BitVec 2) (ft : BitVec 4) (e : TlbEntry),
    let ea := s.here.readS a
    let p := pageOf e ea.toNat
    let bad (code : Nat) : Out := guarded g s (u.fault { code := code, addr := ea })
    let off (n : Nat) : Prop := ea.toNat % n ≠ 0
    window? ea = none → ea.toNat < 2 ^ 57 → s.lookup (s.control s.focus.toNat) 2 ea.toNat = (u, .ok e) →
    attrBit e.lo 5 = false → attrBit e.lo 3 = true →
    (∀ q, p.params = some q → p.off % q.rs ≠ 0 → exec (.cadd g a b sc ord ft) s = bad 0x0115) ∧
    (p.params = none → off (typeWidth ft.toNat / 8) → exec (.cadd g a b sc ord ft) s = bad 0x0115) ∧
    (p.params = none → ¬off (typeWidth ft.toNat / 8) → s.here.determinate = true →
      exec (.cadd g a b sc ord ft) s = bad 0x0603)))

/-- R99, R211: at the home a read of the bytes just written returns them, and no other byte of memory changes; with no
migration in progress and no error in memory. The memory's canonical form is kept by every operation on memory: home
reads and writes, the pull of a granule in migration, a channel's retirement and the removal of far memory; and reset
memory has it. -/
def Obligations.MemoryOperations : Prop :=
  (∀ (s : State) (attr attr' : Word) (x la : Nat) (bs : List Byte) (die die' : Option Nat), s.memr.migs = [] → s.merr = [] →
    (∃ t, (s.homeWrite attr x la bs die).homeRead attr' la bs.length die' = (t, .ok bs)) ∧
    ∀ a, (a < la ∨ la + bs.length ≤ a) → (s.homeWrite attr x la bs die).byte a = s.byte a) ∧
  (Memory.wf State.reset.mem = true ∧
  ∀ s : State, Memory.wf s.mem = true →
    (∀ attr la n die, Memory.wf (s.homeRead attr la n die).1.mem = true) ∧
    (∀ attr x la bs die, Memory.wf (s.homeWriteMask attr x la bs die).mem = true) ∧
    (∀ g k, Memory.wf (s.pullGranule g k).mem = true) ∧
    (∀ v, Memory.wf (s.retireChannel v).mem = true) ∧
    (∀ lo n, Memory.wf (s.dropFar lo n).mem = true) ∧
    (∀ attr x la n f, Memory.wf (s.homeUpdate attr x la n f).1.mem = true))

/-- R47, R48: adds into one cell, in any order, leave the same final cell bits: the state bits that the addends set
together with those the cell held, and the modular sum of the rest. -/
def Obligations.CellAddsCommute : Prop :=
  ∀ (p : CellParams) (raw : Nat) (xs ys : List Fp), xs.Perm ys →
    xs.foldl (cellAdd p) raw = ys.foldl (cellAdd p) raw

/-! ## Fences, sluices, timelines, queue registers and events -/

/-- R118, R119, R217: FENCE: ACQ drops clean bytes of the L1 data cache for a scope of DIE or wider; REL writes the
dirty ones back and, once no packet to a peer is unanswered, completes; FULL does the second and then the first; a
release that awaits an answer holds its unit. -/
def Obligations.FenceEffects : Prop :=
  ∀ (s : State) (g : BitVec 4) (sc : BitVec 3),
    let r := s.releaseBack s.focus.toNat sc.toNat
    exec (.fence g 1 sc) s = guarded g s (s.mapHere fun c => c.acquire sc.toNat) ∧
    (r.here.answered sc.toNat = true →
      exec (.fence g 2 sc) s = guarded g s r ∧
      exec (.fence g 3 sc) s = guarded g s (r.mapHere fun c => c.acquire sc.toNat)) ∧
    (r.here.answered sc.toNat = false →
      exec (.fence g 2 sc) s = guarded g s (r.block .hold) ∧ exec (.fence g 3 sc) s = guarded g s (r.block .hold))

/-- R70, R119, R128, R129, R218, R392, R408: SLWAIT: a count of 0 waits for nothing and acquires (log 18); on a
semaphore whose count suffices it takes the count and acquires, at D1 and D2 with the log entry that its total reaches
merged into the control stream's vector; on one whose count does not, and on a barrier whose phase is not complete, it
waits before its unit; a complete barrier phase is acquired at DIE. A second waiting stream at D1 and D2 faults with
0x0605, and an error in the sluice with 0x0403. R70, R118, R128, R129, R218, R387, R392, R408: SLSIG: a count of 0
signals nothing and releases nothing; on a semaphore a sum within the ceiling is written after the release, at D1 and D2
with a log entry of the new total and the control stream's vector; a release that awaits an answer holds the unit; on a
barrier the arrival follows a release of scope DIE. A sum above the ceiling faults with 0x0501, an arrival that R387
refuses with its fault, a second signalling stream at D1 and D2 with 0x0605, an error in the sluice with 0x0403, and
none of these releases or signals. That a second signalling stream whose sum is above the ceiling faults with 0x0501,
and not 0x0605, is the model's choice (log 14): R387 and R392 give no order. R127, R385, R389, R392: a write of SLSET
gives the named sluice its ceiling and mode, clears its counts and log and raises its generation; an index of 48 or more
faults with 0x010D, a barrier of a kernel without gangs with 0x0505, and a semaphore's ceiling above 32 at D1 and D2
with 0x0606. That nothing but the acting core changes, so that the barrier unit's count of the current phase stays, is
the model's choice (log 81). -/
def Obligations.SluiceEffects : Prop :=
  (∀ (s : State) (g : BitVec 4) (sc : BitVec 3) (l n : BitVec 6),
    let c := s.here
    let q := c.sluice l.toNat
    let run : Out := exec (.slwait g sc l n) s
    let sound : Prop := c.softHit 3 [softSluice l.toNat] = false
    let first : Prop := q.firstWait = none ∨ q.firstWait = some 0
    let tot := q.useTotal + n.setWidth 32
    (n = 0 → run = guarded g s (s.setHere (c.acquire (if q.barrier then 1 else sc.toNat)))) ∧
    (n ≠ 0 → c.softHit 3 [softSluice l.toNat] = true → run = guarded g s (s.fault (softFault 3))) ∧
    (n ≠ 0 → sound → q.barrier = false → c.determinate = false →
      (n.toNat ≤ q.count.toNat → run = guarded g s (s.setHere
        ((c.setSluice l.toNat { q with count := q.count - n.setWidth 16 }).acquire sc.toNat))) ∧
      (q.count.toNat < n.toNat → run = guarded g s (s.block .before))) ∧
    (n ≠ 0 → sound → q.barrier = false → c.determinate = true → first →
      (n.toNat ≤ q.count.toNat →
        let d := c.setSluice l.toNat { q with
          count := q.count - n.setWidth 16, firstWait := some 0, useTotal := tot
          log := q.log.filter fun e => !(notBefore tot e.total) }
        let d := match q.log.find? fun e => notBefore e.total tot with
          | some e => { d with kc := d.kc.max e.vec }
          | none => d
        run = guarded g s (s.setHere (d.acquire sc.toNat))) ∧
      (q.count.toNat < n.toNat → run = guarded g s (s.block .before))) ∧
    (n ≠ 0 → sound → q.barrier = false → c.determinate = true → ∀ u, q.firstWait = some u → u ≠ 0 →
      run = guarded g s (s.fault { code := 0x0605, synd := l.setWidth 64, aux := BitVec.ofNat 64 u })) ∧
    (n ≠ 0 → sound → q.barrier = true → q.phase = q.arrive → run = guarded g s (s.setHere (c.acquire 1))) ∧
    (n ≠ 0 → sound → q.barrier = true → q.phase ≠ q.arrive → run = guarded g s (s.block .before))) ∧
  (∀ (s : State) (g : BitVec 4) (sc : BitVec 3) (l n : BitVec 6),
    let c := s.here
    let k := s.focus.toNat
    let q := c.sluice l.toNat
    let r := s.releaseBack k (if q.barrier then 1 else sc.toNat)
    let ready : Bool := r.here.answered (if q.barrier then 1 else sc.toNat)
    let run : Out := exec (.slsig g sc l n) s
    let sound : Prop := c.softHit 3 [softSluice l.toNat] = false
    let first : Prop := q.firstSig = none ∨ q.firstSig = some 0
    let fits : Prop := q.count.toNat + n.toNat ≤ q.ceil.toNat
    let more : Sluice := { q with count := q.count + n.setWidth 16 }
    let tot := q.sigTotal + n.setWidth 32
    (n = 0 → run = guarded g s s) ∧
    (n ≠ 0 → c.softHit 3 [softSluice l.toNat] = true → run = guarded g s (s.fault (softFault 3))) ∧
    (n ≠ 0 → sound → q.barrier = false → fits →
      (c.determinate = false → ready = true → run = guarded g s (r.setHere (r.here.setSluice l.toNat more))) ∧
      (c.determinate = true → first → ready = true →
        run = guarded g s (r.setHere (r.here.setSluice l.toNat { more with
          firstSig := some 0, sigTotal := tot
          log := q.log ++ [{ total := tot, vec := r.here.kc.set 0 r.here.accessesSoFar }] }))) ∧
      (c.determinate = false ∨ first → ready = false → run = guarded g s (r.block .hold)) ∧
      (c.determinate = true → ∀ u, q.firstSig = some u → u ≠ 0 →
        run = guarded g s (s.fault { code := 0x0605, synd := l.setWidth 64, aux := BitVec.ofNat 64 u }))) ∧
    (n ≠ 0 → sound → q.barrier = false → ¬fits →
      run = guarded g s (s.fault { code := 0x0501, synd := l.setWidth 64
                                   aux := BitVec.ofNat 64 (q.count.toNat * 2 ^ 16 + n.toNat) })) ∧
    (n ≠ 0 → sound → q.barrier = true →
      (∀ f, s.arrive k l.toNat = .error f → run = guarded g s (s.fault f)) ∧
      (∀ t, (s.arrive k l.toNat).isOk = true → ready = true → r.arrive r.focus.toNat l.toNat = .ok t → run = guarded g s t) ∧
      ((s.arrive k l.toNat).isOk = true → ready = false → run = guarded g s (r.block .hold)))) ∧
  (∀ (s : State) (v : Word),
    let c := s.here
    let k := v.toNat % 64
    let barrier := v.getLsbD 15
    let ceil := v.toNat / 2 ^ 16 % 2 ^ 16
    (48 ≤ k → s.csrWrite 0x28 v = s.fault { code := 0x010D, synd := v, aux := 2 }) ∧
    (k < 48 → barrier = true → kGang c.kernel = false →
      s.csrWrite 0x28 v = s.fault { code := 0x0505, synd := s.slst s.focus.toNat k }) ∧
    (k < 48 → barrier = false → c.determinate = true → 32 < ceil →
      s.csrWrite 0x28 v = s.fault { code := 0x0606, synd := v }) ∧
    (k < 48 → (barrier = true → kGang c.kernel = true) → (barrier = false → c.determinate = true → ceil ≤ 32) →
      let t := s.csrWrite 0x28 v
      OnlyHere s t ∧ t.here.slset = v &&& 0xFFFF803F ∧
      t.here.sluice k = { ceil := BitVec.ofNat 16 ceil, barrier := barrier, gen := (c.sluice k).gen + 1 } ∧
      ∀ j, j ≠ k → t.here.sluice j = c.sluice j))

/-- R129: a gang's barrier: an arrival below the ceiling counts one more arrival; the one that reaches it clears the
count and completes the phase of every member of the gang. -/
def Obligations.BarrierArrivals : Prop :=
  ∀ (s : State) (k b : Nat),
    let c := s.core k
    let q := c.sluice b
    let n := (s.barrier c.gang b).1
    let size := (c.task.map Task.gangSize).getD 0
    c.gang ≠ 0 → q.ceil ≠ 0 → q.ceil.toNat ≤ size → (n = 0 ∨ q.ceil = (s.barrier c.gang b).2) → q.arrive = q.phase →
    ∃ t, s.arrive k b = .ok t ∧ ((t.core k).sluice b).arrive = q.arrive + 1 ∧
      (n + 1 ≠ q.ceil → t.barrier c.gang b = (n + 1, q.ceil) ∧ ((t.core k).sluice b).phase = q.phase) ∧
      (n + 1 = q.ceil → t.barrier c.gang b = (0, 0) ∧
        ∀ m, m < 256 → (s.core m).gang = c.gang → ((t.core m).sluice b).phase = ((s.core m).sluice b).phase + 1)

/-- R132, R134, R219: TLWAIT passes when its counter is at or above s[a], merging the threshold into the control
stream's vector for a core counter and acquiring; else it waits before its unit. R135, R136, R220, R385, R388: TLARM: a
bad action word faults with 0x010D, and an arm for a full table with 0x0506; an arm whose counter is still below its
threshold joins the core's table for ids 0 to 3 and the context's otherwise; one whose counter is there fires at once.
-/
def Obligations.TimelineEffects : Prop :=
  (∀ (s : State) (g : BitVec 4) (a : BitVec 6) (id : BitVec 8) (sc : BitVec 3),
    let c := s.here
    let n := c.readS a
    let x := (c.ctx?.map BitVec.toNat).getD 0
    let v : Word := if id.toNat < 4 then (c.engine id.toNat).tl else (s.ctx x).counter id.toNat
    let k : OVec := if id.toNat < 4 then c.kc.set (id.toNat + 1) (max32 (c.kc.get (id.toNat + 1)) (n.setWidth 32)) else c.kc
    exec (.tlwait g a id sc) s = guarded g s (
      if n.toNat ≤ v.toNat then s.setHere (({ c with kc := k } : Core).acquire sc.toNat) else s.block .before)) ∧
  (∀ (s : State) (g : BitVec 4) (a b : BitVec 6) (id : BitVec 8),
    let c := s.here
    let x := (c.ctx?.map BitVec.toNat).getD 0
    let n := c.readS a
    let w := c.readS b
    let core := decide (id.toNat < 4)
    let full := if core then decide (16 ≤ c.arms.length) else decide (256 ≤ (s.ctx x).arms.length)
    let v : Word := if core then (c.engine id.toNat).tl else (s.ctx x).counter id.toNat
    let arm : Arm := {
      counter := id.toNat, threshold := n, action := w, core := s.focus.toNat
      kseq := (c.task.map Task.kseq).getD 0, queue := (c.task.map Task.queue).getD 0
      coords := (c.task.map Task.coords).getD [], line := c.line, slot := c.curSlot, order := (s.ctx x).armOrder }
    let u := s.setCtx x { s.ctx x with armOrder := (s.ctx x).armOrder + 1 }
    let run : Out := exec (.tlarm g a b id) s
    (actionOk w.toNat = false → run = guarded g s (s.fault { code := 0x010D, synd := w, aux := 3 })) ∧
    (actionOk w.toNat = true → full = true → run = guarded g s (s.fault { code := 0x0506, synd := id.setWidth 64 })) ∧
    (actionOk w.toNat = true → full = false → v.toNat < n.toNat →
      run = guarded g s (if core then u.mapHere fun c => { c with arms := c.arms ++ [arm] }
        else u.setCtx x { u.ctx x with arms := (u.ctx x).arms ++ [arm] })) ∧
    (actionOk w.toNat = true → full = false → n.toNat ≤ v.toNat →
      run = guarded g s ((u.fire x arm).1.advances x
        (((u.fire x arm).1.ctx x).arms.length + (u.fire x arm).2.length + 1) (u.fire x arm).2)))

/-- R131, R145, R221, R222: QRD pops and QWR pushes a queue register that QCFG gives the control stream, and each waits
before its unit when it cannot; WFE hands over and clears a latch that holds a bit; SEV sets bit 0 on each core that it
names whose running task is of the same context. R130, R131: a write of QCFG keeps its 48 bits, empties each queue whose
field it changes and leaves the others. -/
def Obligations.QueueAndEventEffects : Prop :=
  (∀ (s : State) (g : BitVec 4) (d a : BitVec 6) (q : BitVec 3),
    let c := s.here
    let x := (c.ctx?.map BitVec.toNat).getD 0
    let xs := c.queueReg q.toNat
    (c.qReader q.toNat ≠ 0 → exec (.qrd g d q) s = guarded g s (s.fault { code := 0x0114, synd := c.qcfg })) ∧
    (c.qReader q.toNat = 0 → c.softHit 3 [q.toNat] = true → exec (.qrd g d q) s = guarded g s (s.fault (softFault 3))) ∧
    (c.qReader q.toNat = 0 → c.softHit 3 [q.toNat] = false → xs = [] →
      exec (.qrd g d q) s = guarded g s (s.block .before)) ∧
    (∀ v rest, c.qReader q.toNat = 0 → c.softHit 3 [q.toNat] = false → xs = v :: rest →
      exec (.qrd g d q) s = guarded g s (s.setHere ((c.setQueueReg q.toNat rest).writeS d v))) ∧
    (c.qWriter q.toNat ≠ 0 → exec (.qwr g q a) s = guarded g s (s.fault { code := 0x0114, synd := c.qcfg })) ∧
    (c.qWriter q.toNat = 0 → 8 ≤ xs.length → exec (.qwr g q a) s = guarded g s (s.block .before)) ∧
    (c.qWriter q.toNat = 0 → xs.length < 8 →
      exec (.qwr g q a) s = guarded g s (s.setHere (c.setQueueReg q.toNat (xs ++ [c.readS a])))) ∧
    (let l := (c.snap.map Before.latch).getD c.latch
     (l = 0 → exec (.wfe g d) s = guarded g s (s.block .before)) ∧
     (l ≠ 0 → exec (.wfe g d) s = guarded g s (s.setHere (({ c with latch := 0 } : Core).writeS d (l.setWidth 64))))) ∧
    (∀ k : BitVec 2, ∃ t, exec (.sev g a k) s = guarded g s t ∧ t.ctxs = s.ctxs ∧ SameMemory s t ∧
      ∀ m, m < 256 →
        let named : Bool := if k = 0 then decide (m = (c.readS a).toNat % 256)
          else if k = 1 then decide (m / 64 = s.focus.toNat / 64) else true
        t.core m = if named && (s.core m).runs x then { s.core m with latch := (s.core m).latch ||| 1 } else s.core m)) ∧
  (∀ (s : State) (v : Word) (q : Nat), q < 8 →
    let field (w : Word) : Nat := w.toNat / 2 ^ (6 * q) % 64
    let t := s.csrWrite 0x20 v
    t.here.qcfg = v &&& 0x0000FFFFFFFFFFFF ∧
    (field v ≠ field s.here.qcfg → t.here.queueReg q = []) ∧
    (field v = field s.here.qcfg → t.here.queueReg q = s.here.queueReg q))

/-- R223, R224, R225, R226, R388: FMT appends to the format queue, or faults with 0x0504 when 16 are held; SAFEPT keeps
its index and its checked entry, and for a pending request marks the core to stop at the next bundle boundary; in a
handler it has no effect (R149; how far that goes is the model's reading, log 17); LAUNCH releases and then acts as a
TRIG write; EXIT ends dispatch. R78, R79, R225, R427: a TRIG write or LAUNCH leaves its value in TRIG and appends a run
to its queue; when 64 wait already it appends none and leaves a notice, whose AKIND is the model's choice (log 49). -/
def Obligations.TaskControlEffects : Prop :=
  (∀ (s u : State) (g : BitVec 4) (a b : BitVec 6),
    let c := s.here
    let r := s.releaseBack s.focus.toNat 2
    (c.fmtq.length < 16 → exec (.fmt g a) s = guarded g s (s.setHere { c with fmtq := c.fmtq ++ [c.readS a] })) ∧
    (16 ≤ c.fmtq.length →
      exec (.fmt g a) s = guarded g s (s.fault { code := 0x0504, synd := BitVec.ofNat 64 c.fmtBefore })) ∧
    (∀ (i : Instr) (k : Nat) (bs : List Byte),
      ((∃ v : BitVec 8, i = .safept g v ∧ k = v.toNat) ∨ (∃ v : BitVec 32, i = .safeptImm32 g v ∧ k = v.toNat)) →
      (c.inHandler = true → exec i s = .next s) ∧
      (c.inHandler = false → kLiveCnt c.kernel ≤ k → exec i s = guarded g s (s.fault { code := 0x0122, synd := BitVec.ofNat 64 k })) ∧
      (c.inHandler = false → k < kLiveCnt c.kernel → liveOk (ofBytes bs) = true →
        s.readBytes (s.control s.focus.toNat) (kLiveAddr c.kernel + BitVec.ofNat 64 (32 * k)) 32 = (u, .ok bs) →
        exec i s = guarded g s (u.mapHere fun c =>
          { c with
            livemap := BitVec.ofNat 12 k, liveEntry := BitVec.ofNat 256 (ofBytes bs)
            stopping := if c.preemptAt.isSome && c.stopping == .no then .soon else c.stopping }))) ∧
    (r.here.answered 2 = true → exec (.launch g a b) s = guarded g s
      (r.trig ((r.here.ctx?.map BitVec.toNat).getD 0) ((r.here.readS b).toNat % 16) (r.here.readS a) 7
        (some r.focus.toNat))) ∧
    exec .exit s = .next (s.mapHere fun c =>
      { c with exiting := true, npc := some (c.line, c.curSlot), exitAt := some (c.line, c.curSlot) })) ∧
  (∀ (s : State) (x q : Nat) (v : Word) (akind : Nat) (core : Option Nat),
    let c := s.ctx x
    (((s.trig x q v akind core).ctx x).queue q).trig = v ∧
    ((c.queue q).pending.length < 64 →
      (((s.trig x q v akind core).ctx x).queue q).pending =
        (c.queue q).pending ++ [{ value := v, img := c.nextImg }]) ∧
    (64 ≤ (c.queue q).pending.length →
      (((s.trig x q v akind core).ctx x).queue q).pending = (c.queue q).pending ∧
      (((s.trig x q v akind core).ctx x).held.length = c.held.length + 1 ∨
        ((s.trig x q v akind core).ctx x).fqlost = c.fqlost + 1)))

/-- R227, R228, R385, R408: CSR puts the old value into s[d] and writes s[a], the OR or the AND NOT; a reserved number,
or a write to a read-only one, faults with 0x010C, and SLSTk of a sluice that holds an error with 0x0403. The writable
CSRs keep the bits that their layouts give. -/
def Obligations.CsrEffects : Prop :=
  ∀ (s : State) (g : BitVec 4) (d a : BitVec 6) (x : BitVec 2) (n : BitVec 12),
    let c := s.here
    let old := s.csrOld n.toNat
    let v := c.readS a
    let u := s.csrRead n.toNat
    let run : Out := exec (.csr g d a x n) s
    (c.snap = none → old = s.csrValue n.toNat) ∧
    (∀ b w, c.snap = some b → (b.csrs.find? fun e => e.1 == n.toNat) = some (n.toNat, w) → old = w) ∧
    ((csrKind n.toNat = .reserved ∨ (csrKind n.toNat = .ro ∧ x ≠ 0)) →
      run = guarded g s (s.fault { code := 0x010C, synd := n.setWidth 64, aux := x.setWidth 64 })) ∧
    let struck : Prop := 0x100 ≤ n.toNat ∧ c.softHit 3 [softSluice (n.toNat - 0x100)] = true
    (csrKind n.toNat ≠ .reserved → x = 0 → struck → run = guarded g s (s.fault (softFault 3))) ∧
    (csrKind n.toNat ≠ .reserved → x = 0 → ¬struck → run = guarded g s (u.withScalar d old)) ∧
    (csrKind n.toNat = .rw → x ≠ 0 →
      let new := if x = 1 then v else if x = 2 then old ||| v else old &&& ~~~v
      run = guarded g s ((u.csrWrite n.toNat new).withScalar d old)) ∧
    (∀ w : Word,
      s.csrWrite 0x08 w = s.setHere { c with fpctl := w.setWidth 2 } ∧
      s.csrWrite 0x10 w = s.setHere { c with seed := c.seed.extractLsb' 64 64 ++ (w &&& ~~~(31 : Word)) } ∧
      s.csrWrite 0x11 w = s.setHere { c with seed := w ++ (c.seed.setWidth 64 : Word) } ∧
      s.csrWrite 0x18 w = s.setHere { c with shape := w &&& 0x0003FFFFFFFFFFFF } ∧
      s.csrWrite 0x30 w = s.setHere { c with ui := { c.ui with vec := w &&& 0x01FFFFFFFFFFFFE0 } } ∧
      s.csrWrite 0x31 w = s.setHere { c with ui := { c.ui with en := w.getLsbD 0 } })

/-- R148, R149, R150, R231: USER_INTERRUPT_ENTRY takes the oldest interrupt: h0 and h1 hold the resume point and the
code, ACT and CODE are set, the pc goes to UIVEC, and clean bytes of the L1 data cache are dropped; SYS UIRET sends the
pc where h0 says and clears ACT; SYS NOP and SYS PAUSE have no effect. -/
def Obligations.UserInterruptsAndSys : Prop :=
  ∀ (s : State) (k : BitVec 8) (g : BitVec 4) (code : BitVec 32) (vec : OVec) (rest : List (BitVec 32 × OVec)),
    (let c := s.core k.toNat
     c.uintReady = true → s.atBoundary k.toNat = true → c.ui.pending = (code, vec) :: rest →
      ∃ t, exec (.userInterruptEntry k) s = .next t ∧
        let e := t.core k.toNat
        Table.get 0 e.regs.h 0 = c.line ||| BitVec.ofNat 64 c.slot ∧ Table.get 0 e.regs.h 1 = code.setWidth 64 ∧
        (∀ j, 1 < j → Table.get 0 e.regs.h j = Table.get 0 c.regs.h j) ∧ e.regs.s = c.regs.s ∧ e.regs.p = c.regs.p ∧
        e.ui = { c.ui with code := code, act := true, pending := rest } ∧ e.line = c.ui.vec ∧ e.slot = 1 ∧
        e.kc = c.kc.max vec ∧ e.blocked = none ∧ e.exiting = false ∧
        e.l1d = (c.l1d.filter fun b => (b.2.map L1Byte.dirty).getD false) ∧ (∀ j, j ≠ k.toNat → t.core j = s.core j) ∧ SameMemory s t) ∧
    (let h0 := Table.get 0 s.here.view.h 0
     exec (.sysUiret g) s = guarded g s (s.setHere { s.here with
       ui := { s.here.ui with act := false }, npc := some (h0 &&& ~~~(31 : Word), h0.toNat % 8) })) ∧
    exec (.sysNop g) s = .next s ∧ exec (.sysPause g) s = .next s

/-! ## Engine commands and sync forms -/

/-- R157, R167, R385: the copy commands TLD to BRUN: under a true guard, with operands that the unit's checks accept and
room in the queue, the command enters the copy engine's queue and starts there when it is alone and its wait allows.
R86, R102, R104, R235, R237: the last row of a tile load, as each row before it: TLD writes the row's elements to row
`j.row` of its descriptor, as the tensor gives them, converted under CONV, in the order of their columns, and completes;
an element outside the tensor is PAD. Nothing else of the scratchpad and no byte of memory changes. -/
def Obligations.CopyCommandsDispatch : Prop :=
  (∀ mk ∈ [Instr.tld, Instr.tst, Instr.tldx, Instr.tstx, Instr.tldb, Instr.gath, Instr.scat, Instr.scopy, Instr.sfill,
      Instr.pref, Instr.celladd, Instr.cellclr, Instr.cellrd, Instr.cellxc, Instr.brun],
    ∀ e : Ex, ∃ m, command? (mk e) = some m ∧ m.ex = e ∧ m.eng = engCopy ∧ (runnerOf (mk e)).isSome = true ∧
      ∀ s : State, s.here.readP e.g = true → m.fault s.here = none → (s.here.engine engCopy).queue.length < 32 →
        exec (mk e) s = .next (m.dispatched (mk e) s)) ∧
  (∀ (s u v w : State) (j : Job) (e : Ex) (run : Runner) (t : Tensor) (vs : List Nat) (fl : Flags),
    runnerOf (.tld e) = some run → j.q.instr = .tld e →
    let tw := TileWord.of false (j.op 4)
    let d := Desc.of (j.op 0) (j.op 1)
    let b := match Conv.of e with | some k => typeWidth k.stype | none => rWidth t.desc
    let x (c : Nat) : List Int := j.coords tw 0 j.row c
    s.tensor (s.agent j.core j.eng) (s.jobKernel j) tw.handle = (u, .ok t) →
    (Conv.of e = none → descLengths 1 (j.op 0) (j.op 1) 1 tw.rows (rowBytes tw.cols b) = none) →
    u.begin j [] (d.hull 1 tw.rows (rowBytes tw.cols b)) = .ok v → v.tilePages j tw t.desc (j.coords tw) = none →
    j.row + 1 = tw.rows →
    v.loadRow (v.agent j.core j.eng) tw.handle t (slotWord (.tld e)) (Conv.of e) ((List.range tw.cols).map x) =
      (w, .ok (vs, fl)) →
    (w.core j.core).soft = [] →
    ∃ z, run j s = (z, .done) ∧ (z.core j.core).spad = ((w.core j.core).setRow d 0 j.row b vs).spad ∧
      (∀ k, k ≠ j.core → z.core k = w.core k) ∧ SameMemory w z ∧ vs.length = tw.cols ∧
      ∀ c, c < tw.cols → Conv.of e = none → (layoutMap t.desc (x c)).2.2 = false →
        nthD 0 vs c = rPad t.desc % 2 ^ rWidth t.desc)

/-- R157, R167, R245: the link commands LPUT to LNOTIFY, LFENCE apart, dispatch to the link engine in the same way;
LFENCE also writes dirty bytes back and records the control stream's unanswered packets, which it will await (R250).
R139, R237, R246: the last row of an LPUT, as each row before it, where the row is one run of whole bytes at this
device's memory: those bytes are written at their home and the counter there rises by their number; no other byte of
memory changes. -/
def Obligations.LinkCommandsDispatch : Prop :=
  ((∀ mk ∈ [Instr.lput, Instr.lget, Instr.lsig, Instr.lcell, Instr.coll, Instr.lwaitc, Instr.lbar, Instr.lnotify],
    ∀ e : Ex, ∃ m, command? (mk e) = some m ∧ m.ex = e ∧ m.eng = engLink ∧ (runnerOf (mk e)).isSome = true ∧
      ∀ s : State, s.here.readP e.g = true → m.fault s.here = none → (s.here.engine engLink).queue.length < 32 →
        exec (mk e) s = .next (m.dispatched (mk e) s)) ∧
  ∀ (e : Ex) (s : State), s.here.readP e.g = true → (s.here.engine engLink).queue.length < 32 →
    let r := s.releaseBack s.focus.toNat (e.ext.toNat % 8)
    let t := r.setHere (r.here.enqueue (.lfence e) engLink
      (r.here.capture e ++ r.here.postedTags.map (BitVec.ofNat 64)) 0)
    exec (.lfence e) s = .next
      (if (r.here.engine engLink).queue.isEmpty then t.startHead r.focus.toNat engLink lfenceRun else t)) ∧
  (∀ (s u v w y : State) (j : Job) (e : Ex) (run : Runner) (t : Tensor) (p : Put) (q : Page) (la lc : Nat),
    runnerOf (.lput e) = some run → j.q.instr = .lput e → Conv.of e = none →
    let tw := TileWord.of false (j.op 4)
    let d := Desc.of (j.op 0) (j.op 1)
    let b := rWidth t.desc
    let len := rowBytes tw.cols b
    let n := p.bytes.length
    let els := ((List.range tw.cols).map fun c =>
      (layoutMap t.desc (j.coords tw 0 j.row c), (v.core j.core).element d 0 j.row c b)).filter fun e => e.1.2.2
    s.tensor (s.agent j.core j.eng) (s.jobKernel j) tw.handle = (u, .ok t) →
    descLengths 1 (j.op 0) (j.op 1) 1 tw.rows len = none → u.begin j (d.hull 1 tw.rows len) [] = .ok v →
    v.tilePages j tw t.desc (j.coords tw) = none → j.row + 1 = tw.rows → (v.core j.core).soft = [] →
    v.planRow (v.agent j.core j.eng) (slotWord (.lput e)) (joinWrites (rowWrites b els [])) = (w, .ok [(p, 0)]) →
    w.countPage (w.agent j.core j.eng) (slotWord (.lput e)) (j.op 5) = (y, .ok (some q)) →
    p.place = .mem la → y.place q.gpa = .mem lc → (lc + 8 ≤ la ∨ la + n ≤ lc) →
    y.memr.migs = [] → y.merr = [] → y.fab.requests = [] → y.partDone j = 0 →
    ∃ z, run j s = (z, .done) ∧
      (∀ k o, nthD none p.bytes k = some o → z.byte (la + k) = o) ∧
      ofBytes ((List.range 8).map fun k => z.byte (lc + k)) =
        (ofBytes ((List.range 8).map fun k => y.byte (lc + k)) + n) % 2 ^ 64 ∧
      ∀ a, (a < la ∨ la + n ≤ a) → (a < lc ∨ lc + 8 ≤ a) → z.byte a = y.byte a)

/-- R157, R167, R271, R388: the weave commands dispatch to the weave engine; all but WSWAP, WACLR and WMVA pop the
oldest format word, and with none to pop they fault with 0x0503. R262, R273, R279, R280: the last row of a WMM, as each
row before it, against a dense buffer that is not empty: element (row, o) of accumulator f becomes its old value, or +0
under CLR, with the row's products added: in the FP64 view one fused multiply-add for each k, else one group sum for
each 32 k, in ascending order, under the scales of A and of the buffer. No other element of an accumulator and no byte
of memory changes. -/
def Obligations.WeaveCommandsDispatch : Prop :=
  (∀ mk ∈ [Instr.wld, Instr.wlds, Instr.wswap, Instr.wmm, Instr.wmmt, Instr.wmms, Instr.wmmst, Instr.wopa, Instr.wopas,
      Instr.wdrain, Instr.waclr, Instr.wprom, Instr.wacc, Instr.wmva, Instr.wread],
    ∀ e : Ex, ∃ m, command? (mk e) = some m ∧ m.ex = e ∧ m.eng = engWeave ∧ (runnerOf (mk e)).isSome = true ∧
      (m.fmt = false ↔ (mk e = .wswap e ∨ mk e = .waclr e ∨ mk e = .wmva e)) ∧
      ∀ s : State, s.here.readP e.g = true →
        (m.fault s.here = none → (s.here.engine engWeave).queue.length < 32 →
          exec (mk e) s = .next (m.dispatched (mk e) s)) ∧
        (m.fmt = true → s.here.fmtq = [] →
          exec (mk e) s = .next (s.fault { code := 0x0503, synd := BitVec.ofNat 64 s.here.fmtBefore }))) ∧
  (∀ (s u : State) (j : Job) (e : Ex) (run : Runner), runnerOf (.wmm e) = some run → j.q.instr = .wmm e →
    let f := FmtWord.of j.q.fmt
    let b := (s.core j.core).weave.active
    let d := Desc.of (j.op 0) (j.op 1)
    let i := j.row
    let v := View.of f.afmt
    let first := e.ext.toNat % 8
    let scaled := takesScales f.afmt f.scl
    let row := (u.core j.core).row d 0 i b.k (typeWidth f.afmt)
    let old (o : Nat) : Nat := if e.ext.getLsbD 3 then 0 else slotElem (u.core j.core).weave.acc v (16384 * first) i o
    let sum (o : Nat) : Nat :=
      if v = .fp64 then (List.range b.k).foldl (fun t k => (addFma (nthD 0 row k) (b.stored k o) t).1) (old o)
      else (List.range ((b.k + 31) / 32)).foldl (fun t g =>
        let pairs := (List.range 32).map fun r =>
          if 32 * g + r < b.k then some (nthD 0 row (32 * g + r), b.stored (32 * g + r) o) else none
        (addGroup v f.afmt f.wfmt pairs ((u.core j.core).operandScale d scaled (i / 32) g) (b.scaleOf g (o / 32)) t).1)
        (old o)
    b.empty = false → b.wfmt = f.wfmt → b.sparse = false → b.n ≤ v.cols →
    shapeM (j.op 2) = i + 1 → i < 128 → (u.core j.core).soft = [] →
    weaveLengths 1 (j.op 0) (j.op 1) (i + 1) b.k f.afmt scaled = none →
    s.begin j (d.weaveHull (i + 1) b.k f.afmt scaled) [] = .ok u →
    ∃ z, run j s = (z, .done) ∧ SameMemory s z ∧
      (∀ o, o < b.n → slotElem (z.core j.core).weave.acc v (16384 * first) i o = sum o % 2 ^ (if v = .fp64 then 64 else 32)) ∧
      ∀ a r o, a < 8 → r < 128 → o < v.cols → ¬(a = first ∧ r = i ∧ o < b.n) →
        slotElem (z.core j.core).weave.acc v (16384 * a) r o = slotElem (u.core j.core).weave.acc v (16384 * a) r o)

/-- R157, R167: the vector commands that act on whole tiles, positions and masks dispatch to the vector engine; VSHAPE
also sets SHAPE at its dispatch, from a legal shape word or from a tensor's bounds (R297). R157, R167, R301 to R306,
R316: the elementwise vector commands dispatch to the vector engine in the same way. R31, R293, R296, R299, R301: what a
VADD that has begun writes: element n of tile d, for each active position, becomes the sum of the two sources' elements
n, or of the low bits of what they popped, rounded once in the mode of x; every other element, tile and mask, and all of
memory, stay as they are, and the command completes. -/
def Obligations.VectorCommandsDispatch : Prop :=
  ((∀ mk ∈ [Instr.vld, Instr.vst, Instr.vbcast, Instr.vmov, Instr.vsel, Instr.vcvt, Instr.vred, Instr.vscan,
      Instr.vtrans, Instr.vshift, Instr.vrowg, Instr.vpack, Instr.vunpk, Instr.vmxq, Instr.vmxd, Instr.vmask],
    ∀ e : Ex, ∃ m, command? (mk e) = some m ∧ m.ex = e ∧ m.eng = engVector ∧ (runnerOf (mk e)).isSome = true ∧
      ∀ s : State, s.here.readP e.g = true → m.fault s.here = none → (s.here.engine engVector).queue.length < 32 →
        exec (mk e) s = .next (m.dispatched (mk e) s)) ∧
  ∀ (e : Ex) (s : State), s.here.readP e.g = true → (s.here.engine engVector).queue.length < 32 →
    let ops := s.here.capture e
    let sets (u : State) (v : Word) : Out :=
      let t := u.mapHere fun c => ({ c with shape := v } : Core).enqueue (.vshape e) engVector
        (({ c with shape := v } : Core).capture e) 0
      .next (if (u.here.engine engVector).queue.isEmpty then t.startHead u.focus.toNat engVector shapeRun else t)
    (e.x = 0 → (nthD 0 ops 0).toNat < 2 ^ 50 → exec (.vshape e) s = sets s (nthD 0 ops 0)) ∧
    (∀ u r, e.x ≠ 0 → tileCheck 2 false (nthD 0 ops 2) = none →
      s.poolRecord (s.control s.focus.toNat) s.here.kernel (TileWord.of false (nthD 0 ops 2)).handle = (u, .ok r) →
      tensorOk r = true → u.here.readP e.g = true → (u.here.engine engVector).queue.length < 32 →
      exec (.vshape e) s =
        sets u (boundsShape (TileWord.of false (nthD 0 ops 2)) (coordsOf (nthD 0 ops 0) (nthD 0 ops 1)) r))) ∧
  (∀ mk ∈ [Instr.vadd, Instr.vsub, Instr.vmul, Instr.vfma, Instr.vfms, Instr.vfnma, Instr.vdiv, Instr.vsqrt, Instr.vmin,
      Instr.vmax, Instr.vabs, Instr.vneg, Instr.vcmp, Instr.vround, Instr.vexp, Instr.vexp2, Instr.vlog, Instr.vlog2,
      Instr.vrcp, Instr.vrsq, Instr.vtanh, Instr.vsigm, Instr.vsin, Instr.vcos, Instr.verf, Instr.viadd, Instr.visub,
      Instr.vimul, Instr.vmulhi, Instr.vimin, Instr.vimax, Instr.viabs, Instr.vand, Instr.vor, Instr.vxor, Instr.vshl,
      Instr.vshr, Instr.vsar, Instr.vicmp, Instr.vclz, Instr.vpopc, Instr.vsat, Instr.vclass, Instr.vcopysgn,
      Instr.vldexp, Instr.vgetexp],
    ∀ e : Ex, ∃ m, command? (mk e) = some m ∧ m.ex = e ∧ m.eng = engVector ∧ (runnerOf (mk e)).isSome = true ∧
      ∀ s : State, s.here.readP e.g = true → m.fault s.here = none → (s.here.engine engVector).queue.length < 32 →
        exec (mk e) s = .next (m.dispatched (mk e) s)) ∧
  (∀ (s u : State) (j : Job) (e : Ex) (run : Runner), runnerOf (.vadd e) = some run → j.q.instr = .vadd e →
    let g := Geom.of j.q.shape
    let b := typeWidth (vType e)
    let f := fmtOf (vType e)
    let rm := Round.of e.x.toNat
    let c := u.core j.core
    let d := e.f1.toNat
    let from2 := poppedPair e.f2 e.f3 (u.poppedOf j)
    let sum (n : Nat) : Nat :=
      ((exactAdd rm (decodeFp f (c.source e.f2 b from2.1 n)) (decodeFp f (c.source e.f3 b from2.2 n))).round f rm false).1
    fpType (vType e) = true → g.fits [b] (vMsk e) = true →
    s.vecBegin j (queuesOf [e.f2, e.f3]) [] [4096 + d] (tilesOf [e.f2, e.f3]) (vMasks e) = (u, none) →
    ∃ z, run j s = (z, .done) ∧
      (∀ p ∈ c.activeOf e g, tileElem ((z.core j.core).tile d) (g.flat p) b = sum (g.flat p) % 2 ^ b) ∧
      (∀ n, n < 32768 / b → (∀ p ∈ c.activeOf e g, g.flat p ≠ n) →
        tileElem ((z.core j.core).tile d) n b = tileElem (c.tile d) n b) ∧
      (∀ k, k ≠ d → (z.core j.core).tile k = c.tile k) ∧ (∀ m, (z.core j.core).mask m = c.mask m) ∧
      (z.core j.core).regs = c.regs ∧ SameMemory u z)

/-- R157, R385: what stops the dispatch of an engine command: an operand that the unit's checks refuse faults, and a
queue that holds 32 entries already makes the control stream wait; neither enters the queue nor pops a format word. R68,
R157: a command that does not start at once, because others wait before it, only enters its queue: its entry holds the
next command number of its engine, the captured scalars, SHAPE, SRSEED and the place of its slot, and nothing else of
the machine changes but the format queue of a command that pops. -/
def Obligations.CommandDispatchRules : Prop :=
  (∀ (i : Instr) (m : Command) (s : State), command? i = some m → s.here.readP m.ex.g = true →
    (∀ f, m.fault s.here = some f → exec i s = .next (s.fault f)) ∧
    (m.fault s.here = none → 32 ≤ (s.here.engine m.eng).queue.length → exec i s = .next (s.block .queueFull))) ∧
  (∀ (i : Instr) (m : Command) (s t : State), command? i = some m → s.here.readP m.ex.g = true →
    m.fault s.here = none → (s.here.engine m.eng).queue ≠ [] → (s.here.engine m.eng).queue.length < 32 →
    exec i s = .next t →
    let g := s.here.engine m.eng
    let h := t.here.engine m.eng
    (∃ q : QEntry, h = { g with queue := g.queue ++ [q], taken := g.taken + 1 } ∧ q.instr = i ∧ q.num = g.taken + 1 ∧
      q.ops = s.here.capture m.ex ∧ q.shape = s.here.shape ∧ q.seed = s.here.seed ∧ q.line = s.here.line ∧
      q.slot = s.here.curSlot ∧ q.fmt = (if m.fmt then s.here.fmtq.headD 0 else 0)) ∧
    OnlyHere s t ∧ (∀ k, k ≠ m.eng → t.here.engine k = s.here.engine k) ∧
    t.here.fmtq = (if m.fmt then s.here.fmtq.drop 1 else s.here.fmtq) ∧
    { t.here with eng := s.here.eng, fmtq := s.here.fmtq } = s.here ∧ SameMemory s t)

/-- R168: the twelve standalone sync forms: under a true guard each enters its engine's queue, without a command number,
and acts at once when it is alone in the queue of an engine with nothing started. R128, R168: a wait form at the head of
an idle engine at D0 takes its count from a semaphore that holds it and leaves the queue; with too small a count it
stays. -/
def Obligations.SyncForms : Prop :=
  (∀ (s : State) (g : BitVec 4) (l n : BitVec 6),
    let enter (i : Instr) (eng : Nat) (r : BitVec 6) : State := s.setHere (s.here.enqueueSync i eng [s.here.readS r])
    let free (eng : Nat) : Prop := (s.here.engine eng).queue.length < 32
    let done (i : Instr) (eng : Nat) (r : BitVec 6) (act : State → QEntry → Option (Except FaultInfo State)) : State :=
      if (s.here.engine eng).queue.isEmpty then (enter i eng r).takeSync s.focus.toNat eng act else enter i eng r
    let k := s.focus.toNat
    s.here.readP g = true →
    (∀ p ∈ [(Instr.aslw, engCopy), (Instr.wslw, engWeave), (Instr.vslw, engVector), (Instr.lslw, engLink)], free p.2 →
      exec (p.1 g l n) s = .next (done (p.1 g l n) p.2 0 (syncWait k p.2 l n))) ∧
    (∀ p ∈ [(Instr.asls, engCopy), (Instr.wsls, engWeave), (Instr.vsls, engVector), (Instr.lsls, engLink)], free p.2 →
      exec (p.1 g l n) s = .next (done (p.1 g l n) p.2 0 (syncSignal k p.2 l n))) ∧
    (∀ p ∈ [(Instr.atlw, engCopy), (Instr.wtlw, engWeave), (Instr.vtlw, engVector), (Instr.ltlw, engLink)], free p.2 →
      exec (p.1 g l n) s = .next (done (p.1 g l n) p.2 n (syncTimeline k p.2 l)))) ∧
  (∀ (s : State) (core eng : Nat) (l n : BitVec 6) (q : QEntry) (rest : List QEntry),
    let c := s.core core
    let v := c.sluice l.toNat
    c.active = true → c.determinate = false → (c.engine eng).started = none → (c.engine eng).queue = q :: rest →
    v.barrier = false → n ≠ 0 → c.softHit 3 [softSluice l.toNat] = false → c.softHit 3 [softEng eng] = false →
    let t := s.takeSync core eng (syncWait core eng l n)
    (n.toNat ≤ v.count.toNat →
      ((t.core core).engine eng).queue = rest ∧
      (t.core core).sluice l.toNat = { v with count := v.count - n.setWidth 16 }) ∧
    (v.count.toNat < n.toNat → t = s))

/-- R68, R133, R167: COMMAND_COMPLETE: the oldest command of an engine whose effects are all made and acknowledged
leaves the engine and its timeline counter rises by one; at D0, with no arm due, no trap and no fault of its own, its
signal adds its count to a semaphore with room, and no other core and no byte of memory changes. -/
def Obligations.CommandCompletes : Prop :=
  ∀ (s : State) (k : BitVec 8) (e : BitVec 2) (st : Started) (rest : List Started) (l : Nat) (n : BitVec 16),
    let c := s.core k.toNat
    let g := c.engine e.toNat
    let x := (c.ctx?.map BitVec.toNat).getD 0
    (g.flight = st :: rest ∨ (g.flight = [] ∧ g.started = some st ∧ rest = [])) → st.complete = true →
    st.endFault = none → c.determinate = false →
    st.flags &&& (s.ctx x).trapEn = 0 → c.arms = [] → st.entry.signal = some (l, n) → n ≠ 0 →
    c.softHit 3 [softSluice l] = false → (c.sluice l).barrier = false →
    (c.sluice l).count.toNat + n.toNat ≤ (c.sluice l).ceil.toNat →
    ∃ t, exec (.commandComplete k e) s = .next t ∧
      ((t.core k.toNat).engine e.toNat).flight = rest ∧ ((t.core k.toNat).engine e.toNat).tl = g.tl + 1 ∧
      (t.core k.toNat).sluice l = { c.sluice l with count := (c.sluice l).count + n } ∧
      (t.ctx x).flagsTask = (s.ctx x).flagsTask ∧ (t.core k.toNat).regs = c.regs ∧
      (∀ j, j ≠ k.toNat → t.core j = s.core j) ∧ SameMemory s t

/-- R63, R133, R161: LINE_FETCH fetches the active core's line into its instruction cache; ENGINE_SLOT_DISPATCH
dispatches the next engine slot of a core that waits for a queue (log 57), which moves a lone slot's pc on: a command
whose operands pass and whose engine's queue has an entry free behind others enters it; HOME_ACKNOWLEDGEMENT clears the
awaited acknowledgement of the control stream, of the oldest command of an engine that awaits one, or of a draining
task's stream. -/
def Obligations.CoreEventEffects : Prop :=
  ∀ (s : State) (k : BitVec 8),
    let c := s.core k.toNat
    (∀ u line, c.active = true → s.fetchLine k.toNat = (u, .ok line) → headerLctl (lineWord line 0) = 0 →
      exec (.lineFetch k) s = .next u) ∧
    (∀ u line, c.active = true → s.fetchLine k.toNat = (u, .ok line) → headerLctl (lineWord line 0) ≠ 0 →
      exec (.lineFetch k) s = .next (u.setCore k.toNat ((u.core k.toNat).faultAt
        { code := 0x0103, synd := (lineWord line 0).setWidth 64, line := (u.core k.toNat).line, slot := 0 }))) ∧
    (∀ u line x xs i t, c.blocked = some .queueFull → c.active = true → s.fetchLine k.toNat = (u, .ok line) →
      let d := u.core k.toNat
      let unit := takeUnit ((decodeLine line).filter fun y => decide (d.slot ≤ y.num))
      (unit.filter slotEngine).drop d.unitDone = x :: xs → x.what = .ok i →
      dispatchEngine i { u.setCore k.toNat { d with curSlot := x.num, blocked := none } with focus := k } =
        some (.next t) → t.here.blocked = none → (∀ f, t.here.pend = some f → f.akind ≠ 0 ∨ f.late = true) →
      exec (.engineSlotDispatch k) s = .next { t.setHere (
        if 1 < unit.length then { t.here with unitDone := d.unitDone + 1 }
        else { t.here with
          unitDone := 0, held := [], entered := false
          line := if unitEnd unit ≤ 7 then t.here.line else t.here.line + 32
          slot := if unitEnd unit ≤ 7 then unitEnd unit else 1 }) with focus := s.focus }) ∧
    (∀ u line x xs i m, c.blocked = some .queueFull → c.active = true → s.fetchLine k.toNat = (u, .ok line) →
      let d := u.core k.toNat
      let unit := takeUnit ((decodeLine line).filter fun y => decide (d.slot ≤ y.num))
      let w := { u.setCore k.toNat { d with curSlot := x.num, blocked := none } with focus := k }
      (unit.filter slotEngine).drop d.unitDone = x :: xs → x.what = .ok i → command? i = some m → d.pend = none →
      w.here.readP m.ex.g = true → m.fault w.here = none →
      0 < (w.here.engine m.eng).queue.length → (w.here.engine m.eng).queue.length < 32 →
      let e := m.enter i w.here
      exec (.engineSlotDispatch k) s = .next { w.setHere (
        if 1 < unit.length then { e with unitDone := d.unitDone + 1 }
        else { e with
          unitDone := 0, held := [], entered := false
          line := if unitEnd unit ≤ 7 then d.line else d.line + 32
          slot := if unitEnd unit ≤ 7 then unitEnd unit else 1 }) with focus := s.focus }) ∧
    (∀ e : BitVec 3, 4 ≤ e.toNat →
      exec (.homeAcknowledgement k e false) s = .next (s.setCore k.toNat { c with posted := false })) ∧
    (∀ (e : BitVec 3) (st : Started), e.toNat < 4 →
      ((c.engine e.toNat).flight ++ (c.engine e.toNat).started.toList).find? Started.homeAck = some st →
      exec (.homeAcknowledgement k e false) s =
        .next (s.mapCommand k.toNat e.toNat st.entry.num fun v => { v with homeAck := false })) ∧
    (∀ e : BitVec 3, exec (.homeAcknowledgement k e true) s = .next (s.mapDraining k.toNat fun w =>
      if w.stream = (if e.toNat < 4 then e.toNat + 1 else 0) then { w with homeAck := false } else w))

/-! ## The control space, the graph engine and tasks -/

/-- R6, R74, R78, R79, R83, R98, R344, R356 to R358, R426: what a write of each register that has its own row does, once
bring-up is complete: TRIG, QFAIL.HALT, PREEMPT, TLBINV, VFBIND, CLKSTEP, CLGATE and ATTREQ; and that a read of HASH0
answers H's low word and keeps H and HSEQ for the reads that follow. Before it is complete the writes change nothing and
the read answers zero (R352). What PREEMPT does for values beyond 1, when a written CLKSTEP is in force, and how many
requests ATTREQ holds are the model's readings (logs 29, 51 and 53). -/
def Obligations.RegisterRowsAct : Prop :=
  ∀ (s : State) (x : BitVec 6) (q : BitVec 4) (die : BitVec 2) (v : Word),
    let c := s.ctx x.toNat
    let u := c.queue q.toNat
    let byteOf (fn : Nat) : Byte := BitVec.ofNat 8 (v.toNat / 2 ^ (8 * (fn % 8)))
    (s.stew.up = false → ∀ k : BitVec 4,
      exec (.trigWrite x q v) s = .next s ∧ exec (.qfailHaltClear x q v) s = .next s ∧
      exec (.preemptWrite x v) s = .next s ∧ exec (.tlbinvWrite x v) s = .next s ∧ exec (.vfbindWrite k v) s = .next s ∧
      exec (.clockStepWrite die v) s = .next s ∧ exec (.clusterGateWrite die v) s = .next s ∧
      exec (.attestationRequest v) s = .next s ∧
      exec (.hash0Read x q) s = .next { s with out := s.out ++ [.regData 0] }) ∧
    (s.stew.up = true → ∃ t, exec (.trigWrite x q v) s = .next t ∧ ((t.ctx x.toNat).queue q.toNat).trig = v ∧
      ((t.ctx x.toNat).queue q.toNat).pending =
        if u.pending.length < 64 then u.pending ++ [{ value := v, img := c.nextImg }] else u.pending) ∧
    (s.stew.up = true → ∃ t, exec (.qfailHaltClear x q v) s = .next t ∧
      (t.ctx x.toNat).queue q.toNat = { u with halt := u.halt && !v.getLsbD 0 }) ∧
    (s.stew.up = true → ∃ t, exec (.preemptWrite x v) s = .next t ∧ (t.ctx x.toNat).preempt = v ∧
      ∀ k, k < 256 → t.core k =
        if v = 1 ∧ (s.core k).runs x.toNat = true ∧ (s.core k).preemptAt = none ∧ (s.core k).stopping = .no
        then { s.core k with preemptAt := some s.now } else s.core k) ∧
    (s.stew.up = true → ∃ t, exec (.tlbinvWrite x v) s = .next t ∧ t.ctx x.toNat =
      if tlbinvOk v then { c with tlbinv := v, tlbinvQueue := c.tlbinvQueue ++ [v] } else c) ∧
    (s.stew.up = true → ∃ t, exec (.hash0Read x q) s = .next t ∧ t.out = s.out ++ [.regData (hashWord u.hash 0)] ∧
      (t.ctx x.toNat).queue q.toNat = { u with snapHash := u.hash, snapSeq := u.hseq }) ∧
    (s.stew.up = true →
      (∀ k : BitVec 4, ∃ t, exec (.vfbindWrite k v) s = .next t ∧ ∀ fn, fn < 128 → t.stew.binding fn =
        if fn / 8 = k.toNat ∧ fn % 64 ≠ 0 ∧ (byteOf fn = 0 ∨ (64 ≤ (byteOf fn).toNat ∧ (byteOf fn).toNat < 128))
        then (byteOf fn).toNat else s.stew.binding fn) ∧
      (∃ t, exec (.clockStepWrite die v) s = .next t ∧ ∀ d, Table.get 0 t.stew.clkStep d =
        if d = die.toNat then v.toNat % 4 else Table.get 0 s.stew.clkStep d) ∧
      (∃ t, exec (.clusterGateWrite die v) s = .next t ∧
        (∀ d, Table.get 0 t.stew.clgate d = if d = die.toNat then v.setWidth 16 else Table.get 0 s.stew.clgate d) ∧
        ∀ d, Table.get 0 t.stew.gated d =
          if d = die.toNat then Table.get 0 s.stew.gated d &&& v.setWidth 16 else Table.get 0 s.stew.gated d) ∧
      (s.stew.attQueue.length ≤ 8 → ∃ t, exec (.attestationRequest v) s = .next t ∧
        t.stew.attreq = v &&& ~~~(63 : Word) ∧ t.stew.attQueue = s.stew.attQueue ++ [v &&& ~~~(63 : Word)]))

/-- R111, R352, R411, R412, R433, R445: the reads that change a register answer its value and then clear or pop it:
CHERR (its counts only), SRAMERR, MIGERR, NYERR, HPPOP and FRZPOP; before bring-up is complete they answer zero and
change nothing. R445, R446: FREEZE_RELEASE and FREEZE_RESET of a frozen core: the master is frozen no longer; a release
stops the core's task with 0x0802, and a reset leaves the core with neither of its tasks. -/
def Obligations.RegisterReadsAndFreezes : Prop :=
  (∀ (s : State) (ch : BitVec 9) (die : BitVec 2) (p : BitVec 3),
    let tells (v : Word) : List Output := s.out ++ [.regData v]
    (s.stew.up = false → ∀ i, i ∈ [Instr.cherrRead ch, .sramerrRead die, .migerrRead, .hppopRead, .frzpopRead] ∨
      (i = .nyerrRead p ∧ p.toNat < 6) → exec i s = .next { s with out := tells 0 }) ∧
    (s.stew.up = true →
    (let w := Table.get 0 s.memr.cherr ch.toNat
     ∃ t, exec (.cherrRead ch) s = .next t ∧ t.out = tells w ∧
       ∀ k, Table.get 0 t.memr.cherr k =
         if k = ch.toNat then w &&& 0xFFFFFFFFFF else Table.get 0 s.memr.cherr k) ∧
    (∃ t, exec (.sramerrRead die) s = .next t ∧ t.out = tells (Table.get 0 s.memr.sramerr die.toNat) ∧
      ∀ k, Table.get 0 t.memr.sramerr k = if k = die.toNat then 0 else Table.get 0 s.memr.sramerr k) ∧
    exec .migerrRead s = .next { s with out := tells s.memr.migErr, memr := { s.memr with migErr := 0 } } ∧
    (p.toNat < 6 → ∃ t, exec (.nyerrRead p) s = .next t ∧
      t.out = tells (Table.get 0 s.fab.nyerr p.toNat ||| (if s.fab.down.getLsbD p.toNat then 1 else 0)) ∧
      (∀ k, Table.get 0 t.fab.nyerr k = if k = p.toNat then 0 else Table.get 0 s.fab.nyerr k) ∧ t.fab.down = s.fab.down) ∧
    exec .hppopRead s = .next { s with
      out := tells (s.memr.hpQueue.headD 0), memr := { s.memr with hpQueue := s.memr.hpQueue.drop 1 } } ∧
    (s.stew.frzList = [] → exec .frzpopRead s = .next { s with out := tells 0 }) ∧
    (∀ m rest, s.stew.frzList = m :: rest → exec .frzpopRead s = .next { s with
      out := tells (m ++ (1 : BitVec 48)), stew := { s.stew with frzList := rest } }))) ∧
  (∀ (s : State) (v : Word) (k : Nat) (f : Frozen), s.stew.up = true → k < 256 → v.toNat % 2 ^ 16 = k →
    s.stew.frozen.find? (fun g => g.master == v.setWidth 16) = some f →
    (v.toNat / 2 ^ 16 % 4 = 1 → ∃ t, exec (.freezeRelease v) s = .next t ∧ t.stew.frzctl = v ∧
      t.stew.frozen = s.stew.frozen.filter (fun g => g.master != v.setWidth 16) ∧
      (∀ j, j ≠ k → t.core j = s.core j) ∧ (t.core k).frozen = false ∧ (t.core k).task = (s.core k).task ∧
      ((s.core k).task.isSome = true → (s.core k).pend = none →
        ∃ g, (t.core k).pend = some g ∧ g.code = 0x0802 ∧ g.addr = f.addr ∧ g.synd = BitVec.ofNat 64 k)) ∧
    (v.toNat / 2 ^ 16 % 4 = 2 → ∃ t, exec (.freezeReset v) s = .next t ∧ t.stew.frzctl = v ∧
      t.stew.frozen = s.stew.frozen.filter (fun g => g.master != v.setWidth 16) ∧
      (t.core k).frozen = false ∧ (t.core k).task = none ∧ (t.core k).draining = none))

/-- R6, R338, R341, R344, R345, R352, R353, R405, R445: registers as the steward, the management port and the functions
of the host ports reach them: a write before bring-up is complete, or of a read-only offset, is ignored; a function's
access is performed at once when nothing of it is in progress, and one that is no aligned access of 8 bytes gets
Unsupported Request; BAR2 is the virtual space of the context that the function has, where a read answers the bytes of
its home; a frozen function's reads are aborted. That BAR2 of a function without a context, and every BAR2 read before
bring-up is complete, gets Unsupported Request is the model's reading (DEDUCED, log 52: R352's "every other read returns
zero" can be read of BAR2 too), and so is how BAR2 takes an access that crosses a page or waits for a peer. -/
def Obligations.ControlSpaceAccess : Prop :=
  ∀ (s : State) (a : Nat) (v : Word) (port : BitVec 1) (fn : BitVec 6),
    let k := 64 * port.toNat + fn.toNat
    let write : Out := exec (.registerWrite .steward a (.store v)) s
    let host (acc : RegAccess) : Out := exec (.registerWrite (.host port fn) a acc) s
    let tells (s : State) (o : Output) : State := { s with out := s.out ++ [o] }
    let unsupported : Out := .next (tells s (.hostUnsupported port.toNat fn.toNat))
    ((s.stew.up = false ∨ a % 8 ≠ 0 ∨ a < 0x100) → write = .next s) ∧
    exec (.registerWrite .steward a (.load 8)) s = .next (tells (s.readReg a).1 (.regData (s.readReg a).2)) ∧
    (s.stew.up = true →
      (a = 0x200 → write = .next { s with stew := { s.stew with pcap := v.setWidth 16 } }) ∧
      (a = 0x110 → write = .next { s with stew := { s.stew with devevt := s.stew.devevt &&& ~~~v } }) ∧
      (a = 0x28040 → write = .next { s with fab := { s.fab with fabto := v.setWidth 32 } }) ∧
      (a = 0x40200 → write = .next { s with stew := { s.stew with pfwin := v.setWidth 6 } }) ∧
      (∀ x, x < 64 → a = 0x01000000 + 0x00100000 * x + 0x18 →
        write = .next (s.setCtx x { s.ctx x with slice := v }))) ∧
    (s.stew.powered = true →
      exec (.managementPortAccess (.write a v)) s = write ∧
      (exec (.managementPortAccess (.read 0)) s =
        .next { s with out := s.out ++ [.regData 0x0000E2C000006144] }) ∧
      (∀ image, exec (.managementPortAccess (.flashFirmware image)) s =
        .next { s with stew := { s.stew with firmware := image } }) ∧
      (∀ rec, exec (.managementPortAccess (.flashRecord rec)) s =
        .next { s with stew := { s.stew with record := rec } })) ∧
    (s.hostq = [] → s.hostWaits k = false → s.isFrozen (hostMaster k) = true → ∀ len,
      exec (.hostBar2Read port fn a len) s = .next (tells s (.hostAbort port.toNat fn.toNat)) ∧
      host (.store v) = .next s) ∧
    (s.hostq = [] → s.hostWaits k = false → s.isFrozen (hostMaster k) = false →
      (s.stew.up = true → fn = 0 → a % 8 = 0 → (a < 0x01000000 ∨ 0x05000000 ≤ a) → host (.store v) = write) ∧
      (fn = 0 → a % 8 = 0 → a < 2 ^ 27 → host (.load 8) =
        .next (tells (s.readReg a).1
          (.hostData port.toNat 0 (toBytes 8 (s.readReg a).2.toNat) false))) ∧
      (∀ x, s.stew.up = true → fn ≠ 0 → s.stew.context? k = some x → a % 8 = 0 → a < 0x100000 → host (.load 8) =
        .next (tells (s.readCtxBlock x a).1
          (.hostData port.toNat fn.toNat (toBytes 8 (s.readCtxBlock x a).2.toNat) false))) ∧
      (∀ len bs, (a % 8 ≠ 0 ∨ len ≠ 8 → host (.load len) = unsupported) ∧
        (a % 8 ≠ 0 ∨ bs.length ≠ 8 → host (.bytes bs) = unsupported) ∧
        (a % 8 ≠ 0 → host (.store v) = unsupported) ∧ host .atomic = unsupported) ∧
      (∀ len, (s.stew.up = false ∨ s.stew.context? k = none) → exec (.hostBar2Read port fn a len) s = unsupported) ∧
      (∀ x len t g la, s.stew.up = true → s.stew.context? k = some x → 0 < len →
        (s.bar2 x a).toNat % 4096 + len ≤ 4096 → window? (s.bar2 x a) = none →
        let ag : Agent := { ctx := x, akind := 9, aidx := port.toNat, sup := decide (fn = 0), issuer := some (.host k) }
        s.translate ag Need.read (s.bar2 x a) (fun _ => none) = (t, .ok g) →
        polderLoadCheck ag (s.bar2 x a) len 0 g = none →
        t.place g.gpa = .mem la → g.gpa % 2 ^ 51 < 0x7FF0000000000 →
        let r := t.serveBytes g.lo la len
        exec (.hostBar2Read port fn a len) s =
          .next (tells r.1 (.hostData port.toNat fn.toNat r.2.1 (!r.2.2.1.isEmpty)))) ∧
      (∀ x bs t g la, s.stew.up = true → s.stew.context? k = some x → 0 < bs.length →
        (s.bar2 x a).toNat % 4096 + bs.length ≤ 4096 → window? (s.bar2 x a) = none →
        let ag : Agent := { ctx := x, akind := 9, aidx := port.toNat, sup := decide (fn = 0), issuer := some (.host k) }
        s.translate ag Need.write (s.bar2 x a) (noPolder ag (s.bar2 x a) 0) = (t, .ok g) →
        t.place g.gpa = .mem la → g.gpa % 2 ^ 51 < 0x7FF0000000000 →
        exec (.hostBar2Write port fn a bs) s = .next (t.homeWrite g.lo x la bs)))

/-- R79, R427: RUN_START on an idle queue that is not halted: the oldest pending run starts with its patches applied, or
fails whole; a run that starts leaves the pending list, counts in RUNNO and takes the next sequence number for each of
its kernels; one that fails whole counts too (the model's choice, log 16), and halts its queue. R55, R82, R83, R428:
DIGEST_COMPUTE hashes the output bytes of the queue's completed D2 kernel with SHAKE256 and completes it, or, where the
digest engine holds an error, records it; HASH_CHAIN sets H to SHAKE256 of H, the sequence number in 8 bytes and the
digest whose turn it is, and HSEQ to that number. -/
def Obligations.RunsAndDigests : Prop :=
  (∀ (s : State) (x : BitVec 6) (q : BitVec 4) (r : Trigger) (rest : List Trigger),
    let c := s.ctx x.toNat
    let u := c.queue q.toNat
    u.run = none → u.pending = r :: rest → u.halt = false → c.uploading r = false →
    let whole := c.expand r.img 5 (r.value.setWidth 16) [] none 0 []
    (∀ nodes img t ps, whole = .ok nodes → c.imageAt (r.value.setWidth 16) r.img = some img →
      s.readPatches (s.graphAgent x.toNat q.toNat 7) (patchAddr r.value)
        ((List.range img.count).map fun k => nodeKind (Table.get 0 img.nodes k)) = (t, .ok ps) →
      exec (.runStart x q) s = .next (t.beginRun x.toNat q.toNat r img ps)) ∧
    (∀ nodes img, whole = .ok nodes → c.imageAt (r.value.setWidth 16) r.img = some img →
      let v := (s.beginRun x.toNat q.toNat r img []).ctx x.toNat |>.queue q.toNat
      v.pending = rest ∧ v.runNo = u.runNo + 1 ∧
        v.nextSeq = u.nextSeq + BitVec.ofNat 64 (nodes.filter fun e => e.kind == 0).length) ∧
    (∀ e, whole = .error e → ∃ t, exec (.runStart x q) s = .next t ∧
      let v := (t.ctx x.toNat).queue q.toNat
      v.pending = rest ∧ v.runNo = u.runNo + 1 ∧ v.halt = true ∧ v.runf = true ∧ v.failSeq = 0 ∧ v.run = none ∧
        (t.ctx x.toNat).held.length = c.held.length + 1)) ∧
  (∀ (s : State) (x : BitVec 6) (q : BitVec 4),
    let u := (s.ctx x.toNat).queue q.toNat
    (∀ k t bs, s.digestKernel x.toNat q.toNat = some k →
      s.outputBytes (s.graphAgent x.toNat q.toNat 8) k.record = (t, .ok bs) →
      (t.digestBad = false → exec (.digestCompute x q) s = .next (t.endDigest k (shake256 bs) true)) ∧
      (t.digestBad = true → ∃ v, exec (.digestCompute x q) s = .next v ∧ v.digestBad = false ∧
        (v.ctx x.toNat).held.length = (t.ctx x.toNat).held.length + 1)) ∧
    (∀ d, u.head? = some (.digest d) → ∃ t, exec (.hashChain x q) s = .next t ∧
      let v := (t.ctx x.toNat).queue q.toNat
      v.hash = shake256 (u.hash ++ toBytes 8 u.chainNext.toNat ++ d) ∧ v.hseq = u.chainNext ∧ v.halt = u.halt ∧
        v.pending = u.pending ∧ SameMemory s t))

/-- R73, R77, R83, R134, R137, R346: what a ready node does: a timeline wait completes once its counter is there and is
at work until then; a timeline signal adds its increment, and a notify writes NOTE and raises its vector, once nothing
up to the highest kernel that it waits for is unchained, by which the model reads R83 so: no digest of a lower-numbered
kernel either, no such D2 kernel at work, and, at level D2, none unreleased (logs 19 and 76); a set-level node writes
CTXLVL once every kernel of its queue has completed, one that only awaits its digest included; a call makes its nodes
ready, and completes when all of them have. R59, R61, R73, R254, R436: KERNEL_RELEASE of a ready kernel node whose
record has no defect copies its parameter block and enters the kernel, at the level that CTXLVL holds, among the
released ones; COLLECTIVE_NODE of a node whose descriptor has no defect begins its collective. -/
def Obligations.NodesAct : Prop :=
  (∀ (s : State) (x : BitVec 6) (q : BitVec 4) (n : Nat) (e : RunNode),
    s.node? x.toNat q.toNat n = some e → e.bad = false →
    let cnt := nodeBits e.body 519 512
    let w : Word := BitVec.ofNat 64 (nodeBits e.body 639 576)
    let active (t : State) : State := t.mapRun x.toNat q.toNat fun r => r.setState n .active
    let ends (t : State) : Out := .next (t.completeNode x.toNat q.toNat n)
    (e.kind = 2 → (e.state = .ready ∨ e.state = .active) →
      exec (.timelineWaitNode x q n) s =
        if w.toNat ≤ ((s.ctx x.toNat).counter cnt).toNat then ends s else .next (active s)) ∧
    (e.kind = 3 → e.state = .ready → s.unchained x.toNat q.toNat e = false →
      exec (.timelineSignalNode x q n) s = ends (s.advance x.toNat cnt w)) ∧
    (e.kind = 4 → e.state = .ready → (∀ k ∈ s.kernels, k.ctx = x → k.queue = q.toNat → k.digesting = true) →
      exec (.setLevelNode x q n) s =
        ends (s.setCtx x.toNat { s.ctx x.toNat with lvl := BitVec.ofNat 2 (nodeBits e.body 513 512) })) ∧
    (e.kind = 5 → e.state = .ready → s.unchained x.toNat q.toNat e = false →
      exec (.hostNotifyNode x q n) s =
        ends ((s.mapQueue x.toNat q.toNat fun u =>
          { u with note := BitVec.ofNat 64 (nodeBits e.body 575 512) }).vector x.toNat q.toNat)) ∧
    (e.kind = 6 → e.state = .ready → exec (.subgraphCallNode x q n) s = .next (active s).settleGraph) ∧
    (∀ r, e.kind = 6 → e.state = .active → ((s.ctx x.toNat).queue q.toNat).run = some r →
      (∀ d ∈ r.nodes, d.parent = some n → d.state = .completed) → exec (.subgraphCallNode x q n) s = ends s)) ∧
  (∀ (s : State) (x : BitVec 6) (q : BitVec 4) (n : Nat) (e : RunNode),
    s.node? x.toNat q.toNat n = some e → e.bad = false → e.state = .ready →
    (∀ t u dc ws,
      let k : Kernel := { ctx := x, queue := q.toNat, node := n, kseq := e.kseq, level := (s.ctx x.toNat).lvl
                          record := BitVec.ofNat 1024 (nodeBits e.body 1535 512)
                          params := BitVec.ofNat 2048 (nodeBits e.body 3583 1536)
                          devCoords := some [], readyAt := e.readyAt }
      let a := s.graphAgent x.toNat q.toNat 7
      e.kind = 0 → kernelDefects k.record = [] → s.deviceCoords a k.record = (t, .ok dc) →
      t.planWrite a Need.write (kParmAddr k.record)
        (((toBytes 256 k.params.toNat).take (kParmLen k.record)).map some) (fun v _ p => noPolder a v 0 p) = (u, .ok ws) →
      let v := u.putAll a (.node x.toNat q.toNat n) ws
      exec (.kernelRelease x q n) s = .next ((v.1.mapQueue x.toNat q.toNat fun z => { z with fetched := [] }).enterKernel
        { k with devCoords := dc, tags := v.2 }).settleGraph) ∧
    (∀ t u c,
      let a := { s.graphAgent x.toNat q.toNat 7 with sup := false }
      let d := nodeBits e.body 1023 512
      e.kind = 1 → s.checkColl a d 0 { addr := BitVec.ofNat 64 (dPool d), count := none } true = (t, .ok c) →
      t.newWait.1.beginColl a c (.node x.toNat q.toNat n) t.newWait.2 = (u, .ok ()) →
      let v := u.mapQueue x.toNat q.toNat fun z => { z with fetched := [] }
      exec (.collectiveNode x q n) s = .next
        (if v.colls.any fun c => decide (c.issuer = .node x.toNat q.toNat n) && !c.ended then
          v.mapRun x.toNat q.toNat fun r => r.setState n .active else v).settleGraph))

/-- R347, R352, R377, R427: an accepted GRAPH_UPLOAD or GRAPH_DROP takes the context's next upload number, and a refused
one leaves the uploads as they are; GRAPH_UPLOAD_COMPLETE puts the nodes read into scheduler memory; FAULT_RECORD_WRITE
writes the oldest held record to the fault queue's next place, advances TAIL and raises vector 16 when the queue was
empty. -/
def Obligations.UploadsAndFaultQueue : Prop :=
  ∀ (s : State) (x : BitVec 6),
    let c := s.ctx x.toNat
    let legal : Prop := c.gucmd.toNat < 2 ^ 29 ∧ s.stew.up = true
    (s.stew.up = false → exec (.graphUpload x) s = .next s ∧ exec (.graphDrop x) s = .next s) ∧
    (legal → c.gusrc.toNat % 512 = 0 → (s.slotsWith x.toNat c.gucmd).1 ≤ c.gquota →
      (s.slotsWith x.toNat c.gucmd).2 ≤ 65536 → c.gucmd.getLsbD 28 = false → c.uploads = [] →
      ∃ t, exec (.graphUpload x) s = .next t ∧ (t.ctx x.toNat).nextImg = c.nextImg + 1 ∧
        (t.ctx x.toNat).uploads = [{ src := c.gusrc, cmd := c.gucmd, serial := c.nextImg + 1, port := c.guPort }]) ∧
    (¬legal ∨ c.gusrc.toNat % 512 ≠ 0 ∨ c.gquota < (s.slotsWith x.toNat c.gucmd).1 →
      ∃ t, exec (.graphUpload x) s = .next t ∧ (t.ctx x.toNat).nextImg = c.nextImg ∧
        (t.ctx x.toNat).uploads = c.uploads) ∧
    (legal → c.gucmd.getLsbD 28 = true →
      ∃ t, exec (.graphDrop x) s = .next t ∧ (t.ctx x.toNat).nextImg = c.nextImg + 1) ∧
    (∀ u t bs, c.uploads = [u] → u.cmd.getLsbD 28 = false →
      s.readBytes { s.graphAgent x.toNat 0 9 with sup := true } u.src (512 * uploadNodes u.cmd) = (t, .ok bs) →
      (∀ i ∈ (t.ctx x.toNat).images, i.graph = u.cmd.setWidth 16 → i.serial ≤ u.serial) →
      ∃ v, exec (.graphUploadComplete x) s = .next v ∧ (v.ctx x.toNat).uploads = [] ∧
        { graph := u.cmd.setWidth 16, serial := u.serial, count := uploadNodes u.cmd,
          nodes := nodesOf (uploadNodes u.cmd) bs } ∈ (v.ctx x.toNat).images) ∧
    (∀ r rest la, c.held = r :: rest → c.fqen = true → (c.fqtail - c.fqhead).toNat < 2 ^ c.fqlog →
      s.place ((c.fqbase.toNat / 64 * 64 + 64 * (c.fqtail.toNat % 2 ^ c.fqlog)) % 2 ^ 64) = .mem la →
      let t := s.homeWrite 0 x.toNat la (toBytes 64 r.bits.toNat)
      let v := t.setCtx x.toNat { t.ctx x.toNat with held := rest, fqtail := c.fqtail + 1 }
      exec (.faultRecordWrite x) s = .next (if c.fqhead = c.fqtail then v.vector x.toNat 16 else v))

/-- R60, R62, R65, R66, R431: TASK_START gives its core the scheduler's first candidate, at the record's CODE with the
coordinates in s1 to s4, every predicate but p0 false and every sluice empty; GANG_PLACE and GANG_RELAUNCH give every
member of a gang its core at once; GANG_RESERVE makes the die reserve for the gang. That RESV is measured from the cycle
in which the node became ready is the model's reading (log 64). -/
def Obligations.TasksStart : Prop :=
  ∀ (s : State),
    (∀ (core : BitVec 8) (k : Kernel) (n : Nat), s.choice (core.toNat / 64) = some (.task k n, core.toNat) →
      ∃ t, exec (.taskStart core) s = .next t ∧
        let c := t.core core.toNat
        (∃ w, c.task = some w ∧ w.ctx = k.ctx ∧ w.queue = k.queue ∧ w.kseq = k.kseq ∧ w.level = k.level ∧
          w.kernel = k.record ∧ w.gang = 0 ∧ w.since = s.now) ∧
        c.line = kCode k.record ∧ c.slot = 1 ∧ c.pend = none ∧ c.blocked = none ∧
        (∀ j, j < 4 → c.readS (BitVec.ofNat 6 (1 + j)) = BitVec.ofNat 64 (nthD 0 (k.coords (core.toNat / 64) n) j)) ∧
        (∀ p, p ≠ 0 → c.readP p = false) ∧
        (∀ j, j < 48 → c.sluice j = { ceil := if k.level = 0 then 0xFFFF else 32 }) ∧
        (∀ j, j ≠ core.toNat → t.core j = s.core j) ∧ SameMemory s t) ∧
    (∀ (die : BitVec 2) (k : Kernel), s.gangChoice die.toNat = some k →
      (∀ m, m < k.count die.toNat →
        (((s.placeGang die.toNat k).core (nthD 0 (s.gangFree die.toNat k) m)).task.map fun w =>
          (w.member, w.gang, w.gangSize)) = some (m, s.nextGang + 1, k.count die.toNat)) ∧
      (k.lane die.toNat ∉ k.relaunch → exec (.gangPlace die) s = .next (s.placeGang die.toNat k)) ∧
      (k.lane die.toNat ∈ k.relaunch → k.queue < 16 →
        (∀ d g, d < die.toNat → s.gangChoice d = some g → (g.ctx, g.queue, g.node) ≠ (k.ctx, k.queue, k.node)) →
        exec (.gangRelaunch k.ctx (BitVec.ofNat 4 k.queue) k.node) s = .next (s.placeGang die.toNat k))) ∧
    (∀ (die : BitVec 2) (k : Kernel) (keys : List Nat) (rest : List (List Nat × Cand)),
      s.cands die.toNat = (keys, .gang k) :: rest → (s.gangFree die.toNat k).length < k.count die.toNat →
      s.reserving die.toNat = none → (∀ d, d < 4 → s.reservesFor d k = false) → kResv k.record ≤ s.now - k.readyAt →
      s.reservingDie die.toNat k = die.toNat →
      exec (.gangReserve die) s = .next (({ s with
        gangReserve := Table.set none s.gangReserve die.toNat (some (k.ctx, k.queue, k.kseq)) } : State).reserveCores
          die.toNat))

/-- R63, R64, R379, R418: how a task leaves its core: an exiting one that has completed locally moves to the draining
slot; a draining one whose work is all acknowledged retires; one that a fault stops is recorded, when all that it has
issued is acknowledged, and gives up its slot. -/
def Obligations.TasksLeave : Prop :=
  ∀ (s : State) (core : BitVec 8),
    let k := core.toNat
    let c := s.core k
    (∀ w, c.task = some w → c.exiting = true → c.active = true → c.stopping = .no → c.draining = none →
      (∀ e, e < 4 → (c.engine e).localDone = true) → (∀ e ∈ c.inFlight, s.staysFor k e.2 = false) →
      ∃ t, exec (.taskEnterDraining core) s = .next t ∧ (t.core k).task = none ∧
        (t.core k).draining.map Draining.task = some w) ∧
    (∀ d, c.draining = some d → c.frozen = false → (∀ w ∈ d.work, w.homeAck = false ∧ w.tags = [] ∧ w.waits = []) →
      ∃ t, exec (.taskRetire core) s = .next t ∧ t.core k = { c with draining := none } ∧
        (∀ j, j ≠ k → t.core j = s.core j) ∧ SameMemory s t) ∧
    (∀ w f, c.task = some w → c.pend = some f → s.settled k = true → s.abortTurn w f = true →
      ((s.writeBackAll k).core k).postedTags = [] →
      ∃ t, exec (.taskStop core) s = .next t ∧ (t.core k).task = none ∧
        (w.gang = 0 → ∃ r, (t.ctx w.ctx.toNat).held = (s.ctx w.ctx.toNat).held ++ [r] ∧
          r.fseq = (s.ctx w.ctx.toNat).fqnext ∧ r.notice = false))

/-- R74, R76, R81, R378, R425: the expiry of a slice asks the task to leave; a deadline begins a full save at the next
bundle boundary; a safe point that was executed is taken at the next one (R224); a save puts the task among its
context's saved ones and frees its core; FQRESUME marks the stopped task that it names; a resumed task stands on its
core again, and one whose image a leaf or poison refuses stays stopped (R465: the record it then keeps is the model's,
log 27); a discarded one is dropped. -/
def Obligations.PreemptionAndResume : Prop :=
  ∀ (s : State) (core : BitVec 8) (x : BitVec 6) (fseq : BitVec 32),
    let k := core.toNat
    let c := s.core k
    (∀ w, c.task = some w → c.preemptAt = none → c.stopping = .no → (s.ctx w.ctx.toNat).slice ≠ 0 →
      (s.ctx w.ctx.toNat).slice.toNat ≤ s.now - w.since →
      (s.cands (k / 64)).any (fun d => d.2.foreign w.ctx.toNat) = true →
      exec (.sliceExpiry core) s = .next (s.setCore k { c with preemptAt := some s.now })) ∧
    (∀ w a, c.task = some w → c.preemptAt = some a → c.stopping = .no → (s.ctx w.ctx.toNat).predl.toNat ≤ s.now - a → s.atBoundary k = true →
      exec (.preemptDeadline core) s = .next (s.setCore k { c with stopping := .full })) ∧
    (c.task.isSome = true → c.stopping = .soon → exec (.preemptSave core) s =
      .next (if s.atBoundary k then s.setCore k { c with stopping := .safePoint } else s)) ∧
    (∀ w u, c.task = some w → (c.stopping = .safePoint ∨ c.stopping = .full) → c.pend = none → s.settled k = true →
      c.postedTags = [] →
      let safe := c.stopping == .safePoint
      let parts := if safe then c.parked.partsLive c.liveEntry.toNat else partsAll
      (s.setCore k { c with posted := false }).writeImage w.ctx.toNat k parts = (u, none) →
      ∃ t, exec (.preemptSave core) s = .next t ∧ (t.core k).task = none ∧
        (t.ctx w.ctx.toNat).saved = (u.ctx w.ctx.toNat).saved ++ [{
          core := k, state := (if safe then c.parked.dropDead parts c.liveEntry.toNat else c.parked), safe := safe }]) ∧
    (∀ i, i = .fqresumeResume x fseq ∨ i = .fqresumeAbort x fseq → s.stew.up = false → exec i s = .next s) ∧
    (∀ (i : Instr) (r : Bool), s.stew.up = true → (i = .fqresumeResume x fseq ∧ r = true) ∨ (i = .fqresumeAbort x fseq ∧ r = false) →
      ∃ t, exec i s = .next t ∧ (t.ctx x.toNat).fqresume = fseq ++ (if r then 1 else 2 : BitVec 32) ∧
        (t.ctx x.toNat).saved = (s.ctx x.toNat).saved.map fun v =>
          if v.faulted = true ∧ v.fseq = fseq ∧ v.released = none then { v with released := some r } else v) ∧
    (∀ v, s.coreFree k = true → c.reserved = none →
      ((s.cands (k / 64)).map Prod.snd).find? (s.fits k) = some (.saved v) → v.state.ctx? = some x →
      exec (.taskResume core) s = .next (s.restore x.toNat v)) ∧
    (∀ v, (s.ctx x.toNat).firstStopped = some v → s.resumes v = true → s.coreFree v.core = true →
      (s.core v.core).reserved = none → exec (.stoppedTaskResume x) s = .next (s.restore x.toNat v)) ∧
    (∀ v w, (s.ctx x.toNat).firstStopped = some v → v.released.isSome = true → s.resumes v = false →
      v.state.task = some w →
      ∃ t, exec (.stoppedTaskDiscard x) s = .next t ∧
        (t.ctx x.toNat).saved = (s.ctx x.toNat).saved.filter (· != v)) ∧
    (∀ v w u, v.state.task = some w →
      let parts := if v.safe then v.state.partsLive v.state.liveEntry.toNat else partsAll
      let t := s.restore x.toNat v
      (∀ d, s.readImage x.toNat v.core v.state parts = (u, .ok d) →
        t.ctx x.toNat = { u.ctx x.toNat with saved := (u.ctx x.toNat).saved.filter (· != v) } ∧
        (t.core v.core).task = some { w with since := u.now } ∧ (t.core v.core).regs = d.regs ∧
        (t.core v.core).draining = (u.core v.core).draining) ∧
      (∀ f, s.readImage x.toNat v.core v.state parts = (u, .error f) →
        ∃ o ∈ (t.ctx x.toNat).saved, o.core = v.core ∧ o.state = v.state ∧ o.faulted = true ∧ o.released = none))

/-! ## Memory, steward, fabric and berm engines -/

/-- R98, R108 to R111, R352, R412, R413: TLB_INVALIDATION_COMPLETE sends what L2 holds back of the context home, and
drops exactly the matching entries of every TLB once no request of the context is unanswered (that every request of the
context counts, and every byte held back, is the model's reading, log 34); an accepted migration joins the active ones,
a refused one is only reported, and its background copy moves one granule of 256 bytes; a retired channel leaves the
live ones, and the fill that follows ends the retirement once no granule with an error is left; the end of an epoch
clears the counts and offers a frame that reached the threshold in one die's memory-side cache. Before bring-up is
complete the writes change nothing. -/
def Obligations.MemoryEventsAct : Prop :=
  ∀ (s : State) (x : BitVec 6) (v : Word),
    let c := s.ctx x.toNat
    let m := s.memr
    let sent : Prop := ∀ k, (s.core k).dirtyLines = [] ∧ (s.core k).comb = none
    (∀ w rest, c.tlbinvQueue = w :: rest → sent → (∃ r ∈ s.fab.requests, r.ctx = x.toNat) →
      exec (.tlbInvalidationComplete x) s = .next { s with memr := m.cleanL2 x.toNat }) ∧
    (∀ w rest, c.tlbinvQueue = w :: rest → sent → (∀ r ∈ s.fab.requests, r.ctx ≠ x.toNat) →
      ∃ t, exec (.tlbInvalidationComplete x) s = .next t ∧ (t.ctx x.toNat).tlbinvQueue = rest ∧
        (∀ k, (t.core k).tlb = (s.core k).tlb.filter fun e => !e.hit x.toNat w) ∧ SameMemory s t) ∧
    (s.stew.up = false → exec (.migrationSubmit v) s = .next s ∧ exec (.channelRetire v) s = .next s) ∧
    (s.stew.up = true → s.migRefusal m.migSubL v = none → exec (.migrationSubmit v) s = .next { s with memr := { m with
      migSubH := v
      migs := m.migs ++ [{ old := m.migSubL.toNat / 2 ^ 16 * 2 ^ 16 % 2 ^ 51, new := v.toNat / 2 ^ 16 * 2 ^ 16 % 2 ^ 51
                           size := m.migSubL.toNat % 4 }] } }) ∧
    (∀ frame why, s.stew.up = true → s.migRefusal m.migSubL v = some (frame, why) →
      ∃ t, exec (.migrationSubmit v) s = .next t ∧
        t.memr.migRefused = m.migRefused + 1 ∧ t.memr.migs = m.migs ∧ t.memr.migSubH = m.migSubH) ∧
    (∀ slot g, m.migs[slot]? = some g → g.nextGranule < frameBytes g.size / 256 →
      Table.get false g.arrived g.nextGranule = false →
      let n := g.nextGranule
      ∃ t, exec (.migrationBackgroundCopy slot n) s = .next t ∧
        (∀ j, j < 256 → t.byte (g.new + 256 * n + j) = s.byte (g.old + 256 * n + j)) ∧
        ∀ a, (a < g.new + 256 * n ∨ g.new + 256 * n + 256 ≤ a) → t.byte a = s.byte a) ∧
    (s.stew.up = true → m.chBusy = false → v.toNat < 384 → v.toNat ∈ m.live → 1 < m.live.length →
      ∃ t, exec (.channelRetire v) s = .next t ∧ t.memr.live = m.live.filter (· != v.toNat) ∧ t.memr.chBusy = true ∧
        t.memr.retired = m.retired + 1 ∧ ∀ a, a < t.memr.live.length * 2 ^ 31 → t.byte a = s.byte a) ∧
    (m.chBusy = true →
      let left (e : Nat × Nat) : Prop := m.retNext ≤ e.1 / 8 ∧ isFar (32 * e.1) = false ∧ m.retired? (32 * e.1) = false
      ∃ t, exec .retirementFill s = .next t ∧ t.memr.live = m.live ∧ SameMemory s t ∧
        ((∀ e ∈ s.merr, ¬left e) → t.memr.chBusy = false) ∧
        ((∃ e ∈ s.merr, left e) → t.memr.chBusy = true ∧ m.retNext < t.memr.retNext)) ∧
    (m.hpctl.getLsbD 0 = true → ∃ t, exec .hotPageEpochEnd s = .next t ∧ t.memr.hpCounts = [] ∧ t.memr.hpPinned = [] ∧
      ∀ f d n, d < 4 → m.hpCounts = [(4 * f + d, n)] → m.hpctl.toNat / 2 ^ 48 ≤ n → Table.get false m.hpPinned f = false →
        m.pendingAdds f = false → m.hpQueue.length < 256 →
        t.memr.hpQueue = m.hpQueue ++ [BitVec.ofNat 64 (s.global (f * 2 ^ 16) + min n 32767 * 2 + 1)])

/-- R349, R350, R359, R414, R415: the life of a far extent: added, accepted, released, and gone from the table when the
release completes, when it is forced out, when its link fails or when its release times out; a release request and a
forced removal are events of the device; the bytes of an extent that leaves are gone: that they then read as zero is the
model's (logs 3 and 36). -/
def Obligations.ExtentsLive : Prop :=
  ∀ (s : State) (p : BitVec 1) (k : BitVec 8) (base : Word) (units : BitVec 32),
    let here (t : State) : Extent := t.memr.extent p.toNat k.toNat
    let e := here s
    let others (t : State) : Prop := ∀ q j, q < 2 → j < 256 → (q, j) ≠ (p.toNat, k.toNat) →
      t.memr.extent q j = s.memr.extent q j
    let gone (t : State) : Prop := here t = {} ∧ others t ∧
      (∀ a, e.base ≤ a → a < e.base + e.len * 2 ^ 28 → t.byte a = 0) ∧
      ∀ a, (a < e.base ∨ e.base + e.len * 2 ^ 28 ≤ a) → t.byte a = s.byte a
    (e.state = 0 → base.toNat % 2 ^ 28 = 0 → ∃ t, exec (.extentAdd p k base units) s = .next t ∧
      here t = { base := base.toNat, len := units.toNat, state := 1 } ∧ others t ∧ SameMemory s t) ∧
    (s.stew.up = false → exec (.extentAccept p k) s = .next s ∧ exec (.extentRelease p k) s = .next s) ∧
    (s.stew.up = true → e.state = 1 → ∃ t, exec (.extentAccept p k) s = .next t ∧ here t = { e with state := 2 } ∧ others t ∧
      SameMemory s t) ∧
    (s.stew.up = true → e.state = 2 → ∃ t, exec (.extentRelease p k) s = .next t ∧ here t = { e with state := 3 } ∧ others t ∧
      SameMemory s t) ∧
    (e.state = 3 → ∃ t, exec (.extentReleaseComplete p k) s = .next t ∧ gone t ∧
      t.out = s.out ++ [.extentReleased p.toNat k.toNat]) ∧
    (∃ t, exec (.extentReleaseRequest p k) s = .next t ∧ t.stew.devevt.getLsbD 0 = true ∧ t.memr = s.memr ∧
      SameMemory s t) ∧
    (2 ≤ e.state → s.memr.migs = [] → ∃ t, exec (.extentForcedRemoval p k) s = .next t ∧ gone t ∧
      t.stew.devevt.getLsbD 3 = true) ∧
    (e.state = 3 → exec (.extentReleaseTimeout p k) s = exec (.extentForcedRemoval p k) s) ∧
    (∃ t, exec (.cxlLinkFailure p) s = .next t ∧ ∀ q j, q < 2 → j < 256 → t.memr.extent q j =
      if q = p.toNat ∧ 2 ≤ (s.memr.extent q j).state then {} else s.memr.extent q j)

/-- R358, R359, R448 to R450: a marked cluster without tasks is gated; a tick of the power cap moves every die's clock
step by the rule of R359; a die above 100 °C is held and one below 95 °C is released; a measurement out of its bounds,
and a power-off, leave nothing but the module flash and LASTOFF; the watchdog's expiry sets DEVEVT bit 7 and holds every
die at step 3 while the steward restarts. That the restart ends with the next tick of the power cap is the model's
choice (log 54). -/
def Obligations.StewardActs : Prop :=
  ∀ (s : State) (die : BitVec 2) (cl : BitVec 4) (mw temp : BitVec 16),
    let w := s.stew
    let d := die.toNat
    let off (t : State) (cause : BitVec 8) : Prop :=
      t.cores = [] ∧ t.ctxs = [] ∧ t.mem = [] ∧ t.kernels = [] ∧ t.memr = {} ∧ t.fab = {} ∧
        t.stew = { firmware := w.firmware, record := w.record, lastoff := cause, powered := false }
    ((Table.get 0 w.clgate d).getLsbD cl.toNat = true →
      (∀ j, j < 4 → (s.core (64 * d + 4 * cl.toNat + j)).task = none ∧
        (s.core (64 * d + 4 * cl.toNat + j)).draining = none) →
      ∃ t, exec (.clusterGateEntry die cl) s = .next t ∧
        ∀ b, b < 16 → (Table.get 0 t.stew.gated d).getLsbD b = ((Table.get 0 w.gated d).getLsbD b || decide (b = cl.toNat))) ∧
    (w.up = true → ∃ t, exec (.powerCapTick mw) s = .next t ∧ t.stew.pwrnow = mw ∧ t.stew.restarting = false ∧ ∀ e, e < 4 →
      let k := Table.get 0 w.clkStep e
      Table.get 0 t.stew.clkStep e =
        if w.pcap.toNat < mw.toNat then min 3 (k + 1)
        else if mw.toNat * 100 < w.pcap.toNat * 95 then max (Table.get 0 w.clkWritten e) (k - 1) else k) ∧
    (w.powered = true → 1760 < temp.toNat → ∀ i, i = .thermalThrottle die temp ∨ i = .thermalRelease die temp →
      ∃ t, exec i s = .next t ∧ off t 1 ∧ t.out = s.out ++ [.powerFault]) ∧
    (1600 < temp.toNat → temp.toNat ≤ 1760 → ∃ t, exec (.thermalThrottle die temp) s = .next t ∧ t.stew.hot.getLsbD d = true ∧
      t.stew.step d = 3 ∧ Table.get 0 t.stew.temp d = temp ∧
      (w.hot.getLsbD d = false → t.stew.devevt.getLsbD 4 = true)) ∧
    (temp.toNat < 1520 → ∃ t, exec (.thermalRelease die temp) s = .next t ∧ t.stew.hot.getLsbD d = false ∧
      t.stew.step d = (if w.restarting then 3 else Table.get 0 w.clkStep d) ∧ Table.get 0 t.stew.temp d = temp) ∧
    (∀ rd cause, w.powered = true →
      ((∃ a t, rd = .die a t ∧ 1760 < t.toNat ∧ cause = 1) ∨ (∃ t, rd = .inlet t ∧ 800 < t ∧ cause = 2) ∨
        (∃ q, rd = .flow q ∧ q < 1000 ∧ cause = 3) ∨
        ∃ v us, rd = .supply v us ∧ (v < 40000 ∨ 60000 < v) ∧ 1000 < us ∧ cause = 4) →
      ∃ t, exec (.emergencyStop rd) s = .next t ∧ off t cause ∧ t.out = s.out ++ [.powerFault]) ∧
    exec (.emergencyStop (.die die temp)) s = exec (.thermalThrottle die temp) s ∧
    (∀ rd, readingCause rd = 0 → ∃ t, exec (.emergencyStop rd) s = .next t ∧ t.stew.powered = w.powered ∧
      t.cores = s.cores ∧ t.ctxs = s.ctxs ∧ SameMemory s t) ∧
    (w.powered = true → ∃ t, exec .powerOff s = .next t ∧ off t 0 ∧ t.out = s.out) ∧
    (w.powered = true → ∃ t, exec .stewardWatchdogExpiry s = .next t ∧ t.stew.devevt.getLsbD 7 = true ∧
      (∀ e, t.stew.step e = 3) ∧
      t.cores = s.cores ∧ t.ctxs = s.ctxs ∧ SameMemory s t)

/-- R327, R328, R353 to R356, R447: bring-up from any state resets the device, stops at the first step that fails and
else reaches step 4 with the record of the module flash in force; a neighbour's report is kept; a connected port that
does not train is marked down; when every connected port that is up has a matching report, bring-up completes with the
TOPO of the record in force; a served attestation request counts in DONE and is an event of the device. What bring-up
clears is the model's reading (log 54). -/
def Obligations.BringUpAndAttestation : Prop :=
  ∀ (s : State) (port : BitVec 3),
    let r := s.stew.record
    let fw := s.stew.firmware
    let used := s.stew.inForce
    let topo := recTopo used
    (∃ t, exec (.bringUp []) s = .next t ∧ t.cores = [] ∧ t.ctxs = [] ∧ t.mem = [] ∧ t.stew.up = false ∧
      t.stew.firmware = fw ∧ t.stew.record = r ∧
      let good1 : Bool := !fw.isEmpty && Config.firmwareOk fw
      let good2 : Bool := good1 && Config.recordOk fw r && recordWf r
      t.stew.inForce = (if good2 then r else []) ∧
      t.stew.phase = (if good2 then 3 else if good1 then 1 else 0) ∧ t.stew.halted = !good2 ∧
      t.memr.live = (if good2 then recLive r else List.range 384)) ∧
    (∀ index sx sy sz, port.toNat < 6 → s.fab.down.getLsbD port.toNat = false → s.stew.powered = true →
      exec (.managementPacket port index sx sy sz) s = .next { s with stew := { s.stew with
        reports := Table.set none s.stew.reports port.toNat (some (index, sx, sy, sz)) } }) ∧
    (s.stew.discovering = true →
      ((connectedPorts topo).contains port.toNat = true → s.fab.down.getLsbD port.toNat = false →
        ∃ t, exec (.portTrainTimeout port) s = .next t ∧ t.stew.devevt.getLsbD 6 = true ∧
          ∀ b, b < 6 → t.fab.down.getLsbD b = (s.fab.down.getLsbD b || decide (b = port.toNat))) ∧
      ((∀ k ∈ connectedPorts topo, s.fab.down.getLsbD k = false → Table.get none s.stew.reports k =
          some (BitVec.ofNat 13 (neighbour topo k), BitVec.ofNat 8 (topo.toNat / 2 ^ 32 % 16),
            BitVec.ofNat 8 (topo.toNat / 2 ^ 36 % 16), BitVec.ofNat 8 (topo.toNat / 2 ^ 40 % 32))) →
        ∃ t, exec .torusDiscovery s = .next t ∧ t.stew.up = true ∧ t.stew.phase = 5 ∧ t.fab.topo = topo ∧
          t.stew.pcap = BitVec.ofNat 16 (recField used 36 2))) ∧
    (∀ g rest la u v req pages lb, s.stew.attQueue = g :: rest → s.stew.restarting = false → s.stew.attTags = [] →
      s.place g.toNat = .mem la →
      s.homeRead 0 la 64 = (u, .ok req) → u.measure (recByte req 32 % 64) = (v, .ok pages) →
      v.place (recField req 40 8 / 64 * 64) = .mem lb →
      ∃ t, exec .attestationReport s = .next t ∧ t.stew.attQueue = rest ∧ t.stew.attDone = s.stew.attDone + 1 ∧
        t.stew.devevt.getLsbD 1 = true ∧
        let body := v.reportBody (recByte req 32 % 64) req pages
        t.mem = (v.homeWrite 0 (recByte req 32 % 64) lb (body ++ fitBytes 114 (Config.sign body))).mem)

/-- R139, R250, R331, R333, R334: what a packet for another device, and each kind of request for this one, does where it
arrives by a port that is up and not frozen: a packet for another device goes on by a productive port; a read is
answered with the bytes, a write, an atomic, a cell add and a counter add act at the home and are answered, a notify
rings the core that it names. -/
def Obligations.RequestsServed : Prop :=
  ∀ (s : State) (port : BitVec 3) (p : Packet), port.toNat < 6 → s.fab.down.getLsbD port.toNat = false →
    s.isFrozen (portMaster port.toNat) = false →
    let x := p.ctx.toNat
    (p.dst.toNat ≠ s.myIndex → p.kind.toNat ≤ 10 → exec (.packetHop port p) s = .next (s.emit p)) ∧
    (p.dst.toNat = s.myIndex → (s.ctx x).ptbase ≠ 0 →
      (p.kind = 5 → exec (.notifyRequest port p) s =
        .next ((s.notifyCore x (BitVec.ofNat 64 (ofBytes p.data))).ack p)) ∧
      (∀ la, s.place p.addr.toNat = .mem la →
        (∀ u bs bad fl, p.kind = 0 → s.serveBytes p.attr la p.len = (u, bs, bad, fl) →
          exec (.readRequest port p) s = .next (u.respond p bs bad fl)) ∧
        (p.kind = 1 → p.cntaddr = 0 → p.beside.note = 0 → p.bad = [] → exec (.writeRequest port p) s =
          .next ((s.homeWriteMask p.attr x la (packetBytes p)).ack p)) ∧
        (∀ u old,
          let w := ofBytes (p.data.take 8)
          let n := 4 * 2 ^ (w / 2 ^ 21 % 4)
          let v := ofBytes ((p.data.drop 8).take 8) % 2 ^ (8 * n)
          p.kind = 2 → w / 2 ^ 28 % 16 ≤ 8 →
          s.homeUpdate p.attr x la n (fun o =>
            if p.beside.note = 2 then (if o = ofBytes ((p.data.drop 16).take 8) % 2 ^ (8 * n) then v else o)
            else amoOp (w / 2 ^ 28 % 16) n o v) = (u, .ok old) →
          exec (.atomicRequest port p) s =
            .next (if p.beside.note = 0 then u.ack p else u.respond p (toBytes n old) [])) ∧
        (∀ u, p.kind = 3 → p.cntaddr = 0 → p.len = typeWidth p.etype.toNat / 8 → 0 < p.len →
          s.homeAdd (packetPage p) x la p.etype.toNat (ofBytes (p.data.take p.len)) = (u, .ok ()) →
          exec (.cellAddRequest port p) s = .next (u.ack p)) ∧
        (∀ u old, p.kind = 4 → p.beside.note ≠ 1 →
          s.homeUpdate p.attr x la 8 (fun o => (o + ofBytes p.data) % 2 ^ 64) = (u, .ok old) →
          exec (.counterAddRequest port p) s = .next (u.ack p))))

/-- R139, R256, R331, R334, R335, R417, R434, R435: what each answer, and each reduce packet for this device, does: the
bytes of a response go to their issuer; an acknowledgement ends the wait for its tag; a refusal and a timeout fault the
issuer; a term whose order allows it is added and acknowledged, one that the rules refuse is turned away, and a held one
is added when its turn has come. How a refusal lies in its packet, and what its AUX holds, is the model's (logs 24 and
45). -/
def Obligations.AnswersAndTerms : Prop :=
  ∀ (s : State) (port : BitVec 3) (p : Packet), port.toNat < 6 → s.fab.down.getLsbD port.toNat = false →
    s.isFrozen (portMaster port.toNat) = false → p.dst.toNat = s.myIndex →
    (∀ r u, s.takeRequest p.tag.toNat = some (r, u) →
      (p.kind = 6 → p.bad = [] → u.awaitsBytes r = true →
        exec (.readResponse port p) s = .next (u.fill r fun f => { f with got := some p.data, flags := p.beside.flags })) ∧
      (p.kind = 7 → p.contrib = 0 → u.awaitsBytes r = false →
        exec (.acknowledgement port p) s = .next ((u.relayed r).clearTag r).answered) ∧
      (∀ code : BitVec 16, p.kind = 7 → p.contrib = code.setWidth 32 → code ≠ 0 →
        let f := r.fault code.toNat p.beside.synd p.beside.aux
        exec (.negativeAcknowledgement port p) s = .next (
          if u.awaitsBytes r then u.fill r fun e => { e with err := some (code.toNat, f.aux) }
          else ((u.postedFault r f).clearTag r).answered)) ∧
      (max 1 s.fab.fabto.toNat * 1024 ≤ s.now - r.sentAt → (∀ q ∈ s.fab.later, q.tag ≠ p.tag) →
        let f := r.fault 0x0702 0 0
        exec (.ackTimeout p.tag) s = .next (
          if u.awaitsBytes r then u.fill r fun e => { e with err := some (0x0702, f.aux) }
          else ((u.postedFault r f).clearTag r).answered))) ∧
    (∀ (u : State) (i : Instr), ((i = .reduceTerm port p ∧ p.kind = 8) ∨ (i = .reduceForward port p ∧ p.kind = 9)) →
      (s.receiveReduce p = (u, .ok true) → exec i s = .next (u.ack p).answered) ∧
      (s.receiveReduce p = (u, .ok false) → exec i s = .next u) ∧
      (∀ f, s.receiveReduce p = (u, .error f) → exec i s = .next (u.refuseTerm p f))) ∧
    (∀ u q, s.applyHeld p.ctx.toNat p.cntaddr = (u, some q) → q.src.toNat ≠ u.myIndex →
      exec (.heldTermApply p.ctx p.cntaddr) s = .next (u.ack q).answered)

/-- R332, R433: a packet of a reserved kind and a flit delivered by a retry are counted, each at its port; a stopped
lane keeps its packets until it may go; a flit that needs more than 16 retries takes its port down; a port that goes
down is marked, and is an event of the device. That LANE_GO puts every packet that the lane has queued on the wire at
once, and leaves none, is the model's choice of the moment (log 44). -/
def Obligations.PortsAndLanes : Prop :=
  ∀ (s : State) (port lane : BitVec 3) (p : Packet), port.toNat < 6 →
    let k := port.toNat
    let w := Table.get 0 s.fab.nyerr k
    (11 ≤ p.kind.toNat → s.fab.down.getLsbD k = false →
      ∃ t, exec (.reservedKindPacket port p) s = .next t ∧ SameMemory s t ∧
        Table.get 0 t.fab.nyerr k = if w.toNat / 2 ^ 16 % 2 ^ 16 = 0xFFFF then w else w + 0x10000) ∧
    (∃ t, exec (.linkRetry { port := port, again := false }) s = .next t ∧ t.fab.down = s.fab.down ∧
      Table.get 0 t.fab.nyerr k = if w.toNat / 2 ^ 48 = 0xFFFF then w else w + 0x1000000000000) ∧
    (∃ t, exec (.linkRetry { port := port, again := true }) s = .next t ∧ Table.get 0 t.fab.retries k = Table.get 0 s.fab.retries k + 1 ∧
      (Table.get 0 s.fab.retries k < 16 → t.fab.down = s.fab.down) ∧
      (16 ≤ Table.get 0 s.fab.retries k → t.fab.down.getLsbD k = true)) ∧
    (lane.toNat < 4 → ∃ t, exec (.laneStop port lane) s = .next t ∧ (k, lane.toNat) ∈ t.fab.stopped ∧
      t.fab.wire = s.fab.wire ∧ t.fab.txq = s.fab.txq) ∧
    (∃ t, exec (.laneGo port lane) s = .next t ∧ (k, lane.toNat) ∉ t.fab.stopped ∧
      (∀ e ∈ s.fab.txq, e.1 = k → laneOf e.2.kind = lane.toNat → (s.now, e.1, e.2) ∈ t.fab.wire) ∧
      ∀ e ∈ t.fab.txq, ¬(e.1 = k ∧ laneOf e.2.kind = lane.toNat)) ∧
    (s.fab.down.getLsbD k = false → ∃ t, exec (.portDown port) s = .next t ∧ t.stew.devevt.getLsbD 6 = true ∧
      ∀ b, b < 6 → t.fab.down.getLsbD b = (s.fab.down.getLsbD b || decide (b = k)))

/-- R323 to R325: BERM_RUN performs the oldest run of a berm engine: its reads, its program over the elements, and its
writes, in order and each once the one before it is acknowledged; that the reads and the writes to this device's memory
are one step is the model's choice (log 72); BERM_RUN_FINISH of one whose writes are all performed takes it from the
engine and advances the engine's timeline counter by one. -/
def Obligations.BermRunsPerform : Prop :=
  ∀ (s : State) (ctrl : BitVec 4) (r : BermRun) (rest : List BermRun),
    let k := ctrl.toNat
    let a := bermAgent k r
    s.berm k = r :: rest → s.isFrozen (masterId 6 k) = false →
    (∀ u v p d b, r.done = false → r.computed = false → s.bermPlan a r = (u, .ok p) → u.bermAsk a false p = none →
      (u.bermRead a false p).2 = .ok b → u.bermAsk a true p = none → u.bermRead a true p = (v, .ok d) →
      v.berm k = r :: rest →
      let e := p.words.foldl (fun d w => d.run p.n w) d
      let done : BermRun := { r with
        computed := true, writes := bermWrites r p e
        fault := e.poison.map fun f => { f with akind := 6, aidx := k, res := false } }
      let t := (v.bermFlags r.ctx.toNat e.flags).setBerm k (done :: rest)
      exec (.bermRun ctrl) s = .next (if r.tags = [] then t.bermWrite k a (bermWrites r p e) else t)) ∧
    (r.done = false → r.computed = true →
      exec (.bermRun ctrl) s = .next (if r.tags = [] then s.bermWrite k a r.writes else s)) ∧
    (r.done = true → r.tags = [] → exec (.bermRunFinish ctrl) s = .next (s.finishBerm k r)) ∧
    (r.fault = none → s.colls = [] → (s.ctx r.ctx.toNat).arms = [] →
      (s.finishBerm k r).berm k = rest ∧
      ((s.finishBerm k r).ctx r.ctx.toNat).counter (0x30 + k) = (s.ctx r.ctx.toNat).counter (0x30 + k) + 1)

/-! ## Encodings -/

/-- R162 to R168: decoding the words of a well-formed instruction gives it back, with every operand at every value that
its fields hold. R162 to R168, R384: whatever word, with or without a continuation, the decoder accepts is the encoding
of the instruction that it reads, which is well formed: no bit of an accepted word is dropped, and no reserved bit is
set. -/
def Obligations.EncodingRoundTrip : Prop :=
  (∀ i : Instr, i.wellFormed = true → ∀ w k, encode i = some (w, k) → decodeSlot (wordStream w) w k = .ok i) ∧
  (∀ (w : BitVec 32) (k : Option (BitVec 32)) (i : Instr),
    decodeSlot (wordStream w) w k = .ok i → i.wellFormed = true ∧ encode i = some (w, k))

/-- R162 to R169: words that the spec writes out decode to the instructions that it gives for them. -/
def Obligations.DecodesExampleWords : Prop :=
  decodeTableWord 32 0x25020705 = some (.fcvt 0 8 7 1 1) ∧
  decodeTableWord 32 0x26024701 = some (.fdsq 0 9 7 0 1) ∧
  decodeTableWord 32 0x2705D600 = some (.ld 0 23 22 0) ∧
  decodeTableWord 32 0x11059608 = some (.addi 0 22 22 8) ∧
  decodeTableWord 32 0x0105145C = some (.add 0 20 20 23) ∧
  decodeTableWord 64 (0x80200000 * 2 ^ 32 + 0x1F054000) = some (.loop 0 21 0 2 0 4 0) ∧
  decodeTableWord 32 0x1D081000 = some (.call 0 1 4096) ∧
  decodeTableWord 32 0x31000201 = some (.slwait 0 0 2 1) ∧
  decodeTableWord 32 0x3C000000 = some .exit ∧
  decodeTableWord 64 (0xFC008120 * 2 ^ 32 + 0x40051661) = some (.tld {
    g := 0, f1 := 20, f2 := 22, f3 := 24, x := 1, wsl := 63, wcnt := 0, ssl := 2, scnt := 1, ext := 0x20 }) ∧
  decodeTableWord 64 (0xFC008100 * 2 ^ 32 + 0x4E014600) = some (.brun {
    g := 0, f1 := 5, f2 := 6, f3 := 0, x := 0, wsl := 63, wcnt := 0, ssl := 2, scnt := 1, ext := 0 }) ∧
  decodeTableWord 64 (0x081FC00A * 2 ^ 32 + 0x73051800) = some (.wmm {
    g := 0, f1 := 20, f2 := 24, f3 := 0, x := 0, wsl := 2, wcnt := 1, ssl := 63, scnt := 0, ext := 10 }) ∧
  decodeTableWord 64 (0xFC01811C * 2 ^ 32 + 0x9500C108) = some (.vadd {
    g := 0, f1 := 3, f2 := 1, f3 := 2, x := 0, wsl := 63, wcnt := 0, ssl := 6, scnt := 1, ext := 0x1C }) ∧
  decodeTableWord 64 (0xFC0FC0D0 * 2 ^ 32 + 0xC2008102) = some (.vscan {
    g := 0, f1 := 2, f2 := 1, f3 := 0, x := 2, wsl := 63, wcnt := 0, ssl := 63, scnt := 0, ext := 0xD0 })

/-! ## The machine as a whole -/

/-- R155, R160, R161, R380: a step with an event in the inbox is that event's meaning; and when the line fetched at the
focused core's pc has one slot as its next dispatch unit (log 1), and that slot decodes to an instruction, the step is
that instruction's meaning, after which the pc moves past the slot or to the target; where its meaning is a fault of the
unit, the step takes that fault and nothing else of the instruction. Then the step ends: engines settle and the clock
moves. R160: where a dispatch unit's pc goes when its effect is taken and no enabled flag traps: to the target of a
taken transfer; else to the slot after it, or the next line's slot 1. -/
def Obligations.StepRunsDecodedInstruction : Prop :=
  ((∀ (s t : State) (i : Instr) (rest : List Instr), s.inbox = i :: rest →
    exec i { s with inbox := rest } = .next t → step s = .next t.endStep) ∧
  ∀ (s u t : State) (line : List Byte) (x : Slot) (i : Instr),
    s.inbox = [] → s.now % 4 ≠ 3 → s.controlReady = true → s.here.uintReady = false → s.here.preemptAt = none →
    s.fetchLine s.focus.toNat = (u, .ok line) → headerLctl (lineWord line 0) = 0 →
    u.here.nextUnit line = [x] → x.what = .ok i → u.here.unitDone = 0 → u.here.early = [] → u.here.pend = none →
    let c := u.here
    let ready : Core := { c with snap := none, fmtBefore := c.fmtq.length }
    exec i (u.setHere { ready with curSlot := x.num, blocked := none }) = .next t →
    (t.here.frozen = false → t.here.blocked = none → (∀ f, t.here.pend = some f → f.akind ≠ 0 ∨ f.late = true) →
      step s = .next (t.endUnit (unitEnd [x]) c.ui.act).endStep) ∧
    (∀ f, t.here.pend = some f → f.akind = 0 → f.late = false →
      let g : FaultInfo := { f with line := c.line }
      step s = .next ((u.found g).mapHere fun d => ({ d with blocked := none } : Core).faultAt g).endStep)) ∧
  (∀ (s : State) (n : Nat) (act : Bool), s.here.flagsRaised = 0 →
    (∀ l k, s.here.npc = some (l, k) → (s.endUnit n act).here.line = l ∧ (s.endUnit n act).here.slot = k) ∧
    (s.here.npc = none → n ≤ 7 → (s.endUnit n act).here.line = s.here.line ∧ (s.endUnit n act).here.slot = n) ∧
    (s.here.npc = none → 7 < n → (s.endUnit n act).here.line = s.here.line + 32 ∧ (s.endUnit n act).here.slot = 1) ∧
    (s.endUnit n act).here.pend = s.here.pend)

/-- Every instruction and every step of the machine's own has an effect in every state, and so does every step: the
model neither faults nor refuses. Whatever the spec calls a fault is a state that it describes (log 69). -/
def Obligations.EveryStepHasItsNextState : Prop :=
  (∀ (i : Instr) (s : State), ∃ t, exec i s = .next t) ∧ ∀ s : State, ∃ t, step s = .next t

/-- The machine at power-on: bring-up has not begun, no core holds a task, no context has tables, queues are empty with
their first sequence number 1 and H zero, memory lists nothing, all 384 channels are live, and the fabric block holds
the reset values of its register maps: SCOPETAB (R115), NYFC (R332) and FABTO (R435); values that the spec does not give
are the model's choice (logs 2 and 3). -/
def Obligations.ResetState : Prop :=
  let s := State.reset
  s.stew.up = false ∧ s.stew.phase = 0 ∧ s.mem = [] ∧ Memory.wf s.mem = true ∧ s.memr.live = List.range 384 ∧
  s.fab.scopetab = 0x08040201 ∧ s.fab.fabto = 0x10000 ∧ s.fab.topo = 0 ∧
  (∀ p, p < 6 → Table.get 0x3020302030203020 s.fab.nyfc p = 0x3020302030203020) ∧
  (∀ k, (s.core k).task = none ∧ (s.core k).draining = none ∧ (s.core k).frozen = false) ∧
  ∀ x, (s.ctx x).ptbase = 0 ∧ (s.ctx x).lvl = 0 ∧ (s.ctx x).fqen = false ∧ (∀ id, (s.ctx x).counter id = 0) ∧
    ∀ q, ((s.ctx x).queue q).pending = [] ∧ ((s.ctx x).queue q).nextSeq = 1 ∧
      ((s.ctx x).queue q).hash = List.replicate 32 0 ∧ ((s.ctx x).queue q).halt = false
end

