-- ==== Sys2Proof/Laws/Tables.lean ====
section
/-!
SUPPORT. The laws of numbered storage: read after write, and that every operation keeps the canonical form.
-/
namespace Sys2Proof

variable {α : Type}

theorem Table.get_erase_same (d : α) (t : Table α) (k : Nat) : Table.get d (Table.erase k t) k = d := by
  induction t with
  | nil => rfl
  | cons e t ih => obtain ⟨j, v⟩ := e; by_cases h : j = k <;> simp [Table.erase, Table.get, h, ih]

theorem Table.get_erase_ne (d : α) (t : Table α) {j k : Nat} (h : j ≠ k) :
    Table.get d (Table.erase k t) j = Table.get d t j := by
  induction t with
  | nil => rfl
  | cons e t ih =>
    obtain ⟨i, v⟩ := e
    by_cases hi : i = k
    · simp [Table.erase, Table.get, hi, ih, Ne.symm h]
    · simp [Table.erase, Table.get, hi, ih]

theorem Table.erase_erase (t : Table α) (k : Nat) : Table.erase k (Table.erase k t) = Table.erase k t := by
  induction t with
  | nil => rfl
  | cons e t ih => obtain ⟨j, v⟩ := e; by_cases h : j = k <;> simp [Table.erase, h, ih]

theorem Table.get_insert_same (d : α) (t : Table α) (k : Nat) (v : α) :
    Table.get d (Table.insert k v (Table.erase k t)) k = v := by
  induction t with
  | nil => simp [Table.erase, Table.insert, Table.get]
  | cons e t ih =>
    obtain ⟨j, w⟩ := e
    by_cases h : j = k
    · simpa [Table.erase, h] using ih
    · by_cases hl : k < j <;> simp [Table.erase, Table.insert, Table.get, h, hl, ih]

theorem Table.get_insert_ne (d : α) (t : Table α) {j k : Nat} (v : α) (h : j ≠ k) :
    Table.get d (Table.insert k v t) j = Table.get d t j := by
  induction t with
  | nil => simp [Table.insert, Table.get, Ne.symm h]
  | cons e t ih =>
    obtain ⟨i, w⟩ := e
    by_cases hl : k < i <;> simp [Table.insert, Table.get, hl, ih, Ne.symm h]

theorem Table.erase_insert (t : Table α) (k : Nat) (v : α) :
    Table.erase k (Table.insert k v t) = Table.erase k t := by
  induction t with
  | nil => simp [Table.insert, Table.erase]
  | cons e t ih =>
    obtain ⟨i, w⟩ := e
    by_cases hl : k < i <;> by_cases hi : i = k <;> simp [Table.insert, Table.erase, hl, hi, ih]

variable [DecidableEq α]

@[simp] theorem Table.get_set_same (d : α) (t : Table α) (k : Nat) (v : α) :
    Table.get d (Table.set d t k v) k = v := by
  unfold Table.set
  split
  · rename_i h; rw [Table.get_erase_same, h]
  · exact Table.get_insert_same d t k v

theorem Table.get_set_ne (d : α) (t : Table α) {j k : Nat} (v : α) (h : j ≠ k) :
    Table.get d (Table.set d t k v) j = Table.get d t j := by
  unfold Table.set
  split
  · exact Table.get_erase_ne d t h
  · rw [Table.get_insert_ne d _ v h, Table.get_erase_ne d t h]

theorem Table.get_set (d : α) (t : Table α) (j k : Nat) (v : α) :
    Table.get d (Table.set d t k v) j = if j = k then v else Table.get d t j := by
  by_cases h : j = k
  · simp [h]
  · simp [h, Table.get_set_ne d t v h]

/-- A later write to the same number replaces an earlier one. -/
@[simp] theorem Table.set_set (d : α) (t : Table α) (k : Nat) (v w : α) :
    Table.set d (Table.set d t k v) k w = Table.set d t k w := by
  unfold Table.set
  split <;> split <;> simp_all [Table.erase_erase, Table.erase_insert]

/-! ## The canonical form -/

theorem Table.wfFrom_mono (d : α) {lo lo' : Nat} {t : Table α} (h : Table.wfFrom d lo t = true) (hl : lo' ≤ lo) :
    Table.wfFrom d lo' t = true := by
  cases t with
  | nil => rfl
  | cons e t => obtain ⟨j, v⟩ := e; simp [Table.wfFrom] at h ⊢; exact ⟨⟨by omega, h.1.2⟩, h.2⟩

theorem Table.get_of_wfFrom (d : α) {lo : Nat} {t : Table α} (h : Table.wfFrom d lo t = true) {k : Nat} (hk : k < lo) :
    Table.get d t k = d := by
  induction t generalizing lo with
  | nil => rfl
  | cons e t ih =>
    obtain ⟨j, v⟩ := e
    simp [Table.wfFrom] at h
    have hj : j ≠ k := by omega
    simp [Table.get, hj, ih h.2 (by omega : k < j + 1)]

theorem Table.wfFrom_erase (d : α) {lo : Nat} {t : Table α} (k : Nat) (h : Table.wfFrom d lo t = true) :
    Table.wfFrom d lo (Table.erase k t) = true := by
  induction t generalizing lo with
  | nil => rfl
  | cons e t ih =>
    obtain ⟨j, v⟩ := e
    simp [Table.wfFrom] at h
    by_cases hj : j = k
    · simpa [Table.erase, hj] using Table.wfFrom_mono d (ih h.2) (by omega)
    · simp [Table.erase, hj, Table.wfFrom, h, ih h.2]

theorem Table.wfFrom_cons (d : α) (lo k : Nat) (v : α) (t : Table α) :
    Table.wfFrom d lo ((k, v) :: t) = true ↔ lo ≤ k ∧ v ≠ d ∧ Table.wfFrom d (k + 1) t = true := by
  simp [Table.wfFrom, and_assoc]

theorem Table.wfFrom_insert (d : α) {lo : Nat} {t : Table α} {k : Nat} {v : α} (hv : v ≠ d) (hk : lo ≤ k)
    (h : Table.wfFrom d lo (Table.erase k t) = true) :
    Table.wfFrom d lo (Table.insert k v (Table.erase k t)) = true := by
  induction t generalizing lo with
  | nil => simp [Table.erase, Table.insert, Table.wfFrom, hk, hv]
  | cons e t ih =>
    obtain ⟨j, w⟩ := e
    by_cases hj : j = k
    · have he : Table.erase k ((j, w) :: t) = Table.erase k t := by simp [Table.erase, hj]
      rw [he] at h ⊢
      exact ih hk h
    · have he : Table.erase k ((j, w) :: t) = (j, w) :: Table.erase k t := by simp [Table.erase, hj]
      rw [he] at h ⊢
      rw [Table.wfFrom_cons] at h
      by_cases hl : k < j
      · rw [Table.insert, if_pos hl, Table.wfFrom_cons, Table.wfFrom_cons]
        exact ⟨hk, hv, hl, h.2.1, h.2.2⟩
      · rw [Table.insert, if_neg hl, Table.wfFrom_cons]
        exact ⟨h.1, h.2.1, ih (by omega) h.2.2⟩

/-- A write keeps the canonical form. -/
theorem Table.wf_set (d : α) {t : Table α} (k : Nat) (v : α) (h : Table.wf d t = true) :
    Table.wf d (Table.set d t k v) = true := by
  unfold Table.set
  split
  · exact Table.wfFrom_erase d k h
  · rename_i hv; exact Table.wfFrom_insert d hv (Nat.zero_le k) (Table.wfFrom_erase d k h)

theorem Table.wf_setList (d : α) {t : Table α} (k : Nat) (vs : List α) (h : Table.wf d t = true) :
    Table.wf d (Table.setList d t k vs) = true := by
  induction vs generalizing t k with
  | nil => exact h
  | cons v vs ih => exact ih (k + 1) (Table.wf_set d k v h)

theorem Table.wfFrom_filter (d : α) (p : Nat × α → Bool) {lo : Nat} {t : Table α} (h : Table.wfFrom d lo t = true) :
    Table.wfFrom d lo (t.filter p) = true := by
  induction t generalizing lo with
  | nil => rfl
  | cons e t ih =>
    obtain ⟨j, v⟩ := e
    simp [Table.wfFrom] at h
    by_cases hp : p (j, v) = true
    · simp [hp, Table.wfFrom, h, ih h.2]
    · simpa [hp] using Table.wfFrom_mono d (ih h.2) (by omega)

/-- Leaving pairs out keeps the canonical form. -/
theorem Table.wf_filter (d : α) (p : Nat × α → Bool) {t : Table α} (h : Table.wf d t = true) :
    Table.wf d (t.filter p) = true := Table.wfFrom_filter d p h

theorem Table.wf_dropRange (d : α) (lo n : Nat) {t : Table α} (h : Table.wf d t = true) :
    Table.wf d (Table.dropRange lo n t) = true := Table.wf_filter d _ h

/-- Two canonical tables that read alike are equal. -/
theorem Table.ext_of_wfFrom (d : α) {lo : Nat} {t u : Table α} (ht : Table.wfFrom d lo t = true)
    (hu : Table.wfFrom d lo u = true) (h : ∀ k, Table.get d t k = Table.get d u k) : t = u := by
  induction t generalizing lo u with
  | nil =>
    cases u with
    | nil => rfl
    | cons e u =>
      obtain ⟨j, v⟩ := e
      simp [Table.wfFrom] at hu
      exact absurd (by simpa [Table.get] using (h j).symm) hu.1.2
  | cons e t ih =>
    obtain ⟨i, w⟩ := e
    simp [Table.wfFrom] at ht
    cases u with
    | nil => exact absurd (by simpa [Table.get] using h i) ht.1.2
    | cons e u =>
      obtain ⟨j, v⟩ := e
      simp [Table.wfFrom] at hu
      have hij : i = j := by
        rcases Nat.lt_trichotomy i j with hl | hl | hl
        · have := h i
          have hji : j ≠ i := by omega
          simp [Table.get, hji, Table.get_of_wfFrom d hu.2 (by omega : i < j + 1)] at this
          exact absurd this ht.1.2
        · exact hl
        · have := h j
          have hij : i ≠ j := by omega
          simp [Table.get, hij, Table.get_of_wfFrom d ht.2 (by omega : j < i + 1)] at this
          exact absurd this.symm hu.1.2
      subst hij
      have hwv : w = v := by simpa [Table.get] using h i
      subst hwv
      have htu : t = u := ih ht.2 hu.2 fun k => by
        by_cases hk : i = k
        · subst hk
          rw [Table.get_of_wfFrom d ht.2 (by omega), Table.get_of_wfFrom d hu.2 (by omega)]
        · simpa [Table.get, hk] using h k
      rw [htu]

theorem Table.set_get_self (d : α) {t : Table α} (k : Nat) (h : Table.wf d t = true) :
    Table.set d t k (Table.get d t k) = t :=
  Table.ext_of_wfFrom d (Table.wf_set d k _ h) h fun j => by
    rw [Table.get_set]; split <;> simp_all

end Sys2Proof
end

