-- ==== Sys2Proof/Laws/State.lean ====
section
/-!
SUPPORT. What each update of the state leaves: one lemma for each field of the state, of a core and of a context.
-/
namespace Sys2Proof.Machine

@[simp] theorem State.setCore_now (s : State) (k : Nat) (c : Core) : (s.setCore k c).now = s.now := rfl
@[simp] theorem State.setCore_focus (s : State) (k : Nat) (c : Core) : (s.setCore k c).focus = s.focus := rfl
@[simp] theorem State.setCore_inbox (s : State) (k : Nat) (c : Core) : (s.setCore k c).inbox = s.inbox := rfl
@[simp] theorem State.setCore_fresh (s : State) (k : Nat) (c : Core) : (s.setCore k c).fresh = s.fresh := rfl
@[simp] theorem State.setCore_ctxs (s : State) (k : Nat) (c : Core) : (s.setCore k c).ctxs = s.ctxs := rfl
@[simp] theorem State.setCore_mem (s : State) (k : Nat) (c : Core) : (s.setCore k c).mem = s.mem := rfl
@[simp] theorem State.setCore_merr (s : State) (k : Nat) (c : Core) : (s.setCore k c).merr = s.merr := rfl
@[simp] theorem State.setCore_sram (s : State) (k : Nat) (c : Core) : (s.setCore k c).sram = s.sram := rfl
@[simp] theorem State.setCore_l2tlb (s : State) (k : Nat) (c : Core) : (s.setCore k c).l2tlb = s.l2tlb := rfl
@[simp] theorem State.setCore_kernels (s : State) (k : Nat) (c : Core) : (s.setCore k c).kernels = s.kernels := rfl
@[simp] theorem State.setCore_digestBad (s : State) (k : Nat) (c : Core) : (s.setCore k c).digestBad = s.digestBad := rfl
@[simp] theorem State.setCore_gangReserve (s : State) (k : Nat) (c : Core) : (s.setCore k c).gangReserve = s.gangReserve := rfl
@[simp] theorem State.setCore_barriers (s : State) (k : Nat) (c : Core) : (s.setCore k c).barriers = s.barriers := rfl
@[simp] theorem State.setCore_nextGang (s : State) (k : Nat) (c : Core) : (s.setCore k c).nextGang = s.nextGang := rfl
@[simp] theorem State.setCore_nextWait (s : State) (k : Nat) (c : Core) : (s.setCore k c).nextWait = s.nextWait := rfl
@[simp] theorem State.setCore_berms (s : State) (k : Nat) (c : Core) : (s.setCore k c).berms = s.berms := rfl
@[simp] theorem State.setCore_colls (s : State) (k : Nat) (c : Core) : (s.setCore k c).colls = s.colls := rfl
@[simp] theorem State.setCore_memr (s : State) (k : Nat) (c : Core) : (s.setCore k c).memr = s.memr := rfl
@[simp] theorem State.setCore_fab (s : State) (k : Nat) (c : Core) : (s.setCore k c).fab = s.fab := rfl
@[simp] theorem State.setCore_stew (s : State) (k : Nat) (c : Core) : (s.setCore k c).stew = s.stew := rfl
@[simp] theorem State.setCore_hostq (s : State) (k : Nat) (c : Core) : (s.setCore k c).hostq = s.hostq := rfl
@[simp] theorem State.setCore_out (s : State) (k : Nat) (c : Core) : (s.setCore k c).out = s.out := rfl

@[simp] theorem State.setCtx_now (s : State) (x : Nat) (c : Ctx) : (s.setCtx x c).now = s.now := rfl
@[simp] theorem State.setCtx_focus (s : State) (x : Nat) (c : Ctx) : (s.setCtx x c).focus = s.focus := rfl
@[simp] theorem State.setCtx_inbox (s : State) (x : Nat) (c : Ctx) : (s.setCtx x c).inbox = s.inbox := rfl
@[simp] theorem State.setCtx_fresh (s : State) (x : Nat) (c : Ctx) : (s.setCtx x c).fresh = s.fresh := rfl
@[simp] theorem State.setCtx_cores (s : State) (x : Nat) (c : Ctx) : (s.setCtx x c).cores = s.cores := rfl
@[simp] theorem State.setCtx_mem (s : State) (x : Nat) (c : Ctx) : (s.setCtx x c).mem = s.mem := rfl
@[simp] theorem State.setCtx_merr (s : State) (x : Nat) (c : Ctx) : (s.setCtx x c).merr = s.merr := rfl
@[simp] theorem State.setCtx_sram (s : State) (x : Nat) (c : Ctx) : (s.setCtx x c).sram = s.sram := rfl
@[simp] theorem State.setCtx_l2tlb (s : State) (x : Nat) (c : Ctx) : (s.setCtx x c).l2tlb = s.l2tlb := rfl
@[simp] theorem State.setCtx_kernels (s : State) (x : Nat) (c : Ctx) : (s.setCtx x c).kernels = s.kernels := rfl
@[simp] theorem State.setCtx_digestBad (s : State) (x : Nat) (c : Ctx) : (s.setCtx x c).digestBad = s.digestBad := rfl
@[simp] theorem State.setCtx_gangReserve (s : State) (x : Nat) (c : Ctx) : (s.setCtx x c).gangReserve = s.gangReserve := rfl
@[simp] theorem State.setCtx_barriers (s : State) (x : Nat) (c : Ctx) : (s.setCtx x c).barriers = s.barriers := rfl
@[simp] theorem State.setCtx_nextGang (s : State) (x : Nat) (c : Ctx) : (s.setCtx x c).nextGang = s.nextGang := rfl
@[simp] theorem State.setCtx_nextWait (s : State) (x : Nat) (c : Ctx) : (s.setCtx x c).nextWait = s.nextWait := rfl
@[simp] theorem State.setCtx_berms (s : State) (x : Nat) (c : Ctx) : (s.setCtx x c).berms = s.berms := rfl
@[simp] theorem State.setCtx_colls (s : State) (x : Nat) (c : Ctx) : (s.setCtx x c).colls = s.colls := rfl
@[simp] theorem State.setCtx_memr (s : State) (x : Nat) (c : Ctx) : (s.setCtx x c).memr = s.memr := rfl
@[simp] theorem State.setCtx_fab (s : State) (x : Nat) (c : Ctx) : (s.setCtx x c).fab = s.fab := rfl
@[simp] theorem State.setCtx_stew (s : State) (x : Nat) (c : Ctx) : (s.setCtx x c).stew = s.stew := rfl
@[simp] theorem State.setCtx_hostq (s : State) (x : Nat) (c : Ctx) : (s.setCtx x c).hostq = s.hostq := rfl
@[simp] theorem State.setCtx_out (s : State) (x : Nat) (c : Ctx) : (s.setCtx x c).out = s.out := rfl

@[simp] theorem State.setHere_now (s : State) (c : Core) : (s.setHere c).now = s.now := rfl
@[simp] theorem State.setHere_focus (s : State) (c : Core) : (s.setHere c).focus = s.focus := rfl
@[simp] theorem State.setHere_inbox (s : State) (c : Core) : (s.setHere c).inbox = s.inbox := rfl
@[simp] theorem State.setHere_fresh (s : State) (c : Core) : (s.setHere c).fresh = s.fresh := rfl
@[simp] theorem State.setHere_ctxs (s : State) (c : Core) : (s.setHere c).ctxs = s.ctxs := rfl
@[simp] theorem State.setHere_mem (s : State) (c : Core) : (s.setHere c).mem = s.mem := rfl
@[simp] theorem State.setHere_merr (s : State) (c : Core) : (s.setHere c).merr = s.merr := rfl
@[simp] theorem State.setHere_sram (s : State) (c : Core) : (s.setHere c).sram = s.sram := rfl
@[simp] theorem State.setHere_l2tlb (s : State) (c : Core) : (s.setHere c).l2tlb = s.l2tlb := rfl
@[simp] theorem State.setHere_kernels (s : State) (c : Core) : (s.setHere c).kernels = s.kernels := rfl
@[simp] theorem State.setHere_digestBad (s : State) (c : Core) : (s.setHere c).digestBad = s.digestBad := rfl
@[simp] theorem State.setHere_gangReserve (s : State) (c : Core) : (s.setHere c).gangReserve = s.gangReserve := rfl
@[simp] theorem State.setHere_barriers (s : State) (c : Core) : (s.setHere c).barriers = s.barriers := rfl
@[simp] theorem State.setHere_nextGang (s : State) (c : Core) : (s.setHere c).nextGang = s.nextGang := rfl
@[simp] theorem State.setHere_nextWait (s : State) (c : Core) : (s.setHere c).nextWait = s.nextWait := rfl
@[simp] theorem State.setHere_berms (s : State) (c : Core) : (s.setHere c).berms = s.berms := rfl
@[simp] theorem State.setHere_colls (s : State) (c : Core) : (s.setHere c).colls = s.colls := rfl
@[simp] theorem State.setHere_memr (s : State) (c : Core) : (s.setHere c).memr = s.memr := rfl
@[simp] theorem State.setHere_fab (s : State) (c : Core) : (s.setHere c).fab = s.fab := rfl
@[simp] theorem State.setHere_stew (s : State) (c : Core) : (s.setHere c).stew = s.stew := rfl
@[simp] theorem State.setHere_hostq (s : State) (c : Core) : (s.setHere c).hostq = s.hostq := rfl
@[simp] theorem State.setHere_out (s : State) (c : Core) : (s.setHere c).out = s.out := rfl

@[simp] theorem State.mapHere_now (s : State) (f : Core → Core) : (s.mapHere f).now = s.now := rfl
@[simp] theorem State.mapHere_focus (s : State) (f : Core → Core) : (s.mapHere f).focus = s.focus := rfl
@[simp] theorem State.mapHere_inbox (s : State) (f : Core → Core) : (s.mapHere f).inbox = s.inbox := rfl
@[simp] theorem State.mapHere_fresh (s : State) (f : Core → Core) : (s.mapHere f).fresh = s.fresh := rfl
@[simp] theorem State.mapHere_ctxs (s : State) (f : Core → Core) : (s.mapHere f).ctxs = s.ctxs := rfl
@[simp] theorem State.mapHere_mem (s : State) (f : Core → Core) : (s.mapHere f).mem = s.mem := rfl
@[simp] theorem State.mapHere_merr (s : State) (f : Core → Core) : (s.mapHere f).merr = s.merr := rfl
@[simp] theorem State.mapHere_sram (s : State) (f : Core → Core) : (s.mapHere f).sram = s.sram := rfl
@[simp] theorem State.mapHere_l2tlb (s : State) (f : Core → Core) : (s.mapHere f).l2tlb = s.l2tlb := rfl
@[simp] theorem State.mapHere_kernels (s : State) (f : Core → Core) : (s.mapHere f).kernels = s.kernels := rfl
@[simp] theorem State.mapHere_digestBad (s : State) (f : Core → Core) : (s.mapHere f).digestBad = s.digestBad := rfl
@[simp] theorem State.mapHere_gangReserve (s : State) (f : Core → Core) : (s.mapHere f).gangReserve = s.gangReserve := rfl
@[simp] theorem State.mapHere_barriers (s : State) (f : Core → Core) : (s.mapHere f).barriers = s.barriers := rfl
@[simp] theorem State.mapHere_nextGang (s : State) (f : Core → Core) : (s.mapHere f).nextGang = s.nextGang := rfl
@[simp] theorem State.mapHere_nextWait (s : State) (f : Core → Core) : (s.mapHere f).nextWait = s.nextWait := rfl
@[simp] theorem State.mapHere_berms (s : State) (f : Core → Core) : (s.mapHere f).berms = s.berms := rfl
@[simp] theorem State.mapHere_colls (s : State) (f : Core → Core) : (s.mapHere f).colls = s.colls := rfl
@[simp] theorem State.mapHere_memr (s : State) (f : Core → Core) : (s.mapHere f).memr = s.memr := rfl
@[simp] theorem State.mapHere_fab (s : State) (f : Core → Core) : (s.mapHere f).fab = s.fab := rfl
@[simp] theorem State.mapHere_stew (s : State) (f : Core → Core) : (s.mapHere f).stew = s.stew := rfl
@[simp] theorem State.mapHere_hostq (s : State) (f : Core → Core) : (s.mapHere f).hostq = s.hostq := rfl
@[simp] theorem State.mapHere_out (s : State) (f : Core → Core) : (s.mapHere f).out = s.out := rfl

@[simp] theorem Core.writeS_task (c : Core) (f : BitVec 6) (v : Word) : (c.writeS f v).task = c.task := by
  unfold Core.writeS; repeat' split
  all_goals rfl
@[simp] theorem Core.writeS_draining (c : Core) (f : BitVec 6) (v : Word) : (c.writeS f v).draining = c.draining := by
  unfold Core.writeS; repeat' split
  all_goals rfl
@[simp] theorem Core.writeS_line (c : Core) (f : BitVec 6) (v : Word) : (c.writeS f v).line = c.line := by
  unfold Core.writeS; repeat' split
  all_goals rfl
@[simp] theorem Core.writeS_slot (c : Core) (f : BitVec 6) (v : Word) : (c.writeS f v).slot = c.slot := by
  unfold Core.writeS; repeat' split
  all_goals rfl
@[simp] theorem Core.writeS_npc (c : Core) (f : BitVec 6) (v : Word) : (c.writeS f v).npc = c.npc := by
  unfold Core.writeS; repeat' split
  all_goals rfl
@[simp] theorem Core.writeS_unitDone (c : Core) (f : BitVec 6) (v : Word) : (c.writeS f v).unitDone = c.unitDone := by
  unfold Core.writeS; repeat' split
  all_goals rfl
@[simp] theorem Core.writeS_curSlot (c : Core) (f : BitVec 6) (v : Word) : (c.writeS f v).curSlot = c.curSlot := by
  unfold Core.writeS; repeat' split
  all_goals rfl
@[simp] theorem Core.writeS_early (c : Core) (f : BitVec 6) (v : Word) : (c.writeS f v).early = c.early := by
  unfold Core.writeS; repeat' split
  all_goals rfl
@[simp] theorem Core.writeS_snap (c : Core) (f : BitVec 6) (v : Word) : (c.writeS f v).snap = c.snap := by
  unfold Core.writeS; repeat' split
  all_goals rfl
@[simp] theorem Core.writeS_unitSnap (c : Core) (f : BitVec 6) (v : Word) : (c.writeS f v).unitSnap = c.unitSnap := by
  unfold Core.writeS; repeat' split
  all_goals rfl
@[simp] theorem Core.writeS_entered (c : Core) (f : BitVec 6) (v : Word) : (c.writeS f v).entered = c.entered := by
  unfold Core.writeS; repeat' split
  all_goals rfl
@[simp] theorem Core.writeS_exitAt (c : Core) (f : BitVec 6) (v : Word) : (c.writeS f v).exitAt = c.exitAt := by
  unfold Core.writeS; repeat' split
  all_goals rfl
@[simp] theorem Core.writeS_blocked (c : Core) (f : BitVec 6) (v : Word) : (c.writeS f v).blocked = c.blocked := by
  unfold Core.writeS; repeat' split
  all_goals rfl
@[simp] theorem Core.writeS_held (c : Core) (f : BitVec 6) (v : Word) : (c.writeS f v).held = c.held := by
  unfold Core.writeS; repeat' split
  all_goals rfl
@[simp] theorem Core.writeS_exiting (c : Core) (f : BitVec 6) (v : Word) : (c.writeS f v).exiting = c.exiting := by
  unfold Core.writeS; repeat' split
  all_goals rfl
@[simp] theorem Core.writeS_pend (c : Core) (f : BitVec 6) (v : Word) : (c.writeS f v).pend = c.pend := by
  unfold Core.writeS; repeat' split
  all_goals rfl
@[simp] theorem Core.writeS_more (c : Core) (f : BitVec 6) (v : Word) : (c.writeS f v).more = c.more := by
  unfold Core.writeS; repeat' split
  all_goals rfl
@[simp] theorem Core.writeS_owed (c : Core) (f : BitVec 6) (v : Word) : (c.writeS f v).owed = c.owed := by
  unfold Core.writeS; repeat' split
  all_goals rfl
@[simp] theorem Core.writeS_stopping (c : Core) (f : BitVec 6) (v : Word) : (c.writeS f v).stopping = c.stopping := by
  unfold Core.writeS; repeat' split
  all_goals rfl
@[simp] theorem Core.writeS_fpctl (c : Core) (f : BitVec 6) (v : Word) : (c.writeS f v).fpctl = c.fpctl := by
  unfold Core.writeS; repeat' split
  all_goals rfl
@[simp] theorem Core.writeS_seed (c : Core) (f : BitVec 6) (v : Word) : (c.writeS f v).seed = c.seed := by
  unfold Core.writeS; repeat' split
  all_goals rfl
@[simp] theorem Core.writeS_shape (c : Core) (f : BitVec 6) (v : Word) : (c.writeS f v).shape = c.shape := by
  unfold Core.writeS; repeat' split
  all_goals rfl
@[simp] theorem Core.writeS_qcfg (c : Core) (f : BitVec 6) (v : Word) : (c.writeS f v).qcfg = c.qcfg := by
  unfold Core.writeS; repeat' split
  all_goals rfl
@[simp] theorem Core.writeS_queues (c : Core) (f : BitVec 6) (v : Word) : (c.writeS f v).queues = c.queues := by
  unfold Core.writeS; repeat' split
  all_goals rfl
@[simp] theorem Core.writeS_fmtq (c : Core) (f : BitVec 6) (v : Word) : (c.writeS f v).fmtq = c.fmtq := by
  unfold Core.writeS; repeat' split
  all_goals rfl
@[simp] theorem Core.writeS_fmtBefore (c : Core) (f : BitVec 6) (v : Word) : (c.writeS f v).fmtBefore = c.fmtBefore := by
  unfold Core.writeS; repeat' split
  all_goals rfl
@[simp] theorem Core.writeS_livemap (c : Core) (f : BitVec 6) (v : Word) : (c.writeS f v).livemap = c.livemap := by
  unfold Core.writeS; repeat' split
  all_goals rfl
@[simp] theorem Core.writeS_liveEntry (c : Core) (f : BitVec 6) (v : Word) : (c.writeS f v).liveEntry = c.liveEntry := by
  unfold Core.writeS; repeat' split
  all_goals rfl
@[simp] theorem Core.writeS_slset (c : Core) (f : BitVec 6) (v : Word) : (c.writeS f v).slset = c.slset := by
  unfold Core.writeS; repeat' split
  all_goals rfl
@[simp] theorem Core.writeS_ui (c : Core) (f : BitVec 6) (v : Word) : (c.writeS f v).ui = c.ui := by
  unfold Core.writeS; repeat' split
  all_goals rfl
@[simp] theorem Core.writeS_sluices (c : Core) (f : BitVec 6) (v : Word) : (c.writeS f v).sluices = c.sluices := by
  unfold Core.writeS; repeat' split
  all_goals rfl
@[simp] theorem Core.writeS_eng (c : Core) (f : BitVec 6) (v : Word) : (c.writeS f v).eng = c.eng := by
  unfold Core.writeS; repeat' split
  all_goals rfl
@[simp] theorem Core.writeS_arms (c : Core) (f : BitVec 6) (v : Word) : (c.writeS f v).arms = c.arms := by
  unfold Core.writeS; repeat' split
  all_goals rfl
@[simp] theorem Core.writeS_kc (c : Core) (f : BitVec 6) (v : Word) : (c.writeS f v).kc = c.kc := by
  unfold Core.writeS; repeat' split
  all_goals rfl
@[simp] theorem Core.writeS_accesses (c : Core) (f : BitVec 6) (v : Word) : (c.writeS f v).accesses = c.accesses := by
  unfold Core.writeS; repeat' split
  all_goals rfl
@[simp] theorem Core.writeS_checkW (c : Core) (f : BitVec 6) (v : Word) : (c.writeS f v).checkW = c.checkW := by
  unfold Core.writeS; repeat' split
  all_goals rfl
@[simp] theorem Core.writeS_checkR (c : Core) (f : BitVec 6) (v : Word) : (c.writeS f v).checkR = c.checkR := by
  unfold Core.writeS; repeat' split
  all_goals rfl
@[simp] theorem Core.writeS_latch (c : Core) (f : BitVec 6) (v : Word) : (c.writeS f v).latch = c.latch := by
  unfold Core.writeS; repeat' split
  all_goals rfl
@[simp] theorem Core.writeS_spad (c : Core) (f : BitVec 6) (v : Word) : (c.writeS f v).spad = c.spad := by
  unfold Core.writeS; repeat' split
  all_goals rfl
@[simp] theorem Core.writeS_tiles (c : Core) (f : BitVec 6) (v : Word) : (c.writeS f v).tiles = c.tiles := by
  unfold Core.writeS; repeat' split
  all_goals rfl
@[simp] theorem Core.writeS_masks (c : Core) (f : BitVec 6) (v : Word) : (c.writeS f v).masks = c.masks := by
  unfold Core.writeS; repeat' split
  all_goals rfl
@[simp] theorem Core.writeS_weave (c : Core) (f : BitVec 6) (v : Word) : (c.writeS f v).weave = c.weave := by
  unfold Core.writeS; repeat' split
  all_goals rfl
@[simp] theorem Core.writeS_posted (c : Core) (f : BitVec 6) (v : Word) : (c.writeS f v).posted = c.posted := by
  unfold Core.writeS; repeat' split
  all_goals rfl
@[simp] theorem Core.writeS_postedTags (c : Core) (f : BitVec 6) (v : Word) : (c.writeS f v).postedTags = c.postedTags := by
  unfold Core.writeS; repeat' split
  all_goals rfl
@[simp] theorem Core.writeS_l1d (c : Core) (f : BitVec 6) (v : Word) : (c.writeS f v).l1d = c.l1d := by
  unfold Core.writeS; repeat' split
  all_goals rfl
@[simp] theorem Core.writeS_l1i (c : Core) (f : BitVec 6) (v : Word) : (c.writeS f v).l1i = c.l1i := by
  unfold Core.writeS; repeat' split
  all_goals rfl
@[simp] theorem Core.writeS_comb (c : Core) (f : BitVec 6) (v : Word) : (c.writeS f v).comb = c.comb := by
  unfold Core.writeS; repeat' split
  all_goals rfl
@[simp] theorem Core.writeS_lastKernel (c : Core) (f : BitVec 6) (v : Word) : (c.writeS f v).lastKernel = c.lastKernel := by
  unfold Core.writeS; repeat' split
  all_goals rfl
@[simp] theorem Core.writeS_tlb (c : Core) (f : BitVec 6) (v : Word) : (c.writeS f v).tlb = c.tlb := by
  unfold Core.writeS; repeat' split
  all_goals rfl
@[simp] theorem Core.writeS_flagsRaised (c : Core) (f : BitVec 6) (v : Word) : (c.writeS f v).flagsRaised = c.flagsRaised := by
  unfold Core.writeS; repeat' split
  all_goals rfl
@[simp] theorem Core.writeS_flagSlot (c : Core) (f : BitVec 6) (v : Word) : (c.writeS f v).flagSlot = c.flagSlot := by
  unfold Core.writeS; repeat' split
  all_goals rfl
@[simp] theorem Core.writeS_preemptAt (c : Core) (f : BitVec 6) (v : Word) : (c.writeS f v).preemptAt = c.preemptAt := by
  unfold Core.writeS; repeat' split
  all_goals rfl
@[simp] theorem Core.writeS_reserved (c : Core) (f : BitVec 6) (v : Word) : (c.writeS f v).reserved = c.reserved := by
  unfold Core.writeS; repeat' split
  all_goals rfl
@[simp] theorem Core.writeS_frozen (c : Core) (f : BitVec 6) (v : Word) : (c.writeS f v).frozen = c.frozen := by
  unfold Core.writeS; repeat' split
  all_goals rfl
@[simp] theorem Core.writeS_soft (c : Core) (f : BitVec 6) (v : Word) : (c.writeS f v).soft = c.soft := by
  unfold Core.writeS; repeat' split
  all_goals rfl

@[simp] theorem Core.writeP_task (c : Core) (f : BitVec 4) (b : Bool) : (c.writeP f b).task = c.task := by
  unfold Core.writeP; repeat' split
  all_goals rfl
@[simp] theorem Core.writeP_draining (c : Core) (f : BitVec 4) (b : Bool) : (c.writeP f b).draining = c.draining := by
  unfold Core.writeP; repeat' split
  all_goals rfl
@[simp] theorem Core.writeP_line (c : Core) (f : BitVec 4) (b : Bool) : (c.writeP f b).line = c.line := by
  unfold Core.writeP; repeat' split
  all_goals rfl
@[simp] theorem Core.writeP_slot (c : Core) (f : BitVec 4) (b : Bool) : (c.writeP f b).slot = c.slot := by
  unfold Core.writeP; repeat' split
  all_goals rfl
@[simp] theorem Core.writeP_npc (c : Core) (f : BitVec 4) (b : Bool) : (c.writeP f b).npc = c.npc := by
  unfold Core.writeP; repeat' split
  all_goals rfl
@[simp] theorem Core.writeP_unitDone (c : Core) (f : BitVec 4) (b : Bool) : (c.writeP f b).unitDone = c.unitDone := by
  unfold Core.writeP; repeat' split
  all_goals rfl
@[simp] theorem Core.writeP_curSlot (c : Core) (f : BitVec 4) (b : Bool) : (c.writeP f b).curSlot = c.curSlot := by
  unfold Core.writeP; repeat' split
  all_goals rfl
@[simp] theorem Core.writeP_early (c : Core) (f : BitVec 4) (b : Bool) : (c.writeP f b).early = c.early := by
  unfold Core.writeP; repeat' split
  all_goals rfl
@[simp] theorem Core.writeP_snap (c : Core) (f : BitVec 4) (b : Bool) : (c.writeP f b).snap = c.snap := by
  unfold Core.writeP; repeat' split
  all_goals rfl
@[simp] theorem Core.writeP_unitSnap (c : Core) (f : BitVec 4) (b : Bool) : (c.writeP f b).unitSnap = c.unitSnap := by
  unfold Core.writeP; repeat' split
  all_goals rfl
@[simp] theorem Core.writeP_entered (c : Core) (f : BitVec 4) (b : Bool) : (c.writeP f b).entered = c.entered := by
  unfold Core.writeP; repeat' split
  all_goals rfl
@[simp] theorem Core.writeP_exitAt (c : Core) (f : BitVec 4) (b : Bool) : (c.writeP f b).exitAt = c.exitAt := by
  unfold Core.writeP; repeat' split
  all_goals rfl
@[simp] theorem Core.writeP_blocked (c : Core) (f : BitVec 4) (b : Bool) : (c.writeP f b).blocked = c.blocked := by
  unfold Core.writeP; repeat' split
  all_goals rfl
@[simp] theorem Core.writeP_held (c : Core) (f : BitVec 4) (b : Bool) : (c.writeP f b).held = c.held := by
  unfold Core.writeP; repeat' split
  all_goals rfl
@[simp] theorem Core.writeP_exiting (c : Core) (f : BitVec 4) (b : Bool) : (c.writeP f b).exiting = c.exiting := by
  unfold Core.writeP; repeat' split
  all_goals rfl
@[simp] theorem Core.writeP_pend (c : Core) (f : BitVec 4) (b : Bool) : (c.writeP f b).pend = c.pend := by
  unfold Core.writeP; repeat' split
  all_goals rfl
@[simp] theorem Core.writeP_more (c : Core) (f : BitVec 4) (b : Bool) : (c.writeP f b).more = c.more := by
  unfold Core.writeP; repeat' split
  all_goals rfl
@[simp] theorem Core.writeP_owed (c : Core) (f : BitVec 4) (b : Bool) : (c.writeP f b).owed = c.owed := by
  unfold Core.writeP; repeat' split
  all_goals rfl
@[simp] theorem Core.writeP_stopping (c : Core) (f : BitVec 4) (b : Bool) : (c.writeP f b).stopping = c.stopping := by
  unfold Core.writeP; repeat' split
  all_goals rfl
@[simp] theorem Core.writeP_fpctl (c : Core) (f : BitVec 4) (b : Bool) : (c.writeP f b).fpctl = c.fpctl := by
  unfold Core.writeP; repeat' split
  all_goals rfl
@[simp] theorem Core.writeP_seed (c : Core) (f : BitVec 4) (b : Bool) : (c.writeP f b).seed = c.seed := by
  unfold Core.writeP; repeat' split
  all_goals rfl
@[simp] theorem Core.writeP_shape (c : Core) (f : BitVec 4) (b : Bool) : (c.writeP f b).shape = c.shape := by
  unfold Core.writeP; repeat' split
  all_goals rfl
@[simp] theorem Core.writeP_qcfg (c : Core) (f : BitVec 4) (b : Bool) : (c.writeP f b).qcfg = c.qcfg := by
  unfold Core.writeP; repeat' split
  all_goals rfl
@[simp] theorem Core.writeP_queues (c : Core) (f : BitVec 4) (b : Bool) : (c.writeP f b).queues = c.queues := by
  unfold Core.writeP; repeat' split
  all_goals rfl
@[simp] theorem Core.writeP_fmtq (c : Core) (f : BitVec 4) (b : Bool) : (c.writeP f b).fmtq = c.fmtq := by
  unfold Core.writeP; repeat' split
  all_goals rfl
@[simp] theorem Core.writeP_fmtBefore (c : Core) (f : BitVec 4) (b : Bool) : (c.writeP f b).fmtBefore = c.fmtBefore := by
  unfold Core.writeP; repeat' split
  all_goals rfl
@[simp] theorem Core.writeP_livemap (c : Core) (f : BitVec 4) (b : Bool) : (c.writeP f b).livemap = c.livemap := by
  unfold Core.writeP; repeat' split
  all_goals rfl
@[simp] theorem Core.writeP_liveEntry (c : Core) (f : BitVec 4) (b : Bool) : (c.writeP f b).liveEntry = c.liveEntry := by
  unfold Core.writeP; repeat' split
  all_goals rfl
@[simp] theorem Core.writeP_slset (c : Core) (f : BitVec 4) (b : Bool) : (c.writeP f b).slset = c.slset := by
  unfold Core.writeP; repeat' split
  all_goals rfl
@[simp] theorem Core.writeP_ui (c : Core) (f : BitVec 4) (b : Bool) : (c.writeP f b).ui = c.ui := by
  unfold Core.writeP; repeat' split
  all_goals rfl
@[simp] theorem Core.writeP_sluices (c : Core) (f : BitVec 4) (b : Bool) : (c.writeP f b).sluices = c.sluices := by
  unfold Core.writeP; repeat' split
  all_goals rfl
@[simp] theorem Core.writeP_eng (c : Core) (f : BitVec 4) (b : Bool) : (c.writeP f b).eng = c.eng := by
  unfold Core.writeP; repeat' split
  all_goals rfl
@[simp] theorem Core.writeP_arms (c : Core) (f : BitVec 4) (b : Bool) : (c.writeP f b).arms = c.arms := by
  unfold Core.writeP; repeat' split
  all_goals rfl
@[simp] theorem Core.writeP_kc (c : Core) (f : BitVec 4) (b : Bool) : (c.writeP f b).kc = c.kc := by
  unfold Core.writeP; repeat' split
  all_goals rfl
@[simp] theorem Core.writeP_accesses (c : Core) (f : BitVec 4) (b : Bool) : (c.writeP f b).accesses = c.accesses := by
  unfold Core.writeP; repeat' split
  all_goals rfl
@[simp] theorem Core.writeP_checkW (c : Core) (f : BitVec 4) (b : Bool) : (c.writeP f b).checkW = c.checkW := by
  unfold Core.writeP; repeat' split
  all_goals rfl
@[simp] theorem Core.writeP_checkR (c : Core) (f : BitVec 4) (b : Bool) : (c.writeP f b).checkR = c.checkR := by
  unfold Core.writeP; repeat' split
  all_goals rfl
@[simp] theorem Core.writeP_latch (c : Core) (f : BitVec 4) (b : Bool) : (c.writeP f b).latch = c.latch := by
  unfold Core.writeP; repeat' split
  all_goals rfl
@[simp] theorem Core.writeP_spad (c : Core) (f : BitVec 4) (b : Bool) : (c.writeP f b).spad = c.spad := by
  unfold Core.writeP; repeat' split
  all_goals rfl
@[simp] theorem Core.writeP_tiles (c : Core) (f : BitVec 4) (b : Bool) : (c.writeP f b).tiles = c.tiles := by
  unfold Core.writeP; repeat' split
  all_goals rfl
@[simp] theorem Core.writeP_masks (c : Core) (f : BitVec 4) (b : Bool) : (c.writeP f b).masks = c.masks := by
  unfold Core.writeP; repeat' split
  all_goals rfl
@[simp] theorem Core.writeP_weave (c : Core) (f : BitVec 4) (b : Bool) : (c.writeP f b).weave = c.weave := by
  unfold Core.writeP; repeat' split
  all_goals rfl
@[simp] theorem Core.writeP_posted (c : Core) (f : BitVec 4) (b : Bool) : (c.writeP f b).posted = c.posted := by
  unfold Core.writeP; repeat' split
  all_goals rfl
@[simp] theorem Core.writeP_postedTags (c : Core) (f : BitVec 4) (b : Bool) : (c.writeP f b).postedTags = c.postedTags := by
  unfold Core.writeP; repeat' split
  all_goals rfl
@[simp] theorem Core.writeP_l1d (c : Core) (f : BitVec 4) (b : Bool) : (c.writeP f b).l1d = c.l1d := by
  unfold Core.writeP; repeat' split
  all_goals rfl
@[simp] theorem Core.writeP_l1i (c : Core) (f : BitVec 4) (b : Bool) : (c.writeP f b).l1i = c.l1i := by
  unfold Core.writeP; repeat' split
  all_goals rfl
@[simp] theorem Core.writeP_comb (c : Core) (f : BitVec 4) (b : Bool) : (c.writeP f b).comb = c.comb := by
  unfold Core.writeP; repeat' split
  all_goals rfl
@[simp] theorem Core.writeP_lastKernel (c : Core) (f : BitVec 4) (b : Bool) : (c.writeP f b).lastKernel = c.lastKernel := by
  unfold Core.writeP; repeat' split
  all_goals rfl
@[simp] theorem Core.writeP_tlb (c : Core) (f : BitVec 4) (b : Bool) : (c.writeP f b).tlb = c.tlb := by
  unfold Core.writeP; repeat' split
  all_goals rfl
@[simp] theorem Core.writeP_flagsRaised (c : Core) (f : BitVec 4) (b : Bool) : (c.writeP f b).flagsRaised = c.flagsRaised := by
  unfold Core.writeP; repeat' split
  all_goals rfl
@[simp] theorem Core.writeP_flagSlot (c : Core) (f : BitVec 4) (b : Bool) : (c.writeP f b).flagSlot = c.flagSlot := by
  unfold Core.writeP; repeat' split
  all_goals rfl
@[simp] theorem Core.writeP_preemptAt (c : Core) (f : BitVec 4) (b : Bool) : (c.writeP f b).preemptAt = c.preemptAt := by
  unfold Core.writeP; repeat' split
  all_goals rfl
@[simp] theorem Core.writeP_reserved (c : Core) (f : BitVec 4) (b : Bool) : (c.writeP f b).reserved = c.reserved := by
  unfold Core.writeP; repeat' split
  all_goals rfl
@[simp] theorem Core.writeP_frozen (c : Core) (f : BitVec 4) (b : Bool) : (c.writeP f b).frozen = c.frozen := by
  unfold Core.writeP; repeat' split
  all_goals rfl
@[simp] theorem Core.writeP_soft (c : Core) (f : BitVec 4) (b : Bool) : (c.writeP f b).soft = c.soft := by
  unfold Core.writeP; repeat' split
  all_goals rfl

@[simp] theorem Core.jump_task (c : Core) (l : Word) : (c.jump l).task = c.task := rfl
@[simp] theorem Core.jump_draining (c : Core) (l : Word) : (c.jump l).draining = c.draining := rfl
@[simp] theorem Core.jump_line (c : Core) (l : Word) : (c.jump l).line = c.line := rfl
@[simp] theorem Core.jump_slot (c : Core) (l : Word) : (c.jump l).slot = c.slot := rfl
@[simp] theorem Core.jump_unitDone (c : Core) (l : Word) : (c.jump l).unitDone = c.unitDone := rfl
@[simp] theorem Core.jump_curSlot (c : Core) (l : Word) : (c.jump l).curSlot = c.curSlot := rfl
@[simp] theorem Core.jump_early (c : Core) (l : Word) : (c.jump l).early = c.early := rfl
@[simp] theorem Core.jump_snap (c : Core) (l : Word) : (c.jump l).snap = c.snap := rfl
@[simp] theorem Core.jump_unitSnap (c : Core) (l : Word) : (c.jump l).unitSnap = c.unitSnap := rfl
@[simp] theorem Core.jump_entered (c : Core) (l : Word) : (c.jump l).entered = c.entered := rfl
@[simp] theorem Core.jump_exitAt (c : Core) (l : Word) : (c.jump l).exitAt = c.exitAt := rfl
@[simp] theorem Core.jump_blocked (c : Core) (l : Word) : (c.jump l).blocked = c.blocked := rfl
@[simp] theorem Core.jump_held (c : Core) (l : Word) : (c.jump l).held = c.held := rfl
@[simp] theorem Core.jump_exiting (c : Core) (l : Word) : (c.jump l).exiting = c.exiting := rfl
@[simp] theorem Core.jump_pend (c : Core) (l : Word) : (c.jump l).pend = c.pend := rfl
@[simp] theorem Core.jump_more (c : Core) (l : Word) : (c.jump l).more = c.more := rfl
@[simp] theorem Core.jump_owed (c : Core) (l : Word) : (c.jump l).owed = c.owed := rfl
@[simp] theorem Core.jump_stopping (c : Core) (l : Word) : (c.jump l).stopping = c.stopping := rfl
@[simp] theorem Core.jump_regs (c : Core) (l : Word) : (c.jump l).regs = c.regs := rfl
@[simp] theorem Core.jump_fpctl (c : Core) (l : Word) : (c.jump l).fpctl = c.fpctl := rfl
@[simp] theorem Core.jump_seed (c : Core) (l : Word) : (c.jump l).seed = c.seed := rfl
@[simp] theorem Core.jump_shape (c : Core) (l : Word) : (c.jump l).shape = c.shape := rfl
@[simp] theorem Core.jump_qcfg (c : Core) (l : Word) : (c.jump l).qcfg = c.qcfg := rfl
@[simp] theorem Core.jump_queues (c : Core) (l : Word) : (c.jump l).queues = c.queues := rfl
@[simp] theorem Core.jump_fmtq (c : Core) (l : Word) : (c.jump l).fmtq = c.fmtq := rfl
@[simp] theorem Core.jump_fmtBefore (c : Core) (l : Word) : (c.jump l).fmtBefore = c.fmtBefore := rfl
@[simp] theorem Core.jump_livemap (c : Core) (l : Word) : (c.jump l).livemap = c.livemap := rfl
@[simp] theorem Core.jump_liveEntry (c : Core) (l : Word) : (c.jump l).liveEntry = c.liveEntry := rfl
@[simp] theorem Core.jump_slset (c : Core) (l : Word) : (c.jump l).slset = c.slset := rfl
@[simp] theorem Core.jump_ui (c : Core) (l : Word) : (c.jump l).ui = c.ui := rfl
@[simp] theorem Core.jump_sluices (c : Core) (l : Word) : (c.jump l).sluices = c.sluices := rfl
@[simp] theorem Core.jump_eng (c : Core) (l : Word) : (c.jump l).eng = c.eng := rfl
@[simp] theorem Core.jump_arms (c : Core) (l : Word) : (c.jump l).arms = c.arms := rfl
@[simp] theorem Core.jump_kc (c : Core) (l : Word) : (c.jump l).kc = c.kc := rfl
@[simp] theorem Core.jump_accesses (c : Core) (l : Word) : (c.jump l).accesses = c.accesses := rfl
@[simp] theorem Core.jump_checkW (c : Core) (l : Word) : (c.jump l).checkW = c.checkW := rfl
@[simp] theorem Core.jump_checkR (c : Core) (l : Word) : (c.jump l).checkR = c.checkR := rfl
@[simp] theorem Core.jump_latch (c : Core) (l : Word) : (c.jump l).latch = c.latch := rfl
@[simp] theorem Core.jump_spad (c : Core) (l : Word) : (c.jump l).spad = c.spad := rfl
@[simp] theorem Core.jump_tiles (c : Core) (l : Word) : (c.jump l).tiles = c.tiles := rfl
@[simp] theorem Core.jump_masks (c : Core) (l : Word) : (c.jump l).masks = c.masks := rfl
@[simp] theorem Core.jump_weave (c : Core) (l : Word) : (c.jump l).weave = c.weave := rfl
@[simp] theorem Core.jump_posted (c : Core) (l : Word) : (c.jump l).posted = c.posted := rfl
@[simp] theorem Core.jump_postedTags (c : Core) (l : Word) : (c.jump l).postedTags = c.postedTags := rfl
@[simp] theorem Core.jump_l1d (c : Core) (l : Word) : (c.jump l).l1d = c.l1d := rfl
@[simp] theorem Core.jump_l1i (c : Core) (l : Word) : (c.jump l).l1i = c.l1i := rfl
@[simp] theorem Core.jump_comb (c : Core) (l : Word) : (c.jump l).comb = c.comb := rfl
@[simp] theorem Core.jump_lastKernel (c : Core) (l : Word) : (c.jump l).lastKernel = c.lastKernel := rfl
@[simp] theorem Core.jump_tlb (c : Core) (l : Word) : (c.jump l).tlb = c.tlb := rfl
@[simp] theorem Core.jump_flagsRaised (c : Core) (l : Word) : (c.jump l).flagsRaised = c.flagsRaised := rfl
@[simp] theorem Core.jump_flagSlot (c : Core) (l : Word) : (c.jump l).flagSlot = c.flagSlot := rfl
@[simp] theorem Core.jump_preemptAt (c : Core) (l : Word) : (c.jump l).preemptAt = c.preemptAt := rfl
@[simp] theorem Core.jump_reserved (c : Core) (l : Word) : (c.jump l).reserved = c.reserved := rfl
@[simp] theorem Core.jump_frozen (c : Core) (l : Word) : (c.jump l).frozen = c.frozen := rfl
@[simp] theorem Core.jump_soft (c : Core) (l : Word) : (c.jump l).soft = c.soft := rfl

@[simp] theorem Core.setEngine_task (c : Core) (e : Nat) (g : Engine) : (c.setEngine e g).task = c.task := rfl
@[simp] theorem Core.setEngine_draining (c : Core) (e : Nat) (g : Engine) : (c.setEngine e g).draining = c.draining := rfl
@[simp] theorem Core.setEngine_line (c : Core) (e : Nat) (g : Engine) : (c.setEngine e g).line = c.line := rfl
@[simp] theorem Core.setEngine_slot (c : Core) (e : Nat) (g : Engine) : (c.setEngine e g).slot = c.slot := rfl
@[simp] theorem Core.setEngine_npc (c : Core) (e : Nat) (g : Engine) : (c.setEngine e g).npc = c.npc := rfl
@[simp] theorem Core.setEngine_unitDone (c : Core) (e : Nat) (g : Engine) : (c.setEngine e g).unitDone = c.unitDone := rfl
@[simp] theorem Core.setEngine_curSlot (c : Core) (e : Nat) (g : Engine) : (c.setEngine e g).curSlot = c.curSlot := rfl
@[simp] theorem Core.setEngine_early (c : Core) (e : Nat) (g : Engine) : (c.setEngine e g).early = c.early := rfl
@[simp] theorem Core.setEngine_snap (c : Core) (e : Nat) (g : Engine) : (c.setEngine e g).snap = c.snap := rfl
@[simp] theorem Core.setEngine_unitSnap (c : Core) (e : Nat) (g : Engine) : (c.setEngine e g).unitSnap = c.unitSnap := rfl
@[simp] theorem Core.setEngine_entered (c : Core) (e : Nat) (g : Engine) : (c.setEngine e g).entered = c.entered := rfl
@[simp] theorem Core.setEngine_exitAt (c : Core) (e : Nat) (g : Engine) : (c.setEngine e g).exitAt = c.exitAt := rfl
@[simp] theorem Core.setEngine_blocked (c : Core) (e : Nat) (g : Engine) : (c.setEngine e g).blocked = c.blocked := rfl
@[simp] theorem Core.setEngine_held (c : Core) (e : Nat) (g : Engine) : (c.setEngine e g).held = c.held := rfl
@[simp] theorem Core.setEngine_exiting (c : Core) (e : Nat) (g : Engine) : (c.setEngine e g).exiting = c.exiting := rfl
@[simp] theorem Core.setEngine_pend (c : Core) (e : Nat) (g : Engine) : (c.setEngine e g).pend = c.pend := rfl
@[simp] theorem Core.setEngine_more (c : Core) (e : Nat) (g : Engine) : (c.setEngine e g).more = c.more := rfl
@[simp] theorem Core.setEngine_owed (c : Core) (e : Nat) (g : Engine) : (c.setEngine e g).owed = c.owed := rfl
@[simp] theorem Core.setEngine_stopping (c : Core) (e : Nat) (g : Engine) : (c.setEngine e g).stopping = c.stopping := rfl
@[simp] theorem Core.setEngine_regs (c : Core) (e : Nat) (g : Engine) : (c.setEngine e g).regs = c.regs := rfl
@[simp] theorem Core.setEngine_fpctl (c : Core) (e : Nat) (g : Engine) : (c.setEngine e g).fpctl = c.fpctl := rfl
@[simp] theorem Core.setEngine_seed (c : Core) (e : Nat) (g : Engine) : (c.setEngine e g).seed = c.seed := rfl
@[simp] theorem Core.setEngine_shape (c : Core) (e : Nat) (g : Engine) : (c.setEngine e g).shape = c.shape := rfl
@[simp] theorem Core.setEngine_qcfg (c : Core) (e : Nat) (g : Engine) : (c.setEngine e g).qcfg = c.qcfg := rfl
@[simp] theorem Core.setEngine_queues (c : Core) (e : Nat) (g : Engine) : (c.setEngine e g).queues = c.queues := rfl
@[simp] theorem Core.setEngine_fmtq (c : Core) (e : Nat) (g : Engine) : (c.setEngine e g).fmtq = c.fmtq := rfl
@[simp] theorem Core.setEngine_fmtBefore (c : Core) (e : Nat) (g : Engine) : (c.setEngine e g).fmtBefore = c.fmtBefore := rfl
@[simp] theorem Core.setEngine_livemap (c : Core) (e : Nat) (g : Engine) : (c.setEngine e g).livemap = c.livemap := rfl
@[simp] theorem Core.setEngine_liveEntry (c : Core) (e : Nat) (g : Engine) : (c.setEngine e g).liveEntry = c.liveEntry := rfl
@[simp] theorem Core.setEngine_slset (c : Core) (e : Nat) (g : Engine) : (c.setEngine e g).slset = c.slset := rfl
@[simp] theorem Core.setEngine_ui (c : Core) (e : Nat) (g : Engine) : (c.setEngine e g).ui = c.ui := rfl
@[simp] theorem Core.setEngine_sluices (c : Core) (e : Nat) (g : Engine) : (c.setEngine e g).sluices = c.sluices := rfl
@[simp] theorem Core.setEngine_arms (c : Core) (e : Nat) (g : Engine) : (c.setEngine e g).arms = c.arms := rfl
@[simp] theorem Core.setEngine_kc (c : Core) (e : Nat) (g : Engine) : (c.setEngine e g).kc = c.kc := rfl
@[simp] theorem Core.setEngine_accesses (c : Core) (e : Nat) (g : Engine) : (c.setEngine e g).accesses = c.accesses := rfl
@[simp] theorem Core.setEngine_checkW (c : Core) (e : Nat) (g : Engine) : (c.setEngine e g).checkW = c.checkW := rfl
@[simp] theorem Core.setEngine_checkR (c : Core) (e : Nat) (g : Engine) : (c.setEngine e g).checkR = c.checkR := rfl
@[simp] theorem Core.setEngine_latch (c : Core) (e : Nat) (g : Engine) : (c.setEngine e g).latch = c.latch := rfl
@[simp] theorem Core.setEngine_spad (c : Core) (e : Nat) (g : Engine) : (c.setEngine e g).spad = c.spad := rfl
@[simp] theorem Core.setEngine_tiles (c : Core) (e : Nat) (g : Engine) : (c.setEngine e g).tiles = c.tiles := rfl
@[simp] theorem Core.setEngine_masks (c : Core) (e : Nat) (g : Engine) : (c.setEngine e g).masks = c.masks := rfl
@[simp] theorem Core.setEngine_weave (c : Core) (e : Nat) (g : Engine) : (c.setEngine e g).weave = c.weave := rfl
@[simp] theorem Core.setEngine_posted (c : Core) (e : Nat) (g : Engine) : (c.setEngine e g).posted = c.posted := rfl
@[simp] theorem Core.setEngine_postedTags (c : Core) (e : Nat) (g : Engine) : (c.setEngine e g).postedTags = c.postedTags := rfl
@[simp] theorem Core.setEngine_l1d (c : Core) (e : Nat) (g : Engine) : (c.setEngine e g).l1d = c.l1d := rfl
@[simp] theorem Core.setEngine_l1i (c : Core) (e : Nat) (g : Engine) : (c.setEngine e g).l1i = c.l1i := rfl
@[simp] theorem Core.setEngine_comb (c : Core) (e : Nat) (g : Engine) : (c.setEngine e g).comb = c.comb := rfl
@[simp] theorem Core.setEngine_lastKernel (c : Core) (e : Nat) (g : Engine) : (c.setEngine e g).lastKernel = c.lastKernel := rfl
@[simp] theorem Core.setEngine_tlb (c : Core) (e : Nat) (g : Engine) : (c.setEngine e g).tlb = c.tlb := rfl
@[simp] theorem Core.setEngine_flagsRaised (c : Core) (e : Nat) (g : Engine) : (c.setEngine e g).flagsRaised = c.flagsRaised := rfl
@[simp] theorem Core.setEngine_flagSlot (c : Core) (e : Nat) (g : Engine) : (c.setEngine e g).flagSlot = c.flagSlot := rfl
@[simp] theorem Core.setEngine_preemptAt (c : Core) (e : Nat) (g : Engine) : (c.setEngine e g).preemptAt = c.preemptAt := rfl
@[simp] theorem Core.setEngine_reserved (c : Core) (e : Nat) (g : Engine) : (c.setEngine e g).reserved = c.reserved := rfl
@[simp] theorem Core.setEngine_frozen (c : Core) (e : Nat) (g : Engine) : (c.setEngine e g).frozen = c.frozen := rfl
@[simp] theorem Core.setEngine_soft (c : Core) (e : Nat) (g : Engine) : (c.setEngine e g).soft = c.soft := rfl

@[simp] theorem Core.setSluice_task (c : Core) (k : Nat) (l : Sluice) : (c.setSluice k l).task = c.task := rfl
@[simp] theorem Core.setSluice_draining (c : Core) (k : Nat) (l : Sluice) : (c.setSluice k l).draining = c.draining := rfl
@[simp] theorem Core.setSluice_line (c : Core) (k : Nat) (l : Sluice) : (c.setSluice k l).line = c.line := rfl
@[simp] theorem Core.setSluice_slot (c : Core) (k : Nat) (l : Sluice) : (c.setSluice k l).slot = c.slot := rfl
@[simp] theorem Core.setSluice_npc (c : Core) (k : Nat) (l : Sluice) : (c.setSluice k l).npc = c.npc := rfl
@[simp] theorem Core.setSluice_unitDone (c : Core) (k : Nat) (l : Sluice) : (c.setSluice k l).unitDone = c.unitDone := rfl
@[simp] theorem Core.setSluice_curSlot (c : Core) (k : Nat) (l : Sluice) : (c.setSluice k l).curSlot = c.curSlot := rfl
@[simp] theorem Core.setSluice_early (c : Core) (k : Nat) (l : Sluice) : (c.setSluice k l).early = c.early := rfl
@[simp] theorem Core.setSluice_snap (c : Core) (k : Nat) (l : Sluice) : (c.setSluice k l).snap = c.snap := rfl
@[simp] theorem Core.setSluice_unitSnap (c : Core) (k : Nat) (l : Sluice) : (c.setSluice k l).unitSnap = c.unitSnap := rfl
@[simp] theorem Core.setSluice_entered (c : Core) (k : Nat) (l : Sluice) : (c.setSluice k l).entered = c.entered := rfl
@[simp] theorem Core.setSluice_exitAt (c : Core) (k : Nat) (l : Sluice) : (c.setSluice k l).exitAt = c.exitAt := rfl
@[simp] theorem Core.setSluice_blocked (c : Core) (k : Nat) (l : Sluice) : (c.setSluice k l).blocked = c.blocked := rfl
@[simp] theorem Core.setSluice_held (c : Core) (k : Nat) (l : Sluice) : (c.setSluice k l).held = c.held := rfl
@[simp] theorem Core.setSluice_exiting (c : Core) (k : Nat) (l : Sluice) : (c.setSluice k l).exiting = c.exiting := rfl
@[simp] theorem Core.setSluice_pend (c : Core) (k : Nat) (l : Sluice) : (c.setSluice k l).pend = c.pend := rfl
@[simp] theorem Core.setSluice_more (c : Core) (k : Nat) (l : Sluice) : (c.setSluice k l).more = c.more := rfl
@[simp] theorem Core.setSluice_owed (c : Core) (k : Nat) (l : Sluice) : (c.setSluice k l).owed = c.owed := rfl
@[simp] theorem Core.setSluice_stopping (c : Core) (k : Nat) (l : Sluice) : (c.setSluice k l).stopping = c.stopping := rfl
@[simp] theorem Core.setSluice_regs (c : Core) (k : Nat) (l : Sluice) : (c.setSluice k l).regs = c.regs := rfl
@[simp] theorem Core.setSluice_fpctl (c : Core) (k : Nat) (l : Sluice) : (c.setSluice k l).fpctl = c.fpctl := rfl
@[simp] theorem Core.setSluice_seed (c : Core) (k : Nat) (l : Sluice) : (c.setSluice k l).seed = c.seed := rfl
@[simp] theorem Core.setSluice_shape (c : Core) (k : Nat) (l : Sluice) : (c.setSluice k l).shape = c.shape := rfl
@[simp] theorem Core.setSluice_qcfg (c : Core) (k : Nat) (l : Sluice) : (c.setSluice k l).qcfg = c.qcfg := rfl
@[simp] theorem Core.setSluice_queues (c : Core) (k : Nat) (l : Sluice) : (c.setSluice k l).queues = c.queues := rfl
@[simp] theorem Core.setSluice_fmtq (c : Core) (k : Nat) (l : Sluice) : (c.setSluice k l).fmtq = c.fmtq := rfl
@[simp] theorem Core.setSluice_fmtBefore (c : Core) (k : Nat) (l : Sluice) : (c.setSluice k l).fmtBefore = c.fmtBefore := rfl
@[simp] theorem Core.setSluice_livemap (c : Core) (k : Nat) (l : Sluice) : (c.setSluice k l).livemap = c.livemap := rfl
@[simp] theorem Core.setSluice_liveEntry (c : Core) (k : Nat) (l : Sluice) : (c.setSluice k l).liveEntry = c.liveEntry := rfl
@[simp] theorem Core.setSluice_slset (c : Core) (k : Nat) (l : Sluice) : (c.setSluice k l).slset = c.slset := rfl
@[simp] theorem Core.setSluice_ui (c : Core) (k : Nat) (l : Sluice) : (c.setSluice k l).ui = c.ui := rfl
@[simp] theorem Core.setSluice_eng (c : Core) (k : Nat) (l : Sluice) : (c.setSluice k l).eng = c.eng := rfl
@[simp] theorem Core.setSluice_arms (c : Core) (k : Nat) (l : Sluice) : (c.setSluice k l).arms = c.arms := rfl
@[simp] theorem Core.setSluice_kc (c : Core) (k : Nat) (l : Sluice) : (c.setSluice k l).kc = c.kc := rfl
@[simp] theorem Core.setSluice_accesses (c : Core) (k : Nat) (l : Sluice) : (c.setSluice k l).accesses = c.accesses := rfl
@[simp] theorem Core.setSluice_checkW (c : Core) (k : Nat) (l : Sluice) : (c.setSluice k l).checkW = c.checkW := rfl
@[simp] theorem Core.setSluice_checkR (c : Core) (k : Nat) (l : Sluice) : (c.setSluice k l).checkR = c.checkR := rfl
@[simp] theorem Core.setSluice_latch (c : Core) (k : Nat) (l : Sluice) : (c.setSluice k l).latch = c.latch := rfl
@[simp] theorem Core.setSluice_spad (c : Core) (k : Nat) (l : Sluice) : (c.setSluice k l).spad = c.spad := rfl
@[simp] theorem Core.setSluice_tiles (c : Core) (k : Nat) (l : Sluice) : (c.setSluice k l).tiles = c.tiles := rfl
@[simp] theorem Core.setSluice_masks (c : Core) (k : Nat) (l : Sluice) : (c.setSluice k l).masks = c.masks := rfl
@[simp] theorem Core.setSluice_weave (c : Core) (k : Nat) (l : Sluice) : (c.setSluice k l).weave = c.weave := rfl
@[simp] theorem Core.setSluice_posted (c : Core) (k : Nat) (l : Sluice) : (c.setSluice k l).posted = c.posted := rfl
@[simp] theorem Core.setSluice_postedTags (c : Core) (k : Nat) (l : Sluice) : (c.setSluice k l).postedTags = c.postedTags := rfl
@[simp] theorem Core.setSluice_l1d (c : Core) (k : Nat) (l : Sluice) : (c.setSluice k l).l1d = c.l1d := rfl
@[simp] theorem Core.setSluice_l1i (c : Core) (k : Nat) (l : Sluice) : (c.setSluice k l).l1i = c.l1i := rfl
@[simp] theorem Core.setSluice_comb (c : Core) (k : Nat) (l : Sluice) : (c.setSluice k l).comb = c.comb := rfl
@[simp] theorem Core.setSluice_lastKernel (c : Core) (k : Nat) (l : Sluice) : (c.setSluice k l).lastKernel = c.lastKernel := rfl
@[simp] theorem Core.setSluice_tlb (c : Core) (k : Nat) (l : Sluice) : (c.setSluice k l).tlb = c.tlb := rfl
@[simp] theorem Core.setSluice_flagsRaised (c : Core) (k : Nat) (l : Sluice) : (c.setSluice k l).flagsRaised = c.flagsRaised := rfl
@[simp] theorem Core.setSluice_flagSlot (c : Core) (k : Nat) (l : Sluice) : (c.setSluice k l).flagSlot = c.flagSlot := rfl
@[simp] theorem Core.setSluice_preemptAt (c : Core) (k : Nat) (l : Sluice) : (c.setSluice k l).preemptAt = c.preemptAt := rfl
@[simp] theorem Core.setSluice_reserved (c : Core) (k : Nat) (l : Sluice) : (c.setSluice k l).reserved = c.reserved := rfl
@[simp] theorem Core.setSluice_frozen (c : Core) (k : Nat) (l : Sluice) : (c.setSluice k l).frozen = c.frozen := rfl
@[simp] theorem Core.setSluice_soft (c : Core) (k : Nat) (l : Sluice) : (c.setSluice k l).soft = c.soft := rfl

@[simp] theorem Core.setQueueReg_task (c : Core) (k : Nat) (q : List Word) : (c.setQueueReg k q).task = c.task := rfl
@[simp] theorem Core.setQueueReg_draining (c : Core) (k : Nat) (q : List Word) : (c.setQueueReg k q).draining = c.draining := rfl
@[simp] theorem Core.setQueueReg_line (c : Core) (k : Nat) (q : List Word) : (c.setQueueReg k q).line = c.line := rfl
@[simp] theorem Core.setQueueReg_slot (c : Core) (k : Nat) (q : List Word) : (c.setQueueReg k q).slot = c.slot := rfl
@[simp] theorem Core.setQueueReg_npc (c : Core) (k : Nat) (q : List Word) : (c.setQueueReg k q).npc = c.npc := rfl
@[simp] theorem Core.setQueueReg_unitDone (c : Core) (k : Nat) (q : List Word) : (c.setQueueReg k q).unitDone = c.unitDone := rfl
@[simp] theorem Core.setQueueReg_curSlot (c : Core) (k : Nat) (q : List Word) : (c.setQueueReg k q).curSlot = c.curSlot := rfl
@[simp] theorem Core.setQueueReg_early (c : Core) (k : Nat) (q : List Word) : (c.setQueueReg k q).early = c.early := rfl
@[simp] theorem Core.setQueueReg_snap (c : Core) (k : Nat) (q : List Word) : (c.setQueueReg k q).snap = c.snap := rfl
@[simp] theorem Core.setQueueReg_unitSnap (c : Core) (k : Nat) (q : List Word) : (c.setQueueReg k q).unitSnap = c.unitSnap := rfl
@[simp] theorem Core.setQueueReg_entered (c : Core) (k : Nat) (q : List Word) : (c.setQueueReg k q).entered = c.entered := rfl
@[simp] theorem Core.setQueueReg_exitAt (c : Core) (k : Nat) (q : List Word) : (c.setQueueReg k q).exitAt = c.exitAt := rfl
@[simp] theorem Core.setQueueReg_blocked (c : Core) (k : Nat) (q : List Word) : (c.setQueueReg k q).blocked = c.blocked := rfl
@[simp] theorem Core.setQueueReg_held (c : Core) (k : Nat) (q : List Word) : (c.setQueueReg k q).held = c.held := rfl
@[simp] theorem Core.setQueueReg_exiting (c : Core) (k : Nat) (q : List Word) : (c.setQueueReg k q).exiting = c.exiting := rfl
@[simp] theorem Core.setQueueReg_pend (c : Core) (k : Nat) (q : List Word) : (c.setQueueReg k q).pend = c.pend := rfl
@[simp] theorem Core.setQueueReg_more (c : Core) (k : Nat) (q : List Word) : (c.setQueueReg k q).more = c.more := rfl
@[simp] theorem Core.setQueueReg_owed (c : Core) (k : Nat) (q : List Word) : (c.setQueueReg k q).owed = c.owed := rfl
@[simp] theorem Core.setQueueReg_stopping (c : Core) (k : Nat) (q : List Word) : (c.setQueueReg k q).stopping = c.stopping := rfl
@[simp] theorem Core.setQueueReg_regs (c : Core) (k : Nat) (q : List Word) : (c.setQueueReg k q).regs = c.regs := rfl
@[simp] theorem Core.setQueueReg_fpctl (c : Core) (k : Nat) (q : List Word) : (c.setQueueReg k q).fpctl = c.fpctl := rfl
@[simp] theorem Core.setQueueReg_seed (c : Core) (k : Nat) (q : List Word) : (c.setQueueReg k q).seed = c.seed := rfl
@[simp] theorem Core.setQueueReg_shape (c : Core) (k : Nat) (q : List Word) : (c.setQueueReg k q).shape = c.shape := rfl
@[simp] theorem Core.setQueueReg_qcfg (c : Core) (k : Nat) (q : List Word) : (c.setQueueReg k q).qcfg = c.qcfg := rfl
@[simp] theorem Core.setQueueReg_fmtq (c : Core) (k : Nat) (q : List Word) : (c.setQueueReg k q).fmtq = c.fmtq := rfl
@[simp] theorem Core.setQueueReg_fmtBefore (c : Core) (k : Nat) (q : List Word) : (c.setQueueReg k q).fmtBefore = c.fmtBefore := rfl
@[simp] theorem Core.setQueueReg_livemap (c : Core) (k : Nat) (q : List Word) : (c.setQueueReg k q).livemap = c.livemap := rfl
@[simp] theorem Core.setQueueReg_liveEntry (c : Core) (k : Nat) (q : List Word) : (c.setQueueReg k q).liveEntry = c.liveEntry := rfl
@[simp] theorem Core.setQueueReg_slset (c : Core) (k : Nat) (q : List Word) : (c.setQueueReg k q).slset = c.slset := rfl
@[simp] theorem Core.setQueueReg_ui (c : Core) (k : Nat) (q : List Word) : (c.setQueueReg k q).ui = c.ui := rfl
@[simp] theorem Core.setQueueReg_sluices (c : Core) (k : Nat) (q : List Word) : (c.setQueueReg k q).sluices = c.sluices := rfl
@[simp] theorem Core.setQueueReg_eng (c : Core) (k : Nat) (q : List Word) : (c.setQueueReg k q).eng = c.eng := rfl
@[simp] theorem Core.setQueueReg_arms (c : Core) (k : Nat) (q : List Word) : (c.setQueueReg k q).arms = c.arms := rfl
@[simp] theorem Core.setQueueReg_kc (c : Core) (k : Nat) (q : List Word) : (c.setQueueReg k q).kc = c.kc := rfl
@[simp] theorem Core.setQueueReg_accesses (c : Core) (k : Nat) (q : List Word) : (c.setQueueReg k q).accesses = c.accesses := rfl
@[simp] theorem Core.setQueueReg_checkW (c : Core) (k : Nat) (q : List Word) : (c.setQueueReg k q).checkW = c.checkW := rfl
@[simp] theorem Core.setQueueReg_checkR (c : Core) (k : Nat) (q : List Word) : (c.setQueueReg k q).checkR = c.checkR := rfl
@[simp] theorem Core.setQueueReg_latch (c : Core) (k : Nat) (q : List Word) : (c.setQueueReg k q).latch = c.latch := rfl
@[simp] theorem Core.setQueueReg_spad (c : Core) (k : Nat) (q : List Word) : (c.setQueueReg k q).spad = c.spad := rfl
@[simp] theorem Core.setQueueReg_tiles (c : Core) (k : Nat) (q : List Word) : (c.setQueueReg k q).tiles = c.tiles := rfl
@[simp] theorem Core.setQueueReg_masks (c : Core) (k : Nat) (q : List Word) : (c.setQueueReg k q).masks = c.masks := rfl
@[simp] theorem Core.setQueueReg_weave (c : Core) (k : Nat) (q : List Word) : (c.setQueueReg k q).weave = c.weave := rfl
@[simp] theorem Core.setQueueReg_posted (c : Core) (k : Nat) (q : List Word) : (c.setQueueReg k q).posted = c.posted := rfl
@[simp] theorem Core.setQueueReg_postedTags (c : Core) (k : Nat) (q : List Word) : (c.setQueueReg k q).postedTags = c.postedTags := rfl
@[simp] theorem Core.setQueueReg_l1d (c : Core) (k : Nat) (q : List Word) : (c.setQueueReg k q).l1d = c.l1d := rfl
@[simp] theorem Core.setQueueReg_l1i (c : Core) (k : Nat) (q : List Word) : (c.setQueueReg k q).l1i = c.l1i := rfl
@[simp] theorem Core.setQueueReg_comb (c : Core) (k : Nat) (q : List Word) : (c.setQueueReg k q).comb = c.comb := rfl
@[simp] theorem Core.setQueueReg_lastKernel (c : Core) (k : Nat) (q : List Word) : (c.setQueueReg k q).lastKernel = c.lastKernel := rfl
@[simp] theorem Core.setQueueReg_tlb (c : Core) (k : Nat) (q : List Word) : (c.setQueueReg k q).tlb = c.tlb := rfl
@[simp] theorem Core.setQueueReg_flagsRaised (c : Core) (k : Nat) (q : List Word) : (c.setQueueReg k q).flagsRaised = c.flagsRaised := rfl
@[simp] theorem Core.setQueueReg_flagSlot (c : Core) (k : Nat) (q : List Word) : (c.setQueueReg k q).flagSlot = c.flagSlot := rfl
@[simp] theorem Core.setQueueReg_preemptAt (c : Core) (k : Nat) (q : List Word) : (c.setQueueReg k q).preemptAt = c.preemptAt := rfl
@[simp] theorem Core.setQueueReg_reserved (c : Core) (k : Nat) (q : List Word) : (c.setQueueReg k q).reserved = c.reserved := rfl
@[simp] theorem Core.setQueueReg_frozen (c : Core) (k : Nat) (q : List Word) : (c.setQueueReg k q).frozen = c.frozen := rfl

@[simp] theorem Core.setLoop_task (c : Core) (k : Nat) (l : LoopCtr) : (c.setLoop k l).task = c.task := rfl
@[simp] theorem Core.setLoop_draining (c : Core) (k : Nat) (l : LoopCtr) : (c.setLoop k l).draining = c.draining := rfl
@[simp] theorem Core.setLoop_line (c : Core) (k : Nat) (l : LoopCtr) : (c.setLoop k l).line = c.line := rfl
@[simp] theorem Core.setLoop_slot (c : Core) (k : Nat) (l : LoopCtr) : (c.setLoop k l).slot = c.slot := rfl
@[simp] theorem Core.setLoop_npc (c : Core) (k : Nat) (l : LoopCtr) : (c.setLoop k l).npc = c.npc := rfl
@[simp] theorem Core.setLoop_unitDone (c : Core) (k : Nat) (l : LoopCtr) : (c.setLoop k l).unitDone = c.unitDone := rfl
@[simp] theorem Core.setLoop_curSlot (c : Core) (k : Nat) (l : LoopCtr) : (c.setLoop k l).curSlot = c.curSlot := rfl
@[simp] theorem Core.setLoop_early (c : Core) (k : Nat) (l : LoopCtr) : (c.setLoop k l).early = c.early := rfl
@[simp] theorem Core.setLoop_snap (c : Core) (k : Nat) (l : LoopCtr) : (c.setLoop k l).snap = c.snap := rfl
@[simp] theorem Core.setLoop_unitSnap (c : Core) (k : Nat) (l : LoopCtr) : (c.setLoop k l).unitSnap = c.unitSnap := rfl
@[simp] theorem Core.setLoop_entered (c : Core) (k : Nat) (l : LoopCtr) : (c.setLoop k l).entered = c.entered := rfl
@[simp] theorem Core.setLoop_exitAt (c : Core) (k : Nat) (l : LoopCtr) : (c.setLoop k l).exitAt = c.exitAt := rfl
@[simp] theorem Core.setLoop_blocked (c : Core) (k : Nat) (l : LoopCtr) : (c.setLoop k l).blocked = c.blocked := rfl
@[simp] theorem Core.setLoop_held (c : Core) (k : Nat) (l : LoopCtr) : (c.setLoop k l).held = c.held := rfl
@[simp] theorem Core.setLoop_exiting (c : Core) (k : Nat) (l : LoopCtr) : (c.setLoop k l).exiting = c.exiting := rfl
@[simp] theorem Core.setLoop_pend (c : Core) (k : Nat) (l : LoopCtr) : (c.setLoop k l).pend = c.pend := rfl
@[simp] theorem Core.setLoop_more (c : Core) (k : Nat) (l : LoopCtr) : (c.setLoop k l).more = c.more := rfl
@[simp] theorem Core.setLoop_owed (c : Core) (k : Nat) (l : LoopCtr) : (c.setLoop k l).owed = c.owed := rfl
@[simp] theorem Core.setLoop_stopping (c : Core) (k : Nat) (l : LoopCtr) : (c.setLoop k l).stopping = c.stopping := rfl
@[simp] theorem Core.setLoop_fpctl (c : Core) (k : Nat) (l : LoopCtr) : (c.setLoop k l).fpctl = c.fpctl := rfl
@[simp] theorem Core.setLoop_seed (c : Core) (k : Nat) (l : LoopCtr) : (c.setLoop k l).seed = c.seed := rfl
@[simp] theorem Core.setLoop_shape (c : Core) (k : Nat) (l : LoopCtr) : (c.setLoop k l).shape = c.shape := rfl
@[simp] theorem Core.setLoop_qcfg (c : Core) (k : Nat) (l : LoopCtr) : (c.setLoop k l).qcfg = c.qcfg := rfl
@[simp] theorem Core.setLoop_queues (c : Core) (k : Nat) (l : LoopCtr) : (c.setLoop k l).queues = c.queues := rfl
@[simp] theorem Core.setLoop_fmtq (c : Core) (k : Nat) (l : LoopCtr) : (c.setLoop k l).fmtq = c.fmtq := rfl
@[simp] theorem Core.setLoop_fmtBefore (c : Core) (k : Nat) (l : LoopCtr) : (c.setLoop k l).fmtBefore = c.fmtBefore := rfl
@[simp] theorem Core.setLoop_livemap (c : Core) (k : Nat) (l : LoopCtr) : (c.setLoop k l).livemap = c.livemap := rfl
@[simp] theorem Core.setLoop_liveEntry (c : Core) (k : Nat) (l : LoopCtr) : (c.setLoop k l).liveEntry = c.liveEntry := rfl
@[simp] theorem Core.setLoop_slset (c : Core) (k : Nat) (l : LoopCtr) : (c.setLoop k l).slset = c.slset := rfl
@[simp] theorem Core.setLoop_ui (c : Core) (k : Nat) (l : LoopCtr) : (c.setLoop k l).ui = c.ui := rfl
@[simp] theorem Core.setLoop_sluices (c : Core) (k : Nat) (l : LoopCtr) : (c.setLoop k l).sluices = c.sluices := rfl
@[simp] theorem Core.setLoop_eng (c : Core) (k : Nat) (l : LoopCtr) : (c.setLoop k l).eng = c.eng := rfl
@[simp] theorem Core.setLoop_arms (c : Core) (k : Nat) (l : LoopCtr) : (c.setLoop k l).arms = c.arms := rfl
@[simp] theorem Core.setLoop_kc (c : Core) (k : Nat) (l : LoopCtr) : (c.setLoop k l).kc = c.kc := rfl
@[simp] theorem Core.setLoop_accesses (c : Core) (k : Nat) (l : LoopCtr) : (c.setLoop k l).accesses = c.accesses := rfl
@[simp] theorem Core.setLoop_checkW (c : Core) (k : Nat) (l : LoopCtr) : (c.setLoop k l).checkW = c.checkW := rfl
@[simp] theorem Core.setLoop_checkR (c : Core) (k : Nat) (l : LoopCtr) : (c.setLoop k l).checkR = c.checkR := rfl
@[simp] theorem Core.setLoop_latch (c : Core) (k : Nat) (l : LoopCtr) : (c.setLoop k l).latch = c.latch := rfl
@[simp] theorem Core.setLoop_spad (c : Core) (k : Nat) (l : LoopCtr) : (c.setLoop k l).spad = c.spad := rfl
@[simp] theorem Core.setLoop_tiles (c : Core) (k : Nat) (l : LoopCtr) : (c.setLoop k l).tiles = c.tiles := rfl
@[simp] theorem Core.setLoop_masks (c : Core) (k : Nat) (l : LoopCtr) : (c.setLoop k l).masks = c.masks := rfl
@[simp] theorem Core.setLoop_weave (c : Core) (k : Nat) (l : LoopCtr) : (c.setLoop k l).weave = c.weave := rfl
@[simp] theorem Core.setLoop_posted (c : Core) (k : Nat) (l : LoopCtr) : (c.setLoop k l).posted = c.posted := rfl
@[simp] theorem Core.setLoop_postedTags (c : Core) (k : Nat) (l : LoopCtr) : (c.setLoop k l).postedTags = c.postedTags := rfl
@[simp] theorem Core.setLoop_l1d (c : Core) (k : Nat) (l : LoopCtr) : (c.setLoop k l).l1d = c.l1d := rfl
@[simp] theorem Core.setLoop_l1i (c : Core) (k : Nat) (l : LoopCtr) : (c.setLoop k l).l1i = c.l1i := rfl
@[simp] theorem Core.setLoop_comb (c : Core) (k : Nat) (l : LoopCtr) : (c.setLoop k l).comb = c.comb := rfl
@[simp] theorem Core.setLoop_lastKernel (c : Core) (k : Nat) (l : LoopCtr) : (c.setLoop k l).lastKernel = c.lastKernel := rfl
@[simp] theorem Core.setLoop_tlb (c : Core) (k : Nat) (l : LoopCtr) : (c.setLoop k l).tlb = c.tlb := rfl
@[simp] theorem Core.setLoop_flagsRaised (c : Core) (k : Nat) (l : LoopCtr) : (c.setLoop k l).flagsRaised = c.flagsRaised := rfl
@[simp] theorem Core.setLoop_flagSlot (c : Core) (k : Nat) (l : LoopCtr) : (c.setLoop k l).flagSlot = c.flagSlot := rfl
@[simp] theorem Core.setLoop_preemptAt (c : Core) (k : Nat) (l : LoopCtr) : (c.setLoop k l).preemptAt = c.preemptAt := rfl
@[simp] theorem Core.setLoop_reserved (c : Core) (k : Nat) (l : LoopCtr) : (c.setLoop k l).reserved = c.reserved := rfl
@[simp] theorem Core.setLoop_frozen (c : Core) (k : Nat) (l : LoopCtr) : (c.setLoop k l).frozen = c.frozen := rfl
@[simp] theorem Core.setLoop_soft (c : Core) (k : Nat) (l : LoopCtr) : (c.setLoop k l).soft = c.soft := rfl

@[simp] theorem Core.setCoil_task (c : Core) (k : Coil) : (c.setCoil k).task = c.task := rfl
@[simp] theorem Core.setCoil_draining (c : Core) (k : Coil) : (c.setCoil k).draining = c.draining := rfl
@[simp] theorem Core.setCoil_line (c : Core) (k : Coil) : (c.setCoil k).line = c.line := rfl
@[simp] theorem Core.setCoil_slot (c : Core) (k : Coil) : (c.setCoil k).slot = c.slot := rfl
@[simp] theorem Core.setCoil_npc (c : Core) (k : Coil) : (c.setCoil k).npc = c.npc := rfl
@[simp] theorem Core.setCoil_unitDone (c : Core) (k : Coil) : (c.setCoil k).unitDone = c.unitDone := rfl
@[simp] theorem Core.setCoil_curSlot (c : Core) (k : Coil) : (c.setCoil k).curSlot = c.curSlot := rfl
@[simp] theorem Core.setCoil_early (c : Core) (k : Coil) : (c.setCoil k).early = c.early := rfl
@[simp] theorem Core.setCoil_snap (c : Core) (k : Coil) : (c.setCoil k).snap = c.snap := rfl
@[simp] theorem Core.setCoil_unitSnap (c : Core) (k : Coil) : (c.setCoil k).unitSnap = c.unitSnap := rfl
@[simp] theorem Core.setCoil_entered (c : Core) (k : Coil) : (c.setCoil k).entered = c.entered := rfl
@[simp] theorem Core.setCoil_exitAt (c : Core) (k : Coil) : (c.setCoil k).exitAt = c.exitAt := rfl
@[simp] theorem Core.setCoil_blocked (c : Core) (k : Coil) : (c.setCoil k).blocked = c.blocked := rfl
@[simp] theorem Core.setCoil_held (c : Core) (k : Coil) : (c.setCoil k).held = c.held := rfl
@[simp] theorem Core.setCoil_exiting (c : Core) (k : Coil) : (c.setCoil k).exiting = c.exiting := rfl
@[simp] theorem Core.setCoil_pend (c : Core) (k : Coil) : (c.setCoil k).pend = c.pend := rfl
@[simp] theorem Core.setCoil_more (c : Core) (k : Coil) : (c.setCoil k).more = c.more := rfl
@[simp] theorem Core.setCoil_owed (c : Core) (k : Coil) : (c.setCoil k).owed = c.owed := rfl
@[simp] theorem Core.setCoil_stopping (c : Core) (k : Coil) : (c.setCoil k).stopping = c.stopping := rfl
@[simp] theorem Core.setCoil_fpctl (c : Core) (k : Coil) : (c.setCoil k).fpctl = c.fpctl := rfl
@[simp] theorem Core.setCoil_seed (c : Core) (k : Coil) : (c.setCoil k).seed = c.seed := rfl
@[simp] theorem Core.setCoil_shape (c : Core) (k : Coil) : (c.setCoil k).shape = c.shape := rfl
@[simp] theorem Core.setCoil_qcfg (c : Core) (k : Coil) : (c.setCoil k).qcfg = c.qcfg := rfl
@[simp] theorem Core.setCoil_queues (c : Core) (k : Coil) : (c.setCoil k).queues = c.queues := rfl
@[simp] theorem Core.setCoil_fmtq (c : Core) (k : Coil) : (c.setCoil k).fmtq = c.fmtq := rfl
@[simp] theorem Core.setCoil_fmtBefore (c : Core) (k : Coil) : (c.setCoil k).fmtBefore = c.fmtBefore := rfl
@[simp] theorem Core.setCoil_livemap (c : Core) (k : Coil) : (c.setCoil k).livemap = c.livemap := rfl
@[simp] theorem Core.setCoil_liveEntry (c : Core) (k : Coil) : (c.setCoil k).liveEntry = c.liveEntry := rfl
@[simp] theorem Core.setCoil_slset (c : Core) (k : Coil) : (c.setCoil k).slset = c.slset := rfl
@[simp] theorem Core.setCoil_ui (c : Core) (k : Coil) : (c.setCoil k).ui = c.ui := rfl
@[simp] theorem Core.setCoil_sluices (c : Core) (k : Coil) : (c.setCoil k).sluices = c.sluices := rfl
@[simp] theorem Core.setCoil_eng (c : Core) (k : Coil) : (c.setCoil k).eng = c.eng := rfl
@[simp] theorem Core.setCoil_arms (c : Core) (k : Coil) : (c.setCoil k).arms = c.arms := rfl
@[simp] theorem Core.setCoil_kc (c : Core) (k : Coil) : (c.setCoil k).kc = c.kc := rfl
@[simp] theorem Core.setCoil_accesses (c : Core) (k : Coil) : (c.setCoil k).accesses = c.accesses := rfl
@[simp] theorem Core.setCoil_checkW (c : Core) (k : Coil) : (c.setCoil k).checkW = c.checkW := rfl
@[simp] theorem Core.setCoil_checkR (c : Core) (k : Coil) : (c.setCoil k).checkR = c.checkR := rfl
@[simp] theorem Core.setCoil_latch (c : Core) (k : Coil) : (c.setCoil k).latch = c.latch := rfl
@[simp] theorem Core.setCoil_spad (c : Core) (k : Coil) : (c.setCoil k).spad = c.spad := rfl
@[simp] theorem Core.setCoil_tiles (c : Core) (k : Coil) : (c.setCoil k).tiles = c.tiles := rfl
@[simp] theorem Core.setCoil_masks (c : Core) (k : Coil) : (c.setCoil k).masks = c.masks := rfl
@[simp] theorem Core.setCoil_weave (c : Core) (k : Coil) : (c.setCoil k).weave = c.weave := rfl
@[simp] theorem Core.setCoil_posted (c : Core) (k : Coil) : (c.setCoil k).posted = c.posted := rfl
@[simp] theorem Core.setCoil_postedTags (c : Core) (k : Coil) : (c.setCoil k).postedTags = c.postedTags := rfl
@[simp] theorem Core.setCoil_l1d (c : Core) (k : Coil) : (c.setCoil k).l1d = c.l1d := rfl
@[simp] theorem Core.setCoil_l1i (c : Core) (k : Coil) : (c.setCoil k).l1i = c.l1i := rfl
@[simp] theorem Core.setCoil_comb (c : Core) (k : Coil) : (c.setCoil k).comb = c.comb := rfl
@[simp] theorem Core.setCoil_lastKernel (c : Core) (k : Coil) : (c.setCoil k).lastKernel = c.lastKernel := rfl
@[simp] theorem Core.setCoil_tlb (c : Core) (k : Coil) : (c.setCoil k).tlb = c.tlb := rfl
@[simp] theorem Core.setCoil_flagsRaised (c : Core) (k : Coil) : (c.setCoil k).flagsRaised = c.flagsRaised := rfl
@[simp] theorem Core.setCoil_flagSlot (c : Core) (k : Coil) : (c.setCoil k).flagSlot = c.flagSlot := rfl
@[simp] theorem Core.setCoil_preemptAt (c : Core) (k : Coil) : (c.setCoil k).preemptAt = c.preemptAt := rfl
@[simp] theorem Core.setCoil_reserved (c : Core) (k : Coil) : (c.setCoil k).reserved = c.reserved := rfl
@[simp] theorem Core.setCoil_frozen (c : Core) (k : Coil) : (c.setCoil k).frozen = c.frozen := rfl
@[simp] theorem Core.setCoil_soft (c : Core) (k : Coil) : (c.setCoil k).soft = c.soft := rfl

@[simp] theorem Ctx.setQueue_lvl (c : Ctx) (q : Nat) (u : Queue) : (c.setQueue q u).lvl = c.lvl := rfl
@[simp] theorem Ctx.setQueue_preempt (c : Ctx) (q : Nat) (u : Queue) : (c.setQueue q u).preempt = c.preempt := rfl
@[simp] theorem Ctx.setQueue_predl (c : Ctx) (q : Nat) (u : Queue) : (c.setQueue q u).predl = c.predl := rfl
@[simp] theorem Ctx.setQueue_slice (c : Ctx) (q : Nat) (u : Queue) : (c.setQueue q u).slice = c.slice := rfl
@[simp] theorem Ctx.setQueue_saveBase (c : Ctx) (q : Nat) (u : Queue) : (c.setQueue q u).saveBase = c.saveBase := rfl
@[simp] theorem Ctx.setQueue_ptbase (c : Ctx) (q : Nat) (u : Queue) : (c.setQueue q u).ptbase = c.ptbase := rfl
@[simp] theorem Ctx.setQueue_tlbinv (c : Ctx) (q : Nat) (u : Queue) : (c.setQueue q u).tlbinv = c.tlbinv := rfl
@[simp] theorem Ctx.setQueue_tlbinvQueue (c : Ctx) (q : Nat) (u : Queue) : (c.setQueue q u).tlbinvQueue = c.tlbinvQueue := rfl
@[simp] theorem Ctx.setQueue_armDrop (c : Ctx) (q : Nat) (u : Queue) : (c.setQueue q u).armDrop = c.armDrop := rfl
@[simp] theorem Ctx.setQueue_hwbase (c : Ctx) (q : Nat) (u : Queue) : (c.setQueue q u).hwbase = c.hwbase := rfl
@[simp] theorem Ctx.setQueue_gquota (c : Ctx) (q : Nat) (u : Queue) : (c.setQueue q u).gquota = c.gquota := rfl
@[simp] theorem Ctx.setQueue_gusrc (c : Ctx) (q : Nat) (u : Queue) : (c.setQueue q u).gusrc = c.gusrc := rfl
@[simp] theorem Ctx.setQueue_gucmd (c : Ctx) (q : Nat) (u : Queue) : (c.setQueue q u).gucmd = c.gucmd := rfl
@[simp] theorem Ctx.setQueue_guPort (c : Ctx) (q : Nat) (u : Queue) : (c.setQueue q u).guPort = c.guPort := rfl
@[simp] theorem Ctx.setQueue_uploads (c : Ctx) (q : Nat) (u : Queue) : (c.setQueue q u).uploads = c.uploads := rfl
@[simp] theorem Ctx.setQueue_images (c : Ctx) (q : Nat) (u : Queue) : (c.setQueue q u).images = c.images := rfl
@[simp] theorem Ctx.setQueue_nextImg (c : Ctx) (q : Nat) (u : Queue) : (c.setQueue q u).nextImg = c.nextImg := rfl
@[simp] theorem Ctx.setQueue_tl (c : Ctx) (q : Nat) (u : Queue) : (c.setQueue q u).tl = c.tl := rfl
@[simp] theorem Ctx.setQueue_arms (c : Ctx) (q : Nat) (u : Queue) : (c.setQueue q u).arms = c.arms := rfl
@[simp] theorem Ctx.setQueue_armOrder (c : Ctx) (q : Nat) (u : Queue) : (c.setQueue q u).armOrder = c.armOrder := rfl
@[simp] theorem Ctx.setQueue_fqbase (c : Ctx) (q : Nat) (u : Queue) : (c.setQueue q u).fqbase = c.fqbase := rfl
@[simp] theorem Ctx.setQueue_fqen (c : Ctx) (q : Nat) (u : Queue) : (c.setQueue q u).fqen = c.fqen := rfl
@[simp] theorem Ctx.setQueue_fqlog (c : Ctx) (q : Nat) (u : Queue) : (c.setQueue q u).fqlog = c.fqlog := rfl
@[simp] theorem Ctx.setQueue_fqhead (c : Ctx) (q : Nat) (u : Queue) : (c.setQueue q u).fqhead = c.fqhead := rfl
@[simp] theorem Ctx.setQueue_fqtail (c : Ctx) (q : Nat) (u : Queue) : (c.setQueue q u).fqtail = c.fqtail := rfl
@[simp] theorem Ctx.setQueue_fqnext (c : Ctx) (q : Nat) (u : Queue) : (c.setQueue q u).fqnext = c.fqnext := rfl
@[simp] theorem Ctx.setQueue_fqlost (c : Ctx) (q : Nat) (u : Queue) : (c.setQueue q u).fqlost = c.fqlost := rfl
@[simp] theorem Ctx.setQueue_fqresume (c : Ctx) (q : Nat) (u : Queue) : (c.setQueue q u).fqresume = c.fqresume := rfl
@[simp] theorem Ctx.setQueue_flagsBerm (c : Ctx) (q : Nat) (u : Queue) : (c.setQueue q u).flagsBerm = c.flagsBerm := rfl
@[simp] theorem Ctx.setQueue_flagsTask (c : Ctx) (q : Nat) (u : Queue) : (c.setQueue q u).flagsTask = c.flagsTask := rfl
@[simp] theorem Ctx.setQueue_trapEn (c : Ctx) (q : Nat) (u : Queue) : (c.setQueue q u).trapEn = c.trapEn := rfl
@[simp] theorem Ctx.setQueue_held (c : Ctx) (q : Nat) (u : Queue) : (c.setQueue q u).held = c.held := rfl
@[simp] theorem Ctx.setQueue_saved (c : Ctx) (q : Nat) (u : Queue) : (c.setQueue q u).saved = c.saved := rfl

/-! ## Reading what was written -/

@[simp] theorem State.core_setCore_same (s : State) (k : Nat) (c : Core) : (s.setCore k c).core k = c :=
  Table.get_set_same _ _ _ _

theorem State.core_setCore_ne (s : State) {j k : Nat} (c : Core) (h : j ≠ k) : (s.setCore k c).core j = s.core j :=
  Table.get_set_ne _ _ _ h

@[simp] theorem State.setCore_setCore (s : State) (k : Nat) (c d : Core) :
    (s.setCore k c).setCore k d = s.setCore k d := by simp [State.setCore]

@[simp] theorem State.ctx_setCtx_same (s : State) (x : Nat) (c : Ctx) : (s.setCtx x c).ctx x = c :=
  Table.get_set_same _ _ _ _

theorem State.ctx_setCtx_ne (s : State) {x y : Nat} (c : Ctx) (h : y ≠ x) : (s.setCtx x c).ctx y = s.ctx y :=
  Table.get_set_ne _ _ _ h

@[simp] theorem State.setCtx_setCtx (s : State) (x : Nat) (c d : Ctx) : (s.setCtx x c).setCtx x d = s.setCtx x d := by
  simp [State.setCtx]

@[simp] theorem State.ctx_setCore (s : State) (k x : Nat) (c : Core) : (s.setCore k c).ctx x = s.ctx x := rfl
@[simp] theorem State.core_setCtx (s : State) (k x : Nat) (c : Ctx) : (s.setCtx x c).core k = s.core k := rfl
@[simp] theorem State.here_setCtx (s : State) (x : Nat) (c : Ctx) : (s.setCtx x c).here = s.here := rfl
@[simp] theorem State.ctx_setHere (s : State) (x : Nat) (c : Core) : (s.setHere c).ctx x = s.ctx x := rfl
@[simp] theorem State.ctx_mapHere (s : State) (x : Nat) (f : Core → Core) : (s.mapHere f).ctx x = s.ctx x := rfl

@[simp] theorem State.here_setHere (s : State) (c : Core) : (s.setHere c).here = c := State.core_setCore_same _ _ _
@[simp] theorem State.here_mapHere (s : State) (f : Core → Core) : (s.mapHere f).here = f s.here :=
  State.here_setHere _ _
@[simp] theorem State.setHere_setHere (s : State) (c d : Core) : (s.setHere c).setHere d = s.setHere d := by
  simp [State.setHere]
@[simp] theorem State.setHere_mapHere (s : State) (f : Core → Core) (d : Core) :
    (s.mapHere f).setHere d = s.setHere d := by simp [State.mapHere]
@[simp] theorem State.mapHere_setHere (s : State) (c : Core) (f : Core → Core) :
    (s.setHere c).mapHere f = s.setHere (f c) := by simp [State.mapHere]
@[simp] theorem State.mapHere_mapHere (s : State) (f g : Core → Core) :
    (s.mapHere f).mapHere g = s.mapHere fun c => g (f c) := by simp [State.mapHere]
theorem State.core_setHere_ne (s : State) {k : Nat} (c : Core) (h : k ≠ s.focus.toNat) :
    (s.setHere c).core k = s.core k := State.core_setCore_ne _ _ h
theorem State.core_mapHere_ne (s : State) {k : Nat} (f : Core → Core) (h : k ≠ s.focus.toNat) :
    (s.mapHere f).core k = s.core k := State.core_setCore_ne _ _ h

@[simp] theorem Core.engine_setEngine_same (c : Core) (e : Nat) (g : Engine) : (c.setEngine e g).engine e = g :=
  Table.get_set_same _ _ _ _
theorem Core.engine_setEngine_ne (c : Core) {e f : Nat} (g : Engine) (h : f ≠ e) :
    (c.setEngine e g).engine f = c.engine f := Table.get_set_ne _ _ _ h
@[simp] theorem Core.sluice_setSluice_same (c : Core) (k : Nat) (l : Sluice) : (c.setSluice k l).sluice k = l :=
  Table.get_set_same _ _ _ _
theorem Core.sluice_setSluice_ne (c : Core) {j k : Nat} (l : Sluice) (h : j ≠ k) :
    (c.setSluice k l).sluice j = c.sluice j := Table.get_set_ne _ _ _ h
@[simp] theorem Core.queueReg_setQueueReg_same (c : Core) (k : Nat) (q : List Word) :
    (c.setQueueReg k q).queueReg k = q := Table.get_set_same _ _ _ _
@[simp] theorem Ctx.queue_setQueue_same (c : Ctx) (q : Nat) (u : Queue) : (c.setQueue q u).queue q = u :=
  Table.get_set_same _ _ _ _

end Sys2Proof.Machine
end

