-- ==== Sys2Proof/Laws/Memory.lean ====
section
/-!
SUPPORT. Memory's canonical form: every operation that writes memory keeps it, and the operations that only make memory
ready leave its bytes alone.
-/
namespace Sys2Proof

variable {α : Type} [DecidableEq α]

/-- The canonical form said of the list as a whole: numbers rise strictly, none below `lo`, no default listed. -/
theorem Table.wfFrom_iff (d : α) {lo : Nat} {t : Table α} :
    Table.wfFrom d lo t = true ↔ t.Pairwise (fun a b => a.1 < b.1) ∧ ∀ e ∈ t, lo ≤ e.1 ∧ e.2 ≠ d := by
  induction t generalizing lo with
  | nil => simp [Table.wfFrom]
  | cons e t ih =>
    obtain ⟨k, v⟩ := e
    rw [Table.wfFrom_cons, ih, List.pairwise_cons]
    constructor
    · rintro ⟨hk, hv, hp, ht⟩
      refine ⟨⟨fun b hb => by have := (ht b hb).1; show k < b.1; omega, hp⟩, fun b hb => ?_⟩
      rcases List.mem_cons.mp hb with rfl | hb
      · exact ⟨hk, hv⟩
      · exact ⟨by have := (ht b hb).1; omega, (ht b hb).2⟩
    · rintro ⟨⟨hb, hp⟩, ht⟩
      have h0 := ht (k, v) (List.mem_cons_self ..)
      refine ⟨h0.1, h0.2, hp, fun b hm => ⟨?_, (ht b (List.mem_cons_of_mem _ hm)).2⟩⟩
      have : k < b.1 := hb b hm
      omega

/-- Moving a range of one canonical table into another keeps the canonical form. -/
theorem Table.wf_blit (d : α) {dst src : Table α} (base lo n : Nat) (hd : Table.wf d dst = true)
    (hs : Table.wf d src = true) : Table.wf d (Table.blit dst base src lo n) = true := by
  have hd := (Table.wfFrom_iff d).mp hd
  have hs := (Table.wfFrom_iff d).mp hs
  refine (Table.wfFrom_iff d).mpr ⟨?_, ?_⟩
  · rw [Table.blit, List.pairwise_append, List.pairwise_append]
    refine ⟨⟨hd.1.filter _, ?_, ?_⟩, hd.1.filter _, ?_⟩
    · rw [Table.takeRange, List.pairwise_map]
      refine (hs.1.filter _).imp_of_mem ?_
      intro a b ha hb hab
      simp at ha hb ⊢
      have := ha.2.1
      omega
    · intro a ha b hb
      simp [Table.takeRange] at ha hb
      obtain ⟨k, v, ⟨-, hk, -⟩, rfl⟩ := hb
      have := ha.2
      simp
      omega
    · intro a ha b hb
      simp [Table.takeRange] at ha hb
      rcases ha with ha | ⟨k, v, ⟨-, h1, h2⟩, rfl⟩
      · omega
      · simp
        omega
  · intro e he
    simp [Table.blit, Table.takeRange] at he
    rcases he with he | ⟨k, v, ⟨hm, -⟩, rfl⟩ | he
    · exact hd.2 e he.1
    · exact ⟨Nat.zero_le _, (hs.2 _ hm).2⟩
    · exact hd.2 e he.1

/-- The canonical form of a table is in canonical form, whatever the table. -/
theorem Table.wf_canon (d : α) (t : Table α) : Table.wf d (Table.canon d t) = true := by
  unfold Table.canon
  split
  · assumption
  · rename_i h
    clear h
    induction t with
    | nil => rfl
    | cons e t ih => exact Table.wf_set d _ _ ih

omit [DecidableEq α] in
/-- Leaving pairs out by their number: a number left out reads as the default, another as before. -/
theorem Table.get_filter (d : α) (p : Nat → Bool) (t : Table α) (k : Nat) :
    Table.get d (t.filter fun e => p e.1) k = if p k then Table.get d t k else d := by
  induction t with
  | nil => simp [Table.get]
  | cons e t ih =>
    obtain ⟨j, v⟩ := e
    by_cases hj : j = k
    · subst hj; cases hp : p j <;> simp_all [Table.get]
    · cases hp : p j <;> simp_all [Table.get]

omit [DecidableEq α] in
/-- A read of joined tables of a number that the first does not list. -/
theorem Table.get_append_right (d : α) {a : Table α} (b : Table α) {k : Nat} (h : ∀ e ∈ a, e.1 ≠ k) :
    Table.get d (a ++ b) k = Table.get d b k := by
  induction a with
  | nil => rfl
  | cons e a ih =>
    obtain ⟨j, v⟩ := e
    have hj : j ≠ k := h (j, v) (List.mem_cons_self ..)
    simpa [Table.get, hj] using ih fun e he => h e (List.mem_cons_of_mem _ he)

omit [DecidableEq α] in
/-- A read of joined tables of a number that the second does not list. -/
theorem Table.get_append_left (d : α) (a : Table α) {b : Table α} {k : Nat} (h : ∀ e ∈ b, e.1 ≠ k) :
    Table.get d (a ++ b) k = Table.get d a k := by
  induction a with
  | nil => simpa [Table.get] using Table.get_append_right d [] h
  | cons e a ih => obtain ⟨j, v⟩ := e; simp [Table.get, ih]

omit [DecidableEq α] in
theorem Table.get_takeRange (d : α) (t : Table α) (lo n base k : Nat) :
    Table.get d (Table.takeRange lo n base t) k = if base ≤ k ∧ k < base + n then Table.get d t (k - base + lo) else d := by
  induction t with
  | nil => simp [Table.takeRange, Table.get]
  | cons e t ih =>
    obtain ⟨j, v⟩ := e
    simp only [Table.takeRange] at ih ⊢
    by_cases hj : lo ≤ j ∧ j < lo + n
    · by_cases hk : j - lo + base = k
      · have h1 : base ≤ k ∧ k < base + n := by omega
        have h2 : j = k - base + lo := by omega
        simp [hj, hk, Table.get, h1, ← h2]
      · simp only [hj.1, hj.2, decide_true, Bool.and_self, List.filter_cons_of_pos, List.map_cons, Table.get, hk,
          if_false, ih]
        split
        · have h2 : j ≠ k - base + lo := by omega
          rw [if_neg h2]
        · rfl
    · have hf : (decide (lo ≤ j) && decide (j < lo + n)) = false := by simpa using hj
      simp only [List.filter, hf, ih, Table.get]
      split
      · have h2 : j ≠ k - base + lo := by omega
        rw [if_neg h2]
      · rfl

omit [DecidableEq α] in
/-- A read after a range is moved in. -/
theorem Table.get_blit (d : α) (dst src : Table α) (base lo n k : Nat) :
    Table.get d (Table.blit dst base src lo n) k =
      if base ≤ k ∧ k < base + n then Table.get d src (k - base + lo) else Table.get d dst k := by
  have h1 := Table.get_filter d (fun j => decide (j < base)) dst k
  have h2 := Table.get_takeRange d src lo n base k
  have h3 := Table.get_filter d (fun j => decide (base + n ≤ j)) dst k
  have m1 : base ≤ k → ∀ e ∈ dst.filter (fun e => decide (e.1 < base)), e.1 ≠ k := by
    intro h e he; simp at he; omega
  have m2 : ¬ (base ≤ k ∧ k < base + n) → ∀ e ∈ Table.takeRange lo n base src, e.1 ≠ k := by
    intro h e he; simp [Table.takeRange] at he; obtain ⟨j, v, ⟨-, a, b⟩, rfl⟩ := he; simp; omega
  have m3 : k < base + n → ∀ e ∈ dst.filter (fun e => decide (base + n ≤ e.1)), e.1 ≠ k := by
    intro h e he; simp at he; omega
  rw [Table.blit]
  by_cases a : k < base
  · rw [Table.get_append_left d _ (m3 (by omega)), Table.get_append_left d _ (m2 (by omega)), h1]
    rw [if_pos (by simpa using a), if_neg (by omega)]
  · by_cases b : k < base + n
    · rw [Table.get_append_left d _ (m3 b), Table.get_append_right d _ (m1 (by omega)), h2, if_pos (by omega),
        if_pos (by omega)]
    · rw [List.append_assoc, Table.get_append_right d _ (m1 (by omega)), Table.get_append_right d _ (m2 (by omega)), h3,
        if_pos (by simpa using Nat.le_of_not_lt b), if_neg (by omega)]

namespace Machine

/-- A read of one byte after bytes are placed. -/
theorem get_putBytes (bs : List (Option Byte)) (m : List Host.Cell) (a x : Nat) :
    Table.get 0 (putBytes m a bs) x =
      if a ≤ x then ((bs[x - a]?).join).getD (Table.get 0 m x) else Table.get 0 m x := by
  induction bs generalizing m a with
  | nil => simp [putBytes]
  | cons b bs ih =>
    rcases Nat.lt_trichotomy x a with h | h | h
    · have h2 : ¬ a + 1 ≤ x := by omega
      rw [if_neg (by omega)]
      cases b with
      | none => rw [putBytes, ih, if_neg h2]
      | some b => rw [putBytes, ih, if_neg h2, Table.get_set_ne _ _ _ (by omega)]
    · subst h
      have h2 : ¬ x + 1 ≤ x := by omega
      cases b with
      | none => rw [putBytes, ih, if_neg h2]; simp
      | some b => rw [putBytes, ih, if_neg h2, Table.get_set_same]; simp
    · have h2 : a + 1 ≤ x := h
      have h4 : x - a = x - (a + 1) + 1 := by omega
      cases b with
      | none => rw [putBytes, ih, if_pos h2, if_pos (by omega), h4, List.getElem?_cons_succ]
      | some b =>
        rw [putBytes, ih, if_pos h2, if_pos (by omega), h4, List.getElem?_cons_succ, Table.get_set_ne _ _ _ (by omega)]

theorem Memory.wf_putBytes (bs : List (Option Byte)) {m : List Host.Cell} (a : Nat) (h : Memory.wf m = true) :
    Memory.wf (putBytes m a bs) = true := by
  induction bs generalizing m a with
  | nil => exact h
  | cons b bs ih =>
    cases b with
    | none => exact ih (a + 1) h
    | some b => exact ih (a + 1) (Table.wf_set 0 a b h)

/-- The machine's memory after reset is in canonical form. -/
theorem Memory.wf_reset : Memory.wf State.reset.mem = true := rfl

/-! ## What making memory ready leaves alone -/

@[simp] theorem State.setMark_mem (s : State) (la m : Nat) : (s.setMark la m).mem = s.mem := rfl

@[simp] theorem State.eccUnit_mem (s : State) (la : Nat) : (s.eccUnit la).mem = s.mem := by
  unfold State.eccUnit
  dsimp only
  split <;> (try split) <;> rfl

theorem State.foldl_mem {β : Type} (f : State → β → State) (hf : ∀ s b, (f s b).mem = s.mem) (bs : List β) (s : State) :
    (bs.foldl f s).mem = s.mem := by
  induction bs generalizing s with
  | nil => rfl
  | cons b bs ih => rw [List.foldl_cons, ih, hf]

/-- What a fold of steps that each keep the canonical form leaves. -/
theorem State.foldl_wf {β : Type} (f : State → β → State)
    (hf : ∀ s b, Memory.wf s.mem = true → Memory.wf (f s b).mem = true) (bs : List β) (s : State)
    (h : Memory.wf s.mem = true) : Memory.wf (bs.foldl f s).mem = true := by
  induction bs generalizing s with
  | nil => exact h
  | cons b bs ih => exact ih _ (hf s b h)

@[simp] theorem State.ecc_mem (s : State) (la n : Nat) : (s.ecc la n).mem = s.mem :=
  State.foldl_mem _ (fun s b => s.eccUnit_mem (32 * b)) _ s

@[simp] theorem State.migErr_mem (s : State) (frame why : Nat) : (s.migErr frame why).mem = s.mem := rfl

@[simp] theorem State.notePinned_mem (s : State) (attr : Word) (la : Nat) : (s.notePinned attr la).mem = s.mem := by
  unfold State.notePinned
  split
  · exact State.migErr_mem ..
  · rfl

@[simp] theorem State.arriveGranule_mem (s : State) (la : Nat) : (s.arriveGranule la).mem = s.mem := by
  unfold State.arriveGranule
  split
  · rfl
  · exact State.ecc_mem ..

/-! ## Every operation keeps the canonical form -/

variable {s : State}

theorem State.wf_pullGranule (g : Migration) (k : Nat) (h : Memory.wf s.mem = true) :
    Memory.wf (s.pullGranule g k).mem = true := by
  unfold State.pullGranule
  split
  · exact h
  · dsimp only
    simp only [State.ecc_mem, State.arriveGranule_mem]
    exact Table.wf_blit 0 _ _ _ h h

theorem State.wf_pull (la : Nat) (h : Memory.wf s.mem = true) : Memory.wf (s.pull la).mem = true := by
  unfold State.pull
  split
  · exact State.wf_pullGranule _ _ h
  · exact h

theorem State.wf_readyGranule (attr : Word) (la n : Nat) (w : Option Wr) (die : Option Nat)
    (h : Memory.wf s.mem = true) : Memory.wf (s.readyGranule attr la n w die).mem = true := by
  have h' := State.wf_pull (s := s.notePinned attr la) la (by simpa using h)
  unfold State.readyGranule
  simpa only [State.arriveGranule_mem] using h'

theorem State.wf_touchGranule (attr : Word) (la n : Nat) (die : Option Nat) (h : Memory.wf s.mem = true) :
    Memory.wf (s.touchGranule attr la n die).mem = true := by
  have h' := State.wf_readyGranule attr la n none die h
  unfold State.touchGranule
  simpa only [State.ecc_mem] using h'

theorem State.wf_touch (attr : Word) (la n : Nat) (die : Option Nat) (h : Memory.wf s.mem = true) :
    Memory.wf (s.touch attr la n die).mem = true :=
  State.foldl_wf _ (fun _ p h => State.wf_touchGranule attr p.1 p.2 die h) _ s h

/-- A home read keeps the canonical form. -/
theorem State.wf_homeRead (attr : Word) (la n : Nat) (die : Option Nat) (h : Memory.wf s.mem = true) :
    Memory.wf (s.homeRead attr la n die).1.mem = true := by
  unfold State.homeRead
  dsimp only
  split <;> exact State.wf_touch attr la n die h

theorem State.wf_writeGranule (la : Nat) (bs : List (Option Byte)) (h : Memory.wf s.mem = true) :
    Memory.wf (s.writeGranule la bs).mem = true := by
  unfold State.writeGranule
  dsimp only
  rw [State.foldl_mem]
  · refine Memory.wf_putBytes bs _ ?_
    rw [State.foldl_mem]
    · exact h
    · intro s b; split <;> simp
  · intro s b; split <;> simp

/-- A home write keeps the canonical form. -/
theorem State.wf_homeWriteMask (attr : Word) (x la : Nat) (bs : List (Option Byte)) (die : Option Nat)
    (stamp : Option Nat) (h : Memory.wf s.mem = true) :
    Memory.wf (s.homeWriteMask attr x la bs die stamp).mem = true := by
  unfold State.homeWriteMask
  refine State.foldl_wf _ (fun s p h => ?_) _ s h
  exact State.wf_writeGranule p.1 _ (State.wf_readyGranule attr p.1 _ _ die h)

theorem State.wf_homeWrite (attr : Word) (x la : Nat) (bs : List Byte) (die : Option Nat) (h : Memory.wf s.mem = true) :
    Memory.wf (s.homeWrite attr x la bs die).mem = true := State.wf_homeWriteMask attr x la _ die none h

/-- The write half of a read and write at the home keeps the canonical form. -/
theorem State.wf_homeRewrite (attr : Word) (x la : Nat) (bs : List Byte) (h : Memory.wf s.mem = true) :
    Memory.wf (s.homeRewrite attr x la bs).mem = true := by
  unfold State.homeRewrite
  refine State.foldl_wf _ (fun s p h => ?_) _ s h
  dsimp only
  exact State.wf_writeGranule (s := { s with memr := _ }) _ _ h

/-- An indivisible update at the home keeps the canonical form. -/
theorem State.wf_homeUpdate (attr : Word) (x la n : Nat) (f : Nat → Nat) (h : Memory.wf s.mem = true) :
    Memory.wf (s.homeUpdate attr x la n f).1.mem = true := by
  have h' := State.wf_homeRead attr la n none h
  unfold State.homeUpdate
  split
  · rename_i e; rw [e] at h'; exact h'
  · rename_i e; rw [e] at h'; exact State.wf_homeRewrite attr x la _ h'

theorem State.wf_homeNibble (attr : Word) (x la nib v : Nat) (h : Memory.wf s.mem = true) :
    Memory.wf (s.homeNibble attr x la nib v).mem = true :=
  State.wf_homeRewrite attr x la _ (State.wf_touch attr la 1 none h)

/-- A channel's retirement keeps the canonical form. -/
theorem State.wf_retireChannel (v : Word) (h : Memory.wf s.mem = true) :
    Memory.wf (s.retireChannel v).mem = true := by
  unfold State.retireChannel
  dsimp only
  split
  · exact h
  · split
    · exact h
    · exact Table.wf_filter 0 _ h

/-- The removal of far memory keeps the canonical form. -/
theorem State.wf_dropFar (lo n : Nat) (h : Memory.wf s.mem = true) : Memory.wf (s.dropFar lo n).mem = true := by
  unfold State.dropFar State.leaveFar
  dsimp only
  rw [State.foldl_mem]
  · exact Table.wf_dropRange 0 lo n h
  · intro s e; rfl

/-- What a fold over pairs of a state and a value leaves, when each of its steps keeps the canonical form. -/
theorem State.foldl_wf_fst {β γ : Type} (f : State × γ → β → State × γ)
    (hf : ∀ a b, Memory.wf a.1.mem = true → Memory.wf (f a b).1.mem = true) (bs : List β) (a : State × γ)
    (h : Memory.wf a.1.mem = true) : Memory.wf (bs.foldl f a).1.mem = true := by
  induction bs generalizing a with
  | nil => exact h
  | cons b bs ih => exact ih _ (hf a b h)

/-! ## Packets sent change nothing but the fabric (R333, R334) -/

/-- Nothing but the fabric block differs. -/
def OnlyFab (s t : State) : Prop := ∃ f, t = { s with fab := f }

theorem OnlyFab.mem {s t : State} (h : OnlyFab s t) : t.mem = s.mem := by obtain ⟨_, rfl⟩ := h; rfl
theorem OnlyFab.cores {s t : State} (h : OnlyFab s t) : t.cores = s.cores := by obtain ⟨_, rfl⟩ := h; rfl
theorem OnlyFab.ctxs {s t : State} (h : OnlyFab s t) : t.ctxs = s.ctxs := by obtain ⟨_, rfl⟩ := h; rfl
theorem OnlyFab.memr {s t : State} (h : OnlyFab s t) : t.memr = s.memr := by obtain ⟨_, rfl⟩ := h; rfl

theorem OnlyFab.trans {s t u : State} (h : OnlyFab s t) (h' : OnlyFab t u) : OnlyFab s u := by
  obtain ⟨_, rfl⟩ := h
  obtain ⟨_, rfl⟩ := h'
  exact ⟨_, rfl⟩

theorem State.place?_fab (s : State) (p : Packet) : OnlyFab s (s.place? p).1 := by
  unfold State.place?
  split <;> exact ⟨_, rfl⟩

theorem State.emit_fab (s : State) (p : Packet) : OnlyFab s (s.emit p) := by
  have h := s.place?_fab p
  unfold State.emit
  split
  · rename_i e; rw [e] at h; exact h
  · rename_i t e
    rw [e] at h
    split
    · exact h
    · split
      · exact h.trans ⟨_, rfl⟩
      · exact h.trans (t.place?_fab _)

theorem State.send_fab (s : State) (i : Issuer) (va : Word) (p : Packet) : OnlyFab s (s.send i va p).1 := by
  unfold State.send
  exact OnlyFab.trans ⟨_, rfl⟩ (State.emit_fab _ _)

theorem State.reply_fab (s : State) (p : Packet) : OnlyFab s (s.reply p) := State.emit_fab ..

/-- A planned write, here or at a peer, keeps the canonical form. -/
theorem State.wf_put (a : Agent) (i : Issuer) (w : Put) (h : Memory.wf s.mem = true) :
    Memory.wf (s.put a i w).1.mem = true := by
  unfold State.put
  split
  · exact State.wf_homeWriteMask _ _ _ _ _ _ h
  · exact State.foldl_wf_fst _ (fun p _ h => by rw [(State.send_fab ..).mem]; exact h) _ _ h
  · exact h

theorem State.wf_putAll (a : Agent) (i : Issuer) (ws : List Put) (h : Memory.wf s.mem = true) :
    Memory.wf (s.putAll a i ws).1.mem = true := by
  unfold State.putAll
  refine State.foldl_wf_fst _ (fun p w h => ?_) ws (s, []) h
  exact State.wf_put (s := p.1) a i w h

/-- A piece of a task image written keeps the canonical form. -/
theorem State.wf_writePiece (a : Agent) (p : ImagePiece) (t : Table Byte) (h : Memory.wf s.mem = true) :
    Memory.wf (s.writePiece a p t).mem = true := by
  unfold State.writePiece
  split
  · dsimp only
    refine State.foldl_wf _ (fun s c h => ?_) _ _ ?_
    · exact Table.wf_blit 0 _ _ _ h (Table.wf_canon 0 _)
    · exact State.foldl_wf _ (fun s g h => State.wf_readyGranule _ _ _ _ _ h) _ s h
  · exact State.wf_put _ _ _ h

/-- An instruction placed for the next fetch keeps the canonical form. -/
theorem State.wf_withFetchWord (n w : Nat) (h : Memory.wf s.mem = true) : Memory.wf (s.withFetchWord n w).mem = true := by
  unfold State.withFetchWord
  dsimp only
  exact Table.wf_setList 0 _ _ h

/-! ## What operations on memory leave alone -/

/-- Nothing but memory, its error marks and the memory blocks with their caches differs. -/
def OnlyMem (s t : State) : Prop :=
  ∃ m e r, t = { s with mem := m, merr := e, memr := r }

theorem OnlyMem.refl (s : State) : OnlyMem s s := ⟨_, _, _, rfl⟩

theorem OnlyMem.trans {s t u : State} (h : OnlyMem s t) (h' : OnlyMem t u) : OnlyMem s u := by
  obtain ⟨m, e, r, rfl⟩ := h
  obtain ⟨m', e', r', rfl⟩ := h'
  exact ⟨m', e', r', rfl⟩

theorem OnlyMem.ite {s t u : State} {c : Prop} [Decidable c] (h : OnlyMem s t) (h' : OnlyMem s u) :
    OnlyMem s (if c then t else u) := by split <;> assumption

theorem OnlyMem.foldl {β : Type} (f : State → β → State) (hf : ∀ s b, OnlyMem s (f s b)) (bs : List β) (s : State) :
    OnlyMem s (bs.foldl f s) := by
  induction bs generalizing s with
  | nil => exact OnlyMem.refl s
  | cons b bs ih => exact (hf s b).trans (ih _)

theorem OnlyMem.cores {s t : State} (h : OnlyMem s t) : t.cores = s.cores := by obtain ⟨_, _, _, rfl⟩ := h; rfl
theorem OnlyMem.ctxs {s t : State} (h : OnlyMem s t) : t.ctxs = s.ctxs := by obtain ⟨_, _, _, rfl⟩ := h; rfl
theorem OnlyMem.focus {s t : State} (h : OnlyMem s t) : t.focus = s.focus := by obtain ⟨_, _, _, rfl⟩ := h; rfl
theorem OnlyMem.fab {s t : State} (h : OnlyMem s t) : t.fab = s.fab := by obtain ⟨_, _, _, rfl⟩ := h; rfl
theorem OnlyMem.stew {s t : State} (h : OnlyMem s t) : t.stew = s.stew := by obtain ⟨_, _, _, rfl⟩ := h; rfl

theorem State.setMark_only (s : State) (la m : Nat) : OnlyMem s (s.setMark la m) := ⟨_, _, _, rfl⟩

theorem State.eccUnit_only (s : State) (la : Nat) : OnlyMem s (s.eccUnit la) := by
  unfold State.eccUnit
  dsimp only
  split
  · exact OnlyMem.ite (s.setMark_only la 0) ⟨_, _, _, rfl⟩
  · exact OnlyMem.ite (s.setMark_only la 3) ⟨_, _, _, rfl⟩
  · exact OnlyMem.refl s

theorem State.ecc_only (s : State) (la n : Nat) : OnlyMem s (s.ecc la n) :=
  OnlyMem.foldl _ (fun s b => s.eccUnit_only (32 * b)) _ s

theorem OnlyMem.memr (s : State) (r : MemRegs) : OnlyMem s { s with memr := r } := ⟨_, _, _, rfl⟩

theorem OnlyMem.blit (s : State) (m : List Host.Cell) (e : Table Nat) (r : MemRegs) :
    OnlyMem s { s with mem := m, merr := e, memr := r } := ⟨_, _, _, rfl⟩

theorem State.arriveGranule_only (s : State) (la : Nat) : OnlyMem s (s.arriveGranule la) := by
  unfold State.arriveGranule
  dsimp only
  exact OnlyMem.ite (OnlyMem.refl s) ((s.ecc_only _ _).trans (OnlyMem.memr _ _))

theorem State.pullGranule_only (s : State) (g : Migration) (k : Nat) : OnlyMem s (s.pullGranule g k) := by
  unfold State.pullGranule
  dsimp only
  exact OnlyMem.ite (OnlyMem.refl s) (((((OnlyMem.memr s _).trans (State.arriveGranule_only _ _)).trans
    (State.arriveGranule_only _ _)).trans (State.ecc_only _ _ _)).trans (OnlyMem.blit _ _ _ _))

theorem State.pull_only (s : State) (la : Nat) : OnlyMem s (s.pull la) := by
  unfold State.pull
  split
  · exact s.pullGranule_only _ _
  · exact OnlyMem.refl s

theorem State.migErr_only (s : State) (frame why : Nat) : OnlyMem s (s.migErr frame why) := ⟨_, _, _, rfl⟩

theorem State.notePinned_only (s : State) (attr : Word) (la : Nat) : OnlyMem s (s.notePinned attr la) := by
  unfold State.notePinned
  exact OnlyMem.ite (s.migErr_only _ _) (OnlyMem.refl s)

theorem State.readyGranule_only (s : State) (attr : Word) (la n : Nat) (w : Option Wr) (die : Option Nat) :
    OnlyMem s (s.readyGranule attr la n w die) :=
  (((s.notePinned_only attr la).trans (State.pull_only _ la)).trans (State.arriveGranule_only _ _)).trans (OnlyMem.memr _ _)

theorem State.touchGranule_only (s : State) (attr : Word) (la n : Nat) (die : Option Nat) :
    OnlyMem s (s.touchGranule attr la n die) := by
  unfold State.touchGranule
  dsimp only
  exact (s.readyGranule_only attr la n none die).trans (State.ecc_only _ _ _)

theorem State.touch_only (s : State) (attr : Word) (la n : Nat) (die : Option Nat) : OnlyMem s (s.touch attr la n die) := by
  unfold State.touch
  apply OnlyMem.foldl
  intro s p
  exact s.touchGranule_only attr p.1 p.2 die

/-- A home read changes nothing outside the memory system. -/
theorem State.homeRead_only (s : State) (attr : Word) (la n : Nat) (die : Option Nat) :
    OnlyMem s (s.homeRead attr la n die).1 := by
  unfold State.homeRead
  dsimp only
  split <;> exact s.touch_only attr la n die

theorem State.writeGranule_only (s : State) (la : Nat) (bs : List (Option Byte)) : OnlyMem s (s.writeGranule la bs) := by
  unfold State.writeGranule
  dsimp only
  refine OnlyMem.trans ?_ (OnlyMem.foldl _ (fun s b => OnlyMem.ite (s.setMark_only _ _) (OnlyMem.refl s)) _ _)
  refine OnlyMem.trans ?_ ⟨_, _, _, rfl⟩
  exact OnlyMem.foldl _ (fun s b => OnlyMem.ite (s.eccUnit_only _) (OnlyMem.refl s)) _ s

/-- A home write changes nothing outside the memory system. -/
theorem State.homeWriteMask_only (s : State) (attr : Word) (x la : Nat) (bs : List (Option Byte)) (die : Option Nat) :
    OnlyMem s (s.homeWriteMask attr x la bs die) := by
  unfold State.homeWriteMask
  refine OnlyMem.foldl _ (fun s p => ?_) _ s
  dsimp only
  exact ((s.readyGranule_only attr p.1 p.2 _ die).trans (State.writeGranule_only _ p.1 _)).trans (OnlyMem.memr _ _)

theorem State.homeWrite_only (s : State) (attr : Word) (x la : Nat) (bs : List Byte) (die : Option Nat) :
    OnlyMem s (s.homeWrite attr x la bs die) := s.homeWriteMask_only attr x la _ die

theorem State.homeRewrite_only (s : State) (attr : Word) (x la : Nat) (bs : List Byte) :
    OnlyMem s (s.homeRewrite attr x la bs) := by
  unfold State.homeRewrite
  refine OnlyMem.foldl _ (fun s p => ?_) _ s
  dsimp only
  exact (OnlyMem.memr s _).trans (State.writeGranule_only _ _ _)

/-- An indivisible update at the home changes nothing outside the memory system. -/
theorem State.homeUpdate_only (s : State) (attr : Word) (x la n : Nat) (f : Nat → Nat) :
    OnlyMem s (s.homeUpdate attr x la n f).1 := by
  have h := s.homeRead_only attr la n none
  unfold State.homeUpdate
  split
  · rename_i e; rw [e] at h; exact h
  · rename_i e; rw [e] at h; exact h.trans (State.homeRewrite_only _ attr x la _)

end Machine
end Sys2Proof
end

