-- ==== Sys2Proof/Laws/Ops.lean ====
section
/-!
SUPPORT. One lemma for each shared operation: what a control instruction does under its guard, what a register write
changes, what a fault, a flag, a record, a signal, a wait, a run, an interrupt and the dispatch of a command may do.
-/
namespace Sys2Proof.Machine

/-! ## Guards -/

theorem guarded_of_true {g : BitVec 4} {s : State} (t : State) (h : s.here.readP g = true) : guarded g s t = .next t := by
  simp [guarded, h]

theorem guarded_of_false {g : BitVec 4} {s : State} (t : State) (h : s.here.readP g = false) :
    guarded g s t = .next s := by simp [guarded, h]

/-- A guarded instruction always answers a next state: the one given, or the same state. -/
theorem guarded_cases (g : BitVec 4) (s t : State) : guarded g s t = .next t ∨ guarded g s t = .next s := by
  cases h : s.here.readP g <;> simp [guarded, h]

theorem ctl_eq_guarded (g : BitVec 4) (s : State) (f : Core → Core) : ctl g s f = guarded g s (s.mapHere f) := rfl

theorem ctlS_eq_guarded (g : BitVec 4) (s : State) (f : State → State) : ctlS g s f = guarded g s (f s) := rfl

theorem setS_eq_guarded (g : BitVec 4) (d : BitVec 6) (s : State) (v : Core → Word) :
    setS g d s v = guarded g s (s.withScalar d (v s.here)) := rfl

theorem setP_eq_guarded (g d : BitVec 4) (s : State) (v : Core → Bool) :
    setP g d s v = guarded g s (s.withPredicate d (v s.here)) := rfl

/-! ## Registers -/

@[simp] theorem Core.readS_zero (c : Core) : c.readS 0 = 0 := rfl
@[simp] theorem Core.readP_zero (c : Core) : c.readP 0 = true := rfl
@[simp] theorem Core.writeS_zero (c : Core) (v : Word) : c.writeS 0 v = c := rfl
@[simp] theorem Core.writeP_zero (c : Core) (b : Bool) : c.writeP 0 b = c := rfl

/-- A write of a scalar changes nothing but the scalars. -/
theorem Core.writeS_only (c : Core) (d : BitVec 6) (v : Word) :
    c.writeS d v = { c with regs := { c.regs with s := (c.writeS d v).regs.s, h := (c.writeS d v).regs.h } } := by
  unfold Core.writeS
  split
  · rfl
  · split <;> rfl

/-- A write of a predicate changes nothing but the predicates. -/
theorem Core.writeP_only (c : Core) (d : BitVec 4) (b : Bool) :
    c.writeP d b = { c with regs := { c.regs with p := (c.writeP d b).regs.p } } := by
  unfold Core.writeP
  split <;> rfl

@[simp] theorem Core.writeS_coil (c : Core) (d : BitVec 6) (v : Word) : (c.writeS d v).regs.coil = c.regs.coil := by
  rw [Core.writeS_only]
@[simp] theorem Core.writeP_coil (c : Core) (d : BitVec 4) (b : Bool) : (c.writeP d b).regs.coil = c.regs.coil := by
  rw [Core.writeP_only]

theorem rotS_lt (r : Regs) (f : BitVec 6) : rotS r f < 64 := by
  unfold rotS
  split <;> omega

theorem rotP_lt (r : Regs) (f : BitVec 4) : rotP r f < 16 := by
  unfold rotP
  split <;> omega

/-- Renaming never gives two scalar fields one register. -/
theorem rotS_injective (r : Regs) {f e : BitVec 6} (h : rotS r f = rotS r e) : f = e := by
  have := r.coil.srot.isLt
  have hf := f.isLt
  have he := e.isLt
  apply BitVec.eq_of_toNat_eq
  unfold rotS at h
  split at h <;> split at h <;> omega

/-- Renaming never gives two predicate fields one register. -/
theorem rotP_injective (r : Regs) {f e : BitVec 4} (h : rotP r f = rotP r e) : f = e := by
  have := r.coil.prot.isLt
  have hf := f.isLt
  have he := e.isLt
  apply BitVec.eq_of_toNat_eq
  unfold rotP at h
  split at h <;> split at h <;> omega

/-- Predicate p0 keeps its number under every rotation, and no other field takes it. -/
theorem rotP_zero (r : Regs) : rotP r 0 = 0 := rfl

theorem getLsbD_setBit {n : Nat} (v : BitVec n) (k : Nat) (b : Bool) (j : Nat) (hj : j < n) :
    (setBit v k b).getLsbD j = if j = k then b else v.getLsbD j := by
  by_cases h : j = k
  · subst h; cases b <;> simp [setBit, hj]
  · cases b <;> simp [setBit, hj, h]

/-! ## Faults, waits and flags -/

/-- The first fault pends; a later one leaves it, sets `more` when its stream is another, and waits its turn when nothing
would raise it again. -/
theorem Core.faultAt_cases (c : Core) (f : FaultInfo) :
    (c.pend = none ∧ c.faultAt f = { c with pend := some f }) ∨
      ∃ g, c.pend = some g ∧ c.faultAt f = { c with
        more := c.more || g.stream != f.stream, owed := if f.once || f.late then c.owed ++ [f] else c.owed } := by
  unfold Core.faultAt
  split
  · exact Or.inr ⟨_, ‹_›, rfl⟩
  · exact Or.inl ⟨‹_›, rfl⟩

theorem Core.fault_eq (c : Core) (f : FaultInfo) : c.fault f = c.faultAt { f with line := c.line, slot := c.curSlot } := rfl

/-- Whichever fault comes first, one is pending after it. -/
theorem Core.fault_pend (c : Core) (f : FaultInfo) : (c.fault f).pend.isSome = true := by
  rw [Core.fault_eq]
  rcases c.faultAt_cases { f with line := c.line, slot := c.curSlot } with ⟨-, h⟩ | ⟨g, hg, h⟩ <;> simp [*]

theorem State.fault_eq (s : State) (f : FaultInfo) : s.fault f = s.setHere (s.here.fault f) := rfl

theorem State.block_eq (s : State) (b : Blocked) : s.block b = s.setHere { s.here with blocked := some b } := rfl

@[simp] theorem State.fault_mem (s : State) (f : FaultInfo) : (s.fault f).mem = s.mem := rfl
@[simp] theorem State.fault_ctxs (s : State) (f : FaultInfo) : (s.fault f).ctxs = s.ctxs := rfl
@[simp] theorem State.block_mem (s : State) (b : Blocked) : (s.block b).mem = s.mem := rfl
@[simp] theorem State.block_ctxs (s : State) (b : Blocked) : (s.block b).ctxs = s.ctxs := rfl

@[simp] theorem State.raise_zero (s : State) : s.raise 0 = s := rfl

/-- Flags raised: they join the task's flags of the acting core's context and the slot's. -/
theorem State.raise_of_ne (s : State) {f : Flags} (h : f ≠ 0) :
    s.raise f =
      let x := (s.here.ctx?.map BitVec.toNat).getD 0
      (s.setHere { s.here with
        flagsRaised := s.here.flagsRaised ||| f
        flagSlot := if s.here.flagsRaised = 0 then s.here.curSlot else s.here.flagSlot }).setCtx x
          { s.ctx x with flagsTask := (s.ctx x).flagsTask ||| f } := by
  unfold State.raise
  rw [if_neg h]
  rfl

@[simp] theorem State.raise_mem (s : State) (f : Flags) : (s.raise f).mem = s.mem := by
  by_cases h : f = 0
  · subst h; rfl
  · rw [State.raise_of_ne s h]; rfl

/-! ## Ordering -/

@[simp] theorem max32_self (x : BitVec 32) : max32 x x = x := by simp [max32]

theorem OVec.max_self (v : OVec) : v.max v = v := by simp [OVec.max]

/-- The ordering check lets an access of a task at D0 pass unrecorded. -/
theorem Core.checkStart_of_d0 (c : Core) (t : Nat) (n : BitVec 32) (reads writes : List Nat)
    (h : c.determinate = false) : c.checkStart t n reads writes = .ok c := by simp [Core.checkStart, h]

/-- The ordering check either finds a conflict, with code 0x0604, or only records the access. -/
theorem Core.checkStart_cases (c : Core) (t : Nat) (n : BitVec 32) (reads writes : List Nat) :
    (∃ f, c.checkStart t n reads writes = .error f ∧ f.code = 0x0604) ∨
      ∃ r w, c.checkStart t n reads writes = .ok { c with checkR := r, checkW := w } := by
  unfold Core.checkStart
  split
  · exact Or.inr ⟨c.checkR, c.checkW, rfl⟩
  · split
    · exact Or.inl ⟨_, rfl, rfl⟩
    · exact Or.inr ⟨_, _, rfl⟩

/-! ## Records and runs -/

/-- A record kept: it takes the next FSEQ. -/
theorem State.keepRecord_ctx (s : State) (x : Nat) (n : Bool) (mk : BitVec 32 → BitVec 512) :
    (s.keepRecord x n mk).ctx x = { s.ctx x with
      held := (s.ctx x).held ++ [{ bits := mk (s.ctx x).fqnext, fseq := (s.ctx x).fqnext, notice := n }]
      fqnext := (s.ctx x).fqnext + 1 } := by simp [State.keepRecord]

/-- A notice is held with the next FSEQ, or counted as lost. -/
theorem State.notice_cases (s : State) (x : Nat) (f : FaultInfo) (core : Option Nat) (q : Nat) (k : Word)
    (coords : List (BitVec 16)) :
    (∃ b, s.notice x f core q k coords = s.keepRecord x true b) ∨
      s.notice x f core q k coords = s.setCtx x { s.ctx x with fqlost := (s.ctx x).fqlost + 1 } := by
  unfold State.notice
  dsimp only
  split
  · exact Or.inr rfl
  · exact Or.inl ⟨_, rfl⟩

/-- A TRIG write is kept as TRIG's value, and appends a run or leaves a notice when 64 wait. -/
theorem State.trig_cases (s : State) (x q : Nat) (v : Word) (akind : Nat) (core : Option Nat) :
    (((s.ctx x).queue q).pending.length < 64 ∧ s.trig x q v akind core =
      s.setCtx x ((s.ctx x).setQueue q { (s.ctx x).queue q with
        trig := v, pending := ((s.ctx x).queue q).pending ++ [{ value := v, img := (s.ctx x).nextImg }] })) ∨
      (64 ≤ ((s.ctx x).queue q).pending.length ∧ ∃ f, s.trig x q v akind core =
        (s.setCtx x ((s.ctx x).setQueue q { (s.ctx x).queue q with trig := v })).notice x f core) := by
  unfold State.trig
  dsimp only
  split
  · exact Or.inr ⟨‹_›, _, rfl⟩
  · exact Or.inl ⟨by omega, rfl⟩

/-! ## Sluices -/

/-- A signal of no count changes nothing. -/
theorem State.signal_zero (s : State) (core k : Nat) (v : OVec) (t : Option Nat) :
    s.signal core k 0 v t = .ok s := by simp [State.signal]

/-- A signal at D0 to a semaphore with room, in which no error stands, adds its count. -/
theorem State.signal_of_room (s : State) (core k : Nat) (n : BitVec 16) (v : OVec) (t : Option Nat) (hn : n ≠ 0)
    (hd : (s.core core).determinate = false) (hs : (s.core core).softHit 3 [softSluice k] = false)
    (hb : ((s.core core).sluice k).barrier = false)
    (hr : ((s.core core).sluice k).count.toNat + n.toNat ≤ ((s.core core).sluice k).ceil.toNat) :
    s.signal core k n v t = .ok (s.setCore core ((s.core core).setSluice k
      { (s.core core).sluice k with count := ((s.core core).sluice k).count + n })) := by
  have h : ¬ ((s.core core).sluice k).ceil.toNat < ((s.core core).sluice k).count.toNat + n.toNat := by omega
  unfold State.signal
  dsimp only
  rw [if_neg hn, if_neg (by simp [hs]), if_neg (by simp [hb]), if_neg h]
  split <;> simp [State.signal.apply, hd]

/-- A signal above a semaphore's ceiling faults with 0x0501 and changes nothing. -/
theorem State.signal_of_full (s : State) (core k : Nat) (n : BitVec 16) (v : OVec) (t : Option Nat) (hn : n ≠ 0)
    (hs : (s.core core).softHit 3 [softSluice k] = false) (hb : ((s.core core).sluice k).barrier = false)
    (hr : ((s.core core).sluice k).ceil.toNat < ((s.core core).sluice k).count.toNat + n.toNat) :
    s.signal core k n v t = .error {
      code := 0x0501
      synd := BitVec.ofNat 64 k
      aux := BitVec.ofNat 64 (((s.core core).sluice k).count.toNat * 2 ^ 16 + n.toNat) } := by
  unfold State.signal
  dsimp only
  rw [if_neg hn, if_neg (by simp [hs]), if_neg (by simp [hb]), if_pos hr]

/-- No wait of a task at D0 has a stream to keep, and none faults while no error stands in the sluice. -/
theorem Core.waitFault_of_d0 (c : Core) (k : Nat) (n : BitVec 16) (t : Nat) (h : c.determinate = false)
    (hs : c.softHit 3 [softSluice k] = false) : c.waitFault k n t = none := by
  unfold Core.waitFault
  dsimp only
  rw [if_neg (by simp [hs])]
  split
  · simp [h]
  · rfl

/-- A wait at D0 takes the count of a semaphore and nothing of a barrier. -/
theorem Core.waitTake_of_d0 (c : Core) (k : Nat) (n : BitVec 16) (t : Nat) (h : c.determinate = false) :
    c.waitTake k n t = if n = 0 ∨ (c.sluice k).barrier then c
      else c.setSluice k { c.sluice k with count := (c.sluice k).count - n } := by
  unfold Core.waitTake
  simp [h]

/-! ## User interrupts -/

/-- Taking an interrupt when one is pending. -/
theorem Core.takeUint_of_pending (c : Core) {code : BitVec 32} {v : OVec} {rest : List (BitVec 32 × OVec)}
    (h : c.ui.pending = (code, v) :: rest) :
    c.takeUint = { c with
      regs := { c.regs with
        h := Table.set 0 (Table.set 0 c.regs.h 0 (c.line ||| BitVec.ofNat 64 c.slot)) 1 (code.setWidth 64) }
      ui := { c.ui with code := code, act := true, pending := rest }
      kc := c.kc.max v, line := c.ui.vec, slot := 1, blocked := none, entered := true, exiting := false } := by
  unfold Core.takeUint
  rw [h]

/-! ## Dispatching commands -/

/-- Every outcome of an EX command's dispatch: no effect, a fault, a wait for room, or the entry. -/
theorem dispatch_cases (i : Instr) (e : Ex) (eng : Nat) (check : Core → List Word → Option FaultInfo) (run : Runner)
    (s : State) :
    (s.here.readP e.g = false ∧ dispatch i e eng check run s = .next s) ∨
    (s.here.readP e.g = true ∧ ∃ f, check s.here (s.here.capture e) = some f ∧
      dispatch i e eng check run s = .next (s.fault f)) ∨
    (s.here.readP e.g = true ∧ check s.here (s.here.capture e) = none ∧
      32 ≤ (s.here.engine eng).queue.length ∧ dispatch i e eng check run s = .next (s.block .queueFull)) ∨
    (s.here.readP e.g = true ∧ check s.here (s.here.capture e) = none ∧ (s.here.engine eng).queue.length < 32 ∧
      let t := s.setHere (s.here.enqueue i eng (s.here.capture e) 0)
      dispatch i e eng check run s =
        .next (if (s.here.engine eng).queue.isEmpty then t.startHead s.focus.toNat eng run else t)) := by
  unfold dispatch queueDepth
  dsimp only
  cases hg : s.here.readP e.g
  · exact Or.inl ⟨rfl, rfl⟩
  · right
    rw [if_neg (by simp)]
    cases hc : check s.here (s.here.capture e) with
    | some f => exact Or.inl ⟨rfl, f, rfl, rfl⟩
    | none =>
      right
      dsimp only
      split
      · exact Or.inl ⟨rfl, rfl, ‹_›, rfl⟩
      · exact Or.inr ⟨rfl, rfl, by omega, rfl⟩

/-- An entered command is the last of its engine's queue, with the engine's next number. -/
theorem Core.enqueue_engine (c : Core) (i : Instr) (eng : Nat) (ops : List Word) (fmt : Word) :
    (c.enqueue i eng ops fmt).engine eng = { c.engine eng with
      queue := (c.engine eng).queue ++ [c.entry i eng ops fmt], taken := (c.engine eng).taken + 1 } := by
  simp [Core.enqueue]

theorem Core.enqueue_engine_ne (c : Core) (i : Instr) {e eng : Nat} (ops : List Word) (fmt : Word) (h : e ≠ eng) :
    (c.enqueue i eng ops fmt).engine e = c.engine e := Core.engine_setEngine_ne _ _ h

/-- Entering a command changes nothing of the core but that engine. -/
theorem Core.enqueue_only (c : Core) (i : Instr) (eng : Nat) (ops : List Word) (fmt : Word) :
    { c.enqueue i eng ops fmt with eng := c.eng } = c := rfl

/-- Nothing starts while a command is at work. -/
theorem State.startHead_of_started (s : State) (core eng : Nat) (run : Runner) {t : Started}
    (h : ((s.core core).engine eng).started = some t) : s.startHead core eng run = s := by
  unfold State.startHead
  dsimp only
  rw [h]

/-- No sync form is taken while a command is at work. -/
theorem State.takeSync_of_started (s : State) (core eng : Nat)
    (act : State → QEntry → Option (Except FaultInfo State)) {t : Started}
    (h : ((s.core core).engine eng).started = some t) : s.takeSync core eng act = s := by
  unfold State.takeSync
  dsimp only
  rw [h]

/-! ## Translation -/

/-- An address beyond the virtual space is a fault 0x0305 before any walk. -/
theorem State.translate_of_high (s : State) (a : Agent) (n : Need) (va : Word) (leaf : Page → Option FaultInfo)
    (h : 2 ^ 57 ≤ va.toNat) : s.translate a n va leaf = (s, .error (a.flt 0x0305 va)) := by
  unfold State.translate
  rw [if_pos h]

/-- An acquire changes nothing of a core but its L1 data cache. -/
theorem Core.acquire_only (c : Core) (scope : Nat) : { c.acquire scope with l1d := c.l1d } = c := by
  unfold Core.acquire
  split <;> rfl

end Sys2Proof.Machine
end

