-- ==== Sys2Proof/Laws/RoundTrip.lean ====
section
/-!
SUPPORT. The fields of an encoded word read back (R162 to R166), and what that says of decoding.
-/
namespace Sys2Proof.Laws.RoundTrip
open Sys2Proof

theorem unpack_pack (f : CR) : CR.unpack (CR.pack f) = f := by
  obtain ⟨op, g, d, a, b, x⟩ := f
  have h1 := op.isLt; have h2 := g.isLt; have h3 := d.isLt; have h4 := a.isLt; have h5 := b.isLt; have h6 := x.isLt
  simp only [CR.unpack, CR.pack, BitVec.toNat_ofNat]
  congr 1 <;> apply BitVec.eq_of_toNat_eq <;> simp only [BitVec.toNat_ofNat] <;> omega

theorem unpack_crWord (op : Nat) (g : BitVec 4) (d a b : BitVec 6) (x : BitVec 2) :
    CR.unpack (crWord op g d a b x) = ⟨BitVec.ofNat 8 op, g, d, a, b, x⟩ := unpack_pack _

theorem unpack_ciWord (op : Nat) (g : BitVec 4) (d a : BitVec 6) (i : BitVec 8) :
    CR.unpack (ciWord op g d a i) =
      ⟨BitVec.ofNat 8 op, g, d, a, BitVec.ofNat 6 (i.toNat / 4), BitVec.ofNat 2 i.toNat⟩ := unpack_pack _

theorem imm8_ci (op : BitVec 8) (g : BitVec 4) (d a : BitVec 6) (i : BitVec 8) :
    CR.imm8 ⟨op, g, d, a, BitVec.ofNat 6 (i.toNat / 4), BitVec.ofNat 2 i.toNat⟩ = i := by
  have h := i.isLt
  apply BitVec.eq_of_toNat_eq
  simp only [CR.imm8, BitVec.toNat_ofNat]
  omega

theorem toNat_cbWord (op : Nat) (c : BitVec 4) (n : BitVec 1) (f : BitVec 19) (h : op < 256) :
    (cbWord op c n f).toNat = op * 2 ^ 24 + c.toNat * 2 ^ 20 + n.toNat * 2 ^ 19 + f.toNat := by
  have h1 := c.isLt; have h2 := n.isLt; have h3 := f.isLt
  simp only [cbWord, BitVec.toNat_ofNat]
  omega

theorem op_cbWord (op : Nat) (c : BitVec 4) (n : BitVec 1) (f : BitVec 19) (h : op < 256) :
    (CR.unpack (cbWord op c n f)).op = BitVec.ofNat 8 op := by
  have h1 := c.isLt; have h2 := n.isLt; have h3 := f.isLt
  apply BitVec.eq_of_toNat_eq
  simp only [CR.unpack, toNat_cbWord op c n f h, BitVec.toNat_ofNat]
  omega

theorem g_cbWord (op : Nat) (c : BitVec 4) (n : BitVec 1) (f : BitVec 19) (h : op < 256) :
    (CR.unpack (cbWord op c n f)).g = c := by
  have h1 := c.isLt; have h2 := n.isLt; have h3 := f.isLt
  apply BitVec.eq_of_toNat_eq
  simp only [CR.unpack, toNat_cbWord op c n f h, BitVec.toNat_ofNat]
  omega

theorem n_cbWord (op : Nat) (c : BitVec 4) (n : BitVec 1) (f : BitVec 19) (h : op < 256) :
    BitVec.ofNat 1 ((cbWord op c n f).toNat / 2 ^ 19) = n := by
  have h1 := c.isLt; have h2 := n.isLt; have h3 := f.isLt
  apply BitVec.eq_of_toNat_eq
  simp only [toNat_cbWord op c n f h, BitVec.toNat_ofNat]
  omega

theorem off_cbWord (op : Nat) (c : BitVec 4) (n : BitVec 1) (f : BitVec 19) (h : op < 256) :
    BitVec.ofNat 19 (cbWord op c n f).toNat = f := by
  have h1 := c.isLt; have h2 := n.isLt; have h3 := f.isLt
  apply BitVec.eq_of_toNat_eq
  simp only [toNat_cbWord op c n f h, BitVec.toNat_ofNat]
  omega

theorem narrow {n m : Nat} (v : BitVec n) (h : n ≤ m) : (v.setWidth m).setWidth n = v := by
  apply BitVec.eq_of_toNat_eq
  have hv := v.isLt
  have hm : v.toNat < 2 ^ m := Nat.lt_of_lt_of_le hv (Nat.pow_le_pow_right (by omega) h)
  simp only [BitVec.toNat_setWidth]
  rw [Nat.mod_eq_of_lt hm, Nat.mod_eq_of_lt hv]

theorem toNat_wide {n m : Nat} (v : BitVec n) (h : n ≤ m) : (v.setWidth m).toNat = v.toNat := by
  have hv := v.isLt
  have hm : v.toNat < 2 ^ m := Nat.lt_of_lt_of_le hv (Nat.pow_le_pow_right (by omega) h)
  simp only [BitVec.toNat_setWidth]
  exact Nat.mod_eq_of_lt hm

theorem toNat_opImm8 (o : BitVec 2) (v : BitVec 6) : (opImm8 o v).toNat = o.toNat * 64 + v.toNat := by
  have h1 := o.isLt; have h2 := v.isLt
  simp only [opImm8, BitVec.toNat_ofNat]; omega

theorem toNat_opImm32 (o : BitVec 2) (v : BitVec 30) : (opImm32 o v).toNat = o.toNat * 2 ^ 30 + v.toNat := by
  have h1 := o.isLt; have h2 := v.isLt
  simp only [opImm32, BitVec.toNat_ofNat]; omega

theorem toNat_tripCont (src : BitVec 2) (k : BitVec 3) (trip : BitVec 8) (off : BitVec 19) :
    (tripCont src k trip off).toNat = src.toNat * 2 ^ 30 + k.toNat * 2 ^ 27 + trip.toNat * 2 ^ 19 + off.toNat := by
  have h1 := src.isLt; have h2 := k.isLt; have h3 := trip.isLt; have h4 := off.isLt
  simp only [tripCont, BitVec.toNat_ofNat]; omega

theorem toNat_atomicCont (opc : BitVec 4) (sc : BitVec 3) (ord size : BitVec 2) (ft : BitVec 4) :
    (atomicCont opc sc ord size ft).toNat =
      opc.toNat * 2 ^ 28 + sc.toNat * 2 ^ 25 + ord.toNat * 2 ^ 23 + size.toNat * 2 ^ 21 + ft.toNat * 2 ^ 17 := by
  have h1 := opc.isLt; have h2 := sc.isLt; have h3 := ord.isLt; have h4 := size.isLt; have h5 := ft.isLt
  simp only [atomicCont, BitVec.toNat_ofNat]; omega

theorem toNat_ofNat_lt {n k : Nat} (h : k < 2 ^ n) : (BitVec.ofNat n k).toNat = k := by
  simp only [BitVec.toNat_ofNat]; exact Nat.mod_eq_of_lt h

/-- A field read back from a number. -/
theorem field {n : Nat} (v : BitVec n) {k : Nat} (h : k % 2 ^ n = v.toNat) : BitVec.ofNat n k = v := by
  apply BitVec.eq_of_toNat_eq; simpa only [BitVec.toNat_ofNat] using h

/-- A field read back from the low bits of a word. -/
theorem low {n m : Nat} (v : BitVec n) {w : BitVec m} (h : w.toNat % 2 ^ n = v.toNat) : w.setWidth n = v := by
  apply BitVec.eq_of_toNat_eq; simpa only [BitVec.toNat_setWidth] using h

theorem opc_atomic (opc : BitVec 4) (sc : BitVec 3) (ord size : BitVec 2) (ft : BitVec 4) :
    BitVec.ofNat 4 ((atomicCont opc sc ord size ft).toNat / 2 ^ 28) = opc := by
  have h1 := opc.isLt; have h2 := sc.isLt; have h3 := ord.isLt; have h4 := size.isLt; have h5 := ft.isLt
  have h := toNat_atomicCont opc sc ord size ft
  exact field _ (by omega)

theorem sc_atomic (opc : BitVec 4) (sc : BitVec 3) (ord size : BitVec 2) (ft : BitVec 4) :
    BitVec.ofNat 3 ((atomicCont opc sc ord size ft).toNat / 2 ^ 25) = sc := by
  have h1 := opc.isLt; have h2 := sc.isLt; have h3 := ord.isLt; have h4 := size.isLt; have h5 := ft.isLt
  have h := toNat_atomicCont opc sc ord size ft
  exact field _ (by omega)

theorem ord_atomic (opc : BitVec 4) (sc : BitVec 3) (ord size : BitVec 2) (ft : BitVec 4) :
    BitVec.ofNat 2 ((atomicCont opc sc ord size ft).toNat / 2 ^ 23) = ord := by
  have h1 := opc.isLt; have h2 := sc.isLt; have h3 := ord.isLt; have h4 := size.isLt; have h5 := ft.isLt
  have h := toNat_atomicCont opc sc ord size ft
  exact field _ (by omega)

theorem size_atomic (opc : BitVec 4) (sc : BitVec 3) (ord size : BitVec 2) (ft : BitVec 4) :
    BitVec.ofNat 2 ((atomicCont opc sc ord size ft).toNat / 2 ^ 21) = size := by
  have h1 := opc.isLt; have h2 := sc.isLt; have h3 := ord.isLt; have h4 := size.isLt; have h5 := ft.isLt
  have h := toNat_atomicCont opc sc ord size ft
  exact field _ (by omega)

theorem ft_atomic (opc : BitVec 4) (sc : BitVec 3) (ord size : BitVec 2) (ft : BitVec 4) :
    BitVec.ofNat 4 ((atomicCont opc sc ord size ft).toNat / 2 ^ 17) = ft := by
  have h1 := opc.isLt; have h2 := sc.isLt; have h3 := ord.isLt; have h4 := size.isLt; have h5 := ft.isLt
  have h := toNat_atomicCont opc sc ord size ft
  exact field _ (by omega)

theorem low_atomic (opc : BitVec 4) (sc : BitVec 3) (ord size : BitVec 2) (ft : BitVec 4) :
    ((atomicCont opc sc ord size ft).toNat % 2 ^ 17 != 0) = false := by
  have h := toNat_atomicCont opc sc ord size ft
  simp
  omega

theorem rejectIf_false {b : Bool} (r : Reject) (h : b = false) : rejectIf b r = [] := by simp [rejectIf, h]

theorem words {i : Instr} {w w' : BitVec 32} {k k' : Option (BitVec 32)} (h : encode i = some (w, k))
    (e : encode i = some (w', k')) : w = w' ∧ k = k' := by
  rw [e] at h
  cases h
  exact ⟨rfl, rfl⟩

theorem defects_nil {i : Instr} (h : i.wellFormed = true) : i.defects = [] := by
  simpa [Instr.wellFormed] using h

theorem control32 {w : BitVec 32} {i j : Instr} {ds : List Reject} (hw : i.wellFormed = true)
    (hs : opcodeStream (CR.unpack w).op.toNat = some .control) (hl : lengthOk (CR.unpack w).op.toNat false = true)
    (hp : parseControl32 w = some (j, ds)) (hj : j = i) (hd : ds = []) : decodeSlot (wordStream w) w none = .ok i := by
  subst hj hd
  simp [decodeSlot, wordStream, hs, hl, hp, defects_nil hw, firstReject]

theorem control64 {w k : BitVec 32} {i j : Instr} {ds : List Reject} (hw : i.wellFormed = true)
    (hs : opcodeStream (CR.unpack w).op.toNat = some .control) (hl : lengthOk (CR.unpack w).op.toNat true = true)
    (hp : parseControl64 w k = some (j, ds)) (hj : j = i) (hd : ds = []) :
    decodeSlot (wordStream w) w (some k) = .ok i := by
  subst hj hd
  simp [decodeSlot, wordStream, hs, hl, hp, defects_nil hw, firstReject]

/-- An engine slot is read back. -/
theorem engine {w : BitVec 32} {k : Option (BitVec 32)} {i : Instr} {st : Stream} (hw : i.wellFormed = true)
    (hs : opcodeStream (CR.unpack w).op.toNat = some st) (hc : st ≠ .control)
    (hl : lengthOk (CR.unpack w).op.toNat k.isSome = true) (hp : parseEngine w k = some (i, [])) :
    decodeSlot (wordStream w) w k = .ok i := by
  unfold decodeSlot wordStream
  rw [hs]
  cases st with
  | control => exact absurd rfl hc
  | _ => simp [hs, hp, hl, defects_nil hw, firstReject]

/-- A standalone sync form is read back. -/
theorem sync {op : Nat} {g : BitVec 4} {f1 f2 : BitVec 6} {i : Instr} {st : Stream}
    (hs : opcodeStream (BitVec.ofNat 8 op).toNat = some st) (hc : st ≠ .control)
    (hl : lengthOk (BitVec.ofNat 8 op).toNat false = true)
    (hi : syncOf (BitVec.ofNat 8 op).toNat g f1 f2 = some i) (hw : i.wellFormed = true) :
    decodeSlot (wordStream (crWord op g f1 f2 0)) (crWord op g f1 f2 0) none = .ok i := by
  refine engine hw (by rw [unpack_crWord]; exact hs) hc (by rw [unpack_crWord]; exact hl) ?_
  unfold parseEngine
  rw [unpack_crWord]
  simp only [hi, Option.map_some]
  rfl

theorem of_cont (e : Ex) (op : BitVec 8) : Ex.of ⟨op, e.g, e.f1, e.f2, e.f3, e.x⟩ e.cont = e := by
  obtain ⟨g, f1, f2, f3, x, wsl, wcnt, ssl, scnt, ext⟩ := e
  have h1 := wsl.isLt; have h2 := wcnt.isLt; have h3 := ssl.isLt; have h4 := scnt.isLt; have h5 := ext.isLt
  simp only [Ex.of, Ex.cont, BitVec.toNat_ofNat]
  congr 1 <;> apply BitVec.eq_of_toNat_eq <;> simp only [BitVec.toNat_ofNat] <;> omega

/-- An EX command is read back. -/
theorem command {op : Nat} {e : Ex} {i : Instr} {st : Stream}
    (hs : opcodeStream (BitVec.ofNat 8 op).toNat = some st) (hc : st ≠ .control)
    (hl : lengthOk (BitVec.ofNat 8 op).toNat true = true)
    (hi : exOf (BitVec.ofNat 8 op).toNat e = some i) (hw : i.wellFormed = true) :
    decodeSlot (wordStream (crWord op e.g e.f1 e.f2 e.f3 e.x)) (crWord op e.g e.f1 e.f2 e.f3 e.x) (some e.cont) =
      .ok i := by
  refine engine hw (by rw [unpack_crWord]; exact hs) hc (by rw [unpack_crWord]; exact hl) ?_
  unfold parseEngine
  rw [unpack_crWord]
  simp only [of_cont, hi, Option.map_some]

end Sys2Proof.Laws.RoundTrip
end

