-- ==== Sys2Proof/Laws/PerInstr.lean ====
section
/-!
SUPPORT. Statements made for each instruction: decoding what the encoder writes gives the instruction back (R151 to
R174).
-/
namespace Sys2Proof.Laws.RoundTrip
open Sys2Proof
set_option linter.unusedSimpArgs false

/-- Decoding the words of a well-formed instruction gives the instruction. -/
def Statement (i : Instr) : Prop :=
  i.wellFormed = true → ∀ w k, encode i = some (w, k) → decodeSlot (wordStream w) w k = .ok i

theorem add (g : BitVec 4) (d a b : BitVec 6) : Statement (.add g d a b) := by
  intro hw ww kk hh
  obtain ⟨rfl, rfl⟩ := words hh (rfl : encode (.add g d a b) = some (_, none))
  refine control32 hw (by rw [unpack_crWord]; rfl) (by rw [unpack_crWord]; rfl)
    (by unfold parseControl32; rw [unpack_crWord]; rfl) ?_ ?_
  · rfl
  · simp [rejectIf, predDefect, zeroDefect, queueDefect, imm8Defect]
theorem sub (g : BitVec 4) (d a b : BitVec 6) : Statement (.sub g d a b) := by
  intro hw ww kk hh
  obtain ⟨rfl, rfl⟩ := words hh (rfl : encode (.sub g d a b) = some (_, none))
  refine control32 hw (by rw [unpack_crWord]; rfl) (by rw [unpack_crWord]; rfl)
    (by unfold parseControl32; rw [unpack_crWord]; rfl) ?_ ?_
  · rfl
  · simp [rejectIf, predDefect, zeroDefect, queueDefect, imm8Defect]
theorem mul (g : BitVec 4) (d a b : BitVec 6) : Statement (.mul g d a b) := by
  intro hw ww kk hh
  obtain ⟨rfl, rfl⟩ := words hh (rfl : encode (.mul g d a b) = some (_, none))
  refine control32 hw (by rw [unpack_crWord]; rfl) (by rw [unpack_crWord]; rfl)
    (by unfold parseControl32; rw [unpack_crWord]; rfl) ?_ ?_
  · rfl
  · simp [rejectIf, predDefect, zeroDefect, queueDefect, imm8Defect]
theorem mulh (g : BitVec 4) (d a b : BitVec 6) (u : BitVec 1) : Statement (.mulh g d a b u) := by
  intro hw ww kk hh
  obtain ⟨rfl, rfl⟩ := words hh (rfl : encode (.mulh g d a b u) = some (_, none))
  refine control32 hw (by rw [unpack_crWord]; rfl) (by rw [unpack_crWord]; rfl)
    (by unfold parseControl32; rw [unpack_crWord]; rfl) ?_ ?_
  · simp [narrow]
  · have h_g := g.isLt; have h_d := d.isLt; have h_a := a.isLt; have h_b := b.isLt
    have h_u := u.isLt
    simp [rejectIf, predDefect, zeroDefect, queueDefect, imm8Defect, ← BitVec.toNat_inj]
    omega
theorem div (g : BitVec 4) (d a b : BitVec 6) (u : BitVec 1) : Statement (.div g d a b u) := by
  intro hw ww kk hh
  obtain ⟨rfl, rfl⟩ := words hh (rfl : encode (.div g d a b u) = some (_, none))
  refine control32 hw (by rw [unpack_crWord]; rfl) (by rw [unpack_crWord]; rfl)
    (by unfold parseControl32; rw [unpack_crWord]; rfl) ?_ ?_
  · simp [narrow]
  · have h_g := g.isLt; have h_d := d.isLt; have h_a := a.isLt; have h_b := b.isLt
    have h_u := u.isLt
    simp [rejectIf, predDefect, zeroDefect, queueDefect, imm8Defect, ← BitVec.toNat_inj]
    omega
theorem rem (g : BitVec 4) (d a b : BitVec 6) (u : BitVec 1) : Statement (.rem g d a b u) := by
  intro hw ww kk hh
  obtain ⟨rfl, rfl⟩ := words hh (rfl : encode (.rem g d a b u) = some (_, none))
  refine control32 hw (by rw [unpack_crWord]; rfl) (by rw [unpack_crWord]; rfl)
    (by unfold parseControl32; rw [unpack_crWord]; rfl) ?_ ?_
  · simp [narrow]
  · have h_g := g.isLt; have h_d := d.isLt; have h_a := a.isLt; have h_b := b.isLt
    have h_u := u.isLt
    simp [rejectIf, predDefect, zeroDefect, queueDefect, imm8Defect, ← BitVec.toNat_inj]
    omega
theorem and (g : BitVec 4) (d a b : BitVec 6) : Statement (.and g d a b) := by
  intro hw ww kk hh
  obtain ⟨rfl, rfl⟩ := words hh (rfl : encode (.and g d a b) = some (_, none))
  refine control32 hw (by rw [unpack_crWord]; rfl) (by rw [unpack_crWord]; rfl)
    (by unfold parseControl32; rw [unpack_crWord]; rfl) ?_ ?_
  · rfl
  · simp [rejectIf, predDefect, zeroDefect, queueDefect, imm8Defect]
theorem or (g : BitVec 4) (d a b : BitVec 6) : Statement (.or g d a b) := by
  intro hw ww kk hh
  obtain ⟨rfl, rfl⟩ := words hh (rfl : encode (.or g d a b) = some (_, none))
  refine control32 hw (by rw [unpack_crWord]; rfl) (by rw [unpack_crWord]; rfl)
    (by unfold parseControl32; rw [unpack_crWord]; rfl) ?_ ?_
  · rfl
  · simp [rejectIf, predDefect, zeroDefect, queueDefect, imm8Defect]
theorem xor (g : BitVec 4) (d a b : BitVec 6) : Statement (.xor g d a b) := by
  intro hw ww kk hh
  obtain ⟨rfl, rfl⟩ := words hh (rfl : encode (.xor g d a b) = some (_, none))
  refine control32 hw (by rw [unpack_crWord]; rfl) (by rw [unpack_crWord]; rfl)
    (by unfold parseControl32; rw [unpack_crWord]; rfl) ?_ ?_
  · rfl
  · simp [rejectIf, predDefect, zeroDefect, queueDefect, imm8Defect]
theorem andn (g : BitVec 4) (d a b : BitVec 6) : Statement (.andn g d a b) := by
  intro hw ww kk hh
  obtain ⟨rfl, rfl⟩ := words hh (rfl : encode (.andn g d a b) = some (_, none))
  refine control32 hw (by rw [unpack_crWord]; rfl) (by rw [unpack_crWord]; rfl)
    (by unfold parseControl32; rw [unpack_crWord]; rfl) ?_ ?_
  · rfl
  · simp [rejectIf, predDefect, zeroDefect, queueDefect, imm8Defect]
theorem shl (g : BitVec 4) (d a b : BitVec 6) : Statement (.shl g d a b) := by
  intro hw ww kk hh
  obtain ⟨rfl, rfl⟩ := words hh (rfl : encode (.shl g d a b) = some (_, none))
  refine control32 hw (by rw [unpack_crWord]; rfl) (by rw [unpack_crWord]; rfl)
    (by unfold parseControl32; rw [unpack_crWord]; rfl) ?_ ?_
  · rfl
  · simp [rejectIf, predDefect, zeroDefect, queueDefect, imm8Defect]
theorem shr (g : BitVec 4) (d a b : BitVec 6) : Statement (.shr g d a b) := by
  intro hw ww kk hh
  obtain ⟨rfl, rfl⟩ := words hh (rfl : encode (.shr g d a b) = some (_, none))
  refine control32 hw (by rw [unpack_crWord]; rfl) (by rw [unpack_crWord]; rfl)
    (by unfold parseControl32; rw [unpack_crWord]; rfl) ?_ ?_
  · rfl
  · simp [rejectIf, predDefect, zeroDefect, queueDefect, imm8Defect]
theorem sar (g : BitVec 4) (d a b : BitVec 6) : Statement (.sar g d a b) := by
  intro hw ww kk hh
  obtain ⟨rfl, rfl⟩ := words hh (rfl : encode (.sar g d a b) = some (_, none))
  refine control32 hw (by rw [unpack_crWord]; rfl) (by rw [unpack_crWord]; rfl)
    (by unfold parseControl32; rw [unpack_crWord]; rfl) ?_ ?_
  · rfl
  · simp [rejectIf, predDefect, zeroDefect, queueDefect, imm8Defect]
theorem min (g : BitVec 4) (d a b : BitVec 6) (u : BitVec 1) : Statement (.min g d a b u) := by
  intro hw ww kk hh
  obtain ⟨rfl, rfl⟩ := words hh (rfl : encode (.min g d a b u) = some (_, none))
  refine control32 hw (by rw [unpack_crWord]; rfl) (by rw [unpack_crWord]; rfl)
    (by unfold parseControl32; rw [unpack_crWord]; rfl) ?_ ?_
  · simp [narrow]
  · have h_g := g.isLt; have h_d := d.isLt; have h_a := a.isLt; have h_b := b.isLt
    have h_u := u.isLt
    simp [rejectIf, predDefect, zeroDefect, queueDefect, imm8Defect, ← BitVec.toNat_inj]
    omega
theorem max (g : BitVec 4) (d a b : BitVec 6) (u : BitVec 1) : Statement (.max g d a b u) := by
  intro hw ww kk hh
  obtain ⟨rfl, rfl⟩ := words hh (rfl : encode (.max g d a b u) = some (_, none))
  refine control32 hw (by rw [unpack_crWord]; rfl) (by rw [unpack_crWord]; rfl)
    (by unfold parseControl32; rw [unpack_crWord]; rfl) ?_ ?_
  · simp [narrow]
  · have h_g := g.isLt; have h_d := d.isLt; have h_a := a.isLt; have h_b := b.isLt
    have h_u := u.isLt
    simp [rejectIf, predDefect, zeroDefect, queueDefect, imm8Defect, ← BitVec.toNat_inj]
    omega
theorem bitc (g : BitVec 4) (d a : BitVec 6) (k : BitVec 2) : Statement (.bitc g d a k) := by
  intro hw ww kk hh
  obtain ⟨rfl, rfl⟩ := words hh (rfl : encode (.bitc g d a k) = some (_, none))
  refine control32 hw (by rw [unpack_crWord]; rfl) (by rw [unpack_crWord]; rfl)
    (by unfold parseControl32; rw [unpack_crWord]; rfl) ?_ ?_
  · rfl
  · simp [rejectIf, predDefect, zeroDefect, queueDefect, imm8Defect]
theorem addi (g : BitVec 4) (d a : BitVec 6) (i : BitVec 8) : Statement (.addi g d a i) := by
  intro hw ww kk hh
  obtain ⟨rfl, rfl⟩ := words hh (rfl : encode (.addi g d a i) = some (_, none))
  refine control32 hw (by rw [unpack_ciWord]; rfl) (by rw [unpack_ciWord]; rfl)
    (by unfold parseControl32; rw [unpack_ciWord]; rfl) ?_ ?_
  · simp only [imm8_ci]
  · with_reducible rfl
theorem addiImm32 (g : BitVec 4) (d a : BitVec 6) (i : BitVec 32) : Statement (.addiImm32 g d a i) := by
  intro hw ww kk hh
  obtain ⟨rfl, rfl⟩ := words hh (rfl : encode (.addiImm32 g d a i) = some (_, some _))
  refine control64 hw (by rw [unpack_ciWord]; rfl) (by rw [unpack_ciWord]; rfl)
    (by unfold parseControl64; rw [unpack_ciWord]; rfl) ?_ ?_
  · rfl
  · simp only [imm8_ci]
    simp [rejectIf, predDefect, zeroDefect, queueDefect, imm8Defect]
theorem logi (g : BitVec 4) (d a : BitVec 6) (o : BitVec 2) (v : BitVec 6) : Statement (.logi g d a o v) := by
  intro hw ww kk hh
  obtain ⟨rfl, rfl⟩ := words hh (rfl : encode (.logi g d a o v) = some (_, none))
  refine control32 hw (by rw [unpack_ciWord]; rfl) (by rw [unpack_ciWord]; rfl)
    (by unfold parseControl32; rw [unpack_ciWord]; rfl) ?_ ?_
  · simp only [imm8_ci]
    have h_g := g.isLt; have h_d := d.isLt; have h_a := a.isLt; have h_o := o.isLt
    have h_v := v.isLt
    simp [← BitVec.toNat_inj, toNat_opImm8]
    omega
  · with_reducible rfl
theorem logiImm32 (g : BitVec 4) (d a : BitVec 6) (o : BitVec 2) (v : BitVec 30) :
    Statement (.logiImm32 g d a o v) := by
  intro hw ww kk hh
  obtain ⟨rfl, rfl⟩ := words hh (rfl : encode (.logiImm32 g d a o v) = some (_, some _))
  refine control64 hw (by rw [unpack_ciWord]; rfl) (by rw [unpack_ciWord]; rfl)
    (by unfold parseControl64; rw [unpack_ciWord]; rfl) ?_ ?_
  · have h_g := g.isLt; have h_d := d.isLt; have h_a := a.isLt; have h_o := o.isLt
    have h_v := v.isLt
    simp [← BitVec.toNat_inj, toNat_opImm32]
    omega
  · simp only [imm8_ci]
    simp [rejectIf, predDefect, zeroDefect, queueDefect, imm8Defect]
theorem shi (g : BitVec 4) (d a : BitVec 6) (o : BitVec 2) (n : BitVec 6) : Statement (.shi g d a o n) := by
  intro hw ww kk hh
  obtain ⟨rfl, rfl⟩ := words hh (rfl : encode (.shi g d a o n) = some (_, none))
  refine control32 hw (by rw [unpack_ciWord]; rfl) (by rw [unpack_ciWord]; rfl)
    (by unfold parseControl32; rw [unpack_ciWord]; rfl) ?_ ?_
  · simp only [imm8_ci]
    have h_g := g.isLt; have h_d := d.isLt; have h_a := a.isLt; have h_o := o.isLt
    have h_n := n.isLt
    simp [← BitVec.toNat_inj, toNat_opImm8]
    omega
  · with_reducible rfl
theorem shiImm32 (g : BitVec 4) (d a : BitVec 6) (o : BitVec 2) (n : BitVec 6) : Statement (.shiImm32 g d a o n) := by
  intro hw ww kk hh
  obtain ⟨rfl, rfl⟩ := words hh (rfl : encode (.shiImm32 g d a o n) = some (_, some _))
  have ho := o.isLt
  have hn := n.isLt
  have hk := toNat_opImm32 o (n.setWidth 30)
  rw [toNat_wide n (by omega)] at hk
  generalize opImm32 o (n.setWidth 30) = k at hk ⊢
  have h1 : (BitVec.ofNat 2 (k.toNat / 2 ^ 30)) = o := field o (by omega)
  have h2 : k.setWidth 6 = n := low n (by omega)
  have h3 : rejectIf (k.toNat / 64 % 2 ^ 24 != 0) .mbz = [] := rejectIf_false _ (by simp; omega)
  refine control64 hw (by rw [unpack_ciWord]; rfl) (by rw [unpack_ciWord]; rfl) (j := .shiImm32 g d a o n) (ds := []) ?_ rfl rfl
  unfold parseControl64
  rw [unpack_ciWord]
  simp only [imm8_ci, h1, h2, h3]
  rfl
theorem ldi (g : BitVec 4) (d : BitVec 6) (i : BitVec 8) : Statement (.ldi g d i) := by
  intro hw ww kk hh
  obtain ⟨rfl, rfl⟩ := words hh (rfl : encode (.ldi g d i) = some (_, none))
  refine control32 hw (by rw [unpack_ciWord]; rfl) (by rw [unpack_ciWord]; rfl)
    (by unfold parseControl32; rw [unpack_ciWord]; rfl) ?_ ?_
  · simp only [imm8_ci]
  · simp [rejectIf, predDefect, zeroDefect, queueDefect, imm8Defect]
theorem ldiImm32 (g : BitVec 4) (d : BitVec 6) (i : BitVec 32) : Statement (.ldiImm32 g d i) := by
  intro hw ww kk hh
  obtain ⟨rfl, rfl⟩ := words hh (rfl : encode (.ldiImm32 g d i) = some (_, some _))
  refine control64 hw (by rw [unpack_ciWord]; rfl) (by rw [unpack_ciWord]; rfl)
    (by unfold parseControl64; rw [unpack_ciWord]; rfl) ?_ ?_
  · rfl
  · simp only [imm8_ci]
    simp [rejectIf, predDefect, zeroDefect, queueDefect, imm8Defect]
theorem ldih (g : BitVec 4) (d a : BitVec 6) (i : BitVec 32) : Statement (.ldih g d a i) := by
  intro hw ww kk hh
  obtain ⟨rfl, rfl⟩ := words hh (rfl : encode (.ldih g d a i) = some (_, some _))
  refine control64 hw (by rw [unpack_ciWord]; rfl) (by rw [unpack_ciWord]; rfl)
    (by unfold parseControl64; rw [unpack_ciWord]; rfl) ?_ ?_
  · rfl
  · simp only [imm8_ci]
    simp [rejectIf, predDefect, zeroDefect, queueDefect, imm8Defect]
theorem cmp (g : BitVec 4) (d : BitVec 4) (a b : BitVec 6) (c : BitVec 2) : Statement (.cmp g d a b c) := by
  intro hw ww kk hh
  obtain ⟨rfl, rfl⟩ := words hh (rfl : encode (.cmp g d a b c) = some (_, none))
  refine control32 hw (by rw [unpack_crWord]; rfl) (by rw [unpack_crWord]; rfl)
    (by unfold parseControl32; rw [unpack_crWord]; rfl) ?_ ?_
  · simp [narrow]
  · have h_g := g.isLt; have h_d := d.isLt; have h_a := a.isLt; have h_b := b.isLt
    have h_c := c.isLt
    simp [rejectIf, predDefect, zeroDefect, queueDefect, imm8Defect, ← BitVec.toNat_inj]
    omega
theorem cmpi (g : BitVec 4) (d : BitVec 4) (a : BitVec 6) (c : BitVec 2) (v : BitVec 6) :
    Statement (.cmpi g d a c v) := by
  intro hw ww kk hh
  obtain ⟨rfl, rfl⟩ := words hh (rfl : encode (.cmpi g d a c v) = some (_, none))
  refine control32 hw (by rw [unpack_ciWord]; rfl) (by rw [unpack_ciWord]; rfl)
    (by unfold parseControl32; rw [unpack_ciWord]; rfl) ?_ ?_
  · simp only [imm8_ci]
    have h_g := g.isLt; have h_d := d.isLt; have h_a := a.isLt; have h_c := c.isLt
    have h_v := v.isLt
    simp [← BitVec.toNat_inj, toNat_opImm8]
    omega
  · have h_g := g.isLt; have h_d := d.isLt; have h_a := a.isLt; have h_c := c.isLt
    have h_v := v.isLt
    simp [rejectIf, predDefect, zeroDefect, queueDefect, imm8Defect, ← BitVec.toNat_inj, toNat_opImm8]
    omega
theorem cmpiImm32 (g : BitVec 4) (d : BitVec 4) (a : BitVec 6) (c : BitVec 2) (v : BitVec 30) :
    Statement (.cmpiImm32 g d a c v) := by
  intro hw ww kk hh
  obtain ⟨rfl, rfl⟩ := words hh (rfl : encode (.cmpiImm32 g d a c v) = some (_, some _))
  refine control64 hw (by rw [unpack_ciWord]; rfl) (by rw [unpack_ciWord]; rfl)
    (by unfold parseControl64; rw [unpack_ciWord]; rfl) ?_ ?_
  · have h_g := g.isLt; have h_d := d.isLt; have h_a := a.isLt; have h_c := c.isLt
    have h_v := v.isLt
    simp [← BitVec.toNat_inj, toNat_opImm32]
    omega
  · simp only [imm8_ci]
    have h_g := g.isLt; have h_d := d.isLt; have h_a := a.isLt; have h_c := c.isLt
    have h_v := v.isLt
    simp [rejectIf, predDefect, zeroDefect, queueDefect, imm8Defect, ← BitVec.toNat_inj, toNat_opImm32]
    omega
theorem sel (g : BitVec 4) (d : BitVec 6) (p : BitVec 4) (b : BitVec 6) (x : BitVec 2) :
    Statement (.sel g d p b x) := by
  intro hw ww kk hh
  obtain ⟨rfl, rfl⟩ := words hh (rfl : encode (.sel g d p b x) = some (_, none))
  refine control32 hw (by rw [unpack_crWord]; rfl) (by rw [unpack_crWord]; rfl)
    (by unfold parseControl32; rw [unpack_crWord]; rfl) ?_ ?_
  · simp [narrow]
  · have h_g := g.isLt; have h_d := d.isLt; have h_p := p.isLt; have h_b := b.isLt
    have h_x := x.isLt
    simp [rejectIf, predDefect, zeroDefect, queueDefect, imm8Defect, ← BitVec.toNat_inj]
    omega
theorem plog (g : BitVec 4) (d a b : BitVec 4) (o : BitVec 2) : Statement (.plog g d a b o) := by
  intro hw ww kk hh
  obtain ⟨rfl, rfl⟩ := words hh (rfl : encode (.plog g d a b o) = some (_, none))
  refine control32 hw (by rw [unpack_crWord]; rfl) (by rw [unpack_crWord]; rfl)
    (by unfold parseControl32; rw [unpack_crWord]; rfl) ?_ ?_
  · simp [narrow]
  · have h_g := g.isLt; have h_d := d.isLt; have h_a := a.isLt; have h_b := b.isLt
    have h_o := o.isLt
    simp [rejectIf, predDefect, zeroDefect, queueDefect, imm8Defect, ← BitVec.toNat_inj]
    omega
theorem lea (g : BitVec 4) (d a b : BitVec 6) (h : BitVec 2) : Statement (.lea g d a b h) := by
  intro hw ww kk hh
  obtain ⟨rfl, rfl⟩ := words hh (rfl : encode (.lea g d a b h) = some (_, none))
  refine control32 hw (by rw [unpack_crWord]; rfl) (by rw [unpack_crWord]; rfl)
    (by unfold parseControl32; rw [unpack_crWord]; rfl) ?_ ?_
  · rfl
  · with_reducible rfl
theorem leaImm32 (g : BitVec 4) (d a b : BitVec 6) (h : BitVec 2) (i : BitVec 32) :
    Statement (.leaImm32 g d a b h i) := by
  intro hw ww kk hh
  obtain ⟨rfl, rfl⟩ := words hh (rfl : encode (.leaImm32 g d a b h i) = some (_, some _))
  refine control64 hw (by rw [unpack_crWord]; rfl) (by rw [unpack_crWord]; rfl)
    (by unfold parseControl64; rw [unpack_crWord]; rfl) ?_ ?_
  · rfl
  · with_reducible rfl
theorem br (c : BitVec 4) (n : BitVec 1) (f : BitVec 19) : Statement (.br c n f) := by
  intro hw ww kk hh
  obtain ⟨rfl, rfl⟩ := words hh (rfl : encode (.br c n f) = some (_, none))
  refine control32 (j := .br c n f) (ds := []) hw (by rw [op_cbWord 0x1B c n f (by omega)]; rfl)
    (by rw [op_cbWord 0x1B c n f (by omega)]; rfl) ?_ rfl rfl
  unfold parseControl32
  simp only [op_cbWord 0x1B c n f (by omega), g_cbWord 0x1B c n f (by omega), n_cbWord 0x1B c n f (by omega),
    off_cbWord 0x1B c n f (by omega)]
  rfl
theorem jmp (g : BitVec 4) (a : BitVec 6) : Statement (.jmp g a) := by
  intro hw ww kk hh
  obtain ⟨rfl, rfl⟩ := words hh (rfl : encode (.jmp g a) = some (_, none))
  refine control32 hw (by rw [unpack_crWord]; rfl) (by rw [unpack_crWord]; rfl)
    (by unfold parseControl32; rw [unpack_crWord]; rfl) ?_ ?_
  · rfl
  · simp [rejectIf, predDefect, zeroDefect, queueDefect, imm8Defect]
theorem call (c : BitVec 4) (n : BitVec 1) (f : BitVec 19) : Statement (.call c n f) := by
  intro hw ww kk hh
  obtain ⟨rfl, rfl⟩ := words hh (rfl : encode (.call c n f) = some (_, none))
  refine control32 (j := .call c n f) (ds := []) hw (by rw [op_cbWord 0x1D c n f (by omega)]; rfl)
    (by rw [op_cbWord 0x1D c n f (by omega)]; rfl) ?_ rfl rfl
  unfold parseControl32
  simp only [op_cbWord 0x1D c n f (by omega), g_cbWord 0x1D c n f (by omega), n_cbWord 0x1D c n f (by omega),
    off_cbWord 0x1D c n f (by omega)]
  rfl
theorem ret (g : BitVec 4) (a : BitVec 6) : Statement (.ret g a) := by
  intro hw ww kk hh
  obtain ⟨rfl, rfl⟩ := words hh (rfl : encode (.ret g a) = some (_, none))
  refine control32 hw (by rw [unpack_crWord]; rfl) (by rw [unpack_crWord]; rfl)
    (by unfold parseControl32; rw [unpack_crWord]; rfl) ?_ ?_
  · rfl
  · simp [rejectIf, predDefect, zeroDefect, queueDefect, imm8Defect]
theorem loop (g : BitVec 4) (d a : BitVec 6) (src : BitVec 2) (k : BitVec 3) (trip : BitVec 8) (off : BitVec 19) :
    Statement (.loop g d a src k trip off) := by
  intro hw ww kk hh
  obtain ⟨rfl, rfl⟩ := words hh (rfl : encode (.loop g d a src k trip off) = some (_, some _))
  refine control64 hw (by rw [unpack_ciWord]; rfl) (by rw [unpack_ciWord]; rfl)
    (by unfold parseControl64; rw [unpack_ciWord]; rfl) ?_ ?_
  · have h_g := g.isLt; have h_d := d.isLt; have h_a := a.isLt; have h_src := src.isLt
    have h_k := k.isLt; have h_trip := trip.isLt; have h_off := off.isLt
    simp [← BitVec.toNat_inj, toNat_tripCont]
    omega
  · simp only [imm8_ci]
    simp [rejectIf, predDefect, zeroDefect, queueDefect, imm8Defect]
theorem pipeStart (g : BitVec 4) (a : BitVec 6) (stages : BitVec 3) (src : BitVec 2) (k : BitVec 3) (trip : BitVec 8) :
    Statement (.pipeStart g a stages src k trip) := by
  intro hw ww kk hh
  obtain ⟨rfl, rfl⟩ := words hh (rfl : encode (.pipeStart g a stages src k trip) = some (_, some _))
  have h1 := src.isLt; have h2 := k.isLt; have h3 := trip.isLt; have h4 := stages.isLt
  have hk := toNat_tripCont src k trip 0
  have hz : (0 : BitVec 19).toNat = 0 := rfl
  have hi : (stages.setWidth 8).toNat = stages.toNat := toNat_wide stages (by omega)
  generalize tripCont src k trip 0 = c at hk ⊢
  have e1 : (BitVec.ofNat 2 (c.toNat / 2 ^ 30)) = src := field src (by omega)
  have e2 : (BitVec.ofNat 3 (c.toNat / 2 ^ 27)) = k := field k (by omega)
  have e3 : (BitVec.ofNat 8 (c.toNat / 2 ^ 19)) = trip := field trip (by omega)
  have e4 : (stages.setWidth 8).setWidth 3 = stages := narrow stages (by omega)
  have e5 : (stages.setWidth 8).toNat / 64 = 0 := by omega
  have e6 : ((stages.setWidth 8).toNat / 8 % 8 != 0 || c.toNat % 2 ^ 19 != 0) = false := by simp; omega
  refine control64 hw (by rw [unpack_ciWord]; rfl) (by rw [unpack_ciWord]; rfl)
    (j := .pipeStart g a stages src k trip) (ds := []) ?_ rfl rfl
  unfold parseControl64
  rw [unpack_ciWord]
  simp only [imm8_ci, e1, e2, e3, e4, e5, e6]
  rfl
theorem pipeTurn (g : BitVec 4) (off : BitVec 19) : Statement (.pipeTurn g off) := by
  intro hw ww kk hh
  obtain ⟨rfl, rfl⟩ := words hh (rfl : encode (.pipeTurn g off) = some (_, some _))
  have h1 := off.isLt
  have hk := toNat_tripCont 0 0 0 off
  have z1 : (0 : BitVec 2).toNat = 0 := rfl
  have z2 : (0 : BitVec 3).toNat = 0 := rfl
  have z3 : (0 : BitVec 8).toNat = 0 := rfl
  generalize tripCont 0 0 0 off = c at hk ⊢
  have e1 : c.setWidth 19 = off := low off (by omega)
  have e5 : (0x40 : BitVec 8).toNat / 64 = 1 := rfl
  have e6 : ((0x40 : BitVec 8).toNat % 64 != 0 || c.toNat / 2 ^ 19 != 0) = false := by simp; omega
  refine control64 hw (by rw [unpack_ciWord]; rfl) (by rw [unpack_ciWord]; rfl)
    (j := .pipeTurn g off) (ds := []) ?_ rfl rfl
  unfold parseControl64
  rw [unpack_ciWord]
  simp only [imm8_ci, e1, e5, e6]
  rfl
theorem fadd (g : BitVec 4) (d a b : BitVec 6) (x : BitVec 2) : Statement (.fadd g d a b x) := by
  intro hw ww kk hh
  obtain ⟨rfl, rfl⟩ := words hh (rfl : encode (.fadd g d a b x) = some (_, none))
  refine control32 hw (by rw [unpack_crWord]; rfl) (by rw [unpack_crWord]; rfl)
    (by unfold parseControl32; rw [unpack_crWord]; rfl) ?_ ?_
  · rfl
  · with_reducible rfl
theorem fmul (g : BitVec 4) (d a b : BitVec 6) (x : BitVec 1) : Statement (.fmul g d a b x) := by
  intro hw ww kk hh
  obtain ⟨rfl, rfl⟩ := words hh (rfl : encode (.fmul g d a b x) = some (_, none))
  refine control32 hw (by rw [unpack_crWord]; rfl) (by rw [unpack_crWord]; rfl)
    (by unfold parseControl32; rw [unpack_crWord]; rfl) ?_ ?_
  · simp [narrow]
  · have h_g := g.isLt; have h_d := d.isLt; have h_a := a.isLt; have h_b := b.isLt
    have h_x := x.isLt
    simp [rejectIf, predDefect, zeroDefect, queueDefect, imm8Defect, ← BitVec.toNat_inj]
    omega
theorem ffma (g : BitVec 4) (d a b : BitVec 6) (x : BitVec 2) : Statement (.ffma g d a b x) := by
  intro hw ww kk hh
  obtain ⟨rfl, rfl⟩ := words hh (rfl : encode (.ffma g d a b x) = some (_, none))
  refine control32 hw (by rw [unpack_crWord]; rfl) (by rw [unpack_crWord]; rfl)
    (by unfold parseControl32; rw [unpack_crWord]; rfl) ?_ ?_
  · rfl
  · with_reducible rfl
theorem fcmp (g : BitVec 4) (d : BitVec 4) (a b : BitVec 6) (x : BitVec 2) : Statement (.fcmp g d a b x) := by
  intro hw ww kk hh
  obtain ⟨rfl, rfl⟩ := words hh (rfl : encode (.fcmp g d a b x) = some (_, none))
  refine control32 hw (by rw [unpack_crWord]; rfl) (by rw [unpack_crWord]; rfl)
    (by unfold parseControl32; rw [unpack_crWord]; rfl) ?_ ?_
  · simp [narrow]
  · have h_g := g.isLt; have h_d := d.isLt; have h_a := a.isLt; have h_b := b.isLt
    have h_x := x.isLt
    simp [rejectIf, predDefect, zeroDefect, queueDefect, imm8Defect, ← BitVec.toNat_inj]
    omega
theorem fcvt (g : BitVec 4) (d a : BitVec 6) (t : BitVec 4) (x : BitVec 1) : Statement (.fcvt g d a t x) := by
  intro hw ww kk hh
  obtain ⟨rfl, rfl⟩ := words hh (rfl : encode (.fcvt g d a t x) = some (_, none))
  refine control32 hw (by rw [unpack_crWord]; rfl) (by rw [unpack_crWord]; rfl)
    (by unfold parseControl32; rw [unpack_crWord]; rfl) ?_ ?_
  · simp [narrow]
  · have h_g := g.isLt; have h_d := d.isLt; have h_a := a.isLt; have h_t := t.isLt
    have h_x := x.isLt
    simp [rejectIf, predDefect, zeroDefect, queueDefect, imm8Defect, ← BitVec.toNat_inj]
    omega
theorem fdsq (g : BitVec 4) (d a b : BitVec 6) (x : BitVec 1) : Statement (.fdsq g d a b x) := by
  intro hw ww kk hh
  obtain ⟨rfl, rfl⟩ := words hh (rfl : encode (.fdsq g d a b x) = some (_, none))
  refine control32 hw (by rw [unpack_crWord]; rfl) (by rw [unpack_crWord]; rfl)
    (by unfold parseControl32; rw [unpack_crWord]; rfl) ?_ ?_
  · simp [narrow]
  · have h_g := g.isLt; have h_d := d.isLt; have h_a := a.isLt; have h_b := b.isLt
    have h_x := x.isLt
    simp [rejectIf, predDefect, zeroDefect, queueDefect, imm8Defect, ← BitVec.toNat_inj]
    omega
theorem ld (g : BitVec 4) (d a : BitVec 6) (i : BitVec 5) : Statement (.ld g d a i) := by
  intro hw ww kk hh
  obtain ⟨rfl, rfl⟩ := words hh (rfl : encode (.ld g d a i) = some (_, none))
  refine control32 hw (by rw [unpack_ciWord]; rfl) (by rw [unpack_ciWord]; rfl)
    (by unfold parseControl32; rw [unpack_ciWord]; rfl) ?_ ?_
  · simp only [imm8_ci]
    have h_g := g.isLt; have h_d := d.isLt; have h_a := a.isLt; have h_i := i.isLt
    simp [← BitVec.toNat_inj]
    omega
  · simp only [imm8_ci]
    simp [rejectIf, predDefect, zeroDefect, queueDefect, imm8Defect]
theorem ldImm32 (g : BitVec 4) (d a : BitVec 6) (i : BitVec 29) : Statement (.ldImm32 g d a i) := by
  intro hw ww kk hh
  obtain ⟨rfl, rfl⟩ := words hh (rfl : encode (.ldImm32 g d a i) = some (_, some _))
  refine control64 hw (by rw [unpack_ciWord]; rfl) (by rw [unpack_ciWord]; rfl)
    (by unfold parseControl64; rw [unpack_ciWord]; rfl) ?_ ?_
  · have h_g := g.isLt; have h_d := d.isLt; have h_a := a.isLt; have h_i := i.isLt
    simp [← BitVec.toNat_inj]
    omega
  · simp only [imm8_ci]
    simp [rejectIf, predDefect, zeroDefect, queueDefect, imm8Defect]
theorem ldx (g : BitVec 4) (d a b : BitVec 6) (z : BitVec 2) : Statement (.ldx g d a b z) := by
  intro hw ww kk hh
  obtain ⟨rfl, rfl⟩ := words hh (rfl : encode (.ldx g d a b z) = some (_, none))
  refine control32 hw (by rw [unpack_crWord]; rfl) (by rw [unpack_crWord]; rfl)
    (by unfold parseControl32; rw [unpack_crWord]; rfl) ?_ ?_
  · rfl
  · with_reducible rfl
theorem st (g : BitVec 4) (d a : BitVec 6) (i : BitVec 5) : Statement (.st g d a i) := by
  intro hw ww kk hh
  obtain ⟨rfl, rfl⟩ := words hh (rfl : encode (.st g d a i) = some (_, none))
  refine control32 hw (by rw [unpack_ciWord]; rfl) (by rw [unpack_ciWord]; rfl)
    (by unfold parseControl32; rw [unpack_ciWord]; rfl) ?_ ?_
  · simp only [imm8_ci]
    have h_g := g.isLt; have h_d := d.isLt; have h_a := a.isLt; have h_i := i.isLt
    simp [← BitVec.toNat_inj]
    omega
  · simp only [imm8_ci]
    simp [rejectIf, predDefect, zeroDefect, queueDefect, imm8Defect]
theorem stImm32 (g : BitVec 4) (d a : BitVec 6) (i : BitVec 29) : Statement (.stImm32 g d a i) := by
  intro hw ww kk hh
  obtain ⟨rfl, rfl⟩ := words hh (rfl : encode (.stImm32 g d a i) = some (_, some _))
  refine control64 hw (by rw [unpack_ciWord]; rfl) (by rw [unpack_ciWord]; rfl)
    (by unfold parseControl64; rw [unpack_ciWord]; rfl) ?_ ?_
  · have h_g := g.isLt; have h_d := d.isLt; have h_a := a.isLt; have h_i := i.isLt
    simp [← BitVec.toNat_inj]
    omega
  · simp only [imm8_ci]
    simp [rejectIf, predDefect, zeroDefect, queueDefect, imm8Defect]
theorem lda (g : BitVec 4) (d a : BitVec 6) (i : BitVec 5) (sc : BitVec 3) : Statement (.lda g d a i sc) := by
  intro hw ww kk hh
  obtain ⟨rfl, rfl⟩ := words hh (rfl : encode (.lda g d a i sc) = some (_, none))
  refine control32 hw (by rw [unpack_ciWord]; rfl) (by rw [unpack_ciWord]; rfl)
    (by unfold parseControl32; rw [unpack_ciWord]; rfl) ?_ ?_
  · simp only [imm8_ci]
    have h_g := g.isLt; have h_d := d.isLt; have h_a := a.isLt; have h_i := i.isLt
    have h_sc := sc.isLt
    simp [← BitVec.toNat_inj]
    omega
  · with_reducible rfl
theorem ldaImm32 (g : BitVec 4) (d a : BitVec 6) (i : BitVec 29) (sc : BitVec 3) :
    Statement (.ldaImm32 g d a i sc) := by
  intro hw ww kk hh
  obtain ⟨rfl, rfl⟩ := words hh (rfl : encode (.ldaImm32 g d a i sc) = some (_, some _))
  refine control64 hw (by rw [unpack_ciWord]; rfl) (by rw [unpack_ciWord]; rfl)
    (by unfold parseControl64; rw [unpack_ciWord]; rfl) ?_ ?_
  · have h_g := g.isLt; have h_d := d.isLt; have h_a := a.isLt; have h_i := i.isLt
    have h_sc := sc.isLt
    simp [← BitVec.toNat_inj]
    omega
  · simp only [imm8_ci]
    simp [rejectIf, predDefect, zeroDefect, queueDefect, imm8Defect]
theorem stl (g : BitVec 4) (d a : BitVec 6) (i : BitVec 5) (sc : BitVec 3) : Statement (.stl g d a i sc) := by
  intro hw ww kk hh
  obtain ⟨rfl, rfl⟩ := words hh (rfl : encode (.stl g d a i sc) = some (_, none))
  refine control32 hw (by rw [unpack_ciWord]; rfl) (by rw [unpack_ciWord]; rfl)
    (by unfold parseControl32; rw [unpack_ciWord]; rfl) ?_ ?_
  · simp only [imm8_ci]
    have h_g := g.isLt; have h_d := d.isLt; have h_a := a.isLt; have h_i := i.isLt
    have h_sc := sc.isLt
    simp [← BitVec.toNat_inj]
    omega
  · with_reducible rfl
theorem stlImm32 (g : BitVec 4) (d a : BitVec 6) (i : BitVec 29) (sc : BitVec 3) :
    Statement (.stlImm32 g d a i sc) := by
  intro hw ww kk hh
  obtain ⟨rfl, rfl⟩ := words hh (rfl : encode (.stlImm32 g d a i sc) = some (_, some _))
  refine control64 hw (by rw [unpack_ciWord]; rfl) (by rw [unpack_ciWord]; rfl)
    (by unfold parseControl64; rw [unpack_ciWord]; rfl) ?_ ?_
  · have h_g := g.isLt; have h_d := d.isLt; have h_a := a.isLt; have h_i := i.isLt
    have h_sc := sc.isLt
    simp [← BitVec.toNat_inj]
    omega
  · simp only [imm8_ci]
    simp [rejectIf, predDefect, zeroDefect, queueDefect, imm8Defect]
theorem amo (g : BitVec 4) (d a b : BitVec 6) (opc : BitVec 4) (sc : BitVec 3) (ord : BitVec 2) (size : BitVec 2) :
    Statement (.amo g d a b opc sc ord size) := by
  intro hw ww kk hh
  obtain ⟨rfl, rfl⟩ := words hh (rfl : encode (.amo g d a b opc sc ord size) = some (_, some _))
  refine control64 hw (by rw [unpack_crWord]; rfl) (by rw [unpack_crWord]; rfl)
    (j := .amo g d a b opc sc ord size) (ds := []) ?_ rfl rfl
  unfold parseControl64
  rw [unpack_crWord]
  simp only [opc_atomic, sc_atomic, ord_atomic, size_atomic, ft_atomic, low_atomic]
  rfl
theorem amon (g : BitVec 4) (a b : BitVec 6) (opc : BitVec 4) (sc : BitVec 3) (ord : BitVec 2) (size : BitVec 2) :
    Statement (.amon g a b opc sc ord size) := by
  intro hw ww kk hh
  obtain ⟨rfl, rfl⟩ := words hh (rfl : encode (.amon g a b opc sc ord size) = some (_, some _))
  refine control64 hw (by rw [unpack_crWord]; rfl) (by rw [unpack_crWord]; rfl)
    (j := .amon g a b opc sc ord size) (ds := []) ?_ rfl rfl
  unfold parseControl64
  rw [unpack_crWord]
  simp only [opc_atomic, sc_atomic, ord_atomic, size_atomic, ft_atomic, low_atomic]
  rfl
theorem cas (g : BitVec 4) (d a b : BitVec 6) (sc : BitVec 3) (ord : BitVec 2) (size : BitVec 2) :
    Statement (.cas g d a b sc ord size) := by
  intro hw ww kk hh
  obtain ⟨rfl, rfl⟩ := words hh (rfl : encode (.cas g d a b sc ord size) = some (_, some _))
  refine control64 hw (by rw [unpack_crWord]; rfl) (by rw [unpack_crWord]; rfl)
    (j := .cas g d a b sc ord size) (ds := []) ?_ rfl rfl
  unfold parseControl64
  rw [unpack_crWord]
  simp only [opc_atomic, sc_atomic, ord_atomic, size_atomic, ft_atomic, low_atomic]
  rfl
theorem cadd (g : BitVec 4) (a b : BitVec 6) (sc : BitVec 3) (ord : BitVec 2) (ft : BitVec 4) :
    Statement (.cadd g a b sc ord ft) := by
  intro hw ww kk hh
  obtain ⟨rfl, rfl⟩ := words hh (rfl : encode (.cadd g a b sc ord ft) = some (_, some _))
  refine control64 hw (by rw [unpack_crWord]; rfl) (by rw [unpack_crWord]; rfl)
    (j := .cadd g a b sc ord ft) (ds := []) ?_ rfl rfl
  unfold parseControl64
  rw [unpack_crWord]
  simp only [opc_atomic, sc_atomic, ord_atomic, size_atomic, ft_atomic, low_atomic]
  rfl
theorem fence (g : BitVec 4) (k : BitVec 2) (sc : BitVec 3) : Statement (.fence g k sc) := by
  intro hw ww kk hh
  obtain ⟨rfl, rfl⟩ := words hh (rfl : encode (.fence g k sc) = some (_, none))
  refine control32 hw (by rw [unpack_ciWord]; rfl) (by rw [unpack_ciWord]; rfl)
    (by unfold parseControl32; rw [unpack_ciWord]; rfl) ?_ ?_
  · simp only [imm8_ci]
    have h_g := g.isLt; have h_k := k.isLt; have h_sc := sc.isLt
    simp [← BitVec.toNat_inj]
    omega
  · simp only [imm8_ci]
    have h_g := g.isLt; have h_k := k.isLt; have h_sc := sc.isLt
    simp [rejectIf, predDefect, zeroDefect, queueDefect, imm8Defect, ← BitVec.toNat_inj]
    omega
theorem slwait (g : BitVec 4) (sc : BitVec 3) (l n : BitVec 6) : Statement (.slwait g sc l n) := by
  intro hw ww kk hh
  obtain ⟨rfl, rfl⟩ := words hh (rfl : encode (.slwait g sc l n) = some (_, none))
  refine control32 hw (by rw [unpack_ciWord]; rfl) (by rw [unpack_ciWord]; rfl)
    (by unfold parseControl32; rw [unpack_ciWord]; rfl) ?_ ?_
  · simp only [imm8_ci]
    simp [narrow]
  · simp only [imm8_ci]
    have h_g := g.isLt; have h_sc := sc.isLt; have h_l := l.isLt; have h_n := n.isLt
    simp [rejectIf, predDefect, zeroDefect, queueDefect, imm8Defect, ← BitVec.toNat_inj]
    omega
theorem slsig (g : BitVec 4) (sc : BitVec 3) (l n : BitVec 6) : Statement (.slsig g sc l n) := by
  intro hw ww kk hh
  obtain ⟨rfl, rfl⟩ := words hh (rfl : encode (.slsig g sc l n) = some (_, none))
  refine control32 hw (by rw [unpack_ciWord]; rfl) (by rw [unpack_ciWord]; rfl)
    (by unfold parseControl32; rw [unpack_ciWord]; rfl) ?_ ?_
  · simp only [imm8_ci]
    simp [narrow]
  · simp only [imm8_ci]
    have h_g := g.isLt; have h_sc := sc.isLt; have h_l := l.isLt; have h_n := n.isLt
    simp [rejectIf, predDefect, zeroDefect, queueDefect, imm8Defect, ← BitVec.toNat_inj]
    omega
theorem tlwait (g : BitVec 4) (a : BitVec 6) (id : BitVec 8) (sc : BitVec 3) : Statement (.tlwait g a id sc) := by
  intro hw ww kk hh
  obtain ⟨rfl, rfl⟩ := words hh (rfl : encode (.tlwait g a id sc) = some (_, some _))
  have h1 := id.isLt; have h2 := sc.isLt
  have hk : (BitVec.ofNat 32 (id.toNat * 2 ^ 24 + sc.toNat * 2 ^ 21)).toNat = id.toNat * 2 ^ 24 + sc.toNat * 2 ^ 21 :=
    toNat_ofNat_lt (by omega)
  generalize BitVec.ofNat 32 (id.toNat * 2 ^ 24 + sc.toNat * 2 ^ 21) = c at hk ⊢
  have e1 : (BitVec.ofNat 8 (c.toNat / 2 ^ 24)) = id := field id (by omega)
  have e2 : (BitVec.ofNat 3 (c.toNat / 2 ^ 21)) = sc := field sc (by omega)
  have e3 : (c.toNat % 2 ^ 21 != 0) = false := by simp; omega
  refine control64 hw (by rw [unpack_crWord]; rfl) (by rw [unpack_crWord]; rfl)
    (j := .tlwait g a id sc) (ds := []) ?_ rfl rfl
  unfold parseControl64
  rw [unpack_crWord]
  simp only [e1, e2, e3]
  rfl
theorem tlarm (g : BitVec 4) (a b : BitVec 6) (id : BitVec 8) : Statement (.tlarm g a b id) := by
  intro hw ww kk hh
  obtain ⟨rfl, rfl⟩ := words hh (rfl : encode (.tlarm g a b id) = some (_, some _))
  refine control64 hw (by rw [unpack_crWord]; rfl) (by rw [unpack_crWord]; rfl)
    (by unfold parseControl64; rw [unpack_crWord]; rfl) ?_ ?_
  · have h_g := g.isLt; have h_a := a.isLt; have h_b := b.isLt; have h_id := id.isLt
    simp [← BitVec.toNat_inj]
    omega
  · simp [rejectIf, predDefect, zeroDefect, queueDefect, imm8Defect]
theorem qrd (g : BitVec 4) (d : BitVec 6) (q : BitVec 3) : Statement (.qrd g d q) := by
  intro hw ww kk hh
  obtain ⟨rfl, rfl⟩ := words hh (rfl : encode (.qrd g d q) = some (_, none))
  refine control32 hw (by rw [unpack_crWord]; rfl) (by rw [unpack_crWord]; rfl)
    (by unfold parseControl32; rw [unpack_crWord]; rfl) ?_ ?_
  · simp [narrow]
  · have h_g := g.isLt; have h_d := d.isLt; have h_q := q.isLt
    simp [rejectIf, predDefect, zeroDefect, queueDefect, imm8Defect, ← BitVec.toNat_inj]
    omega
theorem qwr (g : BitVec 4) (q : BitVec 3) (b : BitVec 6) : Statement (.qwr g q b) := by
  intro hw ww kk hh
  obtain ⟨rfl, rfl⟩ := words hh (rfl : encode (.qwr g q b) = some (_, none))
  refine control32 hw (by rw [unpack_crWord]; rfl) (by rw [unpack_crWord]; rfl)
    (by unfold parseControl32; rw [unpack_crWord]; rfl) ?_ ?_
  · simp [narrow]
  · have h_g := g.isLt; have h_q := q.isLt; have h_b := b.isLt
    simp [rejectIf, predDefect, zeroDefect, queueDefect, imm8Defect, ← BitVec.toNat_inj]
    omega
theorem wfe (g : BitVec 4) (d : BitVec 6) : Statement (.wfe g d) := by
  intro hw ww kk hh
  obtain ⟨rfl, rfl⟩ := words hh (rfl : encode (.wfe g d) = some (_, none))
  refine control32 hw (by rw [unpack_crWord]; rfl) (by rw [unpack_crWord]; rfl)
    (by unfold parseControl32; rw [unpack_crWord]; rfl) ?_ ?_
  · rfl
  · simp [rejectIf, predDefect, zeroDefect, queueDefect, imm8Defect]
theorem sev (g : BitVec 4) (a : BitVec 6) (x : BitVec 2) : Statement (.sev g a x) := by
  intro hw ww kk hh
  obtain ⟨rfl, rfl⟩ := words hh (rfl : encode (.sev g a x) = some (_, none))
  refine control32 hw (by rw [unpack_crWord]; rfl) (by rw [unpack_crWord]; rfl)
    (by unfold parseControl32; rw [unpack_crWord]; rfl) ?_ ?_
  · rfl
  · simp [rejectIf, predDefect, zeroDefect, queueDefect, imm8Defect]
theorem fmt (g : BitVec 4) (a : BitVec 6) : Statement (.fmt g a) := by
  intro hw ww kk hh
  obtain ⟨rfl, rfl⟩ := words hh (rfl : encode (.fmt g a) = some (_, none))
  refine control32 hw (by rw [unpack_crWord]; rfl) (by rw [unpack_crWord]; rfl)
    (by unfold parseControl32; rw [unpack_crWord]; rfl) ?_ ?_
  · rfl
  · simp [rejectIf, predDefect, zeroDefect, queueDefect, imm8Defect]
theorem safept (g : BitVec 4) (i : BitVec 8) : Statement (.safept g i) := by
  intro hw ww kk hh
  obtain ⟨rfl, rfl⟩ := words hh (rfl : encode (.safept g i) = some (_, none))
  refine control32 hw (by rw [unpack_ciWord]; rfl) (by rw [unpack_ciWord]; rfl)
    (by unfold parseControl32; rw [unpack_ciWord]; rfl) ?_ ?_
  · simp only [imm8_ci]
  · simp [rejectIf, predDefect, zeroDefect, queueDefect, imm8Defect]
theorem safeptImm32 (g : BitVec 4) (i : BitVec 32) : Statement (.safeptImm32 g i) := by
  intro hw ww kk hh
  obtain ⟨rfl, rfl⟩ := words hh (rfl : encode (.safeptImm32 g i) = some (_, some _))
  refine control64 hw (by rw [unpack_ciWord]; rfl) (by rw [unpack_ciWord]; rfl)
    (by unfold parseControl64; rw [unpack_ciWord]; rfl) ?_ ?_
  · rfl
  · simp only [imm8_ci]
    simp [rejectIf, predDefect, zeroDefect, queueDefect, imm8Defect]
theorem launch (g : BitVec 4) (a b : BitVec 6) : Statement (.launch g a b) := by
  intro hw ww kk hh
  obtain ⟨rfl, rfl⟩ := words hh (rfl : encode (.launch g a b) = some (_, none))
  refine control32 hw (by rw [unpack_crWord]; rfl) (by rw [unpack_crWord]; rfl)
    (by unfold parseControl32; rw [unpack_crWord]; rfl) ?_ ?_
  · rfl
  · simp [rejectIf, predDefect, zeroDefect, queueDefect, imm8Defect]
theorem exit : Statement .exit := by
  intro hw ww kk hh
  obtain ⟨rfl, rfl⟩ := words hh (rfl : encode .exit = some (_, none))
  exact control32 hw rfl rfl (j := .exit) (ds := []) rfl rfl rfl
theorem csr (g : BitVec 4) (d a : BitVec 6) (x : BitVec 2) (n : BitVec 12) : Statement (.csr g d a x n) := by
  intro hw ww kk hh
  obtain ⟨rfl, rfl⟩ := words hh (rfl : encode (.csr g d a x n) = some (_, some _))
  refine control64 hw (by rw [unpack_crWord]; rfl) (by rw [unpack_crWord]; rfl)
    (by unfold parseControl64; rw [unpack_crWord]; rfl) ?_ ?_
  · simp [narrow]
  · have h_g := g.isLt; have h_d := d.isLt; have h_a := a.isLt; have h_x := x.isLt
    have h_n := n.isLt
    simp [rejectIf, predDefect, zeroDefect, queueDefect, imm8Defect, ← BitVec.toNat_inj]
    omega
theorem sysNop (g : BitVec 4) : Statement (.sysNop g) := by
  intro hw ww kk hh
  obtain ⟨rfl, rfl⟩ := words hh (rfl : encode (.sysNop g) = some (_, none))
  refine control32 hw (by rw [unpack_ciWord]; rfl) (by rw [unpack_ciWord]; rfl)
    (by unfold parseControl32; rw [unpack_ciWord]; rfl) ?_ ?_
  · rfl
  · simp only [imm8_ci]
    simp [rejectIf, predDefect, zeroDefect, queueDefect, imm8Defect]
theorem sysUiret (g : BitVec 4) : Statement (.sysUiret g) := by
  intro hw ww kk hh
  obtain ⟨rfl, rfl⟩ := words hh (rfl : encode (.sysUiret g) = some (_, none))
  refine control32 hw (by rw [unpack_ciWord]; rfl) (by rw [unpack_ciWord]; rfl)
    (by unfold parseControl32; rw [unpack_ciWord]; rfl) ?_ ?_
  · rfl
  · simp [rejectIf, predDefect, zeroDefect, queueDefect, imm8Defect]
theorem sysPause (g : BitVec 4) : Statement (.sysPause g) := by
  intro hw ww kk hh
  obtain ⟨rfl, rfl⟩ := words hh (rfl : encode (.sysPause g) = some (_, none))
  refine control32 hw (by rw [unpack_ciWord]; rfl) (by rw [unpack_ciWord]; rfl)
    (by unfold parseControl32; rw [unpack_ciWord]; rfl) ?_ ?_
  · rfl
  · simp [rejectIf, predDefect, zeroDefect, queueDefect, imm8Defect]
theorem tld (e : Ex) : Statement (.tld e) := by
  intro hw ww kk hh
  cases hh
  exact command rfl (by decide) rfl rfl hw
theorem tst (e : Ex) : Statement (.tst e) := by
  intro hw ww kk hh
  cases hh
  exact command rfl (by decide) rfl rfl hw
theorem tldx (e : Ex) : Statement (.tldx e) := by
  intro hw ww kk hh
  cases hh
  exact command rfl (by decide) rfl rfl hw
theorem tstx (e : Ex) : Statement (.tstx e) := by
  intro hw ww kk hh
  cases hh
  exact command rfl (by decide) rfl rfl hw
theorem tldb (e : Ex) : Statement (.tldb e) := by
  intro hw ww kk hh
  cases hh
  exact command rfl (by decide) rfl rfl hw
theorem gath (e : Ex) : Statement (.gath e) := by
  intro hw ww kk hh
  cases hh
  exact command rfl (by decide) rfl rfl hw
theorem scat (e : Ex) : Statement (.scat e) := by
  intro hw ww kk hh
  cases hh
  exact command rfl (by decide) rfl rfl hw
theorem scopy (e : Ex) : Statement (.scopy e) := by
  intro hw ww kk hh
  cases hh
  exact command rfl (by decide) rfl rfl hw
theorem sfill (e : Ex) : Statement (.sfill e) := by
  intro hw ww kk hh
  cases hh
  exact command rfl (by decide) rfl rfl hw
theorem pref (e : Ex) : Statement (.pref e) := by
  intro hw ww kk hh
  cases hh
  exact command rfl (by decide) rfl rfl hw
theorem celladd (e : Ex) : Statement (.celladd e) := by
  intro hw ww kk hh
  cases hh
  exact command rfl (by decide) rfl rfl hw
theorem cellclr (e : Ex) : Statement (.cellclr e) := by
  intro hw ww kk hh
  cases hh
  exact command rfl (by decide) rfl rfl hw
theorem cellrd (e : Ex) : Statement (.cellrd e) := by
  intro hw ww kk hh
  cases hh
  exact command rfl (by decide) rfl rfl hw
theorem cellxc (e : Ex) : Statement (.cellxc e) := by
  intro hw ww kk hh
  cases hh
  exact command rfl (by decide) rfl rfl hw
theorem brun (e : Ex) : Statement (.brun e) := by
  intro hw ww kk hh
  cases hh
  exact command rfl (by decide) rfl rfl hw
theorem aslw (g : BitVec 4) (l n : BitVec 6) : Statement (.aslw g l n) := by
  intro hw ww kk hh
  cases hh
  exact sync rfl (by decide) rfl rfl hw
theorem asls (g : BitVec 4) (l n : BitVec 6) : Statement (.asls g l n) := by
  intro hw ww kk hh
  cases hh
  exact sync rfl (by decide) rfl rfl hw
theorem atlw (g : BitVec 4) (t sr : BitVec 6) : Statement (.atlw g t sr) := by
  intro hw ww kk hh
  cases hh
  exact sync rfl (by decide) rfl rfl hw
theorem lput (e : Ex) : Statement (.lput e) := by
  intro hw ww kk hh
  cases hh
  exact command rfl (by decide) rfl rfl hw
theorem lget (e : Ex) : Statement (.lget e) := by
  intro hw ww kk hh
  cases hh
  exact command rfl (by decide) rfl rfl hw
theorem lsig (e : Ex) : Statement (.lsig e) := by
  intro hw ww kk hh
  cases hh
  exact command rfl (by decide) rfl rfl hw
theorem lcell (e : Ex) : Statement (.lcell e) := by
  intro hw ww kk hh
  cases hh
  exact command rfl (by decide) rfl rfl hw
theorem coll (e : Ex) : Statement (.coll e) := by
  intro hw ww kk hh
  cases hh
  exact command rfl (by decide) rfl rfl hw
theorem lwaitc (e : Ex) : Statement (.lwaitc e) := by
  intro hw ww kk hh
  cases hh
  exact command rfl (by decide) rfl rfl hw
theorem lbar (e : Ex) : Statement (.lbar e) := by
  intro hw ww kk hh
  cases hh
  exact command rfl (by decide) rfl rfl hw
theorem lfence (e : Ex) : Statement (.lfence e) := by
  intro hw ww kk hh
  cases hh
  exact command rfl (by decide) rfl rfl hw
theorem lnotify (e : Ex) : Statement (.lnotify e) := by
  intro hw ww kk hh
  cases hh
  exact command rfl (by decide) rfl rfl hw
theorem lslw (g : BitVec 4) (l n : BitVec 6) : Statement (.lslw g l n) := by
  intro hw ww kk hh
  cases hh
  exact sync rfl (by decide) rfl rfl hw
theorem lsls (g : BitVec 4) (l n : BitVec 6) : Statement (.lsls g l n) := by
  intro hw ww kk hh
  cases hh
  exact sync rfl (by decide) rfl rfl hw
theorem ltlw (g : BitVec 4) (t sr : BitVec 6) : Statement (.ltlw g t sr) := by
  intro hw ww kk hh
  cases hh
  exact sync rfl (by decide) rfl rfl hw
theorem wld (e : Ex) : Statement (.wld e) := by
  intro hw ww kk hh
  cases hh
  exact command rfl (by decide) rfl rfl hw
theorem wlds (e : Ex) : Statement (.wlds e) := by
  intro hw ww kk hh
  cases hh
  exact command rfl (by decide) rfl rfl hw
theorem wswap (e : Ex) : Statement (.wswap e) := by
  intro hw ww kk hh
  cases hh
  exact command rfl (by decide) rfl rfl hw
theorem wmm (e : Ex) : Statement (.wmm e) := by
  intro hw ww kk hh
  cases hh
  exact command rfl (by decide) rfl rfl hw
theorem wmmt (e : Ex) : Statement (.wmmt e) := by
  intro hw ww kk hh
  cases hh
  exact command rfl (by decide) rfl rfl hw
theorem wmms (e : Ex) : Statement (.wmms e) := by
  intro hw ww kk hh
  cases hh
  exact command rfl (by decide) rfl rfl hw
theorem wmmst (e : Ex) : Statement (.wmmst e) := by
  intro hw ww kk hh
  cases hh
  exact command rfl (by decide) rfl rfl hw
theorem wopa (e : Ex) : Statement (.wopa e) := by
  intro hw ww kk hh
  cases hh
  exact command rfl (by decide) rfl rfl hw
theorem wopas (e : Ex) : Statement (.wopas e) := by
  intro hw ww kk hh
  cases hh
  exact command rfl (by decide) rfl rfl hw
theorem wdrain (e : Ex) : Statement (.wdrain e) := by
  intro hw ww kk hh
  cases hh
  exact command rfl (by decide) rfl rfl hw
theorem waclr (e : Ex) : Statement (.waclr e) := by
  intro hw ww kk hh
  cases hh
  exact command rfl (by decide) rfl rfl hw
theorem wprom (e : Ex) : Statement (.wprom e) := by
  intro hw ww kk hh
  cases hh
  exact command rfl (by decide) rfl rfl hw
theorem wacc (e : Ex) : Statement (.wacc e) := by
  intro hw ww kk hh
  cases hh
  exact command rfl (by decide) rfl rfl hw
theorem wmva (e : Ex) : Statement (.wmva e) := by
  intro hw ww kk hh
  cases hh
  exact command rfl (by decide) rfl rfl hw
theorem wread (e : Ex) : Statement (.wread e) := by
  intro hw ww kk hh
  cases hh
  exact command rfl (by decide) rfl rfl hw
theorem wslw (g : BitVec 4) (l n : BitVec 6) : Statement (.wslw g l n) := by
  intro hw ww kk hh
  cases hh
  exact sync rfl (by decide) rfl rfl hw
theorem wsls (g : BitVec 4) (l n : BitVec 6) : Statement (.wsls g l n) := by
  intro hw ww kk hh
  cases hh
  exact sync rfl (by decide) rfl rfl hw
theorem wtlw (g : BitVec 4) (t sr : BitVec 6) : Statement (.wtlw g t sr) := by
  intro hw ww kk hh
  cases hh
  exact sync rfl (by decide) rfl rfl hw
theorem vshape (e : Ex) : Statement (.vshape e) := by
  intro hw ww kk hh
  cases hh
  exact command rfl (by decide) rfl rfl hw
theorem vld (e : Ex) : Statement (.vld e) := by
  intro hw ww kk hh
  cases hh
  exact command rfl (by decide) rfl rfl hw
theorem vst (e : Ex) : Statement (.vst e) := by
  intro hw ww kk hh
  cases hh
  exact command rfl (by decide) rfl rfl hw
theorem vbcast (e : Ex) : Statement (.vbcast e) := by
  intro hw ww kk hh
  cases hh
  exact command rfl (by decide) rfl rfl hw
theorem vmov (e : Ex) : Statement (.vmov e) := by
  intro hw ww kk hh
  cases hh
  exact command rfl (by decide) rfl rfl hw
theorem vadd (e : Ex) : Statement (.vadd e) := by
  intro hw ww kk hh
  cases hh
  exact command rfl (by decide) rfl rfl hw
theorem vsub (e : Ex) : Statement (.vsub e) := by
  intro hw ww kk hh
  cases hh
  exact command rfl (by decide) rfl rfl hw
theorem vmul (e : Ex) : Statement (.vmul e) := by
  intro hw ww kk hh
  cases hh
  exact command rfl (by decide) rfl rfl hw
theorem vfma (e : Ex) : Statement (.vfma e) := by
  intro hw ww kk hh
  cases hh
  exact command rfl (by decide) rfl rfl hw
theorem vfms (e : Ex) : Statement (.vfms e) := by
  intro hw ww kk hh
  cases hh
  exact command rfl (by decide) rfl rfl hw
theorem vfnma (e : Ex) : Statement (.vfnma e) := by
  intro hw ww kk hh
  cases hh
  exact command rfl (by decide) rfl rfl hw
theorem vdiv (e : Ex) : Statement (.vdiv e) := by
  intro hw ww kk hh
  cases hh
  exact command rfl (by decide) rfl rfl hw
theorem vsqrt (e : Ex) : Statement (.vsqrt e) := by
  intro hw ww kk hh
  cases hh
  exact command rfl (by decide) rfl rfl hw
theorem vmin (e : Ex) : Statement (.vmin e) := by
  intro hw ww kk hh
  cases hh
  exact command rfl (by decide) rfl rfl hw
theorem vmax (e : Ex) : Statement (.vmax e) := by
  intro hw ww kk hh
  cases hh
  exact command rfl (by decide) rfl rfl hw
theorem vabs (e : Ex) : Statement (.vabs e) := by
  intro hw ww kk hh
  cases hh
  exact command rfl (by decide) rfl rfl hw
theorem vneg (e : Ex) : Statement (.vneg e) := by
  intro hw ww kk hh
  cases hh
  exact command rfl (by decide) rfl rfl hw
theorem vcmp (e : Ex) : Statement (.vcmp e) := by
  intro hw ww kk hh
  cases hh
  exact command rfl (by decide) rfl rfl hw
theorem vsel (e : Ex) : Statement (.vsel e) := by
  intro hw ww kk hh
  cases hh
  exact command rfl (by decide) rfl rfl hw
theorem vcvt (e : Ex) : Statement (.vcvt e) := by
  intro hw ww kk hh
  cases hh
  exact command rfl (by decide) rfl rfl hw
theorem vround (e : Ex) : Statement (.vround e) := by
  intro hw ww kk hh
  cases hh
  exact command rfl (by decide) rfl rfl hw
theorem vexp (e : Ex) : Statement (.vexp e) := by
  intro hw ww kk hh
  cases hh
  exact command rfl (by decide) rfl rfl hw
theorem vexp2 (e : Ex) : Statement (.vexp2 e) := by
  intro hw ww kk hh
  cases hh
  exact command rfl (by decide) rfl rfl hw
theorem vlog (e : Ex) : Statement (.vlog e) := by
  intro hw ww kk hh
  cases hh
  exact command rfl (by decide) rfl rfl hw
theorem vlog2 (e : Ex) : Statement (.vlog2 e) := by
  intro hw ww kk hh
  cases hh
  exact command rfl (by decide) rfl rfl hw
theorem vrcp (e : Ex) : Statement (.vrcp e) := by
  intro hw ww kk hh
  cases hh
  exact command rfl (by decide) rfl rfl hw
theorem vrsq (e : Ex) : Statement (.vrsq e) := by
  intro hw ww kk hh
  cases hh
  exact command rfl (by decide) rfl rfl hw
theorem vtanh (e : Ex) : Statement (.vtanh e) := by
  intro hw ww kk hh
  cases hh
  exact command rfl (by decide) rfl rfl hw
theorem vsigm (e : Ex) : Statement (.vsigm e) := by
  intro hw ww kk hh
  cases hh
  exact command rfl (by decide) rfl rfl hw
theorem vsin (e : Ex) : Statement (.vsin e) := by
  intro hw ww kk hh
  cases hh
  exact command rfl (by decide) rfl rfl hw
theorem vcos (e : Ex) : Statement (.vcos e) := by
  intro hw ww kk hh
  cases hh
  exact command rfl (by decide) rfl rfl hw
theorem verf (e : Ex) : Statement (.verf e) := by
  intro hw ww kk hh
  cases hh
  exact command rfl (by decide) rfl rfl hw
theorem viadd (e : Ex) : Statement (.viadd e) := by
  intro hw ww kk hh
  cases hh
  exact command rfl (by decide) rfl rfl hw
theorem visub (e : Ex) : Statement (.visub e) := by
  intro hw ww kk hh
  cases hh
  exact command rfl (by decide) rfl rfl hw
theorem vimul (e : Ex) : Statement (.vimul e) := by
  intro hw ww kk hh
  cases hh
  exact command rfl (by decide) rfl rfl hw
theorem vmulhi (e : Ex) : Statement (.vmulhi e) := by
  intro hw ww kk hh
  cases hh
  exact command rfl (by decide) rfl rfl hw
theorem vimin (e : Ex) : Statement (.vimin e) := by
  intro hw ww kk hh
  cases hh
  exact command rfl (by decide) rfl rfl hw
theorem vimax (e : Ex) : Statement (.vimax e) := by
  intro hw ww kk hh
  cases hh
  exact command rfl (by decide) rfl rfl hw
theorem viabs (e : Ex) : Statement (.viabs e) := by
  intro hw ww kk hh
  cases hh
  exact command rfl (by decide) rfl rfl hw
theorem vand (e : Ex) : Statement (.vand e) := by
  intro hw ww kk hh
  cases hh
  exact command rfl (by decide) rfl rfl hw
theorem vor (e : Ex) : Statement (.vor e) := by
  intro hw ww kk hh
  cases hh
  exact command rfl (by decide) rfl rfl hw
theorem vxor (e : Ex) : Statement (.vxor e) := by
  intro hw ww kk hh
  cases hh
  exact command rfl (by decide) rfl rfl hw
theorem vshl (e : Ex) : Statement (.vshl e) := by
  intro hw ww kk hh
  cases hh
  exact command rfl (by decide) rfl rfl hw
theorem vshr (e : Ex) : Statement (.vshr e) := by
  intro hw ww kk hh
  cases hh
  exact command rfl (by decide) rfl rfl hw
theorem vsar (e : Ex) : Statement (.vsar e) := by
  intro hw ww kk hh
  cases hh
  exact command rfl (by decide) rfl rfl hw
theorem vicmp (e : Ex) : Statement (.vicmp e) := by
  intro hw ww kk hh
  cases hh
  exact command rfl (by decide) rfl rfl hw
theorem vclz (e : Ex) : Statement (.vclz e) := by
  intro hw ww kk hh
  cases hh
  exact command rfl (by decide) rfl rfl hw
theorem vpopc (e : Ex) : Statement (.vpopc e) := by
  intro hw ww kk hh
  cases hh
  exact command rfl (by decide) rfl rfl hw
theorem vsat (e : Ex) : Statement (.vsat e) := by
  intro hw ww kk hh
  cases hh
  exact command rfl (by decide) rfl rfl hw
theorem vred (e : Ex) : Statement (.vred e) := by
  intro hw ww kk hh
  cases hh
  exact command rfl (by decide) rfl rfl hw
theorem vscan (e : Ex) : Statement (.vscan e) := by
  intro hw ww kk hh
  cases hh
  exact command rfl (by decide) rfl rfl hw
theorem vtrans (e : Ex) : Statement (.vtrans e) := by
  intro hw ww kk hh
  cases hh
  exact command rfl (by decide) rfl rfl hw
theorem vshift (e : Ex) : Statement (.vshift e) := by
  intro hw ww kk hh
  cases hh
  exact command rfl (by decide) rfl rfl hw
theorem vrowg (e : Ex) : Statement (.vrowg e) := by
  intro hw ww kk hh
  cases hh
  exact command rfl (by decide) rfl rfl hw
theorem vpack (e : Ex) : Statement (.vpack e) := by
  intro hw ww kk hh
  cases hh
  exact command rfl (by decide) rfl rfl hw
theorem vunpk (e : Ex) : Statement (.vunpk e) := by
  intro hw ww kk hh
  cases hh
  exact command rfl (by decide) rfl rfl hw
theorem vmxq (e : Ex) : Statement (.vmxq e) := by
  intro hw ww kk hh
  cases hh
  exact command rfl (by decide) rfl rfl hw
theorem vmxd (e : Ex) : Statement (.vmxd e) := by
  intro hw ww kk hh
  cases hh
  exact command rfl (by decide) rfl rfl hw
theorem vmask (e : Ex) : Statement (.vmask e) := by
  intro hw ww kk hh
  cases hh
  exact command rfl (by decide) rfl rfl hw
theorem vclass (e : Ex) : Statement (.vclass e) := by
  intro hw ww kk hh
  cases hh
  exact command rfl (by decide) rfl rfl hw
theorem vcopysgn (e : Ex) : Statement (.vcopysgn e) := by
  intro hw ww kk hh
  cases hh
  exact command rfl (by decide) rfl rfl hw
theorem vldexp (e : Ex) : Statement (.vldexp e) := by
  intro hw ww kk hh
  cases hh
  exact command rfl (by decide) rfl rfl hw
theorem vgetexp (e : Ex) : Statement (.vgetexp e) := by
  intro hw ww kk hh
  cases hh
  exact command rfl (by decide) rfl rfl hw
theorem vslw (g : BitVec 4) (l n : BitVec 6) : Statement (.vslw g l n) := by
  intro hw ww kk hh
  cases hh
  exact sync rfl (by decide) rfl rfl hw
theorem vsls (g : BitVec 4) (l n : BitVec 6) : Statement (.vsls g l n) := by
  intro hw ww kk hh
  cases hh
  exact sync rfl (by decide) rfl rfl hw
theorem vtlw (g : BitVec 4) (t sr : BitVec 6) : Statement (.vtlw g t sr) := by
  intro hw ww kk hh
  cases hh
  exact sync rfl (by decide) rfl rfl hw
theorem lineFetch (core : BitVec 8) : Statement (.lineFetch core) := by
  intro _ ww kk hh; cases hh
theorem engineSlotDispatch (core : BitVec 8) : Statement (.engineSlotDispatch core) := by
  intro _ ww kk hh; cases hh
theorem commandComplete (core : BitVec 8) (eng : BitVec 2) : Statement (.commandComplete core eng) := by
  intro _ ww kk hh; cases hh
theorem homeAcknowledgement (core : BitVec 8) (eng : BitVec 3) (draining : Bool) :
    Statement (.homeAcknowledgement core eng draining) := by
  intro _ ww kk hh; cases hh
theorem userInterruptEntry (core : BitVec 8) : Statement (.userInterruptEntry core) := by
  intro _ ww kk hh; cases hh
theorem registerWrite (who : Master) (addr : Nat) (acc : RegAccess) : Statement (.registerWrite who addr acc) := by
  intro _ ww kk hh; cases hh
theorem trigWrite (ctx : BitVec 6) (queue : BitVec 4) (value : Word) : Statement (.trigWrite ctx queue value) := by
  intro _ ww kk hh; cases hh
theorem runStart (ctx : BitVec 6) (queue : BitVec 4) : Statement (.runStart ctx queue) := by
  intro _ ww kk hh; cases hh
theorem kernelRelease (ctx : BitVec 6) (queue : BitVec 4) (node : Nat) :
    Statement (.kernelRelease ctx queue node) := by
  intro _ ww kk hh; cases hh
theorem taskStart (core : BitVec 8) : Statement (.taskStart core) := by
  intro _ ww kk hh; cases hh
theorem gangPlace (die : BitVec 2) : Statement (.gangPlace die) := by
  intro _ ww kk hh; cases hh
theorem gangReserve (die : BitVec 2) : Statement (.gangReserve die) := by
  intro _ ww kk hh; cases hh
theorem taskEnterDraining (core : BitVec 8) : Statement (.taskEnterDraining core) := by
  intro _ ww kk hh; cases hh
theorem taskRetire (core : BitVec 8) : Statement (.taskRetire core) := by
  intro _ ww kk hh; cases hh
theorem taskStop (core : BitVec 8) : Statement (.taskStop core) := by
  intro _ ww kk hh; cases hh
theorem digestCompute (ctx : BitVec 6) (queue : BitVec 4) : Statement (.digestCompute ctx queue) := by
  intro _ ww kk hh; cases hh
theorem hashChain (ctx : BitVec 6) (queue : BitVec 4) : Statement (.hashChain ctx queue) := by
  intro _ ww kk hh; cases hh
theorem hash0Read (ctx : BitVec 6) (queue : BitVec 4) : Statement (.hash0Read ctx queue) := by
  intro _ ww kk hh; cases hh
theorem timelineWaitNode (ctx : BitVec 6) (queue : BitVec 4) (node : Nat) :
    Statement (.timelineWaitNode ctx queue node) := by
  intro _ ww kk hh; cases hh
theorem timelineSignalNode (ctx : BitVec 6) (queue : BitVec 4) (node : Nat) :
    Statement (.timelineSignalNode ctx queue node) := by
  intro _ ww kk hh; cases hh
theorem setLevelNode (ctx : BitVec 6) (queue : BitVec 4) (node : Nat) : Statement (.setLevelNode ctx queue node) := by
  intro _ ww kk hh; cases hh
theorem hostNotifyNode (ctx : BitVec 6) (queue : BitVec 4) (node : Nat) :
    Statement (.hostNotifyNode ctx queue node) := by
  intro _ ww kk hh; cases hh
theorem subgraphCallNode (ctx : BitVec 6) (queue : BitVec 4) (node : Nat) :
    Statement (.subgraphCallNode ctx queue node) := by
  intro _ ww kk hh; cases hh
theorem collectiveNode (ctx : BitVec 6) (queue : BitVec 4) (node : Nat) :
    Statement (.collectiveNode ctx queue node) := by
  intro _ ww kk hh; cases hh
theorem preemptWrite (ctx : BitVec 6) (value : Word) : Statement (.preemptWrite ctx value) := by
  intro _ ww kk hh; cases hh
theorem sliceExpiry (core : BitVec 8) : Statement (.sliceExpiry core) := by
  intro _ ww kk hh; cases hh
theorem preemptDeadline (core : BitVec 8) : Statement (.preemptDeadline core) := by
  intro _ ww kk hh; cases hh
theorem preemptSave (core : BitVec 8) : Statement (.preemptSave core) := by
  intro _ ww kk hh; cases hh
theorem taskResume (core : BitVec 8) : Statement (.taskResume core) := by
  intro _ ww kk hh; cases hh
theorem tlbinvWrite (ctx : BitVec 6) (value : Word) : Statement (.tlbinvWrite ctx value) := by
  intro _ ww kk hh; cases hh
theorem tlbInvalidationComplete (ctx : BitVec 6) : Statement (.tlbInvalidationComplete ctx) := by
  intro _ ww kk hh; cases hh
theorem migrationSubmit (value : Word) : Statement (.migrationSubmit value) := by
  intro _ ww kk hh; cases hh
theorem migrationBackgroundCopy (slot granule : Nat) : Statement (.migrationBackgroundCopy slot granule) := by
  intro _ ww kk hh; cases hh
theorem channelRetire (value : Word) : Statement (.channelRetire value) := by
  intro _ ww kk hh; cases hh
theorem retirementFill : Statement .retirementFill := by
  intro _ ww kk hh; cases hh
theorem hotPageEpochEnd : Statement .hotPageEpochEnd := by
  intro _ ww kk hh; cases hh
theorem hppopRead : Statement .hppopRead := by
  intro _ ww kk hh; cases hh
theorem extentAdd (pt : BitVec 1) (entry : BitVec 8) (base : Word) (units : BitVec 32) :
    Statement (.extentAdd pt entry base units) := by
  intro _ ww kk hh; cases hh
theorem extentAccept (pt : BitVec 1) (entry : BitVec 8) : Statement (.extentAccept pt entry) := by
  intro _ ww kk hh; cases hh
theorem extentRelease (pt : BitVec 1) (entry : BitVec 8) : Statement (.extentRelease pt entry) := by
  intro _ ww kk hh; cases hh
theorem extentReleaseComplete (pt : BitVec 1) (entry : BitVec 8) : Statement (.extentReleaseComplete pt entry) := by
  intro _ ww kk hh; cases hh
theorem extentReleaseRequest (pt : BitVec 1) (entry : BitVec 8) : Statement (.extentReleaseRequest pt entry) := by
  intro _ ww kk hh; cases hh
theorem extentForcedRemoval (pt : BitVec 1) (entry : BitVec 8) : Statement (.extentForcedRemoval pt entry) := by
  intro _ ww kk hh; cases hh
theorem cxlLinkFailure (pt : BitVec 1) : Statement (.cxlLinkFailure pt) := by
  intro _ ww kk hh; cases hh
theorem extentReleaseTimeout (pt : BitVec 1) (entry : BitVec 8) : Statement (.extentReleaseTimeout pt entry) := by
  intro _ ww kk hh; cases hh
theorem vfbindWrite (k : BitVec 4) (value : Word) : Statement (.vfbindWrite k value) := by
  intro _ ww kk hh; cases hh
theorem hostBar2Read (port : BitVec 1) (fn : BitVec 6) (off len : Nat) :
    Statement (.hostBar2Read port fn off len) := by
  intro _ ww kk hh; cases hh
theorem hostBar2Write (port : BitVec 1) (fn : BitVec 6) (off : Nat) (data : List Byte) :
    Statement (.hostBar2Write port fn off data) := by
  intro _ ww kk hh; cases hh
theorem graphUpload (ctx : BitVec 6) : Statement (.graphUpload ctx) := by
  intro _ ww kk hh; cases hh
theorem graphUploadComplete (ctx : BitVec 6) : Statement (.graphUploadComplete ctx) := by
  intro _ ww kk hh; cases hh
theorem graphDrop (ctx : BitVec 6) : Statement (.graphDrop ctx) := by
  intro _ ww kk hh; cases hh
theorem attestationRequest (value : Word) : Statement (.attestationRequest value) := by
  intro _ ww kk hh; cases hh
theorem attestationReport : Statement .attestationReport := by
  intro _ ww kk hh; cases hh
theorem clockStepWrite (die : BitVec 2) (value : Word) : Statement (.clockStepWrite die value) := by
  intro _ ww kk hh; cases hh
theorem clusterGateWrite (die : BitVec 2) (value : Word) : Statement (.clusterGateWrite die value) := by
  intro _ ww kk hh; cases hh
theorem clusterGateEntry (die : BitVec 2) (cluster : BitVec 4) : Statement (.clusterGateEntry die cluster) := by
  intro _ ww kk hh; cases hh
theorem powerCapTick (measured : BitVec 16) : Statement (.powerCapTick measured) := by
  intro _ ww kk hh; cases hh
theorem thermalThrottle (die : BitVec 2) (temp : BitVec 16) : Statement (.thermalThrottle die temp) := by
  intro _ ww kk hh; cases hh
theorem thermalRelease (die : BitVec 2) (temp : BitVec 16) : Statement (.thermalRelease die temp) := by
  intro _ ww kk hh; cases hh
theorem emergencyStop (reading : Reading) : Statement (.emergencyStop reading) := by
  intro _ ww kk hh; cases hh
theorem stewardWatchdogExpiry : Statement .stewardWatchdogExpiry := by
  intro _ ww kk hh; cases hh
theorem bringUp (badChannels : List Nat) : Statement (.bringUp badChannels) := by
  intro _ ww kk hh; cases hh
theorem torusDiscovery : Statement .torusDiscovery := by
  intro _ ww kk hh; cases hh
theorem portTrainTimeout (port : BitVec 3) : Statement (.portTrainTimeout port) := by
  intro _ ww kk hh; cases hh
theorem managementPortAccess (acc : MgmtAccess) : Statement (.managementPortAccess acc) := by
  intro _ ww kk hh; cases hh
theorem gangRelaunch (ctx : BitVec 6) (queue : BitVec 4) (node : Nat) : Statement (.gangRelaunch ctx queue node) := by
  intro _ ww kk hh; cases hh
theorem faultRecordWrite (ctx : BitVec 6) : Statement (.faultRecordWrite ctx) := by
  intro _ ww kk hh; cases hh
theorem fqresumeResume (ctx : BitVec 6) (fseq : BitVec 32) : Statement (.fqresumeResume ctx fseq) := by
  intro _ ww kk hh; cases hh
theorem fqresumeAbort (ctx : BitVec 6) (fseq : BitVec 32) : Statement (.fqresumeAbort ctx fseq) := by
  intro _ ww kk hh; cases hh
theorem stoppedTaskResume (ctx : BitVec 6) : Statement (.stoppedTaskResume ctx) := by
  intro _ ww kk hh; cases hh
theorem stoppedTaskDiscard (ctx : BitVec 6) : Statement (.stoppedTaskDiscard ctx) := by
  intro _ ww kk hh; cases hh
theorem qfailHaltClear (ctx : BitVec 6) (queue : BitVec 4) (value : Word) :
    Statement (.qfailHaltClear ctx queue value) := by
  intro _ ww kk hh; cases hh
theorem freezeRelease (value : Word) : Statement (.freezeRelease value) := by
  intro _ ww kk hh; cases hh
theorem freezeReset (value : Word) : Statement (.freezeReset value) := by
  intro _ ww kk hh; cases hh
theorem frzpopRead : Statement .frzpopRead := by
  intro _ ww kk hh; cases hh
theorem cherrRead (chan : BitVec 9) : Statement (.cherrRead chan) := by
  intro _ ww kk hh; cases hh
theorem sramerrRead (die : BitVec 2) : Statement (.sramerrRead die) := by
  intro _ ww kk hh; cases hh
theorem migerrRead : Statement .migerrRead := by
  intro _ ww kk hh; cases hh
theorem nyerrRead (port : BitVec 3) : Statement (.nyerrRead port) := by
  intro _ ww kk hh; cases hh
theorem packetHop (port : BitVec 3) (pkt : Packet) : Statement (.packetHop port pkt) := by
  intro _ ww kk hh; cases hh
theorem readRequest (port : BitVec 3) (pkt : Packet) : Statement (.readRequest port pkt) := by
  intro _ ww kk hh; cases hh
theorem writeRequest (port : BitVec 3) (pkt : Packet) : Statement (.writeRequest port pkt) := by
  intro _ ww kk hh; cases hh
theorem atomicRequest (port : BitVec 3) (pkt : Packet) : Statement (.atomicRequest port pkt) := by
  intro _ ww kk hh; cases hh
theorem cellAddRequest (port : BitVec 3) (pkt : Packet) : Statement (.cellAddRequest port pkt) := by
  intro _ ww kk hh; cases hh
theorem counterAddRequest (port : BitVec 3) (pkt : Packet) : Statement (.counterAddRequest port pkt) := by
  intro _ ww kk hh; cases hh
theorem notifyRequest (port : BitVec 3) (pkt : Packet) : Statement (.notifyRequest port pkt) := by
  intro _ ww kk hh; cases hh
theorem readResponse (port : BitVec 3) (pkt : Packet) : Statement (.readResponse port pkt) := by
  intro _ ww kk hh; cases hh
theorem acknowledgement (port : BitVec 3) (pkt : Packet) : Statement (.acknowledgement port pkt) := by
  intro _ ww kk hh; cases hh
theorem negativeAcknowledgement (port : BitVec 3) (pkt : Packet) : Statement (.negativeAcknowledgement port pkt) := by
  intro _ ww kk hh; cases hh
theorem reduceTerm (port : BitVec 3) (pkt : Packet) : Statement (.reduceTerm port pkt) := by
  intro _ ww kk hh; cases hh
theorem heldTermApply (ctx : BitVec 6) (cnt : Word) : Statement (.heldTermApply ctx cnt) := by
  intro _ ww kk hh; cases hh
theorem reduceForward (port : BitVec 3) (pkt : Packet) : Statement (.reduceForward port pkt) := by
  intro _ ww kk hh; cases hh
theorem managementPacket (port : BitVec 3) (index : BitVec 13) (sx sy sz : BitVec 8) :
    Statement (.managementPacket port index sx sy sz) := by
  intro _ ww kk hh; cases hh
theorem reservedKindPacket (port : BitVec 3) (pkt : Packet) : Statement (.reservedKindPacket port pkt) := by
  intro _ ww kk hh; cases hh
theorem laneStop (port lane : BitVec 3) : Statement (.laneStop port lane) := by
  intro _ ww kk hh; cases hh
theorem laneGo (port lane : BitVec 3) : Statement (.laneGo port lane) := by
  intro _ ww kk hh; cases hh
theorem linkRetry (flit : Retry) : Statement (.linkRetry flit) := by
  intro _ ww kk hh; cases hh
theorem portDown (port : BitVec 3) : Statement (.portDown port) := by
  intro _ ww kk hh; cases hh
theorem ackTimeout (tag : BitVec 16) : Statement (.ackTimeout tag) := by
  intro _ ww kk hh; cases hh
theorem bermRun (ctrl : BitVec 4) : Statement (.bermRun ctrl) := by
  intro _ ww kk hh; cases hh
theorem bermRunFinish (ctrl : BitVec 4) : Statement (.bermRunFinish ctrl) := by
  intro _ ww kk hh; cases hh
theorem powerOff : Statement .powerOff := by
  intro _ ww kk hh; cases hh

end Sys2Proof.Laws.RoundTrip
end

