-- ==== Sys2Proof/Laws/Progress.lean ====
section
/-!
SUPPORT. The progress promises of R67, as far as one step shows them: a kernel that has waited long enough is of class 0,
an older one of two such kernels comes first, and the machine stands still only when no move of any agent changes it.
-/
namespace Sys2Proof.Machine

/-- Aging reaches every ready kernel (R67, R80): after PRIO times 2^20 cycles its effective class is 0. -/
theorem State.effClass_aged (s : State) (k : Kernel) (h : kPrio k.record * 2 ^ 20 ≤ s.now - k.readyAt) :
    s.effClass k = 0 := by
  unfold State.effClass
  have := (Nat.le_div_iff_mul_le (by decide : 0 < 2 ^ 20)).2 h
  omega

/-- Of two kernels aged to class 0 the one ready earlier is placed first (R67, R80). -/
theorem State.keys_aged (s : State) (j k : Kernel) (m n : Nat) (hj : s.effClass j = 0) (hk : s.effClass k = 0)
    (h : j.readyAt < k.readyAt) : keyBefore (s.keys j m) (s.keys k n) = true := by
  simp [State.keys, keyBefore, hj, hk, h]

/-- A list of moves leaves the state as it is only when each of them does. -/
theorem firstMove_still (s : State) (ms : List Move) (h : firstMove s ms = .next s) : ∀ m ∈ ms, m s = .next s := by
  induction ms with
  | nil => simp
  | cons m ms ih =>
    unfold firstMove at h
    split at h
    · rename_i t ht
      split at h
      · rename_i e
        intro k hk
        rcases List.mem_cons.1 hk with rfl | hk
        · rw [ht, e]
        · exact ih h k hk
      · rename_i e
        exact absurd (Host.Outcome.next.inj h) e
    · rename_i r hr
      exact absurd h (hr s)

end Sys2Proof.Machine
end

