-- ==== Sys2Proof/Tests/Slice0.lean ====
section
/-!
SUPPORT. The model's own tests: one word of every instruction written out from its encoding, an ill-formed term for each
check, and a few single steps whose results the spec gives; then, for every statement with hypotheses, a state and operands
that meet them.
-/
namespace Sys2Proof.Tests

open Sys2Proof Sys2Proof.Machine

set_option maxRecDepth 100000
set_option Elab.async false

/-! ## Encodings -/

/-- Whether the decoder reads each word as the instruction beside it. -/
def reads (ws : List (Nat × Nat × Instr)) : Bool := ws.all fun e => decide (decodeTableWord e.1 e.2.1 = some e.2.2)

/-- Whether R384's first defect of each instruction is `r`, so that it is not well formed. -/
def defective (r : Reject) (is : List Instr) : Bool :=
  is.all fun i => decide (firstReject i.defects = some r) && !i.wellFormed

/-- A command whose wait and signal fields name no sluice. -/
def quiet : Ex := { g := 0, f1 := 0, f2 := 0, f3 := 0, x := 0, wsl := 63, wcnt := 0, ssl := 63, scnt := 0, ext := 0 }

/-- Words of the integer family written out from R162 to R168 and the encodings of its rules. -/
theorem test_decode_integer : reads [
  (32, 0x0152D694, .add 5 11 22 37),
  (32, 0x0252D694, .sub 5 11 22 37),
  (32, 0x0352D694, .mul 5 11 22 37),
  (32, 0x0452D695, .mulh 5 11 22 37 1),
  (32, 0x0552D695, .div 5 11 22 37 1),
  (32, 0x0652D695, .rem 5 11 22 37 1),
  (32, 0x0752D694, .and 5 11 22 37),
  (32, 0x0852D694, .or 5 11 22 37),
  (32, 0x0952D694, .xor 5 11 22 37),
  (32, 0x0A52D694, .andn 5 11 22 37),
  (32, 0x0B52D694, .shl 5 11 22 37),
  (32, 0x0C52D694, .shr 5 11 22 37),
  (32, 0x0D52D694, .sar 5 11 22 37),
  (32, 0x0E52D695, .min 5 11 22 37 1),
  (32, 0x0F52D695, .max 5 11 22 37 1),
  (32, 0x1052D602, .bitc 5 11 22 2)] = true := by decide +kernel

/-- Words of the immediate family written out from R162 to R168 and the encodings of its rules. -/
theorem test_decode_immediate : reads [
  (32, 0x1152D683, .addi 5 11 22 0x83),
  (64, 0x800001231152D600, .addiImm32 5 11 22 0x80000123),
  (32, 0x1252D6A3, .logi 5 11 22 2 0x23),
  (64, 0xA00001231252D600, .logiImm32 5 11 22 2 0x20000123),
  (32, 0x1352D6E5, .shi 5 11 22 3 0x25),
  (64, 0xC00000251352D600, .shiImm32 5 11 22 3 0x25),
  (32, 0x1452C083, .ldi 5 11 0x83),
  (64, 0x800001231452C000, .ldiImm32 5 11 0x80000123),
  (64, 0x800001231552D600, .ldih 5 11 22 0x80000123)] = true := by decide +kernel

/-- Words of the compare family written out from R162 to R168 and the encodings of its rules. -/
theorem test_decode_compare : reads [
  (32, 0x16525696, .cmp 5 9 22 37 2),
  (32, 0x175256A3, .cmpi 5 9 22 2 0x23),
  (64, 0xA000012317525600, .cmpiImm32 5 9 22 2 0x20000123),
  (32, 0x1852C996, .sel 5 11 9 37 2),
  (32, 0x19524A33, .plog 5 9 10 12 3),
  (32, 0x1A52D697, .lea 5 11 22 37 3),
  (64, 0x800001231A52D697, .leaImm32 5 11 22 37 3 0x80000123)] = true := by decide +kernel

/-- Words of the control flow family written out from R162 to R168 and the encodings of its rules. -/
theorem test_decode_control_flow : reads [
  (32, 0x1B9C0123, .br 9 1 0x40123),
  (32, 0x1C501600, .jmp 5 22),
  (32, 0x1D940123, .call 9 0 0x40123),
  (32, 0x1E501600, .ret 5 22),
  (64, 0x680401231F52D600, .loop 5 11 22 1 5 0 0x40123),
  (64, 0xAD28000020500006, .pipeStart 5 0 6 2 5 0xA5),
  (64, 0x0004012320500040, .pipeTurn 5 0x40123)] = true := by decide +kernel

/-- Words of the scalar float family written out from R162 to R168 and the encodings of its rules. -/
theorem test_decode_scalar_float : reads [
  (32, 0x2152D697, .fadd 5 11 22 37 3),
  (32, 0x2252D695, .fmul 5 11 22 37 1),
  (32, 0x2352D696, .ffma 5 11 22 37 2),
  (32, 0x24525696, .fcmp 5 9 22 37 2),
  (32, 0x2552D60D, .fcvt 5 11 22 3 1),
  (32, 0x2652D694, .fdsq 5 11 22 37 0)] = true := by decide +kernel

/-- Words of the memory family written out from R162 to R168 and the encodings of its rules. -/
theorem test_decode_memory : reads [
  (32, 0x2752D698, .ld 5 11 22 0x13),
  (64, 0x800001282752D600, .ldImm32 5 11 22 0x10000025),
  (32, 0x2852D696, .ldx 5 11 22 37 2),
  (32, 0x2952D698, .st 5 11 22 0x13),
  (64, 0x800001282952D600, .stImm32 5 11 22 0x10000025),
  (32, 0x2A52D69A, .lda 5 11 22 0x13 2),
  (64, 0x8000012A2A52D600, .ldaImm32 5 11 22 0x10000025 2),
  (32, 0x2B52D69A, .stl 5 11 22 0x13 2),
  (64, 0x8000012A2B52D600, .stlImm32 5 11 22 0x10000025 2),
  (64, 0x672000002C52D694, .amo 5 11 22 37 6 3 2 1),
  (64, 0x672000002D501694, .amon 5 22 37 6 3 2 1),
  (64, 0x072000002E52D694, .cas 5 11 22 37 3 2 1),
  (64, 0x070600002F501694, .cadd 5 22 37 3 2 3)] = true := by decide +kernel

/-- Words of the system family written out from R162 to R168 and the encodings of its rules. -/
theorem test_decode_system : reads [
  (32, 0x30500014, .fence 5 2 4),
  (32, 0x3150A125, .slwait 5 2 33 0x25),
  (32, 0x3250A125, .slsig 5 2 33 0x25),
  (64, 0x2140000033501600, .tlwait 5 22 0x21 2),
  (64, 0x2100000034501694, .tlarm 5 22 37 0x21),
  (32, 0x3552C600, .qrd 5 11 6),
  (32, 0x36500694, .qwr 5 6 37),
  (32, 0x3752C000, .wfe 5 11),
  (32, 0x38501601, .sev 5 22 1),
  (32, 0x39501600, .fmt 5 22),
  (32, 0x3A5000A5, .safept 5 0xA5),
  (64, 0x00000A5B3A500000, .safeptImm32 5 0xA5B),
  (32, 0x3B501694, .launch 5 22 37),
  (32, 0x3C000000, .exit),
  (64, 0x000000203D52D602, .csr 5 11 22 2 0x020),
  (32, 0x3E500000, .sysNop 5),
  (32, 0x3E500001, .sysUiret 5),
  (32, 0x3E500002, .sysPause 5)] = true := by decide +kernel

/-- Words of the copy family written out from R162 to R168 and the encodings of its rules. -/
theorem test_decode_copy : reads [
  (64, 0x8553A5C040500415, .tld { g := 5, f1 := 0, f2 := 4, f3 := 5, x := 1, wsl := 33, wcnt := 21, ssl := 14, scnt := 37, ext := 192 }),
  (64, 0x8553A50341500369, .tst { g := 5, f1 := 0, f2 := 3, f3 := 26, x := 1, wsl := 33, wcnt := 21, ssl := 14, scnt := 37, ext := 3 }),
  (64, 0x8553A58042558415, .tldx { g := 5, f1 := 22, f2 := 4, f3 := 5, x := 1, wsl := 33, wcnt := 21, ssl := 14, scnt := 37, ext := 128 }),
  (64, 0x8553A50243508617, .tstx { g := 5, f1 := 2, f2 := 6, f3 := 5, x := 3, wsl := 33, wcnt := 21, ssl := 14, scnt := 37, ext := 2 }),
  (64, 0x8553A5114450186A, .tldb { g := 5, f1 := 0, f2 := 24, f3 := 26, x := 2, wsl := 33, wcnt := 21, ssl := 14, scnt := 37, ext := 17 }),
  (64, 0x8553A50245524369, .gath { g := 5, f1 := 9, f2 := 3, f3 := 26, x := 1, wsl := 33, wcnt := 21, ssl := 14, scnt := 37, ext := 2 }),
  (64, 0x8553A5114655031D, .scat { g := 5, f1 := 20, f2 := 3, f3 := 7, x := 1, wsl := 33, wcnt := 21, ssl := 14, scnt := 37, ext := 17 }),
  (64, 0x8553A50047509868, .scopy { g := 5, f1 := 2, f2 := 24, f3 := 26, x := 0, wsl := 33, wcnt := 21, ssl := 14, scnt := 37, ext := 0 }),
  (64, 0x8553A50048504408, .sfill { g := 5, f1 := 1, f2 := 4, f3 := 2, x := 0, wsl := 33, wcnt := 21, ssl := 14, scnt := 37, ext := 0 }),
  (64, 0x8553A50049500309, .pref { g := 5, f1 := 0, f2 := 3, f3 := 2, x := 1, wsl := 33, wcnt := 21, ssl := 14, scnt := 37, ext := 0 }),
  (64, 0x8553A5104A504414, .celladd { g := 5, f1 := 1, f2 := 4, f3 := 5, x := 0, wsl := 33, wcnt := 21, ssl := 14, scnt := 37, ext := 16 }),
  (64, 0x8553A5004B500314, .cellclr { g := 5, f1 := 0, f2 := 3, f3 := 5, x := 0, wsl := 33, wcnt := 21, ssl := 14, scnt := 37, ext := 0 }),
  (64, 0x8553A5004C504615, .cellrd { g := 5, f1 := 1, f2 := 6, f3 := 5, x := 1, wsl := 33, wcnt := 21, ssl := 14, scnt := 37, ext := 0 }),
  (64, 0x8553A5004D500468, .cellxc { g := 5, f1 := 0, f2 := 4, f3 := 26, x := 0, wsl := 33, wcnt := 21, ssl := 14, scnt := 37, ext := 0 }),
  (64, 0x8553A5004E550308, .brun { g := 5, f1 := 20, f2 := 3, f3 := 2, x := 0, wsl := 33, wcnt := 21, ssl := 14, scnt := 37, ext := 0 })] = true := by decide +kernel

/-- Words of the link family written out from R162 to R168 and the encodings of its rules. -/
theorem test_decode_link : reads [
  (64, 0x8553A50160504669, .lput { g := 5, f1 := 1, f2 := 6, f3 := 26, x := 1, wsl := 33, wcnt := 21, ssl := 14, scnt := 37, ext := 1 }),
  (64, 0x8553A5016155830B, .lget { g := 5, f1 := 22, f2 := 3, f3 := 2, x := 3, wsl := 33, wcnt := 21, ssl := 14, scnt := 37, ext := 1 }),
  (64, 0x8553A50062551800, .lsig { g := 5, f1 := 20, f2 := 24, f3 := 0, x := 0, wsl := 33, wcnt := 21, ssl := 14, scnt := 37, ext := 0 }),
  (64, 0x8553A51063504468, .lcell { g := 5, f1 := 1, f2 := 4, f3 := 26, x := 0, wsl := 33, wcnt := 21, ssl := 14, scnt := 37, ext := 16 }),
  (64, 0x8553A5006450C000, .coll { g := 5, f1 := 3, f2 := 0, f3 := 0, x := 0, wsl := 33, wcnt := 21, ssl := 14, scnt := 37, ext := 0 }),
  (64, 0x8553A50065508400, .lwaitc { g := 5, f1 := 2, f2 := 4, f3 := 0, x := 0, wsl := 33, wcnt := 21, ssl := 14, scnt := 37, ext := 0 }),
  (64, 0x8553A5006650431C, .lbar { g := 5, f1 := 1, f2 := 3, f3 := 7, x := 0, wsl := 33, wcnt := 21, ssl := 14, scnt := 37, ext := 0 }),
  (64, 0x8553A50067500000, .lfence { g := 5, f1 := 0, f2 := 0, f3 := 0, x := 0, wsl := 33, wcnt := 21, ssl := 14, scnt := 37, ext := 0 }),
  (64, 0x8553A5006850C000, .lnotify { g := 5, f1 := 3, f2 := 0, f3 := 0, x := 0, wsl := 33, wcnt := 21, ssl := 14, scnt := 37, ext := 0 })] = true := by decide +kernel

/-- Words of the weave family written out from R162 to R168 and the encodings of its rules. -/
theorem test_decode_weave : reads [
  (64, 0x8553A5007050C100, .wld { g := 5, f1 := 3, f2 := 1, f3 := 0, x := 0, wsl := 33, wcnt := 21, ssl := 14, scnt := 37, ext := 0 }),
  (64, 0x8553A50071524600, .wlds { g := 5, f1 := 9, f2 := 6, f3 := 0, x := 0, wsl := 33, wcnt := 21, ssl := 14, scnt := 37, ext := 0 }),
  (64, 0x8553A50072500000, .wswap { g := 5, f1 := 0, f2 := 0, f3 := 0, x := 0, wsl := 33, wcnt := 21, ssl := 14, scnt := 37, ext := 0 }),
  (64, 0x8553A50173550600, .wmm { g := 5, f1 := 20, f2 := 6, f3 := 0, x := 0, wsl := 33, wcnt := 21, ssl := 14, scnt := 37, ext := 1 }),
  (64, 0x8553A50174524400, .wmmt { g := 5, f1 := 9, f2 := 4, f3 := 0, x := 0, wsl := 33, wcnt := 21, ssl := 14, scnt := 37, ext := 1 }),
  (64, 0x8553A50275558600, .wmms { g := 5, f1 := 22, f2 := 6, f3 := 0, x := 0, wsl := 33, wcnt := 21, ssl := 14, scnt := 37, ext := 2 }),
  (64, 0x8553A50276508100, .wmmst { g := 5, f1 := 2, f2 := 1, f3 := 0, x := 0, wsl := 33, wcnt := 21, ssl := 14, scnt := 37, ext := 2 }),
  (64, 0x8553A50077558668, .wopa { g := 5, f1 := 22, f2 := 6, f3 := 26, x := 0, wsl := 33, wcnt := 21, ssl := 14, scnt := 37, ext := 0 }),
  (64, 0x8553A5007855811C, .wopas { g := 5, f1 := 22, f2 := 1, f3 := 7, x := 0, wsl := 33, wcnt := 21, ssl := 14, scnt := 37, ext := 0 }),
  (64, 0x8553A50279500000, .wdrain { g := 5, f1 := 0, f2 := 0, f3 := 0, x := 0, wsl := 33, wcnt := 21, ssl := 14, scnt := 37, ext := 2 }),
  (64, 0x8553A5007A500001, .waclr { g := 5, f1 := 0, f2 := 0, f3 := 0, x := 1, wsl := 33, wcnt := 21, ssl := 14, scnt := 37, ext := 0 }),
  (64, 0x8553A5027B524600, .wprom { g := 5, f1 := 9, f2 := 6, f3 := 0, x := 0, wsl := 33, wcnt := 21, ssl := 14, scnt := 37, ext := 2 }),
  (64, 0x8553A5027C524600, .wacc { g := 5, f1 := 9, f2 := 6, f3 := 0, x := 0, wsl := 33, wcnt := 21, ssl := 14, scnt := 37, ext := 2 }),
  (64, 0x8553A5017D505800, .wmva { g := 5, f1 := 1, f2 := 24, f3 := 0, x := 0, wsl := 33, wcnt := 21, ssl := 14, scnt := 37, ext := 1 }),
  (64, 0x8553A5007E50C001, .wread { g := 5, f1 := 3, f2 := 0, f3 := 0, x := 1, wsl := 33, wcnt := 21, ssl := 14, scnt := 37, ext := 0 })] = true := by decide +kernel

/-- Words of the vector1 family written out from R162 to R168 and the encodings of its rules. -/
theorem test_decode_vector1 : reads [
  (64, 0x8553A50090524601, .vshape { g := 5, f1 := 9, f2 := 6, f3 := 0, x := 1, wsl := 33, wcnt := 21, ssl := 14, scnt := 37, ext := 0 }),
  (64, 0x8553A5D091525800, .vld { g := 5, f1 := 9, f2 := 24, f3 := 0, x := 0, wsl := 33, wcnt := 21, ssl := 14, scnt := 37, ext := 208 }),
  (64, 0x8553A54092504600, .vst { g := 5, f1 := 1, f2 := 6, f3 := 0, x := 0, wsl := 33, wcnt := 21, ssl := 14, scnt := 37, ext := 64 }),
  (64, 0x8553A5209350D802, .vbcast { g := 5, f1 := 3, f2 := 24, f3 := 0, x := 2, wsl := 33, wcnt := 21, ssl := 14, scnt := 37, ext := 32 }),
  (64, 0x8553A5C09450C401, .vmov { g := 5, f1 := 3, f2 := 4, f3 := 0, x := 1, wsl := 33, wcnt := 21, ssl := 14, scnt := 37, ext := 192 }),
  (64, 0x8553A51C95524116, .vadd { g := 5, f1 := 9, f2 := 1, f3 := 5, x := 2, wsl := 33, wcnt := 21, ssl := 14, scnt := 37, ext := 28 }),
  (64, 0x8553A5D09652446A, .vsub { g := 5, f1 := 9, f2 := 4, f3 := 26, x := 2, wsl := 33, wcnt := 21, ssl := 14, scnt := 37, ext := 208 }),
  (64, 0x8553A5209750440A, .vmul { g := 5, f1 := 1, f2 := 4, f3 := 2, x := 2, wsl := 33, wcnt := 21, ssl := 14, scnt := 37, ext := 32 }),
  (64, 0x8553A58098558369, .vfma { g := 5, f1 := 22, f2 := 3, f3 := 26, x := 1, wsl := 33, wcnt := 21, ssl := 14, scnt := 37, ext := 128 }),
  (64, 0x8553A5409950C409, .vfms { g := 5, f1 := 3, f2 := 4, f3 := 2, x := 1, wsl := 33, wcnt := 21, ssl := 14, scnt := 37, ext := 64 }),
  (64, 0x8553A5D09A52410B, .vfnma { g := 5, f1 := 9, f2 := 1, f3 := 2, x := 3, wsl := 33, wcnt := 21, ssl := 14, scnt := 37, ext := 208 }),
  (64, 0x8553A5109B50016A, .vdiv { g := 5, f1 := 0, f2 := 1, f3 := 26, x := 2, wsl := 33, wcnt := 21, ssl := 14, scnt := 37, ext := 16 }),
  (64, 0x8553A5809C508102, .vsqrt { g := 5, f1 := 2, f2 := 1, f3 := 0, x := 2, wsl := 33, wcnt := 21, ssl := 14, scnt := 37, ext := 128 }),
  (64, 0x8553A5809D52461C, .vmin { g := 5, f1 := 9, f2 := 6, f3 := 7, x := 0, wsl := 33, wcnt := 21, ssl := 14, scnt := 37, ext := 128 }),
  (64, 0x8553A5C09E504608, .vmax { g := 5, f1 := 1, f2 := 6, f3 := 2, x := 0, wsl := 33, wcnt := 21, ssl := 14, scnt := 37, ext := 192 }),
  (64, 0x8553A5809F524600, .vabs { g := 5, f1 := 9, f2 := 6, f3 := 0, x := 0, wsl := 33, wcnt := 21, ssl := 14, scnt := 37, ext := 128 }),
  (64, 0x8553A5C0A050D800, .vneg { g := 5, f1 := 3, f2 := 24, f3 := 0, x := 0, wsl := 33, wcnt := 21, ssl := 14, scnt := 37, ext := 192 }),
  (64, 0x8553A580A1500169, .vcmp { g := 5, f1 := 0, f2 := 1, f3 := 26, x := 1, wsl := 33, wcnt := 21, ssl := 14, scnt := 37, ext := 128 }),
  (64, 0x8553A51CA2508168, .vsel { g := 5, f1 := 2, f2 := 1, f3 := 26, x := 0, wsl := 33, wcnt := 21, ssl := 14, scnt := 37, ext := 28 }),
  (64, 0x8553A51CA350816B, .vcvt { g := 5, f1 := 2, f2 := 1, f3 := 26, x := 3, wsl := 33, wcnt := 21, ssl := 14, scnt := 37, ext := 28 })] = true := by decide +kernel

/-- Words of the vector2 family written out from R162 to R168 and the encodings of its rules. -/
theorem test_decode_vector2 : reads [
  (64, 0x8553A580A4524103, .vround { g := 5, f1 := 9, f2 := 1, f3 := 0, x := 3, wsl := 33, wcnt := 21, ssl := 14, scnt := 37, ext := 128 }),
  (64, 0x8553A520A5509800, .vexp { g := 5, f1 := 2, f2 := 24, f3 := 0, x := 0, wsl := 33, wcnt := 21, ssl := 14, scnt := 37, ext := 32 }),
  (64, 0x8553A520A6509800, .vexp2 { g := 5, f1 := 2, f2 := 24, f3 := 0, x := 0, wsl := 33, wcnt := 21, ssl := 14, scnt := 37, ext := 32 }),
  (64, 0x8553A510A7550600, .vlog { g := 5, f1 := 20, f2 := 6, f3 := 0, x := 0, wsl := 33, wcnt := 21, ssl := 14, scnt := 37, ext := 16 }),
  (64, 0x8553A5C0A8505800, .vlog2 { g := 5, f1 := 1, f2 := 24, f3 := 0, x := 0, wsl := 33, wcnt := 21, ssl := 14, scnt := 37, ext := 192 }),
  (64, 0x8553A5D0A9524400, .vrcp { g := 5, f1 := 9, f2 := 4, f3 := 0, x := 0, wsl := 33, wcnt := 21, ssl := 14, scnt := 37, ext := 208 }),
  (64, 0x8553A520AA558100, .vrsq { g := 5, f1 := 22, f2 := 1, f3 := 0, x := 0, wsl := 33, wcnt := 21, ssl := 14, scnt := 37, ext := 32 }),
  (64, 0x8553A51CAB524300, .vtanh { g := 5, f1 := 9, f2 := 3, f3 := 0, x := 0, wsl := 33, wcnt := 21, ssl := 14, scnt := 37, ext := 28 }),
  (64, 0x8553A510AC550600, .vsigm { g := 5, f1 := 20, f2 := 6, f3 := 0, x := 0, wsl := 33, wcnt := 21, ssl := 14, scnt := 37, ext := 16 }),
  (64, 0x8553A540AD558300, .vsin { g := 5, f1 := 22, f2 := 3, f3 := 0, x := 0, wsl := 33, wcnt := 21, ssl := 14, scnt := 37, ext := 64 }),
  (64, 0x8553A520AE504300, .vcos { g := 5, f1 := 1, f2 := 3, f3 := 0, x := 0, wsl := 33, wcnt := 21, ssl := 14, scnt := 37, ext := 32 }),
  (64, 0x8553A5D0AF558100, .verf { g := 5, f1 := 22, f2 := 1, f3 := 0, x := 0, wsl := 33, wcnt := 21, ssl := 14, scnt := 37, ext := 208 }),
  (64, 0x8553A5D0B050831D, .viadd { g := 5, f1 := 2, f2 := 3, f3 := 7, x := 1, wsl := 33, wcnt := 21, ssl := 14, scnt := 37, ext := 208 }),
  (64, 0x8553A51CB150C409, .visub { g := 5, f1 := 3, f2 := 4, f3 := 2, x := 1, wsl := 33, wcnt := 21, ssl := 14, scnt := 37, ext := 28 }),
  (64, 0x8553A510B2558114, .vimul { g := 5, f1 := 22, f2 := 1, f3 := 5, x := 0, wsl := 33, wcnt := 21, ssl := 14, scnt := 37, ext := 16 }),
  (64, 0x8553A51CB350C414, .vmulhi { g := 5, f1 := 3, f2 := 4, f3 := 5, x := 0, wsl := 33, wcnt := 21, ssl := 14, scnt := 37, ext := 28 }),
  (64, 0x8553A580B4551814, .vimin { g := 5, f1 := 20, f2 := 24, f3 := 5, x := 0, wsl := 33, wcnt := 21, ssl := 14, scnt := 37, ext := 128 }),
  (64, 0x8553A5C0B5551814, .vimax { g := 5, f1 := 20, f2 := 24, f3 := 5, x := 0, wsl := 33, wcnt := 21, ssl := 14, scnt := 37, ext := 192 }),
  (64, 0x8553A51CB6524600, .viabs { g := 5, f1 := 9, f2 := 6, f3 := 0, x := 0, wsl := 33, wcnt := 21, ssl := 14, scnt := 37, ext := 28 }),
  (64, 0x8553A520B755981C, .vand { g := 5, f1 := 22, f2 := 24, f3 := 7, x := 0, wsl := 33, wcnt := 21, ssl := 14, scnt := 37, ext := 32 })] = true := by decide +kernel

/-- Words of the vector3 family written out from R162 to R168 and the encodings of its rules. -/
theorem test_decode_vector3 : reads [
  (64, 0x8553A520B850831C, .vor { g := 5, f1 := 2, f2 := 3, f3 := 7, x := 0, wsl := 33, wcnt := 21, ssl := 14, scnt := 37, ext := 32 }),
  (64, 0x8553A5C0B950041C, .vxor { g := 5, f1 := 0, f2 := 4, f3 := 7, x := 0, wsl := 33, wcnt := 21, ssl := 14, scnt := 37, ext := 192 }),
  (64, 0x8553A5C0BA558468, .vshl { g := 5, f1 := 22, f2 := 4, f3 := 26, x := 0, wsl := 33, wcnt := 21, ssl := 14, scnt := 37, ext := 192 }),
  (64, 0x8553A51CBB50431C, .vshr { g := 5, f1 := 1, f2 := 3, f3 := 7, x := 0, wsl := 33, wcnt := 21, ssl := 14, scnt := 37, ext := 28 }),
  (64, 0x8553A520BC508168, .vsar { g := 5, f1 := 2, f2 := 1, f3 := 26, x := 0, wsl := 33, wcnt := 21, ssl := 14, scnt := 37, ext := 32 }),
  (64, 0x8553A510BD508469, .vicmp { g := 5, f1 := 2, f2 := 4, f3 := 26, x := 1, wsl := 33, wcnt := 21, ssl := 14, scnt := 37, ext := 16 }),
  (64, 0x8553A51CBE508600, .vclz { g := 5, f1 := 2, f2 := 6, f3 := 0, x := 0, wsl := 33, wcnt := 21, ssl := 14, scnt := 37, ext := 28 }),
  (64, 0x8553A520BF50C100, .vpopc { g := 5, f1 := 3, f2 := 1, f3 := 0, x := 0, wsl := 33, wcnt := 21, ssl := 14, scnt := 37, ext := 32 }),
  (64, 0x8553A520C050061C, .vsat { g := 5, f1 := 0, f2 := 6, f3 := 7, x := 0, wsl := 33, wcnt := 21, ssl := 14, scnt := 37, ext := 32 }),
  (64, 0x8553A520C1524609, .vred { g := 5, f1 := 9, f2 := 6, f3 := 2, x := 1, wsl := 33, wcnt := 21, ssl := 14, scnt := 37, ext := 32 }),
  (64, 0x8553A5C0C250440B, .vscan { g := 5, f1 := 1, f2 := 4, f3 := 2, x := 3, wsl := 33, wcnt := 21, ssl := 14, scnt := 37, ext := 192 }),
  (64, 0x8553A510C3524400, .vtrans { g := 5, f1 := 9, f2 := 4, f3 := 0, x := 0, wsl := 33, wcnt := 21, ssl := 14, scnt := 37, ext := 16 }),
  (64, 0x8553A540C452431F, .vshift { g := 5, f1 := 9, f2 := 3, f3 := 7, x := 3, wsl := 33, wcnt := 21, ssl := 14, scnt := 37, ext := 64 }),
  (64, 0x8553A5C0C5500368, .vrowg { g := 5, f1 := 0, f2 := 3, f3 := 26, x := 0, wsl := 33, wcnt := 21, ssl := 14, scnt := 37, ext := 192 }),
  (64, 0x8553A580C6504300, .vpack { g := 5, f1 := 1, f2 := 3, f3 := 0, x := 0, wsl := 33, wcnt := 21, ssl := 14, scnt := 37, ext := 128 }),
  (64, 0x8553A580C7508100, .vunpk { g := 5, f1 := 2, f2 := 1, f3 := 0, x := 0, wsl := 33, wcnt := 21, ssl := 14, scnt := 37, ext := 128 }),
  (64, 0x8553A5C0C8558616, .vmxq { g := 5, f1 := 22, f2 := 6, f3 := 5, x := 2, wsl := 33, wcnt := 21, ssl := 14, scnt := 37, ext := 192 }),
  (64, 0x8553A580C9504416, .vmxd { g := 5, f1 := 1, f2 := 4, f3 := 5, x := 2, wsl := 33, wcnt := 21, ssl := 14, scnt := 37, ext := 128 }),
  (64, 0x8553A520CA50C114, .vmask { g := 5, f1 := 3, f2 := 1, f3 := 5, x := 0, wsl := 33, wcnt := 21, ssl := 14, scnt := 37, ext := 32 }),
  (64, 0x8553A510CB50D814, .vclass { g := 5, f1 := 3, f2 := 24, f3 := 5, x := 0, wsl := 33, wcnt := 21, ssl := 14, scnt := 37, ext := 16 })] = true := by decide +kernel

/-- Words of the vector4 family written out from R162 to R168 and the encodings of its rules. -/
theorem test_decode_vector4 : reads [
  (64, 0x8553A5C0CC505869, .vcopysgn { g := 5, f1 := 1, f2 := 24, f3 := 26, x := 1, wsl := 33, wcnt := 21, ssl := 14, scnt := 37, ext := 192 }),
  (64, 0x8553A580CD550115, .vldexp { g := 5, f1 := 20, f2 := 1, f3 := 5, x := 1, wsl := 33, wcnt := 21, ssl := 14, scnt := 37, ext := 128 }),
  (64, 0x8553A5C0CE50D800, .vgetexp { g := 5, f1 := 3, f2 := 24, f3 := 0, x := 0, wsl := 33, wcnt := 21, ssl := 14, scnt := 37, ext := 192 })] = true := by decide +kernel

/-- Words of the sync family written out from R162 to R168 and the encodings of its rules. -/
theorem test_decode_sync : reads [
  (32, 0x4F586500, .aslw 5 33 37),
  (32, 0x50586500, .asls 5 33 37),
  (32, 0x5150A500, .atlw 5 2 37),
  (32, 0x69586500, .lslw 5 33 37),
  (32, 0x6A586500, .lsls 5 33 37),
  (32, 0x6B50A500, .ltlw 5 2 37),
  (32, 0x7F586500, .wslw 5 33 37),
  (32, 0x80586500, .wsls 5 33 37),
  (32, 0x8150A500, .wtlw 5 2 37),
  (32, 0xCF586500, .vslw 5 33 37),
  (32, 0xD0586500, .vsls 5 33 37),
  (32, 0xD150A500, .vtlw 5 2 37)] = true := by decide +kernel
/-- Register fields that R169 reserves: a pair at 63, a vector register from 32, a mask or a queue from 8, a tile source
from 48, a timeline from 4. -/
theorem test_defect_register : defective .regField [
  .tld { quiet with f1 := 63 }, .tld { quiet with f2 := 63 }, .vld { quiet with f1 := 32 },
  .vcmp { quiet with f1 := 8 }, .gath { quiet with f2 := 8 }, .vadd { quiet with f2 := 48 },
  .vadd { quiet with f3 := 48 }, .vshape { quiet with x := 1, f1 := 63 }, .vbcast { quiet with x := 1, f2 := 32 },
  .vmov { quiet with x := 1, f1 := 8 }, .vmask { quiet with ext := 0x60, f2 := 32 }, .vmask { quiet with f3 := 8 },
  .atlw 0 4 0, .wtlw 0 4 0, .vtlw 0 4 0, .ltlw 0 4 0] = true := by decide +kernel

/-- Sluice fields that R166 and R168 reserve: 48 to 62, 63 with a count, and 63 in an instruction that must name one. -/
theorem test_defect_sluice : defective .sluice [
  .slwait 0 0 48 1, .slsig 0 0 48 1, .slwait 0 0 63 0, .tld { quiet with wsl := 48 }, .tld { quiet with ssl := 62 },
  .wmm { quiet with wsl := 63, wcnt := 1 }, .brun { quiet with ssl := 63, scnt := 1 },
  .aslw 0 48 1, .asls 0 48 1, .wslw 0 48 1, .wsls 0 48 1, .vslw 0 48 1, .vsls 0 48 1, .lslw 0 48 1,
  .lsls 0 63 0] = true := by decide +kernel

/-- Coded values that the rules of the instructions reserve. -/
theorem test_defect_value : defective .value [
  .sel 0 1 1 1 3, .loop 0 1 0 3 0 0 0, .loop 0 1 0 0 6 0 0, .pipeStart 0 0 1 3 0 0, .pipeStart 0 0 1 0 6 0,
  .fcvt 0 1 1 15 0, .amo 0 1 1 1 9 0 0 0, .amo 0 1 1 1 0 0 0 2, .amon 0 1 1 9 0 0 0, .amon 0 1 1 0 0 0 2,
  .cas 0 1 1 1 0 0 2, .cadd 0 1 1 0 0 4, .fence 0 0 0, .tlwait 0 1 4 0, .tlwait 0 1 0x26 0, .tlarm 0 1 1 0x3C,
  .sev 0 1 3, .scopy { quiet with x := 1 }, .gath { quiet with x := 2 }, .wmm { quiet with x := 1 },
  .vmin { quiet with x := 1 }, .viadd { quiet with x := 2 }, .cellrd { quiet with x := 2 }, .waclr { quiet with x := 2 }, .vshape { quiet with x := 2 },
  .vbcast { quiet with x := 3 }, .vred { quiet with x := 3 }, .tld { quiet with x := 1, ext := 0xF0 },
  .tld { quiet with x := 1, ext := 5 }, .celladd { quiet with ext := 0x40 }, .vadd { quiet with ext := 0xF0 },
  .vred { quiet with f3 := 6 }, .vcvt { quiet with ext := 0xF0 }, .vcvt { quiet with f3 := 15 },
  .vmask { quiet with ext := 0x70 }, .vmask { quiet with ext := 0x6F }] = true := by decide +kernel

/-- Bits that must be zero and are not. -/
theorem test_defect_mbz : defective .mbz [
  .loop 0 1 0 0 0 1 0, .loop 0 1 1 2 0 0 0, .pipeStart 0 0 1 1 0 1, .pipeStart 0 1 1 0 0 0, .fdsq 0 1 1 1 1,
  .csr 0 1 1 0 0x10, .pref { quiet with f1 := 1 }, .coll { quiet with f2 := 1 },
  .scopy { quiet with ext := 1 }, .tld { quiet with ext := 1 },
  .celladd { quiet with ext := 1 }, .vadd { quiet with ext := 1 }, .vred { quiet with f3 := 8 },
  .vcvt { quiet with f3 := 16 }, .vmask { quiet with ext := 1 },
  .waclr { quiet with ext := 8 }, .waclr { quiet with x := 1, ext := 1 }] = true := by decide +kernel

/-- Words that the decoder refuses: reserved opcodes, a length that the opcode does not permit, and a must-be-zero bit
(R162 to R165, R384). -/
theorem test_decode_refuses :
    ([(32, 0x00000000), (32, 0x3F000000), (32, 0xFF000000), (64, 0x0105145C), (32, 0x01000001)].all fun e =>
      (decodeTableWord e.1 e.2).isNone) = true := by decide +kernel
/-! ## Small states -/

/-- A task of context 1 at level D0 on core 0. -/
def task : Task := {
  ctx := 1, queue := 2, kseq := 5, node := 0, coords := [], linear := 0, member := 0, gang := 0, gangSize := 0
  level := 0, kernel := 0 }

/-- A core that runs it, with some scalars set and every predicate but p0 and p1 false. -/
def core0 : Core := {
  task := some task, line := 0x10000, regs := { s := [(1, 7), (2, 0x8000000000000000), (3, 0xFFFFFFFFFFFFFFFF)], p := 3 } }

/-- The machine at reset but for that core. -/
def st : State := State.reset.setCore 0 core0

/-- The machine with core 0 changed. -/
def stWith (f : Core → Core) : State := st.setCore 0 (f core0)

/-- The entry of core 0's TLB for a page of 64 KiB of context 1 at an address, with its leaf's low half and its frame. -/
def entry (base : Nat) (lo : Word) (frame : Nat) : TlbEntry := {
  ctx := 1, base := base, size := 0, lo := lo, hi := BitVec.ofNat 64 frame }

/-- Whether a meaning answers a next state. -/
def answers (o : Out) : Bool := match o with | .next _ => true | _ => false

/-- The state that a meaning answers, if it does. -/
def nextOf (o : Out) : Option State := match o with | .next t => some t | _ => none

/-! ## Single steps with results that the spec gives -/

/-- The scalar that a meaning leaves in a field. -/
def scalar (o : Out) (d : BitVec 6) : Option Word := (nextOf o).map fun t => t.here.readS d

/-- R194: a sum wraps modulo 2^64, and s0 discards a write. -/
theorem test_add_wraps :
    (scalar (exec (.add 0 4 3 1) st) 4 = some 6 ∧ scalar (exec (.add 0 0 3 1) st) 0 = some 0) := by decide +kernel

/-- R195: −2^63 by −1 gives −2^63, and a zero divisor gives all ones. -/
theorem test_div_corners :
    (scalar (exec (.div 0 4 2 3 0) st) 4 = some 0x8000000000000000 ∧
      scalar (exec (.div 0 4 1 0 0) st) 4 = some 0xFFFFFFFFFFFFFFFF) := by decide +kernel

/-- R194: an arithmetic shift keeps the sign, and only the low six bits of the count act. -/
theorem test_sar_sign : scalar (exec (.sar 0 4 2 3) st) 4 = some 0xFFFFFFFFFFFFFFFF := by decide +kernel

/-- R210: 1.0 + 2^-53 is a tie that rounds to even, and inexact. -/
theorem test_fadd_tie :
    let s := st.setCore 0 { core0 with regs := { s := [(1, 0x3FF0000000000000), (2, 0x3CA0000000000000)] } }
    ((nextOf (exec (.fadd 0 4 1 2 0) s)).map fun t => (t.here.readS 4, (t.ctx 1).flagsTask)) =
      some (0x3FF0000000000000, 1) := by decide +kernel

/-- R201: a taken CALL leaves the next line's address in s31 and goes `off` lines on. -/
theorem test_call :
    ((nextOf (exec (.call 0 1 4096) st)).map fun t => (t.here.readS 31, t.here.npc)) =
      some (0x10020, some (0x30000, 1)) := by decide +kernel

/-- R206: after one step of rotation, what was s32 is s33. -/
theorem test_rotation :
    let c : Core := { core0 with regs := { s := [(32, 9)], coil := { srot := 1 } } }
    (c.readS 33 = 9 ∧ c.readS 32 = 0) := by decide +kernel

/-- R211, R94: a store to the scratchpad window puts the bytes low byte first, and a load reads them back. -/
theorem test_scratchpad_store :
    let s := stWith fun c => { c with regs := { s := [(1, 0x01FFFFFFFFC00010), (2, 0x0102030405060708)] } }
    ((nextOf (exec (.st 0 2 1 0) s)).bind fun t =>
      (nextOf (exec (.ld 0 3 1 0) t)).map fun u => (Table.get 0 t.here.spad 0x10, u.here.readS 3)) =
      some (0x08, 0x0102030405060708) := by decide +kernel

/-- R128: a wait takes its count from a semaphore, and one that lacks it waits before its unit. -/
theorem test_slwait :
    let s := stWith fun c => c.setSluice 3 { count := 2, ceil := 4 }
    (((nextOf (exec (.slwait 0 0 3 2) s)).map fun t => ((t.here.sluice 3).count, t.here.blocked)) = some (0, none) ∧
      ((nextOf (exec (.slwait 0 0 3 3) s)).map fun t => ((t.here.sluice 3).count, t.here.blocked)) =
        some (2, some .before)) := by decide +kernel

/-- R373, R211: a misaligned load faults with 0x0115 at its address. -/
theorem test_misaligned :
    ((nextOf (exec (.ld 0 4 1 0) st)).bind fun t => t.here.pend.map fun f => (f.code, f.addr, f.slot)) =
      some (0x0115, 7, 1) := by decide +kernel

/-- R227: a write to a read-only CSR faults with 0x010C. -/
theorem test_csr_read_only :
    ((nextOf (exec (.csr 0 4 1 1 4) st)).bind fun t => t.here.pend.map fun f => (f.code, f.synd, f.aux)) =
      some (0x010C, 4, 1) := by decide +kernel

/-- R148, R150: an interrupt saves the resume point in h0 and goes to the handler; UIRET goes back. -/
theorem test_user_interrupt :
    let s := stWith fun c => { c with entered := true, ui := { vec := 0x40000, en := true, pending := [(9, {})] } }
    let t := (nextOf (exec (.userInterruptEntry 0) s)).getD s
    let u := (nextOf (exec (.sysUiret 0) t)).getD s
    (t.here.line = 0x40000 ∧ t.here.readS 56 = 0x10001 ∧ t.here.readS 57 = 9 ∧ u.here.npc = some (0x10000, 1) ∧
      u.here.ui.act = false) := by decide +kernel

/-- R168: a signal form alone in an idle engine adds its count at once. -/
theorem test_sync_signal :
    let s := stWith fun c => c.setSluice 3 { ceil := 4 }
    ((nextOf (exec (.vsls 0 3 2) s)).map fun t => ((t.here.sluice 3).count, (t.here.engine engVector).queue.length)) =
      some (2, 0) := by decide +kernel

/-- The first instruction after reset is the one placed where the machine fetches (R160, R161). -/
theorem test_first_step :
    (match step (State.reset.withFetchWord 32 0x14004083) with
      | .next t => decide ((t.core 0).readS 1 = 0xFFFFFFFFFFFFFF83) && decide ((t.core 0).slot = 2)
      | _ => false) = true := by decide +kernel

/-! ## Witnesses: states and operands that meet the hypotheses of each statement -/

/-- RegisterFile: no bundle open, and one; fields that are not 0 and differ; a handler with fields 56 and 63, and none; the
first and last logical numbers. -/
theorem witness_RegisterFile :
    (core0.snap = none ∧ (4 : BitVec 6) ≠ 0 ∧ (63 : BitVec 6) ≠ 4 ∧ (15 : BitVec 4) ≠ 0 ∧ (1 : BitVec 4) ≠ 15) ∧
    (let b : Before := { regs := core0.regs }
     ({ core0 with snap := some b } : Core).snap = some b ∧
       ({ core0 with ui := { act := true } } : Core).inHandler = true ∧ 56 ≤ (56 : BitVec 6).toNat ∧
       56 ≤ (63 : BitVec 6).toNat ∧ core0.inHandler = false ∧ 0 < 31 ∧ 30 < 31 ∧ 0 < 7 ∧ 6 < 7) := by decide +kernel

/-- FalseGuardHasNoEffect: a control instruction, an engine command and a sync form whose guard p2 is false. -/
theorem witness_FalseGuardHasNoEffect :
    (guardOf (.add 2 4 1 3) = some 2 ∧ guardOf (.wmm { quiet with g := 2 }) = some 2 ∧ guardOf (.ltlw 2 0 0) = some 2 ∧
      st.here.readP 2 = false) := by decide +kernel

/-- IntegerArithmeticResults: a divisor that is not 0. -/
theorem witness_IntegerArithmeticResults : st.here.readS 1 ≠ 0 := by decide +kernel

/-- DivisionNeverFaults: a divisor 0; −2^63 and −1. -/
theorem witness_DivisionNeverFaults :
    (st.here.readS 0 = 0 ∧ (st.here.readS 2).toInt = -2 ^ 63 ∧ (st.here.readS 3).toInt = -1) := by decide +kernel

/-- IntegerOperationsAreExact: zero, other values with bits above the leading and below the trailing one, and the bounds
of the byte numbers. -/
theorem witness_IntegerOperationsAreExact :
    ((0 : Word) = 0 ∧ (8 : Word) ≠ 0 ∧ 63 - (bitCount 1 8).toNat < 63 ∧ 0 < (bitCount 2 8).toNat ∧ 7 < 8 ∧
      4 ∈ [4, 8] ∧ 8 ∈ [4, 8]) := by decide +kernel

/-- ImmediateResults: both forms of SHI. -/
theorem witness_ImmediateResults :
    Instr.shi ∈ [Instr.shi, Instr.shiImm32] ∧ Instr.shiImm32 ∈ [Instr.shi, Instr.shiImm32] := by simp

/-- IntegerFrames: instructions that write one scalar, and the forms that write one predicate, which answer. -/
theorem witness_IntegerFrames :
    (scalarDest (.add 0 4 1 3) = some 4 ∧ answers (exec (.add 0 4 1 3) st) = true ∧ scalarDest (.ldi 0 63 5) = some 63 ∧
      answers (exec (.ldi 0 63 5) st) = true ∧
      answers (exec (.cmp 0 15 1 2 1) st) && answers (exec (.cmpi 0 1 1 1 5) st) &&
        answers (exec (.cmpiImm32 0 1 1 1 5) st) && answers (exec (.plog 0 1 0 1 0) st) = true) := by decide +kernel

/-- ScalarFloatResults: type codes on both sides of the signed integers' range. -/
theorem witness_ScalarFloatResults :
    (typeSigned 0 = false ∧ typeSigned 6 = false ∧ typeSigned 7 = true ∧ typeSigned 10 = true ∧ typeSigned 11 = false) := by
  decide +kernel

/-- ScalarFloatFrame: each of the six instructions answers. -/
theorem witness_ScalarFloatFrame :
    ([Instr.fadd 0 4 1 2 0, .fmul 0 4 1 2 1, .ffma 0 4 1 2 3, .fdsq 0 4 1 2 0, .fcvt 0 4 1 7 1, .fcmp 0 1 1 2 3].all
      fun i => answers (exec i st)) = true := by decide +kernel

/-- ControlTransfers: targets that are lines, and one whose low bits and one whose high bits are not zero. -/
theorem witness_ControlTransfers :
    (st.here.readS 0).toNat % 32 = 0 ∧ (st.here.readS 0).toNat < 2 ^ 57 ∧ (st.here.readS 1).toNat % 32 ≠ 0 ∧
      2 ^ 57 ≤ (st.here.readS 2).toNat ∧ Instr.jmp ∈ [Instr.jmp, Instr.ret] := by
  refine ⟨by decide +kernel, by decide +kernel, by decide +kernel, by decide +kernel, by simp⟩

/-- LoopAndPipeSteps: no coil, a coil whose passes are done, and one in its last pass. -/
theorem witness_LoopAndPipeSteps :
    let done : Coil := { cpn := 5, cpt := 4, cps := 2 }
    let last : Coil := { cpn := 4, cpt := 4, cps := 2 }
    (core0.regs.coil.cps = 0 ∧ max done.cpt.toNat 1 + done.cps.toNat - 1 ≤ done.cpn.toNat ∧ last.cps ≠ 0 ∧
      last.cpn.toNat < max last.cpt.toNat 1 + last.cps.toNat - 1) := by decide +kernel

/-- CoilRunsItsPasses: a coil of trip 3 and 2 stages (field 1) in its first, last and later passes. -/
theorem witness_CoilRunsItsPasses :
    (st.here.snap = none ∧ answers (exec (.pipeStart 0 0 1 2 0 3) st) = true ∧
      0 < max (3 : BitVec 8).toNat 1 + (1 : BitVec 3).toNat ∧ 3 < max (3 : BitVec 8).toNat 1 + (1 : BitVec 3).toNat ∧
      2 + 1 < max (3 : BitVec 8).toNat 1 + (1 : BitVec 3).toNat ∧
      max (3 : BitVec 8).toNat 1 + (1 : BitVec 3).toNat ≤ 4 ∧ 7 < 8) := by decide +kernel

/-- LoopRunsItsTrip: a free counter, and passes below the trip count. -/
theorem witness_LoopRunsItsTrip :
    (st.here.snap = none ∧ (st.here.loopCtr (5 : BitVec 3).toNat).act = false ∧ (4 : BitVec 6) ≠ 0 ∧ 0 < 1 ∧
      1 < max (3 : BitVec 8).toNat 1) := by decide +kernel

/-- The machine whose s1 addresses the scratchpad window at an offset. -/
def stSpad (off : Word) : State := stWith fun c => { c with regs := { s := [(1, 0x01FFFFFFFFC00000 + off), (2, 5)] } }

/-- ScratchpadAccesses: aligned accesses at the first and last granule of the window, and of the last byte by LDX, in the
short and the long form. -/
theorem witness_ScratchpadAccesses :
    ([0, 0x3FFFF8].all fun off =>
      let s := stSpad (BitVec.ofNat 64 off)
      let ok (n at' : Nat) (w : Bool) : Bool := match s.here.controlAccess at' n w with | .ok _ => true | _ => false
      decide ((s.here.ea5 1 0).toNat % 8 = 0) && decide (window? (s.here.ea5 1 0) = some off) &&
        decide (s.here.ea29 1 0 = s.here.ea5 1 0) && !s.here.softHit 1 (blocksOf 8 off 8) && ok 8 off false && ok 8 off true &&
        decide (s.here.dirtyLines = []) && decide (s.here.comb = none) && s.here.answered 7) = true ∧
    (let s := stSpad 0x3FFFFF
     decide ((s.here.readS 1 + s.here.readS 0).toNat % 2 ^ (0 : BitVec 2).toNat = 0) &&
       !s.here.softHit 1 (blocksOf 8 0x3FFFFF 1) &&
       (match s.here.controlAccess 0x3FFFFF 1 false with | .ok _ => true | _ => false) &&
       decide (window? (s.here.readS 1 + s.here.readS 0) = some 0x3FFFFF)) = true := by decide +kernel

/-- A machine of a torus of two devices whose s1 is an address on a page of context 1 with the leaf's low half `lo`. -/
def stFrame (frame : Nat) (va lo : Word) : State :=
  let s := stWith fun c => { c with
    regs := { s := [(1, va), (2, 0x1122334455667788), (3, 0x3F800000)] }
    tlb := [entry (va.toNat / 2 ^ 16 * 2 ^ 16) lo frame] }
  { s with fab := { s.fab with topo := 0x100000000 } }

/-- Such a machine whose page is at 0x200000 of its own memory. -/
def stPage (va : Word) (lo : Word) : State := stFrame 0x200000 va lo

/-- A page whose leaf allocates in no L1 data cache; one that is held there and written back; one whose stores stream; and
one of cells. -/
def plainLeaf : Word := 0x11F
def cachedLeaf : Word := 0x1F
def streamLeaf : Word := 0x81F
def cellLeaf : Word := 0x1F + 0x8000 + 0x10000000000000

/-- Which case of MemoryLoads a load of `n` bytes at an address of memory, of a peer or of a register meets: a plain page, a
polder page, bytes held, a line fetched, a peer's answer, a peer's line, a register, a request to send. -/
def loadCase (s : State) (i : Instr) (ea : Word) (n : Nat) : Option Nat :=
  let k := s.focus.toNat
  let a := s.control k
  match s.translate a Need.read ea (polderLoadCheck a ea n (slotWord i)) with
  | (u, .ok p) =>
    let w := u.flushOver k p.gpa n
    let held := cacheable p.lo && (w.core k).holds p.gpa n
    let lines := cacheable p.lo && !inControl p.gpa && !(w.core k).lineSpoilt a p.gpa n
    let got := a.received (if lines then p.gpa / 128 * 128 else p.gpa) (if lines then 128 else n) ea 0
    let one (b : Bool) (c : Nat) : Option Nat := if b && decide (ea.toNat % n = 0 ∧ window? ea = none) then some c else none
    match w.place p.gpa, p.params with
    | .mem la, some q => one (match w.polderRead q p.lo la n with | (_, .ok _) => true | _ => false) 1
    | .mem la, none =>
      if held then one true 2
      else if cacheable p.lo then
        let m := (w.roomL1 k p.gpa).touch p.lo (la / 128 * 128) 128 (some (k / 64))
        one (((m.core k).fillL1 (p.gpa / 128 * 128) (m.lineBytes (la / 128 * 128))).holds p.gpa n) 3
      else one (match w.homeRead p.lo la n with | (_, .ok _) => true | _ => false) 0
    | .peer _, _ =>
      if held then one true 2
      else match got with
        | some (.ok _) => one true (if lines then 5 else 4)
        | some (.error _) => none
        | none => one (!w.peerHeld (.stream k 0) (if lines then p.gpa / 128 * 128 else p.gpa) (p.span (if lines then 128 else n)) false) 7
    | .regs off, _ => one (decide (n = 8) && (w.taskRegRead a.ctx off).isSome) 6
    | _, _ => none
  | _ => none

/-- Which case of MemoryStores a store meets, and its home or device: 0 a store sent to its home or peer at once, 1 one kept
in the L1 data cache, 2 one combined, 3 a register's. -/
def storeCase (s : State) (i : Instr) (ea : Word) : Option (Nat × Nat) :=
  let k := s.focus.toNat
  let a := s.control k
  match s.translate a Need.write ea (noPolder a ea (slotWord i)) with
  | (u, .ok p) =>
    let w := if attrWpol p.lo = 2 then u else u.flushOver k p.gpa 8
    let c := if cacheable p.lo && attrWpol p.lo == 0 && !inControl p.gpa then 1
      else if attrWpol p.lo == 2 && !inControl p.gpa then 2 else 0
    if ea.toNat % 8 ≠ 0 ∨ window? ea ≠ none then none
    else
      match w.place p.gpa with
      | .mem la => some (c, la)
      | .peer dev =>
        if c = 0 && w.peerHeld (.stream k 0) p.gpa 8 true ||
            c = 2 && w.pendingOver (.stream k 0) (p.gpa / 256 * 256) 256 true then none else some (c, dev)
      | .regs off => (w.taskRegWrite a.ctx off (s.here.readS 2) 7 (some k)).map fun _ => (3, off)
      | _ => none
  | _ => none

/-- The place of the peer's page, and of queue 0's registers of context 1. -/
def peerFrame : Nat := 2 ^ 51 + 0x200000
def regsFrame : Nat := 0x7FF0001110000

/-- A machine whose control stream has an answer of `n` bytes from the peer. -/
def stAnswered (va lo : Word) (at' n : Nat) : State :=
  (stFrame peerFrame va lo).mapHere fun c => { c with
    held := [{ slot := c.curSlot, ask := { tag := 1, addr := at', len := n, got := some (List.replicate n 7) } }] }

/-- MemoryAccesses, loads: 8 bytes and 1 at the first and last place of a page that is not cached; on a polder page; bytes
held and a line fetched; an answer of a peer, alone and as a line; a register; and a request to send. -/
theorem witness_MemoryAccesses_loads :
    ([0x20000, 0x2FFF8].all fun va =>
      let s := stPage (BitVec.ofNat 64 va) plainLeaf
      decide (loadCase s (.ld 0 4 1 0) (s.here.ea5 1 0) 8 = some 0) &&
        decide (loadCase s (.ldImm32 0 4 1 0) (s.here.ea29 1 0) 8 = some 0) &&
        decide (loadCase s (.lda 0 4 1 0 3) (s.here.ea5 1 0) 8 = some 0) &&
        decide (loadCase s (.ldaImm32 0 4 1 0 3) (s.here.ea29 1 0) 8 = some 0)) = true ∧
    (let s := stPage 0x2FFFF plainLeaf
     loadCase s (.ldx 0 4 1 0 0) (s.here.readS 1 + s.here.readS 0) 1 = some 0) ∧
    (let ld (s : State) : Option Nat := loadCase s (.ld 0 4 1 0) (s.here.ea5 1 0) 8
     let full := (stPage 0x20008 cachedLeaf).mapHere fun c => c.fillL1 0x200000 (List.replicate 128 (some 7))
     [stPage 0x20008 cellLeaf, full, stPage 0x2FFF8 cachedLeaf, stAnswered 0x20008 plainLeaf (peerFrame + 8) 8,
       stAnswered 0x20008 cachedLeaf peerFrame 128, stFrame regsFrame 0x20000 plainLeaf,
       stFrame peerFrame 0x20008 plainLeaf].map ld = [some 1, some 2, some 3, some 4, some 5, some 6, some 7]) := by
  decide +kernel

/-- MemoryAccesses, stores: sent at once, kept in the L1 data cache, combined, and to a register, here and at a peer; and ST
and STL, each of which does its store, STL with a release that is answered. -/
theorem witness_MemoryAccesses_stores :
    (let st' (s : State) : Option (Nat × Nat) := storeCase s (.st 0 2 1 0) (s.here.ea5 1 0)
     [stPage 0x20000 plainLeaf, stPage 0x2FFF8 cachedLeaf, stPage 0x20000 streamLeaf, stFrame peerFrame 0x20000 plainLeaf,
       stFrame peerFrame 0x20000 cachedLeaf, stFrame peerFrame 0x2FFF8 streamLeaf, stFrame regsFrame 0x20000 plainLeaf].map st'
       = [some (0, 0x200000), some (1, 0x20FFF8), some (2, 0x200000), some (0, 1), some (1, 1), some (2, 1),
          some (3, 0x1110000)]) ∧
    (let s := stPage 0x20000 cachedLeaf
     let bs := toBytes 8 (s.here.readS 2).toNat
     let r := s.releaseBack 0 3
     ([Instr.st 0 2 1 0, .stImm32 0 2 1 0].all fun i => decide ((s.store i (s.here.ea5 1 0) bs).2 = none)) &&
       ([Instr.stl 0 2 1 0 3, .stlImm32 0 2 1 0 3].all fun i => decide ((s.store i (s.here.ea5 1 0) bs).2 = none) &&
         decide ((r.store i (s.here.ea5 1 0) bs).2 = none)) && r.here.answered 3) = true := by decide +kernel

/-- StoreFrame: a store to memory, one that stays in the L1 data cache, one to the scratchpad window, and STL, each of which
answers; and a byte that the core holds back and one that it does not. -/
theorem witness_StoreFrame :
    let s := stPage 0x20000 plainLeaf
    let h := stPage 0x20000 cachedLeaf
    let d := (h.storeBack { lo := cachedLeaf, size := 0, frame := 0x200000, off := 0, gpa := 0x200000 } 1 [7]).here
    (s.memr.migs = [] ∧ answers (exec (.st 0 2 1 0) s) = true ∧
      storeHome s (.st 0 2 1 0) (s.here.ea5 1 0) = some 0x200000 ∧ answers (exec (.stlImm32 0 2 1 0 1) s) = true ∧
      storeHome s (.stlImm32 0 2 1 0 1) (s.here.ea29 1 0) true = some 0x200000 ∧
      storeHome h (.st 0 2 1 0) (h.here.ea5 1 0) = none ∧ answers (exec (.st 0 2 1 0) h) = true ∧
      storeHome h (.stl 0 2 1 0 1) (h.here.ea5 1 0) true = some 0x200000 ∧
      d.unsent 0x200000 = true ∧ d.unsent 0x200001 = false ∧
      window? ((stSpad 8).here.ea5 1 0) = some 8 ∧ answers (exec (.stl 0 2 1 0 0) (stSpad 8)) = true ∧
      0 < 2 ^ 22 ∧ 2 ^ 22 - 1 < 2 ^ 22) := by decide +kernel

/-- Whether an atomic at s1 of a state meets the hypotheses of AtomicsAtTheHome. -/
def atomicMeets (s : State) (i : Instr) (need : Need) (n : Nat) (ord : BitVec 2) (sc : BitVec 3) (f : Nat → Nat) : Bool :=
  let ag := s.control s.focus.toNat
  let ea := s.here.readS 1
  match s.translate ag need ea (noPolder ag ea (slotWord i)) with
  | (t, .ok p) =>
    let r := if ord.getLsbD 1 then t.releaseBack t.focus.toNat sc.toNat else t
    let v := r.flushRange s.focus.toNat p.gpa n
    match t.place p.gpa with
    | .mem la => decide (ea.toNat % n = 0) && decide (window? ea = none) && (!ord.getLsbD 1 || r.here.answered sc.toNat) &&
        decide (v.place p.gpa = .mem la) && (match v.homeUpdate p.lo ag.ctx la n f with | (_, .ok _) => true | _ => false)
    | _ => false
  | _ => false

/-- Whether a CADD of FT `ft` at s1 of a state meets the hypotheses of AtomicsAtTheHome. -/
def caddMeets (s : State) (ft : BitVec 4) (ord : BitVec 2) (sc : BitVec 3) : Bool :=
  let ag := s.control s.focus.toNat
  let ea := s.here.readS 1
  match s.translate ag Need.add ea (caddCheck s.here ea ft) with
  | (t, .ok p) =>
    let n := match p.params with | some q => q.size | none => typeWidth ft.toNat / 8
    let r := if ord.getLsbD 1 then t.releaseBack t.focus.toNat sc.toNat else t
    let v := r.flushRange s.focus.toNat p.gpa n
    match t.place p.gpa with
    | .mem la => decide (window? ea = none) && (!ord.getLsbD 1 || r.here.answered sc.toNat) &&
        decide (v.place p.gpa = .mem la) &&
        (match v.homeAdd p ag.ctx la ft.toNat ((s.here.readS 3).toNat % 2 ^ typeWidth ft.toNat) with
          | (_, .ok _) => true | _ => false)
    | _ => false
  | _ => false

/-- AtomicsAtTheHome: AMO, AMON and CAS of 4 and 8 bytes at D0, AMON ADD at D2, and CADD to an ordinary element and to a
cell, with no order and with both. -/
theorem witness_AtomicsAtTheHome :
    let s := stPage 0x20008 plainLeaf
    let d2 := s.mapHere fun c => { c with task := some { task with level := 2 } }
    (s.here.determinate = false ∧ d2.here.determinate = true ∧ (0 : BitVec 4) ≠ 8 ∧
      atomicMeets s (.amo 0 4 1 2 0 0 0 0) Need.atomic 4 0 0 (fun o => amoOp 0 4 o 0x55667788) = true ∧
      atomicMeets s (.amo 0 4 1 2 8 2 3 1) Need.atomic 8 3 2 (fun o => amoOp 8 8 o 0x1122334455667788) = true ∧
      atomicMeets d2 (.amon 0 1 2 0 0 0 1) Need.add 8 0 0 (fun o => amoOp 0 8 o 0x1122334455667788) = true ∧
      atomicMeets s (.cas 0 4 1 2 1 3 1) Need.atomic 8 3 1 (fun o => if o = 0 then 0x1122334455667788 else o) = true ∧
      caddMeets s 1 0 0 = true ∧ caddMeets (stPage 0x20008 cellLeaf) 1 3 2 = true) := by decide +kernel

/-- AccessFaults: misaligned addresses, an address in the scratchpad window, and an atomic at D2; for CADD, a polder page
where the address is no multiple of the element's size, an ordinary one where it is no multiple of FT's width, and one at D1
where it is. -/
theorem witness_AccessFaults :
    let s := st
    let w := stSpad 8
    let at1 (s : State) : State := s.mapHere fun c => { c with task := some { task with level := 1 } }
    let d2 := at1 (stPage 0x20008 plainLeaf)
    ((s.here.ea5 1 0).toNat % 8 ≠ 0 ∧ (s.here.ea29 1 0).toNat % 8 ≠ 0 ∧
      (s.here.readS 1 + s.here.readS 0).toNat % 2 ^ (3 : BitVec 2).toNat ≠ 0 ∧
      (s.here.readS 1).toNat % (4 * 2 ^ (0 : BitVec 2).toNat) ≠ 0 ∧ (window? (w.here.readS 1)).isSome = true ∧
      d2.here.determinate = true ∧ (d2.here.readS 1).toNat % (4 * 2 ^ (1 : BitVec 2).toNat) = 0 ∧
      window? (d2.here.readS 1) = none) ∧
    (let page (s : State) : Option Page :=
       match s.lookup (s.control 0) 2 (s.here.readS 1).toNat with
       | (_, .ok e) =>
         if attrBit e.lo 5 = false ∧ attrBit e.lo 3 = true ∧ (s.here.readS 1).toNat < 2 ^ 57 ∧ window? (s.here.readS 1) = none
         then some (pageOf e (s.here.readS 1).toNat) else none
       | _ => none
     ((page (stPage 0x20001 cellLeaf)).bind fun p => p.params.map fun q => decide (p.off % q.rs ≠ 0)) = some true ∧
       ((page (stPage 0x20002 plainLeaf)).map fun p => p.params.isNone) = some true ∧
       0x20002 % (typeWidth (1 : BitVec 4).toNat / 8) ≠ 0 ∧ ((page d2).map fun p => p.params.isNone) = some true ∧
       0x20008 % (typeWidth (1 : BitVec 4).toNat / 8) = 0) := by decide +kernel

/-- MemoryOperations: no migration, no error, and a memory in canonical form. -/
theorem witness_MemoryOperations :
    (st.memr.migs = [] ∧ st.merr = [] ∧ Memory.wf st.mem = true ∧
      Memory.wf ({ st with mem := [(7, 1), (9, 255)] } : State).mem = true) := by decide +kernel

/-- CellAddsCommute: two orders of three addends. -/
theorem witness_CellAddsCommute (a b c : Fp) : [a, b, c].Perm [b, a, c] := List.Perm.swap b a [c]

/-- FenceEffects: nothing unanswered, and a packet to a peer unanswered at a scope above CORE. -/
theorem witness_FenceEffects :
    ((st.releaseBack 0 3).here.answered 3 = true ∧
      ((stWith fun c => { c with postedTags := [4] }).releaseBack 0 1).here.answered 1 = false) := by decide +kernel

/-- A core with sluices: 3 a semaphore that holds 2 of 4, 4 a barrier whose phase is complete, 5 one whose phase is not. -/
def sluiced : Core :=
  ((core0.setSluice 3 { count := 2, ceil := 4 }).setSluice 4 { barrier := true, ceil := 2 }).setSluice 5
    { barrier := true, ceil := 2, arrive := 1 }

/-- SluiceEffects: waits that are ready and that are not on either kind of sluice; a signal up to the ceiling and one above
it; and writes of SLSET at the bounds of the index, of a barrier with and without gangs, and of ceilings at D2. -/
theorem witness_SluiceEffects :
    let s := State.reset.setCore 0 sluiced
    let c := s.here
    let gangs := s.setHere { c with task := some { task with kernel := BitVec.ofNat 1024 (2 ^ 419) } }
    let d2 := s.setHere { c with task := some { task with level := 2 } }
    (c.determinate = false ∧ (0 : BitVec 6) = 0 ∧ (2 : BitVec 6) ≠ 0 ∧ c.softHit 3 [softSluice 3] = false ∧
      (c.sluice 3).barrier = false ∧
      (2 : BitVec 6).toNat ≤ (c.sluice 3).count.toNat ∧ (c.sluice 3).count.toNat < (3 : BitVec 6).toNat) ∧
    ((c.sluice 4).barrier = true ∧ (c.sluice 4).phase = (c.sluice 4).arrive ∧ (c.sluice 5).barrier = true ∧
      (c.sluice 5).phase ≠ (c.sluice 5).arrive) ∧
    ((c.sluice 3).count.toNat + (2 : BitVec 6).toNat ≤ (c.sluice 3).ceil.toNat ∧
      ¬(c.sluice 3).count.toNat + (3 : BitVec 6).toNat ≤ (c.sluice 3).ceil.toNat ∧
      (s.releaseBack 0 1).here.answered 1 = true) ∧
    (48 ≤ (0x30 : Word).toNat % 64 ∧ (0x2F : Word).toNat % 64 < 48 ∧ (0x802F : Word).getLsbD 15 = true ∧
      (0x802F : Word).toNat % 64 < 48 ∧ kGang c.kernel = false ∧ kGang gangs.here.kernel = true ∧
      d2.here.determinate = true ∧ (0x21002F : Word).getLsbD 15 = false ∧
      32 < (0x21002F : Word).toNat / 2 ^ 16 % 2 ^ 16 ∧ (0x20002F : Word).toNat / 2 ^ 16 % 2 ^ 16 ≤ 32) := by
  decide +kernel

/-- SluiceEffects at D2: a semaphore that no stream has used, one that this stream has, whose log holds an entry and none
past a total, and one that another stream has, with counts that suffice and that do not; an error in a sluice; a signal held
for an answer of a peer; arrivals at a barrier that are accepted and refused; and, where two clauses meet, a
signal past the ceiling of a sluice that another stream signalled first. -/
theorem witness_SluiceEffects_determinate :
    let log : List LogEntry := [{ total := 2, vec := {} }]
    let c : Core := { core0 with task := some { task with level := 2 }, soft := [(3, softSluice 7)], postedTags := [5] }
    let c := c.setSluice 3 { count := 2, ceil := 4 }
    let c := c.setSluice 4 { count := 2, ceil := 4, firstWait := some 0, firstSig := some 0, log := log }
    let c := c.setSluice 5 { count := 2, ceil := 4, firstWait := some 2, firstSig := some 2 }
    let s := State.reset.setCore 0 c
    let b := State.reset.setCore 0
      (({ core0 with task := some { task with gang := 1, gangSize := 2 } } : Core).setSluice 4 { barrier := true, ceil := 2 })
    let r := b.releaseBack 0 1
    let w := b.mapHere fun c => { c with postedTags := [5] }
    (s.here.determinate = true ∧ s.here.softHit 3 [softSluice 7] = true ∧ s.here.softHit 3 [softSluice 3] = false ∧
      (c.sluice 3).firstWait = none ∧ (c.sluice 4).firstWait = some 0 ∧ (c.sluice 5).firstWait = some 2 ∧ (2 : Nat) ≠ 0 ∧
      (c.sluice 3).firstSig = none ∧ (c.sluice 4).firstSig = some 0 ∧ (c.sluice 5).firstSig = some 2 ∧
      (2 : BitVec 6).toNat ≤ (c.sluice 4).count.toNat ∧ (c.sluice 4).count.toNat < (3 : BitVec 6).toNat ∧
      (s.releaseBack 0 1).here.answered 1 = false ∧ (s.releaseBack 0 0).here.answered 0 = true ∧
      ¬(c.sluice 5).count.toNat + (3 : BitVec 6).toNat ≤ (c.sluice 5).ceil.toNat) ∧
    ((b.arrive 0 4).isOk = true ∧ r.here.answered 1 = true ∧
      (match r.arrive r.focus.toNat 4 with | .ok _ => true | .error _ => false) = true ∧
      ((w.releaseBack 0 1).here.answered 1) = false ∧ (w.arrive 0 4).isOk = true ∧
      (match b.arrive 0 5 with | .ok _ => false | .error _ => true) = true) := by decide +kernel

/-- BarrierArrivals: a gang of two at its first arrival and at its last. -/
theorem witness_BarrierArrivals :
    let c : Core := { core0 with task := some { task with gang := 1, gangSize := 2 } }
    let c := c.setSluice 4 { barrier := true, ceil := 2 }
    let s := State.reset.setCore 0 c
    let last := { s with barriers := [(barrierKey 1 4, (1, 2))] }
    let q := (s.core 0).sluice 4
    ((s.core 0).gang ≠ 0 ∧ q.ceil ≠ 0 ∧ q.ceil.toNat ≤ (((s.core 0).task.map Task.gangSize).getD 0) ∧
      (s.barrier 1 4).1 = 0 ∧ q.ceil = (last.barrier 1 4).2 ∧ q.arrive = q.phase ∧
      (s.barrier 1 4).1 + 1 ≠ q.ceil ∧ (last.barrier 1 4).1 + 1 = q.ceil ∧ 0 < 256 ∧ (last.core 0).gang = (last.core 0).gang) := by
  decide +kernel

/-- TimelineEffects: a counter below and at its threshold, action words that are legal and one that is not, and full
tables of the core and of the context. -/
theorem witness_TimelineEffects :
    let s := stWith fun c => c.setEngine engCopy { tl := 7 }
    let arm : Arm := { counter := 0, threshold := 9, action := 0x3000000000000000, core := 0, kseq := 5, queue := 2,
                       coords := [], line := 0, slot := 1, order := 0 }
    let full := s.mapHere fun c => { c with arms := List.replicate 16 arm }
    let wide := s.setCtx 1 { s.ctx 1 with arms := List.replicate 256 arm }
    (actionOk 0x3000000000000000 = true ∧ actionOk 0 = false ∧ 16 ≤ full.here.arms.length ∧
      256 ≤ (wide.ctx 1).arms.length ∧ ¬ 16 ≤ s.here.arms.length ∧ (3 : BitVec 8).toNat < 4 ∧ ¬ (0x10 : BitVec 8).toNat < 4 ∧
      (s.here.engine 0).tl.toNat < (8 : Word).toNat ∧ (7 : Word).toNat ≤ (s.here.engine 0).tl.toNat ∧
      ((s.ctx 1).counter 0x10).toNat < (1 : Word).toNat ∧ (0 : Word).toNat ≤ ((s.ctx 1).counter 0x10).toNat) := by
  decide +kernel

/-- QueueAndEventEffects: queue registers that the control stream may and may not use, empty, held and full; latches, in
and outside a bundle; and fields of QCFG that a write changes and keeps. -/
theorem witness_QueueAndEventEffects :
    let c : Core := { core0 with qcfg := 0x9 }
    let one := c.setQueueReg 7 [5]
    let full := c.setQueueReg 7 (List.replicate 8 5)
    (c.qReader (0 : BitVec 3).toNat ≠ 0 ∧ c.qWriter (0 : BitVec 3).toNat ≠ 0 ∧ c.qReader (7 : BitVec 3).toNat = 0 ∧
      c.qWriter (7 : BitVec 3).toNat = 0 ∧ c.softHit 3 [7] = false ∧
      ({ c with soft := [(3, 7)] } : Core).softHit 3 [7] = true ∧ c.queueReg 7 = [] ∧ one.queueReg 7 = [5] ∧ (one.queueReg 7).length < 8 ∧
      8 ≤ (full.queueReg 7).length) ∧
    (let seen (c : Core) : BitVec 3 := (c.snap.map Before.latch).getD c.latch
     seen core0 = 0 ∧ seen { core0 with latch := 1 } ≠ 0 ∧ seen { core0 with snap := some { latch := 4 } } ≠ 0 ∧
      seen { core0 with latch := 1, snap := some {} } = 0 ∧ 0 < 256 ∧ 255 < 256 ∧ 0 < 8 ∧ 7 < 8 ∧
      (0x9 : Word).toNat / 2 ^ 0 % 64 ≠ core0.qcfg.toNat / 2 ^ 0 % 64 ∧
      (0x9 : Word).toNat / 2 ^ 42 % 64 = core0.qcfg.toNat / 2 ^ 42 % 64) := by decide +kernel

/-- TaskControlEffects: format queues with room and full; a handler; a safe point past the live map, and one on an entry that
is read and is well formed; an answered release; queues with room for a run and full. -/
theorem witness_TaskControlEffects :
    let fq (n : Nat) : Core := { core0 with fmtq := List.replicate n 0 }
    let s : State := (stPage 0x20000 plainLeaf).mapHere fun c => { c with
      task := some { task with kernel := BitVec.ofNat 1024 (2 * 2 ^ 504 + 0x20000 * 2 ^ 440) } }
    let q (n : Nat) : Queue := { pending := List.replicate n { value := 0, img := 0 } }
    let full := st.setCtx 1 ((st.ctx 1).setQueue 2 (q 64))
    ((fq 15).fmtq.length < 16 ∧ 16 ≤ (fq 16).fmtq.length ∧ kLiveCnt s.here.kernel ≤ (2 : BitVec 8).toNat ∧
      s.here.inHandler = false ∧ ({ core0 with ui := { act := true } } : Core).inHandler = true ∧
      (1 : BitVec 32).toNat < kLiveCnt s.here.kernel ∧ (st.releaseBack 0 2).here.answered 2 = true ∧
      ((st.ctx 1).queue 2).pending.length < 64 ∧ 64 ≤ ((full.ctx 1).queue 2).pending.length) ∧
    (match s.readBytes (s.control 0) (kLiveAddr s.here.kernel + BitVec.ofNat 64 (32 * 1)) 32 with
      | (_, .ok bs) => liveOk (ofBytes bs)
      | _ => false) = true := by decide +kernel

/-- CsrEffects: no bundle open, and one that keeps the value of a CSR; numbers of each kind, at the ends of their ranges; and the
status of a sluice that holds an error, the first and the last, and of one beside it. -/
theorem witness_CsrEffects :
    (core0.snap = none ∧ (([(0x10, 7)] : List (Nat × Word)).find? fun e => e.1 == 0x10) = some (0x10, 7) ∧
      csrKind (6 : BitVec 12).toNat = .reserved ∧ csrKind (0x130 : BitVec 12).toNat = .reserved ∧
      csrKind (5 : BitVec 12).toNat = .ro ∧ csrKind (0x12F : BitVec 12).toNat = .ro ∧ (1 : BitVec 2) ≠ 0 ∧
      csrKind (8 : BitVec 12).toNat = .rw ∧ csrKind (0x31 : BitVec 12).toNat = .rw ∧ (3 : BitVec 2) ≠ 0) ∧
    (let c (k : Nat) : Core := { core0 with soft := [(3, softSluice k)] }
     csrKind (0x100 : BitVec 12).toNat ≠ .reserved ∧ 0x100 ≤ (0x100 : BitVec 12).toNat ∧
      (c 0).softHit 3 [softSluice ((0x100 : BitVec 12).toNat - 0x100)] = true ∧
      (c 47).softHit 3 [softSluice ((0x12F : BitVec 12).toNat - 0x100)] = true ∧
      (c 0).softHit 3 [softSluice ((0x101 : BitVec 12).toNat - 0x100)] = false ∧ ¬0x100 ≤ (0x04 : BitVec 12).toNat ∧
      csrKind (0x04 : BitVec 12).toNat ≠ .reserved) := by
  decide +kernel

/-- UserInterruptsAndSys: a pending interrupt that is enabled, at a bundle boundary, with a clean and a dirty byte of the L1
data cache; and other shadow registers. -/
theorem witness_UserInterruptsAndSys :
    let s := stWith fun c => { c with
      entered := true, ui := { vec := 0x40000, en := true, pending := [(9, {})] }
      l1d := [(1, some { byte := 1, dirty := false }), (2, some { byte := 1, dirty := true })] }
    ((s.core (0 : BitVec 8).toNat).uintReady = true ∧ s.atBoundary (0 : BitVec 8).toNat = true ∧
      (s.core (0 : BitVec 8).toNat).ui.pending = (9, {}) :: [] ∧ 1 < 2 ∧ 1 ≠ (0 : BitVec 8).toNat ∧
      ((s.core 0).l1d.filter fun b => (b.2.map L1Byte.dirty).getD false).length = 1) := by decide +kernel
/-- Whether an instruction is a command that its state dispatches: its guard true, its operands accepted, and room in its
engine's queue. -/
def dispatches (s : State) (i : Instr) : Bool :=
  match command? i with
  | some m => s.here.readP m.ex.g && (m.fault s.here).isNone && decide ((s.here.engine m.eng).queue.length < 32)
  | none => false

/-- The machine whose core 0 has every scalar 0 and one format word. -/
def stFmt (w : Word) : State := stWith fun c => { c with regs := {}, fmtq := [w] }

/-- A command of element type `t`, and one under a mask. -/
def typed (t : BitVec 4) : Ex := { quiet with ext := t ++ (0 : BitVec 4) }
def masked (t : BitVec 4) : Ex := { quiet with ext := t ++ (8 : BitVec 4) }

/-- CopyCommandsDispatch: every copy command, on an idle engine. -/
theorem witness_CopyCommandsDispatch :
    ([Instr.tld, Instr.tst, Instr.tldx, Instr.tstx, Instr.tldb, Instr.gath, Instr.scat, Instr.scopy, Instr.sfill,
      Instr.pref, Instr.celladd, Instr.cellclr, Instr.cellrd, Instr.cellxc, Instr.brun].all fun mk =>
      dispatches (stFmt 0) (mk quiet)) = true := by decide +kernel

/-- LinkCommandsDispatch: every link command, on an idle engine and after a dirty byte; LFENCE with a true guard. -/
theorem witness_LinkCommandsDispatch :
    ([Instr.lput, Instr.lget, Instr.lsig, Instr.lcell, Instr.coll, Instr.lwaitc, Instr.lbar, Instr.lnotify].all fun mk =>
      dispatches (stFmt 0) (mk quiet)) = true ∧
    (st.here.readP quiet.g = true ∧ (st.here.engine engLink).queue.length < 32) := by decide +kernel

/-- WeaveCommandsDispatch: every weave command with a format word that it accepts, dense ones of FP64 or FP16 operands
and sparse ones of FP16 weights; and an empty format queue. -/
theorem witness_WeaveCommandsDispatch :
    ([Instr.wld, Instr.wswap, Instr.wmm, Instr.wmmt, Instr.wdrain, Instr.waclr, Instr.wprom, Instr.wacc, Instr.wmva,
      Instr.wread].all fun mk => dispatches (stFmt 0) (mk quiet)) = true ∧
    ([Instr.wlds, Instr.wmms, Instr.wmmst, Instr.wopas].all fun mk => dispatches (stFmt 0x22004000) (mk quiet)) = true ∧
    dispatches (stFmt 0x22000000) (.wopa quiet) = true ∧ st.here.fmtq = [] := by decide +kernel

/-- The machine whose task has a kernel with these fields, on a page of plain memory at 0x20000 that holds these bytes from
its start. -/
def stKernel (k : Nat) (bytes : List Byte) : State :=
  let s := stPage 0x20000 plainLeaf
  { s.mapHere fun c => { c with task := some { task with kernel := BitVec.ofNat 1024 k }, regs := {} } with
    mem := Table.setList 0 s.mem 0x200000 bytes }

/-- A pool of one record at 0x20000, a tensor of rank 1 of FP64. -/
def stPool : State := stKernel (2 ^ 128 + 0x20000 * 2 ^ 64) (List.replicate 62 0 ++ [4, 0x10])

/-- VectorCommandsDispatch: every vector command under an element type that it takes; VSHAPE from a scalar and, with the
record of a tensor of rank 1 at the pool's address, from a tensor. -/
theorem witness_VectorCommandsDispatch :
    ([Instr.vld, Instr.vst, Instr.vbcast, Instr.vmov, Instr.vcvt, Instr.vred, Instr.vscan, Instr.vtrans, Instr.vshift,
      Instr.vrowg, Instr.vmask].all fun mk => dispatches (stFmt 0) (mk quiet)) = true ∧
    ([Instr.vsel, Instr.vpack, Instr.vunpk].all fun mk => dispatches (stFmt 0) (mk (masked 1))) = true ∧
    ([Instr.vmxq, Instr.vmxd].all fun mk => dispatches (stFmt 0) (mk (typed 4))) = true ∧
    ([Instr.vadd, Instr.vsub, Instr.vmul, Instr.vfma, Instr.vfms, Instr.vfnma, Instr.vdiv, Instr.vsqrt, Instr.vmin,
      Instr.vmax, Instr.vabs, Instr.vneg, Instr.vcmp, Instr.vround, Instr.vexp, Instr.vexp2, Instr.vlog, Instr.vlog2,
      Instr.vrcp, Instr.vrsq, Instr.vtanh, Instr.vsigm, Instr.vsin, Instr.vcos, Instr.verf, Instr.vclass,
      Instr.vcopysgn, Instr.vldexp, Instr.vgetexp].all fun mk => dispatches (stFmt 0) (mk (typed 1))) = true ∧
    ([Instr.viadd, Instr.visub, Instr.vimul, Instr.vmulhi, Instr.vimin, Instr.vimax, Instr.viabs, Instr.vand, Instr.vor,
      Instr.vxor, Instr.vshl, Instr.vshr, Instr.vsar, Instr.vicmp, Instr.vclz, Instr.vpopc, Instr.vsat].all fun mk =>
      dispatches (stFmt 0) (mk (typed 7))) = true ∧
    (st.here.readP quiet.g = true ∧ (st.here.engine engVector).queue.length < 32 ∧
      (nthD 0 ((stFmt 0).here.capture quiet) 0).toNat < 2 ^ 50) ∧
    (let s := stPool
     match s.poolRecord (s.control s.focus.toNat) s.here.kernel
         (TileWord.of false (nthD 0 (s.here.capture { quiet with x := 1 }) 2)).handle with
     | (u, .ok r) => tensorOk r && u.here.readP 0 && decide ((u.here.engine engVector).queue.length < 32) &&
         decide (tileCheck 2 false (nthD 0 (s.here.capture { quiet with x := 1 }) 2) = none)
     | _ => false) = true := by decide +kernel

/-- The engine of a core that holds a queue of a given length of sync forms. -/
def fullQueue (n : Nat) : Engine := { queue := List.replicate n { instr := .aslw 0 0 0 } }

/-- CommandDispatchRules: a bad descriptor, a full queue, and a queue with one entry before the command. -/
theorem witness_CommandDispatchRules :
    let bad := stWith fun c => { c with regs := { s := [(1, 0xFFFFFFFFFFFFFFFF)] } }
    let full := (stFmt 0).mapHere fun c => c.setEngine engCopy (fullQueue 32)
    let some' := (stFmt 0).mapHere fun c => c.setEngine engCopy (fullQueue 31)
    ((command? (.scopy { quiet with f1 := 1 })).map fun m => (m.fault bad.here).isSome && bad.here.readP m.ex.g) = some true ∧
    ((command? (.scopy quiet)).map fun m =>
      (m.fault full.here).isNone && decide (32 ≤ (full.here.engine m.eng).queue.length)) = some true ∧
    (dispatches some' (.scopy quiet) && !(some'.here.engine engCopy).queue.isEmpty &&
      answers (exec (.scopy quiet) some')) = true := by decide +kernel

/-- SyncForms: a true guard and room in each engine; and at an idle engine of an active core at D0 a wait form at the head
of the queue, on a semaphore that holds its count and on one that does not. -/
theorem witness_SyncForms :
    let q : QEntry := { instr := .vslw 0 3 2 }
    let s := stWith fun c => (c.setSluice 3 { count := 2, ceil := 4 }).setEngine engVector { queue := [q] }
    let c := s.core 0
    (st.here.readP 0 = true ∧ (st.here.engine engCopy).queue.length < 32 ∧ (st.here.engine engLink).queue.length < 32 ∧
      c.active = true ∧ c.determinate = false ∧ (c.engine engVector).started = none ∧
      (c.engine engVector).queue = [q] ∧ c.softHit 3 [softSluice 3] = false ∧ c.softHit 3 [softEng engVector] = false ∧
      (c.sluice (3 : BitVec 6).toNat).barrier = false ∧ (2 : BitVec 6) ≠ 0 ∧
      (2 : BitVec 6).toNat ≤ (c.sluice (3 : BitVec 6).toNat).count.toNat ∧
      (c.sluice (3 : BitVec 6).toNat).count.toNat < (3 : BitVec 6).toNat) := by decide +kernel

/-- A command whose effects are all made and acknowledged, that signals sluice 3 by one. -/
def ended : Started := { entry := { instr := .scopy { quiet with ssl := 3, scnt := 1 }, num := 1 }, done := true }

/-- CommandCompletes: such a command in flight before another, and alone at work. -/
theorem witness_CommandCompletes :
    let c := core0.setSluice 3 { ceil := 1 }
    let flying := State.reset.setCore 0 (c.setEngine engCopy { flight := [ended, ended] })
    let alone := State.reset.setCore 0 (c.setEngine engCopy { started := some ended })
    (((flying.core 0).engine engCopy).flight = [ended, ended] ∧ ((alone.core 0).engine engCopy).flight = [] ∧
      ((alone.core 0).engine engCopy).started = some ended ∧ ended.complete = true ∧ ended.endFault = none ∧
      (flying.core 0).determinate = false ∧ ended.flags &&& (flying.ctx 1).trapEn = 0 ∧ (flying.core 0).arms = [] ∧
      ended.entry.signal = some (3, 1) ∧ (1 : BitVec 16) ≠ 0 ∧ (flying.core 0).softHit 3 [softSluice 3] = false ∧
      ((flying.core 0).sluice 3).barrier = false ∧
      ((flying.core 0).sluice 3).count.toNat + (1 : BitVec 16).toNat ≤ ((flying.core 0).sluice 3).ceil.toNat) := by
  decide +kernel

/-- The machine with one instruction word, and its continuation, in slot 1 of the line that core 0 fetches. -/
def stCode (nbits w : Nat) : State := State.reset.withFetchWord nbits w

/-- CoreEventEffects: a line that is fetched, with a header whose LCTL is zero and one whose is not; an engine slot that
waited for its queue and now dispatches, alone in its line, from the meaning's own answer and from its command, operands and
queue. -/
theorem witness_CoreEventEffects :
    let w := 0xFC0FC000 * 2 ^ 32 + 0x47000000
    let s := stCode 64 w
    let bad := { s with mem := Table.set 0 s.mem 0 0x31 }
    let full := s.mapHere fun c => ({ c with blocked := some .queueFull } : Core).setEngine engCopy (fullQueue 31)
    ((s.core 0).active &&
      (match s.fetchLine 0 with | (_, .ok line) => headerLctl (lineWord line 0) == 0 | _ => false) &&
      (match bad.fetchLine 0 with | (_, .ok line) => headerLctl (lineWord line 0) != 0 | _ => false) &&
      (full.core 0).active && (full.core 0).blocked == some .queueFull &&
      (match full.fetchLine 0 with
        | (u, .ok line) =>
          let d := u.core 0
          let unit := takeUnit ((decodeLine line).filter fun y => decide (d.slot ≤ y.num))
          (match (unit.filter slotEngine).drop d.unitDone with
            | x :: _ =>
              let w := { u.setCore 0 { d with curSlot := x.num, blocked := none } with focus := 0 }
              match x.what with
              | .ok i =>
                (match dispatchEngine i w with
                  | some (.next t) => t.here.blocked == none && t.here.pend == none
                  | _ => false) &&
                (match command? i with
                  | some m => d.pend == none && w.here.readP m.ex.g && (m.fault w.here).isNone &&
                      decide (0 < (w.here.engine m.eng).queue.length ∧ (w.here.engine m.eng).queue.length < 32)
                  | none => false)
              | .error _ => false
            | [] => false)
        | _ => false)) = true := by decide +kernel

/-- CoreEventEffects: the acknowledgements of the control stream and of a command, at the ends of the field's range. -/
theorem witness_CoreEventEffects_acknowledgement :
    let st' : Started := { ended with homeAck := true }
    let c := core0.setEngine engLink { flight := [ended], started := some st' }
    (4 ≤ (4 : BitVec 3).toNat ∧ 4 ≤ (7 : BitVec 3).toNat ∧ (3 : BitVec 3).toNat < 4 ∧
      ((c.engine (3 : BitVec 3).toNat).flight ++ (c.engine (3 : BitVec 3).toNat).started.toList).find? Started.homeAck =
        some st') := by decide +kernel

/-- A kernel whose pool holds one tensor of rank 1, of two 32-bit elements at 0x20100, with PAD 0xAB, on a page that core 0
and its die hold; bytes in its scratchpad; and the command of an engine on one row of its columns. -/
def stTensor : State :=
  let s := stKernel (2 ^ 128 + 0x20000 * 2 ^ 64)
    (toBytes 64 (2 ^ 508 + 2 ^ 504 + 2 ^ 498 + 2 ^ 65 + 0x20100 + 0xAB * 2 ^ 336) ++ List.replicate 192 0 ++
      [1, 2, 3, 4, 5, 6, 7, 8])
  { s.mapHere fun c => { c with spad := [(0x40, 0x11), (0x41, 0x22), (0x44, 0x33)] } with
    l2tlb := [(0, [entry 0x20000 plainLeaf 0x200000])] }

def tensorJob (i : Instr) (eng cols : Nat) (cnt : Word) : Job :=
  { core := 0, eng := eng,
    q := { instr := i, num := 1, ops := [0x40, 0, 0, 0, BitVec.ofNat 64 (2 ^ 12 + cols * 2 ^ 24), cnt] } }

/-- CopyCommandsDispatch, its data effect: TLD of one row of three columns, of which the last lies outside the tensor. -/
theorem witness_CopyCommandsDispatch_tileLoad :
    let s := stTensor
    let j := tensorJob (.tld quiet) engCopy 3 0
    let tw := TileWord.of false (j.op 4)
    ((runnerOf (.tld quiet)).isSome && j.row + 1 == tw.rows &&
    (match s.tensor (s.agent j.core j.eng) (s.jobKernel j) tw.handle with
    | (u, .ok t) =>
      let len := rowBytes tw.cols (rWidth t.desc)
      let d := Desc.of (j.op 0) (j.op 1)
      (descLengths 1 (j.op 0) (j.op 1) 1 tw.rows len).isNone &&
        (match u.begin j [] (d.hull 1 tw.rows len) with
        | .ok v =>
          let xs := (List.range tw.cols).map fun c => j.coords tw 0 j.row c
          (v.tilePages j tw t.desc (j.coords tw)).isNone && xs.any (fun x => !(layoutMap t.desc x).2.2) &&
            (match v.loadRow (v.agent j.core j.eng) tw.handle t (slotWord (.tld quiet)) none xs with
            | (w, .ok (vs, _)) => decide ((w.core j.core).soft = []) && vs == [0x04030201, 0x08070605, 0xAB]
            | _ => false)
        | .error _ => false)
    | _ => false)) = true := by decide +kernel

/-- LinkCommandsDispatch, its data effect: LPUT of the same row, of which two elements are sent, with its counter behind the
tensor. -/
theorem witness_LinkCommandsDispatch_delivery :
    let s := stTensor
    let j := tensorJob (.lput quiet) engLink 3 0x20200
    let tw := TileWord.of false (j.op 4)
    ((runnerOf (.lput quiet)).isSome && j.row + 1 == tw.rows &&
    (match s.tensor (s.agent j.core j.eng) (s.jobKernel j) tw.handle with
    | (u, .ok t) =>
      let b := rWidth t.desc
      let len := rowBytes tw.cols b
      let d := Desc.of (j.op 0) (j.op 1)
      (descLengths 1 (j.op 0) (j.op 1) 1 tw.rows len).isNone &&
        (match u.begin j (d.hull 1 tw.rows len) [] with
        | .ok v =>
          let els := ((List.range tw.cols).map fun c =>
            (layoutMap t.desc (j.coords tw 0 j.row c), (v.core j.core).element d 0 j.row c b)).filter fun e => e.1.2.2
          (v.tilePages j tw t.desc (j.coords tw)).isNone && decide ((v.core j.core).soft = []) &&
            (match v.planRow (v.agent j.core j.eng) (slotWord (.lput quiet)) (joinWrites (rowWrites b els [])) with
            | (w, .ok [(p, 0)]) =>
              (match w.countPage (w.agent j.core j.eng) (slotWord (.lput quiet)) (j.op 5) with
              | (y, .ok (some q)) =>
                (match p.place, y.place q.gpa with
                | .mem la, .mem lc =>
                  (decide (lc + 8 ≤ la) || decide (la + p.bytes.length ≤ lc)) && p.bytes.length == 8 &&
                    y.memr.migs.isEmpty && y.merr.isEmpty && y.fab.requests.isEmpty && y.partDone j == 0
                | _, _ => false)
              | _ => false)
            | _ => false)
        | .error _ => false)
    | _ => false)) = true := by decide +kernel

/-- WeaveCommandsDispatch, its data effect: WMM of one row against a dense buffer of FP32 with K and N two. -/
theorem witness_WeaveCommandsDispatch_product :
    let e : Ex := { quiet with ext := 2 }
    let b : WBuf := {
      word := bufferWord 0 false 1 2 2
      cells := [(0, 0x3F800000), (1, 0x40000000), (128, 0x40400000), (129, 0x40800000)] }
    let s := stWith fun c => { c with weave := { c.weave with active := b } }
    let j : Job := { core := 0, eng := engWeave, q := {
      instr := .wmm e, num := 1, fmt := 0x11000000, ops := [0, 0, BitVec.ofNat 64 (2 ^ 22 + 2 ^ 12 + 2)] } }
    let f := FmtWord.of j.q.fmt
    let d := Desc.of (j.op 0) (j.op 1)
    ((runnerOf (.wmm e)).isSome = true ∧ (s.core 0).weave.active = b ∧ b.empty = false ∧ b.wfmt = f.wfmt ∧
      b.sparse = false ∧ b.n ≤ (View.of f.afmt).cols ∧ shapeM (j.op 2) = j.row + 1 ∧ j.row < 128 ∧
      weaveLengths 1 (j.op 0) (j.op 1) (j.row + 1) b.k f.afmt (takesScales f.afmt f.scl) = none ∧
      (match s.begin j (d.weaveHull (j.row + 1) b.k f.afmt (takesScales f.afmt f.scl)) [] with
        | .ok u => (u.core 0).soft.isEmpty
        | .error _ => false) = true) := by decide +kernel

/-- VectorCommandsDispatch, its data effect: VADD of two columns of a tile of three. -/
theorem witness_VectorCommandsDispatch_lanes :
    let e : Ex := { quiet with f1 := 3, f2 := 1, f3 := 2, ext := 0x10 }
    let s := stWith fun c => { c with tiles := [(1, 0x400000003F800000), (2, 0x3F8000003F800000)] }
    let j : Job := { core := 0, eng := engVector, q := {
      instr := .vadd e, num := 1, shape := BitVec.ofNat 64 (2 ^ 37 + 2 * 2 ^ 24 + 2) } }
    ((runnerOf (.vadd e)).isSome && fpType (vType e) && (Geom.of j.q.shape).fits [typeWidth (vType e)] (vMsk e) &&
      (match s.vecBegin j (queuesOf [e.f2, e.f3]) [] [4096 + 3] (tilesOf [e.f2, e.f3]) (vMasks e) with
        | (u, none) => ((u.core 0).activeOf e (Geom.of j.q.shape)).length == 2
        | _ => false)) = true := by decide +kernel

/-- The machine after bring-up. -/
def up (s : State) : State := { s with stew := { s.stew with up := true, phase := 5 } }

/-- RegisterRowsAct: bring-up not complete, and complete; a queue of attestation requests with room. -/
theorem witness_RegisterRowsAct : (st.stew.up = false ∧ (up st).stew.up = true ∧ (up st).stew.attQueue.length ≤ 8) := by decide +kernel

/-- A core frozen with a task. -/
def stFrozen : State :=
  let s := up (stWith fun c => { c with frozen := true })
  { s with stew := { s.stew with frozen := [{ master := 0, ctx := 1, addr := 0x7000 }], frzList := [0, 1] } }

/-- RegisterReadsAndFreezes: bring-up not complete, and complete; the first and last port, an empty and a filled list of frozen masters, and a frozen core that
is released and reset. -/
theorem witness_RegisterReadsAndFreezes :
    let s := stFrozen
    ((0 : BitVec 3).toNat < 6 ∧ (5 : BitVec 3).toNat < 6 ∧ st.stew.up = false ∧ (up st).stew.up = true ∧
      (up st).stew.frzList = [] ∧ s.stew.frzList = 0 :: [1] ∧
      s.stew.up = true ∧ 0 < 256 ∧ (0x10000 : Word).toNat % 2 ^ 16 = 0 ∧
      s.stew.frozen.find? (fun g => g.master == (0x10000 : Word).setWidth 16) = some { master := 0, ctx := 1, addr := 0x7000 } ∧
      (0x10000 : Word).toNat / 2 ^ 16 % 4 = 1 ∧
      s.stew.frozen.find? (fun g => g.master == (0x20000 : Word).setWidth 16) = some { master := 0, ctx := 1, addr := 0x7000 } ∧
      (0x20000 : Word).toNat % 2 ^ 16 = 0 ∧ (0x20000 : Word).toNat / 2 ^ 16 % 4 = 2 ∧ (s.core 0).task.isSome = true ∧
      (s.core 0).pend = none) := by decide +kernel

/-- A machine in which the context that function 1 of port 0 has maps plain memory, through three tables from 0x40000 on,
as one page of 1 GiB. -/
def stTables : State :=
  let s := up st
  let s := { s with stew := { s.stew with vfbind := [(0, 0x41), (1, 0x41)] } }
  let s := s.setCtx 1 { s.ctx 1 with ptbase := 0x400000, fqbase := 0x900000, fqen := true }
  -- level 3 at 0x400000: entry 0 names the level 2 table at 0x2000; its entry 0 is a leaf
  let put (m : List Host.Cell) (a v : Nat) : List Host.Cell := Table.setList 0 m a (toBytes 8 v)
  { s with mem := put (put (put (put [] 0x400000 1) 0x400008 0x2000) 0x2000 0x11F) 0x2008 0 }

/-- ControlSpaceAccess: accesses before bring-up, unaligned, read-only, of each register named; a powered management port;
a function with nothing in progress, with and without a context, and frozen; and a read and a write of BAR2 that reach
memory. -/
theorem witness_ControlSpaceAccess :
    let s := stTables
    let ice : State := { s with stew := { s.stew with frozen := [{ master := hostMaster 1, ctx := 1, addr := 0 }] } }
    let ag : Agent := { ctx := 1, akind := 9, aidx := 0, sup := false, issuer := some (.host 1) }
    (st.stew.up = false ∧ 0x201 % 8 ≠ 0 ∧ 0 < 0x100 ∧ s.stew.up = true ∧ s.stew.powered = true ∧ 63 < 64 ∧
      s.hostq = [] ∧ s.hostWaits 1 = false ∧ s.isFrozen (hostMaster 1) = false ∧ (0 : BitVec 6) = 0 ∧
      0x200 < 0x01000000 ∧ 0x05000000 ≤ 0x05000000) ∧
    (ice.hostq = [] ∧ ice.hostWaits 1 = false ∧ ice.isFrozen (hostMaster 1) = true ∧ 0x07FFFFF8 % 8 = 0 ∧
      0x07FFFFF8 < 2 ^ 27 ∧ 0xFFFF8 % 8 = 0 ∧ 0xFFFF8 < 0x100000 ∧ (1 : BitVec 6) ≠ 0) ∧
    (st.stew.context? 1 = none ∧ s.stew.context? 1 = some 1 ∧ 0 < ([1] : List Byte).length ∧
      (s.bar2 1 0x300000).toNat % 4096 + 1 ≤ 4096 ∧ window? (s.bar2 1 0x300000) = none ∧
      (s.bar2 1 0x300000).toNat % 4096 + 4096 ≤ 4096) ∧
    (match s.translate ag Need.write (s.bar2 1 0x300000) (noPolder ag (s.bar2 1 0x300000) 0) with
      | (t, .ok g) =>
        (match t.place g.gpa with | .mem la => la == 0x300000 | _ => false) && decide (g.gpa % 2 ^ 51 < 0x7FF0000000000)
      | _ => false) = true ∧
    (match s.translate ag Need.read (s.bar2 1 0x300000) (fun _ => none) with
      | (t, .ok g) =>
        (match t.place g.gpa with | .mem la => la == 0x300000 | _ => false) &&
          (polderLoadCheck ag (s.bar2 1 0x300000) 4096 0 g).isNone && decide (g.gpa % 2 ^ 51 < 0x7FF0000000000)
      | _ => false) = true := by decide +kernel
/-! ### The graph engine and the schedulers -/

/-- A node's 512 bytes: its kind and its body above bit 512. -/
def nodeOf (kind body : Nat) : BitVec 4096 := BitVec.ofNat 4096 (kind + body * 2 ^ 512)

/-- A kernel record of one task at 0x10000, with its parameter block at 0x20000, 8 bytes long. -/
def kernelBits : Nat := 0x10000 + 8 * 2 ^ 144 + 0x20000 * 2 ^ 160

/-- The kernel of such a record, released by node 0 of queue 2 of context 1. -/
def kernel : Kernel := {
  ctx := 1, queue := 2, node := 0, kseq := 5, level := 0, record := BitVec.ofNat 1024 kernelBits, params := 7
  devCoords := some [], readyAt := 0 }

/-- The image of graph 3 that the first upload made: one kernel node. -/
def image : GraphImg := { graph := 3, serial := 1, count := 1, nodes := [(0, nodeOf 0 kernelBits)] }

/-- The machine with tables in force for context 1, and its queue 2 as given. -/
def stQueue (u : Queue) : State :=
  let s := stTables
  s.setCtx 1 (({ s.ctx 1 with images := [image], nextImg := 1 } : Ctx).setQueue 2 u)

/-- RunsAndDigests: a pending run of a graph that is there, and of one that is not; a completed D2 kernel without output
regions, with an error of the digest engine and without; and a digest whose turn it is. -/
theorem witness_RunsAndDigests :
    let good : Trigger := { value := 3, img := 1 }
    let s := stQueue { pending := [good] }
    let c := s.ctx 1
    let bad := (stQueue { pending := [{ value := 9, img := 1 }] }).ctx 1
    let d := { stQueue {} with kernels := [{ kernel with level := 2, digesting := true }] }
    let h : Queue := { chain := [(1, .digest [5])] }
    ((c.queue 2).run = none ∧ (c.queue 2).pending = good :: [] ∧ (c.queue 2).halt = false ∧ c.uploading good = false ∧
      c.imageAt (good.value.setWidth 16) good.img = some image ∧ h.head? = some (.digest [5])) ∧
    ((match c.expand good.img 5 (good.value.setWidth 16) [] none 0 [] with
        | .ok ns => decide (ns.map RunNode.kind = [0])
        | .error _ => false) &&
      (match s.readPatches (s.graphAgent 1 2 7) (patchAddr good.value) [0] with | (_, .ok ps) => ps.isEmpty | _ => false) &&
      (match bad.expand 1 5 9 [] none 0 [] with | .error _ => true | .ok _ => false) &&
      decide ((bad.queue 2).run = none ∧ (bad.queue 2).halt = false ∧ bad.uploading { value := 9, img := 1 } = false) &&
      (match d.digestKernel 1 2 with
        | some k => (match d.outputBytes (d.graphAgent 1 2 8) k.record with
          | (t, .ok bs) => bs.isEmpty && !t.digestBad
          | _ => false)
        | none => false) &&
      (match ({ d with digestBad := true } : State).outputBytes (d.graphAgent 1 2 8) kernel.record with
        | (t, .ok _) => t.digestBad
        | _ => false)) = true := by decide +kernel

/-- A queue whose run has these nodes. -/
def running (ns : List RunNode) : Queue := { run := some { graph := 3, nodes := ns } }

/-- A node of graph 3. -/
def runNode (kind : Nat) (state : NodeSt) (body : Nat) : RunNode := {
  graph := 3, idx := 0, kind := kind, body := nodeOf kind body, state := state }

/-- NodesAct: a node of every kind, ready and at work; a level node beside a kernel that awaits its digest; and a call with a
completed node. -/
theorem witness_NodesAct :
    (([2, 3, 4, 5, 6].all fun k =>
      let e := runNode k .ready 0x10
      let s := stQueue (running [e])
      decide (s.node? 1 2 0 = some e ∧ e.bad = false ∧ s.unchained 1 2 e = false) &&
        s.kernels.all fun k => !(k.ctx == 1 && k.queue == 2)) &&
      (let s := { stQueue (running [runNode 4 .ready 0x10]) with
         kernels := [{ kernel with ctx := 1, queue := 2, digesting := true }] }
       s.kernels.all fun k => !(k.ctx == 1 && k.queue == 2) || k.digesting) &&
      (let sub := { runNode 4 .completed 0 with parent := some 0 }
       let s := stQueue (running [runNode 6 .active 3, sub])
       decide (s.node? 1 2 0 = some (runNode 6 .active 3)) &&
         ((s.ctx 1).queue 2).run == some { graph := 3, nodes := [runNode 6 .active 3, sub] } &&
         [runNode 6 .active 3, sub].all fun d => d.parent != some 0 || d.state == .completed)) = true := by
  decide +kernel

/-- A pool at 0x30000: a mesh of one device, a sharding that replicates four elements, and two tensors of them. -/
def collPool : List Byte :=
  let r (n : Nat) : List Byte := toBytes 64 n
  r (2 * 2 ^ 508 + 1 + 2 ^ 18) ++ r (3 * 2 ^ 508 + 4 * 2 ^ 128 + 2 ^ 160 + 2 ^ 192 + 2 ^ 224) ++
    r (2 ^ 508 + 1 * 2 ^ 504 + 2 ^ 498 + 4 * 2 ^ 64 + 0x40000) ++ r (2 ^ 508 + 1 * 2 ^ 504 + 2 ^ 498 + 4 * 2 ^ 64 + 0x50000)

/-- The descriptor of a collective over that pool, with its counter at 0x60000. -/
def collDesc : Nat := 0x60000 * 2 ^ 448 + 0x30000 * 2 ^ 384 + 2 * 2 ^ 180 + 3 * 2 ^ 168 + 2 ^ 144 + 2 ^ 132

/-- NodesAct: a ready kernel node whose record has no defect, and a ready collective node of a mesh of one device. -/
theorem witness_NodesAct_release :
    let e := runNode 0 .ready kernelBits
    let s := stQueue (running [e])
    let a := s.graphAgent 1 2 7
    let r : BitVec 1024 := BitVec.ofNat 1024 (nodeBits e.body 1535 512)
    let f := runNode 1 .ready collDesc
    let t := stQueue (running [f])
    let t := { t with mem := Table.setList 0 t.mem 0x30000 collPool }
    let b := { t.graphAgent 1 2 7 with sup := false }
    let d := nodeBits f.body 1023 512
    (s.node? 1 2 0 = some e ∧ kernelDefects r = [] ∧ t.node? 1 2 0 = some f) ∧
    ((match s.deviceCoords a r with
        | (u, .ok _) =>
          (match u.planWrite a Need.write (kParmAddr r) (((toBytes 256 7).take (kParmLen r)).map some)
              (fun v _ p => noPolder a v 0 p) with
            | (_, .ok ws) => !ws.isEmpty
            | _ => false)
        | _ => false) &&
      (match t.checkColl b d 0 { addr := BitVec.ofNat 64 (dPool d), count := none } true with
        | (u, .ok c) => (match u.newWait.1.beginColl b c (.node 1 2 0) u.newWait.2 with | (_, .ok ()) => true | _ => false)
        | _ => false)) = true := by decide +kernel

/-- UploadsAndFaultQueue: an upload that is accepted, ones that are refused for a reserved bit, for an address that is not
a multiple of 512 and for the quota; a drop; an upload that is read; and a record for a queue with room. -/
theorem witness_UploadsAndFaultQueue :
    let s (cmd src : Word) (quota : Nat) : State :=
      let s := stTables
      s.setCtx 1 { s.ctx 1 with gucmd := cmd, gusrc := src, gquota := quota }
    let good := s 0x10003 0x1000 16
    let c := good.ctx 1
    let odd := (s 0x10003 0x1001 16).ctx 1
    let small := s 0x10003 0x1000 1
    let drop := (s 0x10000003 0 0).ctx 1
    let up : Upload := { src := 0x1000, cmd := 0x10003, serial := 1 }
    let busy := good.setCtx 1 { good.ctx 1 with uploads := [up] }
    let rec1 : Record := { bits := 1, fseq := 1, notice := false }
    let held := good.setCtx 1 { good.ctx 1 with held := [rec1] }
    let h := held.ctx 1
    (c.gucmd.toNat < 2 ^ 29 ∧ c.gusrc.toNat % 512 = 0 ∧ (good.slotsWith 1 c.gucmd).1 ≤ c.gquota ∧
      (good.slotsWith 1 c.gucmd).2 ≤ 65536 ∧ c.gucmd.getLsbD 28 = false ∧ c.uploads = [] ∧
      ¬ (0x20000003 : Word).toNat < 2 ^ 29 ∧ odd.gusrc.toNat % 512 ≠ 0 ∧
      (small.ctx 1).gquota < (small.slotsWith 1 (small.ctx 1).gucmd).1 ∧ drop.gucmd.toNat < 2 ^ 29 ∧
      drop.gucmd.getLsbD 28 = true ∧ (busy.ctx 1).uploads = [up] ∧ up.cmd.getLsbD 28 = false) ∧
    ((match busy.readBytes { busy.graphAgent 1 0 9 with sup := true } up.src (512 * uploadNodes up.cmd) with
        | (t, .ok _) => (t.ctx 1).images.all fun i => decide (i.serial ≤ up.serial)
        | _ => false) = true) ∧
    (h.held = rec1 :: [] ∧ h.fqen = true ∧ (h.fqtail - h.fqhead).toNat < 2 ^ h.fqlog ∧
      held.place ((h.fqbase.toNat / 64 * 64 + 64 * (h.fqtail.toNat % 2 ^ h.fqlog)) % 2 ^ 64) = .mem 0x900000) := by
  decide +kernel

/-- The machine with one kernel released. -/
def stKernels (k : Kernel) : State := { stTables with kernels := [k] }

/-- A kernel whose gang has two tasks: one CORES level of extent 2. -/
def gangKernel : Kernel := { kernel with
  record := BitVec.ofNat 1024 (kernelBits + 2 ^ 416 + 2 ^ 419 + (2 ^ 16 + 2) * 2 ^ 224 + 5 * 2 ^ 520) }

/-- A kernel whose gang has 64 tasks on die 0, and waits five cycles before it reserves. -/
def wideKernel : Kernel := { kernel with
  kseq := 6
  record := BitVec.ofNat 1024
    (kernelBits + 2 * 2 ^ 416 + 2 ^ 419 + (2 ^ 16 + 64) * 2 ^ 224 + (2 * 2 ^ 16 + 1) * 2 ^ 256 + 5 * 2 ^ 520) }

/-- TasksStart: a kernel's task that the scheduler gives core 0; a gang that die 0 places, and one that it places again;
and a gang that waits for a die on which one core is taken. -/
theorem witness_TasksStart :
    let s : State := { stKernels kernel with cores := [] }
    let g : State := { stKernels gangKernel with cores := [] }
    let again : Kernel := { gangKernel with relaunch := [0], next := [(0, 2)] }
    let r : State := { stKernels again with cores := [] }
    let w : State := { stKernels wideKernel with now := 9 }
    (s.choice ((0 : BitVec 8).toNat / 64) = some (.task kernel 0, (0 : BitVec 8).toNat) ∧ kernel.level = 0 ∧
      g.gangChoice (0 : BitVec 2).toNat = some gangKernel ∧ 1 < gangKernel.count 0 ∧ gangKernel.lane 0 ∉ gangKernel.relaunch ∧
      r.gangChoice (0 : BitVec 2).toNat = some again ∧ again.lane 0 ∈ again.relaunch ∧ again.queue < 16 ∧
      ¬ (0 : Nat) < (0 : BitVec 2).toNat) ∧
    ((match w.cands 0 with | (_, .gang k) :: _ => k == wideKernel | _ => false) = true ∧
      w.reservingDie 0 wideKernel = 0 ∧ (w.gangFree 0 wideKernel).length < wideKernel.count 0 ∧
      w.reserving 0 = none ∧ (∀ d, d < 4 → w.reservesFor d wideKernel = false) ∧
      kResv wideKernel.record ≤ w.now - wideKernel.readyAt) := by decide +kernel

/-- TasksLeave: an exiting task with nothing left to do; a draining one whose work is acknowledged; and a stopped one
outside a gang, with everything acknowledged. -/
theorem witness_TasksLeave :
    let e := (stWith fun c => { c with exiting := true }).core 0
    let w : Outstanding := { stream := 1, num := 4, homeAck := false, tags := [] }
    let d := (stWith fun c => { c with draining := some { task := task, work := [w] } }).core 0
    let f : FaultInfo := { code := 0x0101 }
    let s := stWith fun c => { c with pend := some f, stopping := .fault }
    (e.task = some task ∧ e.exiting = true ∧ e.active = true ∧ e.stopping = .no ∧ e.draining = none ∧
      (∀ k, k < 4 → (e.engine k).localDone = true) ∧ e.inFlight = []) ∧
    (d.draining = some { task := task, work := [w] } ∧ d.frozen = false ∧ w.homeAck = false ∧ w.tags = [] ∧ w.waits = []) ∧
    ((s.core 0).task = some task ∧ (s.core 0).pend = some f ∧ s.settled 0 = true ∧ s.abortTurn task f = true ∧
      ((s.writeBackAll 0).core 0).postedTags = [] ∧ task.gang = 0) := by decide +kernel

/-- A task saved by pre-emption on core 0, and one stopped there by a fault and released. -/
def saved : SavedTask := { core := 0, state := core0 }
def stopped (r : Bool) : SavedTask := { saved with faulted := true, fseq := 3, released := some r }

/-- The machine whose context 1 has saved tasks, its cores free. -/
def stSaved (v : SavedTask) : State :=
  let s := stTables
  { s.setCtx 1 { s.ctx 1 with saved := [v] } with cores := [] }

/-- PreemptionAndResume: a task past its slice while a task of another context waits; a request past its deadline, and one
that awaits the boundary after a safe point; a save at a safe point whose image can be written; a task saved by pre-emption that may resume; and stopped tasks released to
resume and to be discarded. -/
theorem witness_PreemptionAndResume :
    let other : Kernel := { kernel with ctx := 2 }
    let sliced : State :=
      let s := { stKernels other with now := 100 }
      s.setCtx 1 { s.ctx 1 with slice := 50, predl := 20 }
    let late : State := sliced.setCore 0 { core0 with preemptAt := some 80, entered := true }
    let soon : State := late.setCore 0 { late.core 0 with stopping := .soon }
    let leaving : State := stTables.setCore 0 { core0 with stopping := .safePoint }
    let full : Core := { core0 with stopping := .full }
    ((sliced.core 0).task = some task ∧ (sliced.core 0).preemptAt = none ∧ (sliced.core 0).stopping = .no ∧
      (sliced.ctx 1).slice ≠ 0 ∧ (sliced.ctx 1).slice.toNat ≤ sliced.now - task.since ∧
      ((sliced.cands 0).any fun d => d.2.foreign 1) = true ∧
      (late.core 0).preemptAt = some 80 ∧ (late.core 0).stopping = .no ∧ late.atBoundary 0 = true ∧
      (late.ctx 1).predl.toNat ≤ late.now - 80 ∧ (soon.core 0).task.isSome = true ∧ (soon.core 0).stopping = .soon ∧
      soon.atBoundary 0 = true) ∧
    ((leaving.core 0).task = some task ∧ (leaving.core 0).stopping = .safePoint ∧ full.stopping = .full ∧
      (leaving.core 0).pend = none ∧ leaving.settled 0 = true ∧ (leaving.core 0).postedTags = [] ∧
      (match (leaving.setCore 0 { leaving.core 0 with posted := false }).writeImage 1 0
          ((leaving.core 0).parked.partsLive 0) with
        | (_, none) => true
        | _ => false) = true) ∧
    (let s := stSaved saved
     s.coreFree 0 = true ∧ (s.core 0).reserved = none ∧
       ((s.cands 0).map Prod.snd).find? (s.fits 0) = some (.saved saved) ∧ saved.state.ctx? = some 1) ∧
    (let s := stSaved (stopped true)
     let t := stSaved (stopped false)
     (s.ctx 1).firstStopped = some (stopped true) ∧ s.resumes (stopped true) = true ∧ s.coreFree 0 = true ∧
       (s.core 0).reserved = none ∧ (t.ctx 1).firstStopped = some (stopped false) ∧
       (stopped false).released.isSome = true ∧ t.resumes (stopped false) = false ∧
       (stopped false).state.task = some task) ∧
    (let v := { saved with safe := true }
     let s := stSaved v
     let far := s.setCtx 1 { s.ctx 1 with saveBase := 0x7FFFFFFF0000 }
     let parts := v.state.partsLive v.state.liveEntry.toNat
     st.stew.up = false ∧ stTables.stew.up = true ∧
       (match s.readImage 1 0 v.state parts with | (_, .ok _) => true | _ => false) = true ∧
       (match far.readImage 1 0 v.state parts with | (_, .error _) => true | _ => false) = true) := by
  decide +kernel

/-! ### Memory, steward, fabric and berm engines -/

/-- The machine with its memory registers changed. -/
def stMemory (f : MemRegs → MemRegs) : State := { st with memr := f st.memr }

/-- MemoryEventsAct: an invalidation with nothing held back, while a request of the context is out and without one; a
migration that is accepted and one that is refused; an active one with its first granule to copy; a channel that may retire,
and fills with nothing left and with an error left; and an epoch with one frame that reached its threshold in die 3. -/
theorem witness_MemoryEventsAct :
    let tlb := st.setCtx 1 { st.ctx 1 with tlbinvQueue := [5] }
    let out : Request := { tag := 9, dst := 1, issuer := .host 1, sentAt := 0, va := 0, addr := 0, len := 8, write := true, ctx := 1 }
    let waits := { tlb with fab := { tlb.fab with requests := [out] } }
    let ask := up (stMemory fun m => { m with migSubL := 0x100000 })
    let g : Migration := { old := 0x100000, new := 0x200000, size := 0 }
    let mig := stMemory fun m => { m with migs := [g] }
    let busy := stMemory fun m => { m with chBusy := true }
    let bad := { busy with merr := [(9, 1)] }
    let hot := stMemory fun m => { m with hpctl := 5 * 2 ^ 48 + 1, hpCounts := [(4 * 3 + 3, 5)] }
    ((tlb.ctx 1).tlbinvQueue = 5 :: [] ∧ tlb.fab.requests = [] ∧ waits.fab.requests = [out] ∧ out.ctx = 1 ∧
      (st.core 0).dirtyLines = [] ∧ (st.core 0).comb = none ∧ st.stew.up = false ∧ ask.stew.up = true ∧
      ask.migRefusal ask.memr.migSubL 0x200000 = none ∧
      (ask.migRefusal ask.memr.migSubL 0x100000).isSome = true ∧ mig.memr.migs[0]? = some g ∧
      g.nextGranule < frameBytes g.size / 256 ∧ Table.get false g.arrived g.nextGranule = false ∧
      (up st).memr.chBusy = false ∧ (383 : Word).toNat < 384 ∧ (383 : Word).toNat ∈ st.memr.live ∧ 1 < st.memr.live.length ∧
      busy.memr.chBusy = true ∧ busy.merr = [] ∧ bad.memr.retNext ≤ 9 / 8 ∧ isFar (32 * 9) = false ∧
      bad.memr.retired? (32 * 9) = false) ∧
    (hot.memr.hpctl.getLsbD 0 = true ∧ hot.memr.hpCounts = [(4 * 3 + 3, 5)] ∧ 3 < 4 ∧
      hot.memr.hpctl.toNat / 2 ^ 48 ≤ 5 ∧ Table.get false hot.memr.hpPinned 3 = false ∧
      hot.memr.pendingAdds 3 = false ∧ hot.memr.hpQueue.length < 256) := by decide +kernel

/-- MemoryEventsAct: nothing is held back on any core of the machine without work. -/
theorem witness_MemoryEventsAct_sent :
    ∀ k, (State.reset.core k).dirtyLines = [] ∧ (State.reset.core k).comb = none := by
  intro k; exact ⟨rfl, rfl⟩

/-- The machine whose far extent 255 of port 1 is in a state. -/
def stExtent (state : Nat) : State :=
  stMemory fun m => { m with extents := [(511, { base := 0x200000000000, len := 1, state := state })] }

/-- ExtentsLive: the last extent in each of its states; bring-up not complete, and complete. -/
theorem witness_ExtentsLive :
    ([0, 1, 2, 3].all fun k =>
      decide (((stExtent k).memr.extent (1 : BitVec 1).toNat (255 : BitVec 8).toNat).state = k)) = true ∧
    (0x200000000000 : Word).toNat % 2 ^ 28 = 0 ∧ (stExtent 2).memr.migs = [] ∧ (stExtent 1).stew.up = false ∧
    (up (stExtent 2)).stew.up = true := by decide +kernel

/-- StewardActs: a marked cluster without tasks; the device up, with power above, within and below the bounds of its cap;
temperatures above and below the bounds, and above the emergency one; readings of each kind on both sides of their bounds;
and a powered device. -/
theorem witness_StewardActs :
    let s := up State.reset
    let s := { s with stew := { s.stew with clgate := [(3, 0x8000)], pcap := 1000 } }
    ((Table.get 0 s.stew.clgate (3 : BitVec 2).toNat).getLsbD (15 : BitVec 4).toNat = true ∧
      (∀ j, j < 4 → (s.core (64 * 3 + 4 * 15 + j)).task = none ∧ (s.core (64 * 3 + 4 * 15 + j)).draining = none) ∧
      s.stew.up = true ∧ s.stew.pcap.toNat < (1001 : BitVec 16).toNat ∧
      ¬ s.stew.pcap.toNat < (1000 : BitVec 16).toNat ∧ (949 : BitVec 16).toNat * 100 < s.stew.pcap.toNat * 95 ∧
      ¬ (950 : BitVec 16).toNat * 100 < s.stew.pcap.toNat * 95 ∧ 1600 < (1601 : BitVec 16).toNat ∧
      (1760 : BitVec 16).toNat ≤ 1760 ∧ 1760 < (1761 : BitVec 16).toNat ∧
      s.stew.hot.getLsbD 3 = false ∧ (1519 : BitVec 16).toNat < 1520 ∧ s.stew.powered = true) ∧
    (800 < 801 ∧ 999 < 1000 ∧ 39999 < 40000 ∧ 60000 < 60001 ∧ 1000 < 1001) ∧
    (readingCause (.die 3 1760) = 0 ∧ readingCause (.inlet 800) = 0 ∧ readingCause (.flow 1000) = 0 ∧
      readingCause (.supply 40000 2000) = 0 ∧ readingCause (.supply 39999 1000) = 0) := by
  decide +kernel
/-- A record of a torus of two devices in x, this one with index 0. -/
def twoDevices : List Byte := List.replicate 25 0 ++ [1] ++ List.replicate 294 0

/-- BringUpAndAttestation: a port that is up, at both ends of the range; step 4 in a torus of two devices with both
neighbours' reports in, and before them; and an attestation request whose block and whose place are in memory. -/
theorem witness_BringUpAndAttestation :
    let disc : State := { State.reset with stew := { inForce := twoDevices, phase := 3 } }
    let topo := recTopo disc.stew.inForce
    let rep := some ((1 : BitVec 13), (1 : BitVec 8), (0 : BitVec 8), (0 : BitVec 8))
    let met : State := { disc with stew := { disc.stew with reports := [(0, rep), (1, rep)] } }
    let att : State := { State.reset.setCtx 0 { ptbase := 1 } with
      stew := { attQueue := [0x1000] }, mem := Table.setList 0 [] 0x1022 (toBytes 2 1 ++ [0, 0, 0, 0] ++ toBytes 8 0x2000) }
    ((0 : BitVec 3).toNat < 6 ∧ (5 : BitVec 3).toNat < 6 ∧ disc.fab.down.getLsbD 5 = false ∧ disc.stew.powered = true ∧
      disc.stew.discovering = true ∧ (connectedPorts topo).contains (1 : BitVec 3).toNat = true ∧
      disc.fab.down.getLsbD (1 : BitVec 3).toNat = false) ∧
    (met.stew.discovering = true ∧ ((connectedPorts topo).all fun k => met.fab.down.getLsbD k || decide (Table.get none met.stew.reports k =
          some (BitVec.ofNat 13 (neighbour topo k), BitVec.ofNat 8 (topo.toNat / 2 ^ 32 % 16),
            BitVec.ofNat 8 (topo.toNat / 2 ^ 36 % 16), BitVec.ofNat 8 (topo.toNat / 2 ^ 40 % 32)))) = true) ∧
    (att.stew.attQueue = 0x1000 :: [] ∧ att.stew.restarting = false ∧ att.stew.attTags = [] ∧ att.place (0x1000 : Word).toNat = .mem 0x1000 ∧
      (match att.homeRead 0 0x1000 64 with
        | (u, .ok req) =>
          (match u.measure (recByte req 32 % 64) with
            | (v, .ok _) => decide (v.place (recField req 40 8 / 64 * 64) = .mem 0x2000)
            | _ => false)
        | _ => false) = true) := by decide +kernel

/-- A packet for this device from its neighbour, of a kind. -/
def packet (kind : Nat) : Packet := {
  dst := 0, src := 1, kind := BitVec.ofNat 4 kind, ctx := 1, tag := 9, addr := 0x300000, attr := 0x11F, len := 8
  data := [1, 0, 0, 0, 0, 0, 0, 0] }

/-- RequestsServed: a packet for another device and requests of every kind for this one, at a context with tables. -/
theorem witness_RequestsServed :
    let s := stTables
    let am : Packet := { packet 2 with data := toBytes 8 0x200000 ++ toBytes 8 5 }
    let cell : Packet := { packet 3 with etype := 1, len := 4 }
    ((0 : BitVec 3).toNat < 6 ∧ (5 : BitVec 3).toNat < 6 ∧ s.fab.down.getLsbD 5 = false ∧
      s.isFrozen (portMaster 5) = false ∧ ({ packet 0 with dst := 1 } : Packet).dst.toNat ≠ s.myIndex ∧
      (packet 0).kind.toNat ≤ 10 ∧ (packet 5).dst.toNat = s.myIndex ∧ (s.ctx (packet 5).ctx.toNat).ptbase ≠ 0 ∧
      (packet 5).kind = 5 ∧ (packet 0).kind = 0 ∧ (packet 1).kind = 1 ∧ (packet 1).cntaddr = 0 ∧ (packet 1).beside.note = 0 ∧ (packet 1).bad = []) ∧
    (s.place (packet 0).addr.toNat = .mem 0x300000 ∧ am.kind = 2 ∧ ofBytes (am.data.take 8) / 2 ^ 28 % 16 ≤ 8 ∧
      am.beside.note = 0 ∧
      (match s.homeUpdate am.attr 1 0x300000 (4 * 2 ^ (ofBytes (am.data.take 8) / 2 ^ 21 % 4)) (fun o =>
          amoOp 0 8 o (ofBytes ((am.data.drop 8).take 8) % 2 ^ 64)) with
        | (_, .ok _) => true | _ => false) = true) ∧
    (cell.kind = 3 ∧ cell.cntaddr = 0 ∧ cell.len = typeWidth cell.etype.toNat / 8 ∧ 0 < cell.len ∧
      (match s.homeAdd (packetPage cell) 1 0x300000 1 (ofBytes (cell.data.take 4)) with | (_, .ok _) => true | _ => false) = true) ∧
    ((packet 4).kind = 4 ∧ (packet 4).beside.note ≠ 1 ∧
      (match s.homeUpdate 0x11F 1 0x300000 8 (fun o => (o + 1) % 2 ^ 64) with | (_, .ok _) => true | _ => false) = true) := by
  decide +kernel

/-- The machine that awaits the answer to request 9, of the graph engine's read or of a store that core 0 posted. -/
def stAsks (posted : Bool) : State :=
  let q : Request := { tag := 9, dst := 1, issuer := if posted then .stream 0 0 else .node 1 2 0, sentAt := 0, va := 0
                       addr := 0x300000, len := 8, write := posted }
  let s := stQueue { fetched := [{ tag := 9, addr := 0x300000, len := 8 }] }
  { s.setCore 0 { core0 with postedTags := [9] } with fab := { s.fab with requests := [q] }, now := 0x4000000 }

/-- AnswersAndTerms: a request that awaits bytes and one that awaits its performance, unanswered for FABTO; a reduce term
that is added and one that is held for a contributor below it; and a held one whose turn has come. -/
theorem witness_AnswersAndTerms :
    let take (p : Bool) := (stAsks p).takeRequest (packet 6).tag.toNat
    let s := stTables.setCtx 1 { stTables.ctx 1 with lvl := 1 }
    let term (kind contrib : Nat) : Packet := {
      packet kind with contrib := BitVec.ofNat 32 contrib, cntaddr := 0x380000, full := 16, etype := 1
                       beside := { size := 4 } }
    let held := s.mapChunk 1 0x380000 fun c => { c with held := [{ pkt := term 8 0, stage := [] }] }
    let gives (r : State × Except FaultInfo Bool) (b : Bool) : Bool := match r.2 with | .ok c => c == b | .error _ => false
    ((packet 6).dst.toNat = s.myIndex ∧ (packet 6).kind = 6 ∧ (packet 6).bad = [] ∧ (packet 7).kind = 7 ∧
      (packet 7).contrib = 0 ∧ (0x0401 : BitVec 16) ≠ 0) ∧
    ((match take false with | some (r, u) => u.awaitsBytes r | none => false) &&
      (match take true with
        | some (r, u) => !u.awaitsBytes r && (stAsks true).fab.later.isEmpty &&
            decide (max 1 (stAsks true).fab.fabto.toNat * 1024 ≤ (stAsks true).now - r.sentAt)
        | none => false)) = true ∧
    (gives (s.receiveReduce (term 8 0)) true && gives (s.receiveReduce (term 9 0)) true &&
      gives (s.receiveReduce (term 8 1)) false && gives (stTables.receiveReduce (term 8 1)) true &&
      (match s.receiveReduce { term 8 0 with full := 3 } with | (_, .error _) => true | _ => false) &&
      (match held.applyHeld (term 8 0).ctx.toNat (term 8 0).cntaddr with
        | (u, some q) => decide (q.src.toNat ≠ u.myIndex)
        | _ => false)) = true := by decide +kernel

/-- PortsAndLanes: the first and last port and lane, a reserved kind, a lane in which a packet waits, and a flit retried
fewer than 16 times and 16 times. -/
theorem witness_PortsAndLanes :
    let s : State := { st with fab := { st.fab with stopped := [(5, 0)], txq := [(5, packet 1)], retries := [(0, 15), (5, 16)] } }
    ((0 : BitVec 3).toNat < 6 ∧ (5 : BitVec 3).toNat < 6 ∧ 11 ≤ (11 : BitVec 4).toNat ∧ 11 ≤ (packet 15).kind.toNat ∧
      s.fab.down.getLsbD 5 = false ∧ (0 : BitVec 3).toNat < 4 ∧ (3 : BitVec 3).toNat < 4 ∧ (5, packet 1) ∈ s.fab.txq ∧
      laneOf (packet 1).kind = (0 : BitVec 3).toNat ∧ Table.get 0 s.fab.retries 0 < 16 ∧ 16 ≤ Table.get 0 s.fab.retries 5) := by
  decide +kernel

/-- A run of context 1 on berm engine 11: a routine of one instruction that copies stream 0 to stream 1. -/
def bermRun : BermRun := { ctx := 1, routine := 0x10000, launch := 0x11000, issuer := none }

/-- The machine on which that run waits: one element of FP32 read at 0x12000 and written at 0x13000. -/
def stBerm (r : BermRun) : State :=
  let s := stTables
  let m := Table.setList 0 s.mem 0x10000 (toBytes 64 1 ++ toBytes 8 (0x94 * 2 ^ 56 + 2 ^ 52 + 2 ^ 40))
  let m := Table.setList 0 m 0x11000 (toBytes 64 1 ++ toBytes 8 0x12000 ++ toBytes 8 (1 + 16) ++ toBytes 8 0x13000 ++
    toBytes 8 (1 + 32))
  ({ s with mem := m } : State).setBerm 11 [r]

/-- BermRunsPerform: a run that is there to perform, whose plan, reads and program answer; one whose reads are done; and one
that is performed. -/
theorem witness_BermRunsPerform :
    let s := stBerm bermRun
    let h := stBerm { bermRun with computed := true }
    let d := stBerm { bermRun with done := true }
    let a := bermAgent 11 bermRun
    (s.berm (11 : BitVec 4).toNat = bermRun :: [] ∧ s.isFrozen (masterId 6 11) = false ∧ bermRun.done = false ∧
      bermRun.computed = false ∧ h.berm 11 = { bermRun with computed := true } :: [] ∧
      d.berm 11 = { bermRun with done := true } :: [] ∧ bermRun.tags = [] ∧ bermRun.fault = none ∧ d.colls = [] ∧
      (d.ctx 1).arms = []) ∧
    (match s.bermPlan a bermRun with
      | (u, .ok p) =>
        decide (u.bermAsk a false p = none) && decide (u.bermAsk a true p = none) &&
          (match (u.bermRead a false p).2 with | .ok _ => true | _ => false) &&
          (match u.bermRead a true p with | (v, .ok _) => decide (v.berm 11 = bermRun :: []) | _ => false)
      | _ => false) = true := by decide +kernel

/-! ### Encodings and the step -/

/-- EncodingRoundTrip: a well-formed control instruction and engine instruction, and the words that the decoder accepts. -/
theorem witness_EncodingRoundTrip :
    let i : Instr := .st 3 63 22 255
    let e : Instr := .vadd { quiet with f1 := 31, wsl := 47, wcnt := 63, ssl := 2, scnt := 1, ext := 0x18 }
    (i.wellFormed = true ∧ (encode i).isSome = true ∧ e.wellFormed = true ∧
      (match encode e with
        | some (w, k) => (match decodeSlot (wordStream w) w k with | .ok j => decide (j = e) | .error _ => false)
        | none => false) = true ∧
      (match decodeSlot (wordStream 0x0105145C) 0x0105145C none with
        | .ok j => decide (j = .add 0 20 20 23)
        | .error _ => false) = true) := by decide +kernel

/-- Whether a state meets the hypotheses of StepRunsDecodedInstruction for an instruction, with what its meaning leaves
pending at the focused core. -/
def unitMeets (s : State) (i : Instr) (f : Instr → State → Out) : Option (Option FaultInfo) :=
  match s.fetchLine s.focus.toNat with
  | (u, .ok line) =>
    let c := u.here
    match c.nextUnit line with
    | [x] =>
      if s.inbox = [] ∧ s.now % 4 ≠ 3 ∧ s.controlReady = true ∧ s.here.uintReady = false ∧ s.here.preemptAt = none ∧
          headerLctl (lineWord line 0) = 0 ∧ (x.what.toOption = some i) ∧ c.unitDone = 0 ∧ c.early = [] ∧ c.pend = none then
        match f i (u.setHere { { c with snap := none, fmtBefore := c.fmtq.length } with curSlot := x.num, blocked := none }) with
        | .next t => if t.here.frozen = false ∧ t.here.blocked = none then some t.here.pend else none
        | _ => none
      else none
    | _ => none
  | _ => none

/-- StepRunsDecodedInstruction: an addition, and a load that faults since its address is not aligned; an event in the
inbox that answers; and a pc with and without a target. -/
theorem witness_StepRunsDecodedInstruction :
    let ev : Instr := .add 0 20 20 23
    let s := stCode 32 0x0105145C
    let l := (stCode 32 0x2705D600).mapHere fun c => { c with regs := { s := [(22, 4)] } }
    (unitMeets s (.add 0 20 20 23) exec = some none ∧
      (match unitMeets l (.ld 0 23 22 0) exec with
        | some (some f) => f.akind = 0 && !f.late
        | _ => false) = true ∧
      ({ st with inbox := [ev] } : State).inbox = ev :: [] ∧ answers (exec ev { st with inbox := [] }) = true ∧
      st.here.flagsRaised = 0 ∧ st.here.npc = none ∧
      ({ core0 with npc := some (64, 2) } : Core).npc = some (64, 2) ∧ 7 ≤ 7 ∧ 7 < 8) := by decide +kernel

/-- EveryStepKeepsMemoryCanonical: memories in canonical form, at reset and after a program has stored, from which a step
answers. -/
theorem witness_EveryStepKeepsMemoryCanonical :
    let s := stCode 32 0x0105145C
    (Memory.wf s.mem = true ∧ s.mem ≠ [] ∧ answers (step s) = true ∧ Memory.wf State.reset.mem = true ∧
      answers (step State.reset) = true) := by decide +kernel

end Sys2Proof.Tests
end

section
/-!
PROOFS. Adds into a polder cell (R47, R48): what one add does to the state bits and to the value modulo 2^W, and that two
adds commute.
-/
namespace Sys2Proof.Machine

/-! ## A cell packed and taken apart (R45) -/

/-- A wrapped integer is the residue modulo 2^w. -/
theorem wrapInt_cast (w : Nat) (v : Int) : (wrapInt w v : Int) = v % ((2 ^ w : Nat) : Int) :=
  Int.toNat_of_nonneg (Int.emod_nonneg v (Int.natCast_ne_zero.mpr (Nat.ne_of_gt (Nat.two_pow_pos w))))

theorem wrapInt_lt (w : Nat) (v : Int) : wrapInt w v < 2 ^ w := by
  have hlt : v % ((2 ^ w : Nat) : Int) < ((2 ^ w : Nat) : Int) :=
    Int.emod_lt_of_pos v (Int.natCast_pos.mpr (Nat.two_pow_pos w))
  rw [← wrapInt_cast] at hlt
  exact Int.ofNat_lt.mp hlt

theorem wrapInt_congr {w : Nat} {u v : Int} (h : u % ((2 ^ w : Nat) : Int) = v % ((2 ^ w : Nat) : Int)) :
    wrapInt w u = wrapInt w v := congrArg Int.toNat h

/-- The value field read as a signed number is the raw cell modulo 2^W. -/
theorem cellValue_emod (p : CellParams) (raw : Nat) :
    cellValue p raw % ((2 ^ p.vWidth : Nat) : Int) = (raw : Int) % ((2 ^ p.vWidth : Nat) : Int) := by
  unfold cellValue
  dsimp only
  split
  · rw [Int.sub_emod_right, Int.natCast_emod, Int.emod_emod]
  · rw [Int.natCast_emod, Int.emod_emod]

theorem cellState_cellPack (p : CellParams) (st : Nat) (v : Int) : cellState p (cellPack p st v) = st % 16 := by
  have hlt := wrapInt_lt p.vWidth v
  unfold cellState cellPack
  rw [Nat.mul_comm, Nat.mul_add_div (Nat.two_pow_pos _), Nat.div_eq_of_lt hlt, Nat.add_zero]

theorem cellValue_cellPack_emod (p : CellParams) (st : Nat) (v : Int) :
    cellValue p (cellPack p st v) % ((2 ^ p.vWidth : Nat) : Int) = v % ((2 ^ p.vWidth : Nat) : Int) := by
  rw [cellValue_emod, cellPack, Int.natCast_add, Int.natCast_mul, Int.add_comm, Int.add_mul_emod_self_right,
    wrapInt_cast, Int.emod_emod]

/-! ## What one add contributes (R47) -/

/-- What an addend brings to a cell of any content: the state bits that it sets and the amount by which it raises the value;
nothing for a zero, which leaves the cell alone. -/
def cellTerm (p : CellParams) : Fp → Option (BitVec 4 × Int)
  | .nan _ _ _ => some (8, 0)
  | .inf false => some (4, 0)
  | .inf true => some (2, 0)
  | .fin n m e =>
    let a := (roundToInt .rne n m (e - p.e)).1
    if m = 0 then none
    else if p.vWidth < (Nat.log2 m : Int) + e - p.e ∨ 2 ^ (p.vWidth - 1 - p.g) ≤ a.natAbs then some (1, 0)
    else some (0, a)

/-- A contribution taken into a cell: its state bits ORed in, its amount added. -/
def cellPut (p : CellParams) (raw : Nat) (t : BitVec 4 × Int) : Nat :=
  cellPack p (cellState p raw ||| t.1.toNat) (cellValue p raw + t.2)

/-- A contribution of state bits alone sets them and keeps the value. -/
theorem cellPut_bits (p : CellParams) (raw : Nat) (b : BitVec 4) :
    cellPut p raw (b, 0) = cellPack p (cellState p raw ||| b.toNat) (cellValue p raw) := by
  rw [cellPut, Int.add_zero]

/-- A contribution of an amount alone keeps the state bits. -/
theorem cellPut_amount (p : CellParams) (raw : Nat) (a : Int) :
    cellPut p raw (0, a) = cellPack p (cellState p raw) (cellValue p raw + a) := by
  change cellPack p (cellState p raw ||| 0) (cellValue p raw + a) = _
  rw [Nat.or_zero]

theorem cellAdd_eq (p : CellParams) (raw : Nat) (x : Fp) :
    cellAdd p raw x = (cellTerm p x).elim raw (cellPut p raw) := by
  cases x with
  | nan c s n => exact (cellPut_bits p raw 8).symm
  | inf n =>
    cases n with
    | false => exact (cellPut_bits p raw 4).symm
    | true => exact (cellPut_bits p raw 2).symm
  | fin n m e =>
    unfold cellAdd cellTerm
    dsimp only
    by_cases hzero : m = 0
    · rw [if_pos hzero, if_pos hzero, Option.elim_none]
    rw [if_neg hzero, if_neg hzero]
    by_cases hfar : p.vWidth < (Nat.log2 m : Int) + e - p.e
    · rw [if_pos hfar, if_pos (Or.inl hfar), Option.elim_some]
      exact (cellPut_bits p raw 1).symm
    rw [if_neg hfar]
    by_cases hbig : 2 ^ (p.vWidth - 1 - p.g) ≤ (roundToInt .rne n m (e - p.e)).1.natAbs
    · rw [if_pos hbig, if_pos (Or.inr hbig), Option.elim_some]
      exact (cellPut_bits p raw 1).symm
    · rw [if_neg hbig, if_neg (not_or.mpr ⟨hfar, hbig⟩), Option.elim_some]
      exact (cellPut_amount p raw _).symm

/-! ## Adds commute (R48) -/

/-- After two contributions the state bits are the OR of both with the cell's and the value is the modular sum. -/
theorem cellPut_cellPut (p : CellParams) (raw : Nat) (t u : BitVec 4 × Int) :
    cellPut p (cellPut p raw t) u = cellPack p (cellState p raw ||| (t.1 ||| u.1).toNat) (cellValue p raw + (t.2 + u.2)) := by
  have hstate : cellState p (cellPut p raw t) = cellState p raw ||| t.1.toNat := by
    have hraw : cellState p raw < 2 ^ 4 := Nat.mod_lt _ (by decide)
    rw [cellPut, cellState_cellPack, Nat.mod_eq_of_lt (Nat.or_lt_two_pow hraw t.1.isLt)]
  have hvalue : (cellValue p (cellPut p raw t) + u.2) % ((2 ^ p.vWidth : Nat) : Int) =
      (cellValue p raw + (t.2 + u.2)) % ((2 ^ p.vWidth : Nat) : Int) := by
    rw [← Int.emod_add_emod, cellPut, cellValue_cellPack_emod, Int.emod_add_emod, Int.add_assoc]
  rw [cellPut, hstate, cellPack, wrapInt_congr hvalue, Nat.or_assoc, ← BitVec.toNat_or, ← cellPack]

theorem cellPut_comm (p : CellParams) (raw : Nat) (t u : BitVec 4 × Int) :
    cellPut p (cellPut p raw t) u = cellPut p (cellPut p raw u) t := by
  rw [cellPut_cellPut, cellPut_cellPut, BitVec.or_comm, Int.add_comm t.2]

theorem cellAdd_comm (p : CellParams) (raw : Nat) (x y : Fp) :
    cellAdd p (cellAdd p raw x) y = cellAdd p (cellAdd p raw y) x := by
  rw [cellAdd_eq, cellAdd_eq, cellAdd_eq, cellAdd_eq]
  cases cellTerm p x with
  | none => rfl
  | some t =>
    cases cellTerm p y with
    | none => rfl
    | some u => exact cellPut_comm p raw t u

/-- Settles O22: a permutation is made of exchanges of two adds, and two adds commute on every raw cell. -/
theorem cellAddsCommute : Obligations.CellAddsCommute := by
  intro p raw xs ys hperm
  exact hperm.foldl_eq' (fun x _ y _ z => cellAdd_comm p z x y) raw

end Sys2Proof.Machine
end

section
/-!
PROOFS. The frame of the scalar floating-point instructions (R32, R209, R210): under a true guard each writes one register
of the acting core and raises flags, and neither reaches anything else.
-/
namespace Sys2Proof.Machine

/-! ## Registers and flags -/

/-- The context whose FPFLAGS.TASK the acting slot's flags join (R32). -/
def State.flagCtx (s : State) : Nat := (s.here.ctx?.map BitVec.toNat).getD 0

/-- Nothing but the acting core's registers, the flags of its slot and FPFLAGS.TASK of the task's context differs, and no
flag of FPFLAGS.TASK falls. -/
def OnlyRegsAndFlags (s t : State) : Prop :=
  { t with cores := s.cores, ctxs := s.ctxs } = s ∧
  (∀ k, k ≠ s.focus.toNat → t.core k = s.core k) ∧
  { t.here with regs := s.here.regs, flagsRaised := s.here.flagsRaised, flagSlot := s.here.flagSlot } = s.here ∧
  (∀ y, y ≠ s.flagCtx → t.ctx y = s.ctx y) ∧
  { t.ctx s.flagCtx with flagsTask := (s.ctx s.flagCtx).flagsTask } = s.ctx s.flagCtx ∧
  (s.ctx s.flagCtx).flagsTask &&& (t.ctx s.flagCtx).flagsTask = (s.ctx s.flagCtx).flagsTask ∧
  SameMemory s t

theorem OnlyRegsAndFlags.refl (s : State) : OnlyRegsAndFlags s s :=
  ⟨rfl, fun _ _ => rfl, rfl, fun _ _ => rfl, rfl, BitVec.and_self, fun _ => rfl⟩

/-- The state with the acting core's registers replaced. -/
def State.withRegs (s : State) (r : Regs) : State := s.setHere { s.here with regs := r }

theorem State.withScalar_eq_withRegs (s : State) (d : BitVec 6) (v : Word) :
    s.withScalar d v = s.withRegs (s.here.writeS d v).regs := by
  unfold State.withScalar State.withRegs
  congr 1
  rw [Core.writeS_only]

theorem State.withPredicate_eq_withRegs (s : State) (d : BitVec 4) (b : Bool) :
    s.withPredicate d b = s.withRegs (s.here.writeP d b).regs := by
  unfold State.withPredicate State.withRegs
  congr 1
  rw [Core.writeP_only]

@[simp] theorem State.here_withRegs (s : State) (r : Regs) : (s.withRegs r).here = { s.here with regs := r } :=
  State.here_setHere _ _

@[simp] theorem State.flagCtx_withRegs (s : State) (r : Regs) : (s.withRegs r).flagCtx = s.flagCtx := by
  unfold State.flagCtx
  rw [State.here_withRegs]
  rfl

@[simp] theorem State.raise_regs (s : State) (f : Flags) : (s.raise f).here.regs = s.here.regs := by
  by_cases hf : f = 0
  · rw [hf, State.raise_zero]
  · rw [State.raise_of_ne s hf, State.here_setCtx, State.here_setHere]

theorem bitVec_and_or_self {n : Nat} (x y : BitVec n) : x &&& (x ||| y) = x := by
  ext k hk
  rw [BitVec.getElem_and, BitVec.getElem_or]
  cases x[k] <;> rfl

/-- Flags joined to FPFLAGS.TASK keep the frame when the acting core gains only registers and flags of its slot. -/
theorem State.joinFlags_only (s : State) (c : Core) (f : Flags)
    (hc : { c with regs := s.here.regs, flagsRaised := s.here.flagsRaised, flagSlot := s.here.flagSlot } = s.here) :
    OnlyRegsAndFlags s ((s.setHere c).setCtx s.flagCtx
      { s.ctx s.flagCtx with flagsTask := (s.ctx s.flagCtx).flagsTask ||| f }) := by
  refine ⟨rfl, fun k hk => State.core_setHere_ne s c hk, ?here, fun y hy => State.ctx_setCtx_ne _ _ hy, ?ctx, ?raised,
    fun _ => rfl⟩
  case here => rw [State.here_setCtx, State.here_setHere, hc]
  case ctx => rw [State.ctx_setCtx_same]
  case raised => rw [State.ctx_setCtx_same, bitVec_and_or_self]

/-- Flags raised after a write of registers change the registers, the slot's flags and the task's flags alone. -/
theorem State.withRegs_raise_only (s : State) (r : Regs) (f : Flags) : OnlyRegsAndFlags s ((s.withRegs r).raise f) := by
  by_cases hf : f = 0
  · rw [hf, State.raise_zero]
    refine ⟨rfl, fun k hk => State.core_setHere_ne s _ hk, ?_, fun _ _ => rfl, rfl, BitVec.and_self, fun _ => rfl⟩
    rw [State.here_withRegs]
  · rw [State.raise_of_ne _ hf]
    change OnlyRegsAndFlags s (((s.withRegs r).setHere _).setCtx (s.withRegs r).flagCtx _)
    rw [State.flagCtx_withRegs, State.here_withRegs, State.withRegs, State.setHere_setHere]
    exact s.joinFlags_only _ f rfl

/-! ## The two shapes of a scalar floating-point instruction -/

/-- Under its guard or not, an instruction that writes registers and raises flags keeps the frame, and the registers are
the old ones or those written. -/
theorem guarded_withRegs_raise_frame {g : BitVec 4} {s t : State} {r : Regs} {f : Flags}
    (h : guarded g s ((s.withRegs r).raise f) = .next t) :
    (t.here.regs = s.here.regs ∨ t.here.regs = r) ∧ OnlyRegsAndFlags s t := by
  rcases guarded_cases g s ((s.withRegs r).raise f) with hg | hg <;> obtain rfl := Host.Outcome.next.inj (hg.symm.trans h)
  · refine ⟨.inr ?_, s.withRegs_raise_only r f⟩
    rw [State.raise_regs, State.here_withRegs]
  · exact ⟨.inl rfl, .refl s⟩

/-- FADD, FMUL, FFMA, FDSQ and FCVT: s[d] and flags. -/
theorem setF_frame {g : BitVec 4} {d : BitVec 6} {s t : State} {v : Core → Nat × Flags} (h : setF g d s v = .next t) :
    (t.here.regs = s.here.regs ∨ ∃ w, t.here.regs = (s.here.writeS d w).regs) ∧ OnlyRegsAndFlags s t := by
  have heq : setF g d s v = guarded g s ((s.withScalar d (BitVec.ofNat 64 (v s.here).1)).raise (v s.here).2) := rfl
  rw [heq, State.withScalar_eq_withRegs] at h
  obtain ⟨hregs, honly⟩ := guarded_withRegs_raise_frame h
  exact ⟨hregs.imp_right fun hw => ⟨_, hw⟩, honly⟩

/-- FCMP: p[d] and flags. -/
theorem execFcmp_frame {g d : BitVec 4} {a b : BitVec 6} {k : BitVec 2} {s t : State}
    (h : execFcmp g d a b k s = .next t) :
    (t.here.regs = s.here.regs ∨ ∃ v, t.here.regs = (s.here.writeP d v).regs) ∧ OnlyRegsAndFlags s t := by
  obtain ⟨v, f, heq⟩ : ∃ v f, execFcmp g d a b k s = guarded g s ((s.withPredicate d v).raise f) := ⟨_, _, rfl⟩
  rw [heq, State.withPredicate_eq_withRegs] at h
  obtain ⟨hregs, honly⟩ := guarded_withRegs_raise_frame h
  exact ⟨hregs.imp_right fun hw => ⟨_, hw⟩, honly⟩

/-- Settles O11: five of the instructions have the shape `setF`, and FCMP writes a predicate in the same way. -/
theorem scalarFloatFrame : Obligations.ScalarFloatFrame := by
  intro i s t h
  refine ⟨?fadd, ?fmul, ?ffma, ?fdsq, ?fcvt, ?fcmp⟩
  case fcmp =>
    rintro g d a b k rfl
    exact execFcmp_frame h
  all_goals
    rintro g d a b k rfl
    exact setF_frame h

end Sys2Proof.Machine
end

section
/-!
PROOFS. Answers and reduce packets that reach this device (R331, R334, R335, R417, R434, R435): what an arrival is, what the
end of a request does to its issuer, and the three outcomes of a reduce packet.
-/
namespace Sys2Proof.Machine

/-! ## A packet taken by this device (R332, R433, R445) -/

/-- A packet for this device at a port that is up and not frozen. -/
structure Arrives (s : State) (port : BitVec 3) (p : Packet) : Prop where
  isPort : port.toNat < 6
  up : s.fab.down.getLsbD port.toNat = false
  unfrozen : s.isFrozen (portMaster port.toNat) = false
  here : p.dst.toNat = s.myIndex

/-- A packet that arrives under its own row of the table is neither held nor passed on. -/
theorem Arrives.accept_eq {s : State} {port : BitVec 3} {p : Packet} (h : Arrives s port p) {ok : Bool} (hok : ok = true)
    (use : State → State) : s.accept port p ok use = use s := by
  have htaken : ¬(6 ≤ port.toNat ∨ s.fab.down.getLsbD port.toNat = true ∨ (!ok) = true) := by
    rw [h.up, hok]
    simp [h.isPort]
  have hfree : ¬(laneOf p.kind = 0 ∧ s.isFrozen (portMaster port.toNat) = true) := by
    simp [h.unfrozen]
  have hmine : ¬p.dst.toNat ≠ s.myIndex := not_not_intro h.here
  rw [State.accept, if_neg htaken, if_neg hfree, if_neg hmine]

/-! ## The end of a request (R334, R417, R435) -/

section
variable {s u : State} {tag : Nat} {r : Request}

theorem State.find?_of_takeRequest (h : s.takeRequest tag = some (r, u)) :
    (s.fab.requests.find? fun q => q.tag == tag) = some r := by
  unfold State.takeRequest at h
  split at h
  next q hq =>
    obtain ⟨rfl, -⟩ := Prod.mk.inj (Option.some.inj h)
    exact hq
  next => cases h

theorem State.confirm_of_awaitsBytes (h : s.takeRequest tag = some (r, u)) (hbytes : u.awaitsBytes r = true) (bs : List Byte)
    (flags : Flags) : s.confirm tag bs [] flags = u.fill r fun f => { f with got := some bs, flags := flags } := by
  rw [State.confirm, h]
  exact if_pos hbytes

theorem State.confirm_of_performed (h : s.takeRequest tag = some (r, u)) (hbytes : u.awaitsBytes r = false) (bs : List Byte)
    (bad : List Nat) : s.confirm tag bs bad = ((u.relayed r).clearTag r).answered := by
  rw [State.confirm, h]
  exact if_neg (ne_true_of_eq_false hbytes)

theorem State.deny_of_takeRequest (h : s.takeRequest tag = some (r, u)) (code : Nat) (synd aux : Word) :
    s.deny tag code synd aux =
      if u.awaitsBytes r then u.fill r fun e => { e with err := some (code, (r.fault code synd aux).aux) }
      else ((u.postedFault r (r.fault code synd aux)).clearTag r).answered := by
  rw [State.deny, h]

end

/-! ## Answers at a port (R331, R334, R434) -/

section
variable {s : State} {port : BitVec 3} {p : Packet} (h : Arrives s port p)
include h

theorem exec_readResponse_of_arrives (hkind : p.kind = 6) :
    exec (.readResponse port p) s = .next (s.confirm p.tag.toNat p.data p.bad p.beside.flags) :=
  congrArg Host.Outcome.next (h.accept_eq (by simp [hkind]) _)

theorem exec_acknowledgement_of_arrives (hkind : p.kind = 7) (hcode : p.contrib = 0) :
    exec (.acknowledgement port p) s = .next (s.confirm p.tag.toNat [] []) :=
  congrArg Host.Outcome.next (h.accept_eq (by simp [hkind, hcode]) _)

/-- A refusal's code is CONTRIB[15:0] (R434). -/
theorem exec_negativeAcknowledgement_of_arrives {code : BitVec 16} (hkind : p.kind = 7)
    (hcontrib : p.contrib = code.setWidth 32) (hcode : code ≠ 0) :
    exec (.negativeAcknowledgement port p) s = .next (s.deny p.tag.toNat code.toNat p.beside.synd p.beside.aux) := by
  have hlow : p.contrib.toNat % 2 ^ 16 = code.toNat := by
    rw [hcontrib]
    bv_omega
  have hne : code.toNat ≠ 0 := fun h0 => hcode (BitVec.eq_of_toNat_eq h0)
  rw [← hlow] at hne ⊢
  exact congrArg Host.Outcome.next (h.accept_eq (by rw [hkind, bne_iff_ne.mpr hne]; rfl) _)

/-- Terms and results of a collective are received alike (R256, R335). -/
theorem exec_reduce_of_arrives {i : Instr}
    (hi : (i = .reduceTerm port p ∧ p.kind = 8) ∨ (i = .reduceForward port p ∧ p.kind = 9)) :
    exec i s = .next (s.reduce p) := by
  obtain ⟨rfl, hkind⟩ | ⟨rfl, hkind⟩ := hi
  · exact congrArg Host.Outcome.next (h.accept_eq (by simp [hkind]) _)
  · exact congrArg Host.Outcome.next (h.accept_eq (by simp [hkind]) _)

end

/-! ## No answer in time (R435) -/

/-- A request unanswered for FABTO, of which nothing waits to be sent, is refused with 0x0702. -/
theorem exec_ackTimeout_of_due {s u : State} {tag : BitVec 16} {r : Request} (h : s.takeRequest tag.toNat = some (r, u))
    (hdue : max 1 s.fab.fabto.toNat * 1024 ≤ s.now - r.sentAt) (hsent : ∀ q ∈ s.fab.later, q.tag ≠ tag) :
    exec (.ackTimeout tag) s = .next (s.deny tag.toNat 0x0702 0 0) := by
  have hlater : (!s.fab.later.any fun q => q.tag == tag) = true := by
    simpa using hsent
  change execAckTimeout tag s = _
  rw [execAckTimeout, State.find?_of_takeRequest h]
  exact if_pos ⟨hdue, hlater⟩

/-! ## Reduce packets (R335, R437) -/

theorem State.reduce_of_performed {s u : State} {p : Packet} (h : s.receiveReduce p = (u, .ok true)) :
    s.reduce p = (u.ack p).answered := by
  rw [State.reduce, h]

theorem State.reduce_of_held {s u : State} {p : Packet} (h : s.receiveReduce p = (u, .ok false)) : s.reduce p = u := by
  rw [State.reduce, h]

theorem State.reduce_of_refused {s u : State} {p : Packet} {f : FaultInfo} (h : s.receiveReduce p = (u, .error f)) :
    s.reduce p = u.refuseTerm p f := by
  rw [State.reduce, h]

/-- A held term of a peer whose turn has come is acknowledged to that peer. -/
theorem exec_heldTermApply_of_peer {s u : State} {x : BitVec 6} {cnt : Word} {q : Packet}
    (h : s.applyHeld x.toNat cnt = (u, some q)) (hpeer : q.src.toNat ≠ u.myIndex) :
    exec (.heldTermApply x cnt) s = .next (u.ack q).answered := by
  change execHeldTermApply x cnt s = _
  rw [execHeldTermApply, h]
  dsimp only
  rw [if_neg hpeer]

/-- Settles O53: an arrival reaches its operation; a request's end and a reduce packet's outcome say what that does. -/
theorem answersAndTerms : Obligations.AnswersAndTerms := by
  intro s port p hport hup hfree hdst
  have harr : Arrives s port p := ⟨hport, hup, hfree, hdst⟩
  refine ⟨fun r u htake => ⟨?response, ?performed, ?refused, ?timeout⟩,
    fun u i hi => ⟨?added, ?kept, ?turnedAway⟩, fun u q => exec_heldTermApply_of_peer⟩
  case response =>
    intro hkind hbad hbytes
    rw [exec_readResponse_of_arrives harr hkind, hbad, State.confirm_of_awaitsBytes htake hbytes]
  case performed =>
    intro hkind hcode hbytes
    rw [exec_acknowledgement_of_arrives harr hkind hcode, State.confirm_of_performed htake hbytes]
  case refused =>
    intro code hkind hcontrib hcode
    rw [exec_negativeAcknowledgement_of_arrives harr hkind hcontrib hcode, State.deny_of_takeRequest htake]
  case timeout =>
    intro hdue hsent
    rw [exec_ackTimeout_of_due htake hdue hsent, State.deny_of_takeRequest htake]
  case added =>
    intro h
    rw [exec_reduce_of_arrives harr hi, State.reduce_of_performed h]
  case kept =>
    intro h
    rw [exec_reduce_of_arrives harr hi, State.reduce_of_held h]
  case turnedAway =>
    intro f h
    rw [exec_reduce_of_arrives harr hi, State.reduce_of_refused h]

end Sys2Proof.Machine
end

section
/-!
PROOFS. The steward's events (R358, R359, R448 to R450): gates, the power cap, heat, the measurements that stop the package,
power-off and the watchdog.
-/
namespace Sys2Proof

/-- The numbers of a list written in turn, each with its own value. -/
theorem Table.get_foldl_set {α : Type} [DecidableEq α] (d : α) (f : Nat → α) (ks : List Nat) (t : Table α) (j : Nat) :
    Table.get d (ks.foldl (fun u k => Table.set d u k (f k)) t) j = if j ∈ ks then f j else Table.get d t j := by
  induction ks generalizing t with
  | nil => rfl
  | cons k ks ih =>
    rw [List.foldl_cons, ih, Table.get_set]
    by_cases hjk : j = k
    · simp [hjk]
    · simp [hjk]

namespace Machine

/-! ## Gates (R358) -/

/-- A marked cluster is gated when none of its four cores holds a running or draining task. -/
theorem exec_clusterGateEntry_of_idle {s : State} {die : BitVec 2} {cl : BitVec 4}
    (hmarked : (Table.get 0 s.stew.clgate die.toNat).getLsbD cl.toNat = true)
    (hidle : ∀ j, j < 4 → (s.core (64 * die.toNat + 4 * cl.toNat + j)).task = none ∧
      (s.core (64 * die.toNat + 4 * cl.toNat + j)).draining = none) :
    exec (.clusterGateEntry die cl) s = .next { s with stew := { s.stew with
      gated := Table.set 0 s.stew.gated die.toNat (setBit (Table.get 0 s.stew.gated die.toNat) cl.toNat true) } } := by
  have hall : ((List.range 4).all fun j =>
      (s.core (64 * die.toNat + 4 * cl.toNat + j)).task.isNone &&
        (s.core (64 * die.toNat + 4 * cl.toNat + j)).draining.isNone) = true := by
    rw [List.all_eq_true]
    intro j hj
    obtain ⟨htask, hdrain⟩ := hidle j (List.mem_range.mp hj)
    rw [htask, hdrain]
    rfl
  change execClusterGateEntry die cl s = _
  exact if_pos (Bool.and_eq_true_iff.mpr ⟨hmarked, hall⟩)

/-! ## The power cap (R359) -/

/-- The step that a tick of the cap gives a die: one more above the cap, one less below 95% of it (R359). -/
def Steward.cappedStep (w : Steward) (measured : BitVec 16) (die : Nat) : Nat :=
  let k := Table.get 0 w.clkStep die
  if w.pcap.toNat < measured.toNat then min 3 (k + 1)
  else if measured.toNat * 100 < w.pcap.toNat * 95 then max (Table.get 0 w.clkWritten die) (k - 1) else k

/-- The steps of all four dies after a tick of the cap. -/
def Steward.cappedSteps (w : Steward) (measured : BitVec 16) : Table Nat :=
  [0, 1, 2, 3].foldl (fun t d => Table.set 0 t d (w.cappedStep measured d)) w.clkStep

theorem Steward.get_cappedSteps (w : Steward) (measured : BitVec 16) {die : Nat} (h : die < 4) :
    Table.get 0 (w.cappedSteps measured) die = w.cappedStep measured die := by
  have hmem : die ∈ [0, 1, 2, 3] := List.mem_range.mpr h
  rw [Steward.cappedSteps, Table.get_foldl_set, if_pos hmem]

/-- Once bring-up is complete a tick notes the measured power, ends a restart and moves the steps; only a change of step is
an event. -/
theorem exec_powerCapTick_of_up {s : State} (mw : BitVec 16) (hup : s.stew.up = true) :
    let t : State := { s with stew := { s.stew with
      pwrnow := mw, clkStep := s.stew.cappedSteps mw, restarting := false } }
    exec (.powerCapTick mw) s = .next (if s.stew.cappedSteps mw = s.stew.clkStep then t else t.devEvent 2) := by
  have hrun : ¬(!s.stew.up) = true := by
    rw [hup]
    exact Bool.false_ne_true
  change execPowerCapTick mw s = _
  exact if_neg hrun

/-! ## Power removed (R449) -/

/-- Nothing is left of the package but the module flash and the cause in LASTOFF. -/
def PowerRemoved (s t : State) (cause : BitVec 8) : Prop :=
  t.cores = [] ∧ t.ctxs = [] ∧ t.mem = [] ∧ t.kernels = [] ∧ t.memr = {} ∧ t.fab = {} ∧
    t.stew = { firmware := s.stew.firmware, record := s.stew.record, lastoff := cause, powered := false }

/-- The package after an emergency stop: a fault on the management port, and the power removed (R449). -/
def State.emergencyStopped (s : State) (cause : BitVec 8) : State := (s.unpowered cause false).put? .powerFault

theorem State.unpowered_powerRemoved (s : State) (cause : BitVec 8) : PowerRemoved s (s.unpowered cause false) cause :=
  ⟨rfl, rfl, rfl, rfl, rfl, rfl, rfl⟩

theorem State.emergencyStopped_powerRemoved (s : State) (cause : BitVec 8) :
    PowerRemoved s (s.emergencyStopped cause) cause :=
  s.unpowered_powerRemoved cause

theorem State.emergencyStopped_out (s : State) (cause : BitVec 8) :
    (s.emergencyStopped cause).out = s.out ++ [.powerFault] := rfl

theorem State.measureStop_of_outside {s : State} {r : Reading} (hon : s.stew.powered = true) (hr : readingCause r ≠ 0) :
    s.measureStop r = some (s.emergencyStopped (BitVec.ofNat 8 (readingCause r))) :=
  if_pos ⟨hon, hr⟩

theorem State.measureStop_of_within {s : State} {r : Reading} (hr : readingCause r = 0) : s.measureStop r = none :=
  if_neg fun h => h.2 hr

theorem State.takeTemp_of_outside {s : State} {die : BitVec 2} {temp : BitVec 16} (hon : s.stew.powered = true)
    (hr : readingCause (.die die temp) ≠ 0) :
    s.takeTemp die temp = s.emergencyStopped (BitVec.ofNat 8 (readingCause (.die die temp))) := by
  rw [State.takeTemp, State.measureStop_of_outside hon hr]

/-- A measurement of any kind that is out of its bounds stops a powered package with its cause. -/
theorem exec_emergencyStop_of_outside {s : State} {r : Reading} (hon : s.stew.powered = true) (hr : readingCause r ≠ 0) :
    exec (.emergencyStop r) s = .next (s.emergencyStopped (BitVec.ofNat 8 (readingCause r))) := by
  change execEmergencyStop r s = _
  cases r with
  | die die temp => rw [execEmergencyStop, State.takeTemp_of_outside hon hr]
  | inlet _ | flow _ | supply _ _ =>
    exact congrArg (fun o : Option State => Host.Outcome.next (o.getD s)) (State.measureStop_of_outside hon hr)

theorem readingCause_die_of_lt (die : BitVec 2) {temp : BitVec 16} (h : 1760 < temp.toNat) :
    readingCause (.die die temp) = 1 := if_pos h

theorem readingCause_die_of_le (die : BitVec 2) {temp : BitVec 16} (h : temp.toNat ≤ 1760) :
    readingCause (.die die temp) = 0 := if_neg (Nat.not_lt.mpr h)

/-- Each measurement out of its bounds has the cause that R449 gives it. -/
theorem readingCause_of_outside {rd : Reading} {cause : BitVec 8}
    (h : (∃ a t, rd = .die a t ∧ 1760 < t.toNat ∧ cause = 1) ∨ (∃ t, rd = .inlet t ∧ 800 < t ∧ cause = 2) ∨
      (∃ q, rd = .flow q ∧ q < 1000 ∧ cause = 3) ∨
      ∃ v us, rd = .supply v us ∧ (v < 40000 ∨ 60000 < v) ∧ 1000 < us ∧ cause = 4) :
    readingCause rd = cause.toNat ∧ readingCause rd ≠ 0 := by
  obtain ⟨a, t, rfl, hhot, rfl⟩ | ⟨t, rfl, hwarm, rfl⟩ | ⟨q, rfl, hlow, rfl⟩ | ⟨v, us, rfl, hvolts, hlong, rfl⟩ := h
  · rw [readingCause_die_of_lt a hhot]
    decide
  · have hcause : readingCause (.inlet t) = 2 := if_pos hwarm
    rw [hcause]
    decide
  · have hcause : readingCause (.flow q) = 3 := if_pos hlow
    rw [hcause]
    decide
  · have hcause : readingCause (.supply v us) = 4 := if_pos ⟨hvolts, hlong⟩
    rw [hcause]
    decide

/-! ## Heat (R448) -/

section
variable {s : State} {die : BitVec 2} {temp : BitVec 16}

/-- A die's temperature within the emergency bound is noted; above 100 °C a die newly hot is an event, below 95 °C the die
is no longer hot. -/
theorem State.takeTemp_of_within (hr : readingCause (.die die temp) = 0) :
    s.takeTemp die temp =
      let t := s.setTemp die.toNat temp
      if 1600 < temp.toNat ∧ s.stew.hot.getLsbD die.toNat = false then
        { t with stew := { t.stew with hot := setBit s.stew.hot die.toNat true } }.devEvent 4
      else if temp.toNat < 1520 then { t with stew := { t.stew with hot := setBit s.stew.hot die.toNat false } }
      else t := by
  rw [State.takeTemp, State.measureStop_of_within hr]
  rfl

theorem State.takeTemp_of_newlyHot (hr : temp.toNat ≤ 1760) (hhot : 1600 < temp.toNat)
    (hwas : s.stew.hot.getLsbD die.toNat = false) :
    s.takeTemp die temp = { s with stew := { s.stew with
      temp := Table.set 0 s.stew.temp die.toNat temp, hot := setBit s.stew.hot die.toNat true } }.devEvent 4 := by
  rw [State.takeTemp_of_within (readingCause_die_of_le die hr)]
  exact if_pos ⟨hhot, hwas⟩

theorem State.takeTemp_of_stillHot (hr : temp.toNat ≤ 1760) (hhot : 1600 < temp.toNat)
    (hwas : s.stew.hot.getLsbD die.toNat = true) : s.takeTemp die temp = s.setTemp die.toNat temp := by
  have hnew : ¬(1600 < temp.toNat ∧ s.stew.hot.getLsbD die.toNat = false) := fun h =>
    Bool.false_ne_true (h.2.symm.trans hwas)
  have hcool : ¬temp.toNat < 1520 := by omega
  rw [State.takeTemp_of_within (readingCause_die_of_le die hr)]
  dsimp only
  rw [if_neg hnew, if_neg hcool]

theorem State.takeTemp_of_cool (hcool : temp.toNat < 1520) :
    s.takeTemp die temp = { s with stew := { s.stew with
      temp := Table.set 0 s.stew.temp die.toNat temp, hot := setBit s.stew.hot die.toNat false } } := by
  have hhot : ¬(1600 < temp.toNat ∧ s.stew.hot.getLsbD die.toNat = false) := by omega
  rw [State.takeTemp_of_within (readingCause_die_of_le die (by omega))]
  dsimp only
  rw [if_neg hhot, if_pos hcool]
  rfl

/-- A temperature within the emergency bound touches nothing but the steward, whose power stays, and what the device sends. -/
theorem State.takeTemp_frame_of_within (hr : readingCause (.die die temp) = 0) :
    { s.takeTemp die temp with stew := s.stew, out := s.out } = s ∧
      (s.takeTemp die temp).stew.powered = s.stew.powered := by
  rw [State.takeTemp_of_within hr]
  dsimp only
  split
  next => exact ⟨rfl, rfl⟩
  next =>
    split
    next => exact ⟨rfl, rfl⟩
    next => exact ⟨rfl, rfl⟩

end

/-- A measurement within its bounds touches nothing but the steward, whose power stays, and what the device sends. -/
theorem exec_emergencyStop_of_within {s : State} {r : Reading} (hr : readingCause r = 0) :
    ∃ t, exec (.emergencyStop r) s = .next t ∧ { t with stew := s.stew, out := s.out } = s ∧
      t.stew.powered = s.stew.powered := by
  change ∃ t, execEmergencyStop r s = .next t ∧ _
  cases r with
  | die die temp => exact ⟨s.takeTemp die temp, rfl, State.takeTemp_frame_of_within hr⟩
  | inlet _ | flow _ | supply _ _ =>
    exact ⟨s, congrArg (fun o : Option State => Host.Outcome.next (o.getD s)) (State.measureStop_of_within hr), rfl, rfl⟩

theorem Steward.step_of_hot {w : Steward} {die : Nat} (h : w.hot.getLsbD die = true) : w.step die = 3 :=
  if_pos (by rw [h, Bool.true_or])

theorem Steward.step_of_restarting {w : Steward} (h : w.restarting = true) (die : Nat) : w.step die = 3 :=
  if_pos (by rw [h, Bool.or_true])

theorem Steward.step_of_not_hot {w : Steward} {die : Nat} (h : w.hot.getLsbD die = false) :
    w.step die = if w.restarting then 3 else Table.get 0 w.clkStep die := by
  rw [Steward.step, h, Bool.false_or]

/-! ## Power-off and the watchdog (R449, R450) -/

theorem exec_powerOff_of_powered {s : State} (hon : s.stew.powered = true) :
    exec .powerOff s = .next (s.unpowered 0 false) := by
  change execPowerOff s = _
  rw [execPowerOff, if_pos hon]

theorem exec_stewardWatchdogExpiry_of_powered {s : State} (hon : s.stew.powered = true) :
    exec .stewardWatchdogExpiry s = .next s.stewardRestart := by
  change execStewardWatchdogExpiry s = _
  rw [execStewardWatchdogExpiry, if_pos hon]

theorem State.devEvent_devevt (s : State) {bit : Nat} (h : bit < 64) :
    (s.devEvent bit).stew.devevt.getLsbD bit = true := by
  change (setBit s.stew.devevt bit true).getLsbD bit = true
  rw [getLsbD_setBit _ _ _ _ h, if_pos rfl]

/-- Settles O50: each event's next state is given above, and the clauses read their registers off it. -/
theorem stewardActs : Obligations.StewardActs := by
  intro s die cl mw temp
  refine ⟨fun hmarked hidle => ⟨_, exec_clusterGateEntry_of_idle hmarked hidle, ?gated⟩,
    fun hup => ⟨_, exec_powerCapTick_of_up mw hup, ?capped⟩, ?overheated, ?throttled,
    fun hcool => ⟨s.takeTemp die temp, rfl, ?released⟩, ?stopped, rfl, ?within,
    fun hon => ⟨_, exec_powerOff_of_powered hon, s.unpowered_powerRemoved 0, rfl⟩,
    fun hon => ⟨_, exec_stewardWatchdogExpiry_of_powered hon, State.devEvent_devevt _ (by decide),
      Steward.step_of_restarting rfl, rfl, rfl, fun _ => rfl⟩⟩
  case gated =>
    intro b hb
    rw [Table.get_set_same, getLsbD_setBit _ _ _ _ hb]
    by_cases hbit : b = cl.toNat
    · rw [if_pos hbit, decide_eq_true hbit, Bool.or_true]
    · rw [if_neg hbit, decide_eq_false hbit, Bool.or_false]
  case capped =>
    split
    next => exact ⟨rfl, rfl, fun _ he => s.stew.get_cappedSteps mw he⟩
    next => exact ⟨rfl, rfl, fun _ he => s.stew.get_cappedSteps mw he⟩
  case overheated =>
    intro hon hhot i hi
    have hcause := readingCause_die_of_lt die hhot
    have htake : s.takeTemp die temp = s.emergencyStopped 1 := by
      rw [State.takeTemp_of_outside hon (hcause ▸ Nat.one_ne_zero), hcause]
      rfl
    have hexec : exec i s = .next (s.takeTemp die temp) := by
      obtain rfl | rfl := hi <;> rfl
    exact ⟨_, htake ▸ hexec, s.emergencyStopped_powerRemoved 1, s.emergencyStopped_out 1⟩
  case throttled =>
    intro hhot hle
    refine ⟨s.takeTemp die temp, rfl, ?_⟩
    cases hwas : s.stew.hot.getLsbD die.toNat with
    | false =>
      rw [State.takeTemp_of_newlyHot hle hhot hwas]
      have hset : (setBit s.stew.hot die.toNat true).getLsbD die.toNat = true := by
        rw [getLsbD_setBit _ _ _ _ die.isLt, if_pos rfl]
      exact ⟨hset, Steward.step_of_hot hset, Table.get_set_same .., fun _ => State.devEvent_devevt _ (by decide)⟩
    | true =>
      rw [State.takeTemp_of_stillHot hle hhot hwas]
      exact ⟨hwas, Steward.step_of_hot hwas, Table.get_set_same .., nofun⟩
  case released =>
    have hset : (setBit s.stew.hot die.toNat false).getLsbD die.toNat = false := by
      rw [getLsbD_setBit _ _ _ _ die.isLt, if_pos rfl]
    rw [State.takeTemp_of_cool hcool]
    exact ⟨hset, Steward.step_of_not_hot hset, Table.get_set_same ..⟩
  case stopped =>
    intro rd cause hon hrd
    obtain ⟨hcause, hne⟩ := readingCause_of_outside hrd
    have hexec := exec_emergencyStop_of_outside hon hne
    rw [hcause, BitVec.ofNat_toNat, BitVec.setWidth_eq] at hexec
    exact ⟨_, hexec, s.emergencyStopped_powerRemoved cause, s.emergencyStopped_out cause⟩
  case within =>
    intro rd hr
    obtain ⟨t, hexec, honly, hpowered⟩ := exec_emergencyStop_of_within (s := s) hr
    exact ⟨t, hexec, hpowered, (congrArg State.cores honly :), (congrArg State.ctxs honly :),
      fun a => (congrArg (State.byte · a) honly :)⟩

end Machine
end Sys2Proof
end

section
/-!
PROOFS. The model never stops (log 69): every row of the opcode table answers a next state, and so do a slot, a dispatch
unit, a move of an agent, and a step.
-/
namespace Sys2Proof.Machine

/-- The outcome is a next state, so neither a fault nor a refusal of the model. -/
def Answers {σ : Type} (o : Host.Outcome σ Fault Refusal) : Prop := ∃ t, o = .next t

theorem Answers.next {σ : Type} (t : σ) : Answers (.next t) := ⟨t, rfl⟩

theorem Answers.ne_fault {σ : Type} {o : Host.Outcome σ Fault Refusal} (h : Answers o) (f : Fault) : o ≠ .fault f := by
  obtain ⟨t, rfl⟩ := h
  nofun

theorem Answers.ne_refused {σ : Type} {o : Host.Outcome σ Fault Refusal} (h : Answers o) (r : Refusal) :
    o ≠ .refused r := by
  obtain ⟨t, rfl⟩ := h
  nofun

/-! ## The shared ways of dispatch (R157, R167, R168, R271) -/

theorem dispatch_answers (i : Instr) (e : Ex) (eng : Nat) (check : Core → List Word → Option FaultInfo) (run : Runner)
    (s : State) : Answers (dispatch i e eng check run s) := by
  fun_cases dispatch <;> exact .next _

theorem dispatchFmt_answers (i : Instr) (e : Ex) (check : Core → Word → List Word → Option FaultInfo) (run : Runner)
    (s : State) : Answers (dispatchFmt i e check run s) := by
  fun_cases dispatchFmt <;> exact .next _

theorem dispatchSync_answers (i : Instr) (g : BitVec 4) (eng : Nat) (sr : BitVec 6)
    (act : Nat → State → QEntry → Option (Except FaultInfo State)) (s : State) :
    Answers (dispatchSync i g eng sr act s) := by
  fun_cases dispatchSync <;> exact .next _

/-- VSHAPE sets SHAPE from a legal word or from a tensor's bounds, and dispatches in both cases (R297). -/
theorem execVshape_answers (e : Ex) (s : State) : Answers (execVshape e s) := by
  fun_cases execVshape
  case case4 | case8 => exact dispatch_answers ..
  all_goals exact .next _

/-! ## The rows of the table -/

/-- Every row answers. An engine command and a sync form answer as their way of dispatch does; of the other rows, those
listed answer in each branch of their meaning, and the rest are one next state by definition. -/
theorem exec_answers (i : Instr) (s : State) : Answers (exec i s) := by
  cases i <;> simp only [exec]
  case tld | tst | tldx | tstx | tldb | gath | scat | scopy | sfill | pref | celladd | cellclr | cellrd | cellxc | brun
    | lput | lget | lsig | lcell | coll | lwaitc | lbar | lnotify | wswap | waclr | wmva | vld | vst | vbcast | vmov
    | vsel | vcvt | vred | vscan | vtrans | vshift | vrowg | vpack | vunpk | vmxq | vmxd | vmask | vadd | vsub | vmul
    | vfma | vfms | vfnma | vdiv | vsqrt | vmin | vmax | vabs | vneg | vcmp | vround | vexp | vexp2 | vlog | vlog2
    | vrcp | vrsq | vtanh | vsigm | vsin | vcos | verf | viadd | visub | vimul | vmulhi | vimin | vimax | viabs | vand
    | vor | vxor | vshl | vshr | vsar | vicmp | vclz | vpopc | vsat | vclass | vcopysgn | vldexp | vgetexp =>
    exact dispatch_answers ..
  case wld | wlds | wmm | wmmt | wmms | wmmst | wopa | wopas | wdrain | wprom | wacc | wread =>
    exact dispatchFmt_answers ..
  case aslw | asls | atlw | lslw | lsls | ltlw | wslw | wsls | wtlw | vslw | vsls | vtlw => exact dispatchSync_answers ..
  case vshape => exact execVshape_answers ..
  case lfence => fun_cases execLfence <;> exact .next _
  case lineFetch => fun_cases execLineFetch <;> exact .next _
  case engineSlotDispatch => fun_cases execEngineSlotDispatch <;> exact .next _
  case homeAcknowledgement => fun_cases execHomeAcknowledgement <;> exact .next _
  case userInterruptEntry => fun_cases execUserInterruptEntry <;> exact .next _
  case registerWrite => fun_cases execRegisterWrite <;> exact .next _
  case runStart => fun_cases execRunStart <;> exact .next _
  case taskStart => fun_cases execTaskStart <;> exact .next _
  case gangPlace => fun_cases execGangPlace <;> exact .next _
  case gangReserve => fun_cases execGangReserve <;> exact .next _
  case taskEnterDraining => fun_cases execTaskEnterDraining <;> exact .next _
  case taskRetire => fun_cases execTaskRetire <;> exact .next _
  case taskStop => fun_cases execTaskStop <;> exact .next _
  case digestCompute => fun_cases execDigestCompute <;> exact .next _
  case sliceExpiry => fun_cases execSliceExpiry <;> exact .next _
  case preemptSave => fun_cases execPreemptSave <;> exact .next _
  case taskResume => fun_cases execTaskResume <;> exact .next _
  case tlbInvalidationComplete => fun_cases execTlbInvalidationComplete <;> exact .next _
  case migrationBackgroundCopy => fun_cases execMigrationBackgroundCopy <;> exact .next _
  case retirementFill => fun_cases execRetirementFill <;> exact .next _
  case extentAdd => fun_cases execExtentAdd <;> exact .next _
  case extentReleaseComplete => fun_cases execExtentReleaseComplete <;> exact .next _
  case extentReleaseTimeout => fun_cases execExtentReleaseTimeout <;> exact .next _
  case graphUploadComplete => fun_cases execGraphUploadComplete <;> exact .next _
  case attestationReport => fun_cases execAttestationReport <;> exact .next _
  case clusterGateEntry => fun_cases execClusterGateEntry <;> exact .next _
  case powerCapTick => fun_cases execPowerCapTick <;> exact .next _
  case torusDiscovery => fun_cases execTorusDiscovery <;> exact .next _
  case portTrainTimeout => fun_cases execPortTrainTimeout <;> exact .next _
  case managementPortAccess => fun_cases execManagementPortAccess <;> exact .next _
  case gangRelaunch => fun_cases execGangRelaunch <;> exact .next _
  case faultRecordWrite => fun_cases execFaultRecordWrite <;> exact .next _
  case stoppedTaskResume => fun_cases execStoppedTaskResume <;> exact .next _
  case stoppedTaskDiscard => fun_cases execStoppedTaskDiscard <;> exact .next _
  case nyerrRead => fun_cases execNyerrRead <;> exact .next _
  case heldTermApply => fun_cases execHeldTermApply <;> exact .next _
  case managementPacket => fun_cases execManagementPacket <;> exact .next _
  case reservedKindPacket => fun_cases execReservedKindPacket <;> exact .next _
  case laneStop => fun_cases execLaneStop <;> exact .next _
  case linkRetry => fun_cases execLinkRetry <;> exact .next _
  case ackTimeout => fun_cases execAckTimeout <;> exact .next _
  case bermRun => fun_cases execBermRun <;> exact .next _
  case bermRunFinish => fun_cases execBermRunFinish <;> exact .next _
  all_goals exact .next _

/-! ## Dispatch units (R155 to R160, R192) -/

/-- A slot stops its unit only if its instruction stops the model, which none does. -/
theorem UnitRun.slot_answers (r : UnitRun) (x : Slot) (early : Bool) : Answers (r.slot x early) := by
  fun_cases UnitRun.slot
  case case2 h => exact absurd h ((exec_answers ..).ne_fault _)
  case case3 h => exact absurd h ((exec_answers ..).ne_refused _)
  all_goals exact .next _

theorem UnitRun.slots_answers (go : UnitRun → Slot → Option Bool) (r : UnitRun) (xs : List Slot) :
    Answers (UnitRun.slots go r xs) := by
  fun_induction UnitRun.slots with
  | case1 | case2 => exact .next _
  | case3 _ _ _ _ _ ih | case4 _ _ _ _ _ _ _ _ ih => exact ih
  | case5 _ _ _ _ _ _ _ h => exact absurd h ((UnitRun.slot_answers ..).ne_fault _)
  | case6 _ _ _ _ _ _ _ h => exact absurd h ((UnitRun.slot_answers ..).ne_refused _)

theorem UnitRun.waits_answers (n : Nat) (r : UnitRun) (xs : List Slot) : Answers (UnitRun.waits n r xs) := by
  fun_induction UnitRun.waits with
  | case1 => exact .next _
  | case2 _ _ _ _ _ _ ih => exact ih
  | case3 => exact .next _
  | case4 => exact UnitRun.slots_answers ..

theorem UnitRun.complete_answers (r : UnitRun) (xs : List Slot) : Answers (r.complete xs) := by
  fun_induction UnitRun.complete with
  | case1 => exact .next _
  | case2 _ _ _ _ ih | case3 _ _ _ _ _ _ ih => exact ih
  | case4 _ _ _ _ _ h => exact absurd h ((UnitRun.slot_answers ..).ne_fault _)
  | case5 _ _ _ _ _ h => exact absurd h ((UnitRun.slot_answers ..).ne_refused _)

theorem UnitRun.dispatch_answers (s : State) (unit : List Slot) : Answers (UnitRun.dispatch s unit) := by
  fun_cases UnitRun.dispatch
  next h => exact absurd h ((UnitRun.waits_answers ..).ne_fault _)
  next h => exact absurd h ((UnitRun.waits_answers ..).ne_refused _)
  next => exact UnitRun.slots_answers ..

/-- A unit whose dispatch a full queue has stopped is not completed yet (R157). -/
theorem UnitRun.finish_answers (r : UnitRun) (xs : List Slot) :
    Answers (if r.full then .next r else r.complete xs) := by
  split
  · exact .next r
  · exact r.complete_answers xs

/-- The check of the whole unit: as dispatched, or on the state with room when a full queue has split it (R157, R380). -/
theorem UnitRun.whole_answers (r : UnitRun) (s : State) (unit controls : List Slot) :
    Answers (if r.full then
        match UnitRun.dispatch s unit with
        | .next u => if u.full then .next u else u.complete controls
        | o => o
      else if r.full then .next r else r.complete controls) := by
  obtain ⟨u, hu⟩ := UnitRun.dispatch_answers s unit
  rw [hu]
  split
  · exact u.finish_answers controls
  · exact r.complete_answers controls

theorem runUnit_answers (s : State) (hdr : BitVec 32) (unit : List Slot) : Answers (runUnit s hdr unit) := by
  fun_cases runUnit
  case case1 h => exact absurd h ((UnitRun.dispatch_answers ..).ne_fault _)
  case case2 h => exact absurd h ((UnitRun.dispatch_answers ..).ne_refused _)
  case case3 h => exact absurd h ((UnitRun.whole_answers ..).ne_fault _)
  case case4 h => exact absurd h ((UnitRun.whole_answers ..).ne_refused _)
  all_goals exact .next _

theorem stepControl_answers (s : State) : Answers (stepControl s) := by
  fun_cases stepControl
  case case1 | case2 | case3 => exact exec_answers ..
  case case7 => exact runUnit_answers ..
  all_goals exact .next _

/-! ## The moves of the agents (R67) -/

/-- Every move of a list answers in every state. -/
def AllAnswer (ms : List Move) : Prop := ∀ m ∈ ms, ∀ s, Answers (m s)

namespace AllAnswer

theorem nil : AllAnswer [] := nofun

theorem one {m : Move} (h : ∀ s, Answers (m s)) : AllAnswer [m] := List.forall_mem_singleton.2 h

theorem append {ms ns : List Move} (hm : AllAnswer ms) (hn : AllAnswer ns) : AllAnswer (ms ++ ns) :=
  List.forall_mem_append.2 ⟨hm, hn⟩

theorem cons {m : Move} {ms : List Move} (h : ∀ s, Answers (m s)) (hms : AllAnswer ms) : AllAnswer (m :: ms) :=
  (one h).append hms

theorem ite {c : Prop} [Decidable c] {ms ns : List Move} (hm : AllAnswer ms) (hn : AllAnswer ns) :
    AllAnswer (if c then ms else ns) := by
  split
  · exact hm
  · exact hn

theorem orNil {c : Prop} [Decidable c] {ms : List Move} (hm : AllAnswer ms) :
    AllAnswer (if c then ms else []) := hm.ite nil

theorem nilOr {c : Prop} [Decidable c] {ms : List Move} (hm : AllAnswer ms) :
    AllAnswer (if c then [] else ms) := nil.ite hm

theorem map {α : Type} {f : α → Move} {xs : List α} (h : ∀ x s, Answers (f x s)) : AllAnswer (xs.map f) :=
  List.forall_mem_map.2 fun x _ => h x

theorem flatMap {α : Type} {f : α → List Move} {xs : List α} (h : ∀ x, AllAnswer (f x)) :
    AllAnswer (xs.flatMap f) := by
  intro m hm
  obtain ⟨x, -, hx⟩ := List.mem_flatMap.1 hm
  exact h x m hx

theorem drop {ms : List Move} (h : AllAnswer ms) (n : Nat) : AllAnswer (ms.drop n) :=
  fun m hm => h m (List.mem_of_mem_drop hm)

theorem take {ms : List Move} (h : AllAnswer ms) (n : Nat) : AllAnswer (ms.take n) :=
  fun m hm => h m (List.mem_of_mem_take hm)

end AllAnswer

/-- The first move that changes the state answers, as every move of the list does. -/
theorem firstMove_answers {s : State} {ms : List Move} (h : AllAnswer ms) : Answers (firstMove s ms) := by
  fun_induction firstMove with
  | case1 => exact .next s
  | case2 m ms _ ih => exact ih fun n hn => h n (List.mem_cons_of_mem m hn)
  | case3 => exact .next _
  | case4 m => exact h m List.mem_cons_self s

theorem coreMoves_answer (k : BitVec 8) (c : Core) : AllAnswer (coreMoves k c) := by
  unfold coreMoves
  extract_lets eng old
  have heng (e : Nat) : AllAnswer (eng e) :=
    .append (.orNil (.one (exec_answers (.homeAcknowledgement k _ false))))
      (.orNil (.one (exec_answers (.commandComplete k _))))
  refine .nilOr (.append (.append (.append (.append (.append (.append (.append (.flatMap heng) ?posted) ?old) ?stops)
    ?exits) ?retires) ?deadline) ?slice)
  case posted => exact .orNil (.one (exec_answers (.homeAcknowledgement k 4 false)))
  case old => exact .map fun _ => exec_answers (.homeAcknowledgement k _ true)
  case stops => exact .ite (.one (exec_answers (.taskStop k))) (.orNil (.one (exec_answers (.preemptSave k))))
  case exits =>
    exact .orNil (.cons (exec_answers (.userInterruptEntry k)) (.one (exec_answers (.taskEnterDraining k))))
  case retires => exact .orNil (.one (exec_answers (.taskRetire k)))
  case deadline => exact .orNil (.one (exec_answers (.preemptDeadline k)))
  case slice => exact .orNil (.one (exec_answers (.sliceExpiry k)))

theorem nodeMoves_answer (x : BitVec 6) (q : BitVec 4) (n : Nat) (e : RunNode) : AllAnswer (nodeMoves x q n e) := by
  fun_cases nodeMoves
  case case1 | case9 => exact .nil
  case case2 => exact .one (exec_answers (.kernelRelease x q n))
  case case3 => exact .one (exec_answers (.collectiveNode x q n))
  case case4 => exact .one (exec_answers (.timelineWaitNode x q n))
  case case5 => exact .one (exec_answers (.timelineSignalNode x q n))
  case case6 => exact .one (exec_answers (.setLevelNode x q n))
  case case7 => exact .one (exec_answers (.hostNotifyNode x q n))
  case case8 => exact .one (exec_answers (.subgraphCallNode x q n))

theorem queueMoves_answer (x : BitVec 6) (q : BitVec 4) (u : Queue) : AllAnswer (queueMoves x q u) :=
  .append (.append (.flatMap fun e => nodeMoves_answer x q e.2 e.1) (.nilOr (.one (exec_answers (.hashChain x q)))))
    (.nilOr (.one (exec_answers (.runStart x q))))

theorem ctxMoves_answer (x : BitVec 6) (c : Ctx) : AllAnswer (ctxMoves x c) := by
  refine .append (.append (.append (.append (.flatMap fun _ => queueMoves_answer x _ _) ?tlb) ?uploads) ?records) ?saved
  case tlb => exact .nilOr (.one (exec_answers (.tlbInvalidationComplete x)))
  case uploads => exact .nilOr (.one (exec_answers (.graphUploadComplete x)))
  case records => exact .nilOr (.one (exec_answers (.faultRecordWrite x)))
  case saved => exact .nilOr (.cons (exec_answers (.stoppedTaskResume x)) (.one (exec_answers (.stoppedTaskDiscard x))))

theorem dieMoves_answer (s : State) (d : Nat) : AllAnswer (dieMoves s d) := by
  unfold dieMoves
  extract_lets k first
  refine .append ?first (.one (exec_answers (.gangReserve k)))
  dsimp only [first]
  split
  next => exact .one (exec_answers (.taskStart _))
  next => exact .cons (exec_answers (.gangRelaunch ..)) (.one (exec_answers (.gangPlace k)))
  next => exact .one (exec_answers (.taskResume _))
  next => exact .one (exec_answers (.gangPlace k))

theorem gateMoves_answer (s : State) (d : Nat) : AllAnswer (gateMoves s d) :=
  .map fun _ => exec_answers (.clusterGateEntry ..)

theorem deviceMoves_answer (s : State) : AllAnswer (deviceMoves s) := by
  unfold deviceMoves
  extract_lets busy
  refine .append (.append (.append (.append (.append (.append (.append (.append (.append (.append (.append
    (.flatMap fun _ => ctxMoves_answer _ _) ?digests) ?dies) ?berms) ?terms) ?requests) ?migrations) ?retirement)
    ?extents) ?attestation) ?discovery) (.flatMap fun d => gateMoves_answer s d)
  case digests => exact .map fun _ => exec_answers (.digestCompute ..)
  case dies => exact .orNil (.flatMap (dieMoves_answer s))
  case berms =>
    exact .flatMap fun _ => .cons (exec_answers (.bermRun _)) (.one (exec_answers (.bermRunFinish _)))
  case terms => exact .map fun _ => exec_answers (.heldTermApply ..)
  case requests => exact .map fun _ => exec_answers (.ackTimeout _)
  case migrations => exact .map fun _ => exec_answers (.migrationBackgroundCopy ..)
  case retirement => exact .orNil (.one (exec_answers .retirementFill))
  case extents => exact .map fun _ => exec_answers (.extentReleaseComplete ..)
  case attestation => exact .nilOr (.one (exec_answers .attestationReport))
  case discovery => exact .orNil (.one (exec_answers .torusDiscovery))

/-! ## The step (log 1) -/

theorem idle_answers (s : State) : Answers (idle s) := by
  have hall : AllAnswer (s.cores.flatMap (fun e => coreMoves (BitVec.ofNat 8 e.1) e.2) ++ deviceMoves s) :=
    .append (.flatMap fun _ => coreMoves_answer _ _) (deviceMoves_answer s)
  have hturn (n : Nat) := (hall.drop n).append (hall.take n)
  exact firstMove_answers (.ite (hturn _) (.append (coreMoves_answer s.focus s.here) (hturn _)))

theorem stepBody_answers (s : State) : Answers (stepBody s) := by
  fun_cases stepBody
  case case1 => exact exec_answers ..
  case case2 | case5 => exact idle_answers _
  case case3 => exact .next _
  case case4 => exact stepControl_answers s

theorem step_answers (s : State) : Answers (step s) := by
  obtain ⟨t, ht⟩ := stepBody_answers s
  exact ⟨t.endStep, by rw [step, ht]⟩

/-- Settles O59: `exec` answers by a case per row of the table, and a step by the unit or the moves that it runs. -/
theorem everyStepHasItsNextState : Obligations.EveryStepHasItsNextState :=
  ⟨exec_answers, step_answers⟩

end Sys2Proof.Machine
end
